-- ==== Sys2Proof/Word.lean ====
section
/-! DEFINITION. The word types of the block: the widths 00_scope.md rule R7 and rule R9 fix. -/

namespace Sys2Proof

/-- A host register value or a host byte address: 32 bits (rule R7). -/
abbrev Word := BitVec 32

/-- A byte of the input stream, of the entropy buffer or of host memory. -/
abbrev Byte := BitVec 8

/-- A 16-bit field of the stream: a frame dimension, a quantization value, a restart interval. -/
abbrev Half := BitVec 16

/-- A coefficient, DC predictor or sample: 32-bit two's complement, read with `BitVec.toInt` (rule R7,
92_eei_decisions.md D30). -/
abbrev S32 := BitVec 32

/-- The 64 values of one 8×8 block at natural index `8*r + c` (rule R11). -/
abbrev Block := Vector S32 64

/-- The block whose 64 values are 0. -/
abbrev zeroBlock : Block := Vector.replicate 64 0

end Sys2Proof
end

