-- ==== Sys2Proof/Syntax.lean ====
section
/-! DEFINITION. The instruction syntax: what plays the part of instructions on this block (30_encoding.md): the
markers of the header, the byte forms of the entropy-coded segment, the entropy symbols and the host's
register accesses. One constructor per mnemonic of spec/opcode_table.json. -/

namespace Sys2Proof

/-- The four buffer registers of 40_host_interface.md rule R132. -/
inductive ConfigReg where
  | inBase | inLen | outBase | outCap
  deriving DecidableEq, Repr

/-- The two registers of the Huffman-table read port (40_host_interface.md rule R139). -/
inductive TablePort where
  | code | sym
  deriving DecidableEq, Repr

/-- One access of the host to the register window as the bus presents it: an offset from `P_CSR_BASE`, a
width in bytes and, for a write, a value. -/
structure RegAccess where
  write : Bool
  off   : Nat
  width : Nat
  value : Word
  deriving DecidableEq, Repr

/-- The instructions. A register offset is held as its word number (offset bits 7:2). -/
inductive Instr where
  -- markers of the header part (30_encoding.md rule R92)
  | nulMarker
  | tem
  | res (code : Byte)
  | sof0
  | sof1
  | sof2
  | sof3
  | sof5
  | sof6
  | sof7
  | jpg
  | sof9
  | sof10
  | sof11
  | sof13
  | sof14
  | sof15
  | dht
  | dac
  | rstnHeader (n : BitVec 3)
  | soi
  | soiEmbedded
  | eoiHeader
  | sos
  | dqt
  | dnl
  | dri
  | dhp
  | exp
  | appn (n : BitVec 4)
  | jpgn (n : BitVec 4)
  | com
  | fill
  | notMarker (b : Byte)
  -- byte forms of the entropy-coded segment (rule R100)
  | ecsData (b : Byte)
  | ecsStuffedFf
  | ecsRstn (n : BitVec 3)
  | ecsEoi
  | ecsFill
  | ecsBadMarker (c : Byte)
  -- entropy symbols (rules R102 and R104)
  | dcCat0
  | dcCat (s : Byte)
  | dcBad (s : Byte)
  | acEob
  | acZrl
  | acRun (r : BitVec 4)
  | acCoef (r s : BitVec 4)
  | acBad (r s : BitVec 4)
  | acRunOverflow (rs : Byte)
  -- host register accesses (rule R110)
  | read (word : BitVec 6)
  | writeCtrl (v : Word)
  | start (v : Word)
  | abort (v : Word)
  | setIrqEn (v : Word)
  | writeConfig (r : ConfigReg) (v : Word)
  | clearStatus (v : Word)
  | selectTableEntry (v : Word)
  | writeReadOnly (word : BitVec 6) (v : Word)
  | readTableEntry (port : TablePort)
  deriving DecidableEq, Repr

/-- Where a word is read: the same bytes name different instructions at the start of the stream, in its
header, in the entropy-coded segment, as a DC or an AC symbol (with the zigzag position `k` reached)
and on the register bus (where a CTRL write acts by STATUS.BUSY). -/
inductive Ctx where
  | start
  | header
  | ecs
  | dc
  | ac (k : Nat)
  | host (busy : Bool)
  deriving DecidableEq, Repr

/-- The words an instruction is written in: bytes (of the stream, or one symbol byte) or a register access. -/
inductive Code where
  | bytes (bs : List Byte)
  | access (a : RegAccess)
  deriving DecidableEq, Repr

end Sys2Proof
end

