-- ==== Sys2Proof/WellFormed.lean ====
section
/-! DEFINITION. Which instruction terms the encodings of 30_encoding.md admit. -/

namespace Sys2Proof

/-- Every operand lies in the range its row of spec/opcode_table.json gives (30_encoding.md rules R92,
R100, R102, R104 and R110). -/
def wellFormed : Instr → Bool
  | .res c => 0x02 ≤ c.toNat && c.toNat ≤ 0xBF
  | .jpgn n => n.toNat ≤ 13
  | .notMarker b => b != 0xFF
  | .ecsData b => b != 0xFF
  | .ecsBadMarker c =>
    c != 0x00 && c != 0xD9 && c != 0xFF && !(0xD0 ≤ c.toNat && c.toNat ≤ 0xD7)
  | .dcCat s => 1 ≤ s.toNat && s.toNat ≤ 11
  | .dcBad s => 12 ≤ s.toNat
  | .acRun r => 1 ≤ r.toNat && r.toNat ≤ 14
  | .acCoef _ s => 1 ≤ s.toNat && s.toNat ≤ 10
  | .acBad _ s => 11 ≤ s.toNat
  | .acRunOverflow rs => rs != 0x00
  | .read w => w != 14 && w != 15
  | .writeCtrl v => v.getLsbD 0 != v.getLsbD 1
  | .start v => v.getLsbD 0
  | .abort v => v.getLsbD 1
  | .setIrqEn v => !v.getLsbD 0 && !v.getLsbD 1
  | .writeReadOnly w _ =>
    w == 0 || w == 3 || (8 ≤ w.toNat && w.toNat ≤ 12) || 14 ≤ w.toNat
  | .nulMarker | .tem | .sof0 | .sof1 | .sof2 | .sof3 | .sof5 | .sof6 | .sof7 | .jpg | .sof9 | .sof10
  | .sof11 | .sof13 | .sof14 | .sof15 | .dht | .dac | .rstnHeader _ | .soi | .soiEmbedded | .eoiHeader
  | .sos | .dqt | .dnl | .dri | .dhp | .exp | .appn _ | .com | .fill => true
  | .ecsStuffedFf | .ecsRstn _ | .ecsEoi | .ecsFill => true
  | .dcCat0 | .acEob | .acZrl => true
  | .writeConfig _ _ | .clearStatus _ | .selectTableEntry _ | .readTableEntry _ => true

end Sys2Proof
end

