-- ==== Sys2Proof/Decode.lean ====
section
/-! DEFINITION. The decoder (total on any words, rejecting by name), the encoder of single instructions, and the
encoders of whole segments and entropy-coded segments, all from 30_encoding.md. -/

namespace Sys2Proof

/-- Why words are not an instruction. -/
inductive Reject where
  /-- The stream ends inside the word (41_segment_parser.md rule R150 makes this S_TRUNCATED). -/
  | truncated
  /-- The first two bytes of the stream are not `FF D8` (rule R151 makes this S_NO_SOI). -/
  | noSoi
  /-- The offset lies outside the 256-byte register window (10_state.md rule R30). -/
  | outsideWindow
  /-- A register access that is not 32 bits wide (20_memory.md rule R76). -/
  | badWidth
  /-- A register access at an offset that is no multiple of 4 (rule R76). -/
  | unaligned
  /-- Bytes on the register bus, or a register access in the stream. -/
  | wrongUnit
  deriving DecidableEq, Repr

/-- What the decoder answers: an instruction and how many bytes of the stream it takes, or why not. -/
inductive Decoded where
  | ok (i : Instr) (len : Nat)
  | reject (why : Reject)
  deriving DecidableEq, Repr

/-- The upper nibble of a byte, `b[7:4]` (30_encoding.md rule R107). -/
def hiNibble (b : Byte) : BitVec 4 := b.extractLsb' 4 4

/-- The lower nibble of a byte, `b[3:0]` (rule R107). -/
def loNibble (b : Byte) : BitVec 4 := b.extractLsb' 0 4

/-- The marker code map in header context (30_encoding.md rule R92), for a code byte other than 0xFF. -/
def decodeMarkerCode (c : Byte) : Instr :=
  if c.toNat = 0x00 then .nulMarker
  else if c.toNat = 0x01 then .tem
  else if c.toNat ≤ 0xBF then .res c
  else if c.toNat = 0xC0 then .sof0
  else if c.toNat = 0xC1 then .sof1
  else if c.toNat = 0xC2 then .sof2
  else if c.toNat = 0xC3 then .sof3
  else if c.toNat = 0xC4 then .dht
  else if c.toNat = 0xC5 then .sof5
  else if c.toNat = 0xC6 then .sof6
  else if c.toNat = 0xC7 then .sof7
  else if c.toNat = 0xC8 then .jpg
  else if c.toNat = 0xC9 then .sof9
  else if c.toNat = 0xCA then .sof10
  else if c.toNat = 0xCB then .sof11
  else if c.toNat = 0xCC then .dac
  else if c.toNat = 0xCD then .sof13
  else if c.toNat = 0xCE then .sof14
  else if c.toNat = 0xCF then .sof15
  else if c.toNat ≤ 0xD7 then .rstnHeader (c.extractLsb' 0 3)
  else if c.toNat = 0xD8 then .soiEmbedded
  else if c.toNat = 0xD9 then .eoiHeader
  else if c.toNat = 0xDA then .sos
  else if c.toNat = 0xDB then .dqt
  else if c.toNat = 0xDC then .dnl
  else if c.toNat = 0xDD then .dri
  else if c.toNat = 0xDE then .dhp
  else if c.toNat = 0xDF then .exp
  else if c.toNat ≤ 0xEF then .appn (loNibble c)
  else if c.toNat ≤ 0xFD then .jpgn (loNibble c)
  else if c.toNat = 0xFE then .com
  else .fill

/-- The start-of-image check's words (30_encoding.md rule R90). -/
def decodeStart : List Byte → Decoded
  | b0 :: b1 :: _ => if b0 = 0xFF ∧ b1 = 0xD8 then .ok .soi 2 else .reject .noSoi
  | _ => .reject .truncated

/-- One marker of the header part, or one fill byte before it (30_encoding.md rules R91 and R92; the 0xFF that a
further 0xFF follows is the fill byte, rule R14, and takes one byte: log entry 14). -/
def decodeHeader : List Byte → Decoded
  | [] => .reject .truncated
  | b :: rest =>
    if b = 0xFF then
      match rest with
      | [] => .reject .truncated
      | c :: _ => if c = 0xFF then .ok .fill 1 else .ok (decodeMarkerCode c) 2
    else .ok (.notMarker b) 1

/-- The code byte after 0xFF in the entropy-coded segment (30_encoding.md rule R100). -/
def decodeEcsCode (c : Byte) : Instr :=
  if c = 0x00 then .ecsStuffedFf
  else if 0xD0 ≤ c.toNat ∧ c.toNat ≤ 0xD7 then .ecsRstn (c.extractLsb' 0 3)
  else if c = 0xD9 then .ecsEoi
  else .ecsBadMarker c

/-- One byte form of the entropy-coded segment (30_encoding.md rule R100). -/
def decodeEcs : List Byte → Decoded
  | [] => .reject .truncated
  | b :: rest =>
    if b = 0xFF then
      match rest with
      | [] => .reject .truncated
      | c :: _ => if c = 0xFF then .ok .ecsFill 1 else .ok (decodeEcsCode c) 2
    else .ok (.ecsData b) 1

/-- The class of a DC symbol byte (30_encoding.md rule R102). -/
def decodeDc (s : Byte) : Instr :=
  if s = 0 then .dcCat0 else if s.toNat ≤ 11 then .dcCat s else .dcBad s

/-- The run of an AC symbol byte: 16 for ZRL, else the upper nibble (30_encoding.md rule R104). -/
def runOf (rs : Byte) : Nat := if rs = 0xF0 then 16 else (hiNibble rs).toNat

/-- The class of an AC symbol byte at zigzag position `k` (30_encoding.md rule R104; the overflow row is a
condition on `k`, 43_entropy_decoder.md rule R222). -/
def decodeAc (k : Nat) (rs : Byte) : Instr :=
  if rs = 0x00 then .acEob
  else if 63 < k + runOf rs then .acRunOverflow rs
  else if rs = 0xF0 then .acZrl
  else if loNibble rs = 0 then .acRun (hiNibble rs)
  else if (loNibble rs).toNat ≤ 10 then .acCoef (hiNibble rs) (loNibble rs)
  else .acBad (hiNibble rs) (loNibble rs)

/-- A write of `v` to CTRL (30_encoding.md rule R110): START and ABORT where the block takes them, a write with
neither bit sets IRQ_EN alone, and what is left is a write whose START or ABORT bit the block ignores
(40_host_interface.md rule R131; log entry 10). -/
def decodeCtrlWrite (busy : Bool) (v : Word) : Instr :=
  if busy = true ∧ v.getLsbD 1 = true then .abort v
  else if busy = false ∧ v.getLsbD 0 = true then .start v
  else if v.getLsbD 0 = false ∧ v.getLsbD 1 = false then .setIrqEn v
  else .writeCtrl v

/-- A write of `v` to the register at word number `w` (10_state.md rule R30, 30_encoding.md rule R110). -/
def decodeRegWrite (busy : Bool) (w : BitVec 6) (v : Word) : Instr :=
  if w.toNat = 1 then decodeCtrlWrite busy v
  else if w.toNat = 2 then .clearStatus v
  else if w.toNat = 4 then .writeConfig .inBase v
  else if w.toNat = 5 then .writeConfig .inLen v
  else if w.toNat = 6 then .writeConfig .outBase v
  else if w.toNat = 7 then .writeConfig .outCap v
  else if w.toNat = 13 then .selectTableEntry v
  else .writeReadOnly w v

/-- A read of the register at word number `w` (30_encoding.md rule R110). -/
def decodeRegRead (w : BitVec 6) : Instr :=
  if w.toNat = 14 then .readTableEntry .code
  else if w.toNat = 15 then .readTableEntry .sym
  else .read w

/-- A register access: aligned 32-bit words inside the window, and no other (20_memory.md rule R76). -/
def decodeHost (busy : Bool) (a : RegAccess) : Decoded :=
  if 256 ≤ a.off then .reject .outsideWindow
  else if a.width ≠ 4 then .reject .badWidth
  else if a.off % 4 ≠ 0 then .reject .unaligned
  else if a.write = true then .ok (decodeRegWrite busy (BitVec.ofNat 6 (a.off / 4)) a.value) 0
  else .ok (decodeRegRead (BitVec.ofNat 6 (a.off / 4))) 0

/-- The decoder. -/
def decode : Ctx → Code → Decoded
  | .start, .bytes bs => decodeStart bs
  | .header, .bytes bs => decodeHeader bs
  | .ecs, .bytes bs => decodeEcs bs
  | .dc, .bytes (s :: _) => .ok (decodeDc s) 1
  | .ac k, .bytes (rs :: _) => .ok (decodeAc k rs) 1
  | .dc, .bytes [] | .ac _, .bytes [] => .reject .truncated
  | .host busy, .access a => decodeHost busy a
  | .host _, .bytes _ => .reject .wrongUnit
  | .start, .access _ | .header, .access _ | .ecs, .access _ | .dc, .access _ | .ac _, .access _ =>
    .reject .wrongUnit

/-! ### The encoder -/

/-- The two bytes of a marker (30_encoding.md rule R91). -/
def markerBytes (c : Byte) : Code := .bytes [0xFF, c]

/-- The AC symbol byte of run `r` and size `s` (rule R104). -/
def rsByte (r s : BitVec 4) : Byte := r ++ s

/-- A register read of word number `w`; the bus carries no value. -/
def readAccess (w : BitVec 6) : Code := .access ⟨false, 4 * w.toNat, 4, 0⟩

/-- A register write of `v` to word number `w`. -/
def writeAccess (w : BitVec 6) (v : Word) : Code := .access ⟨true, 4 * w.toNat, 4, v⟩

/-- The word number of a buffer register (10_state.md rule R30). -/
def configWord : ConfigReg → BitVec 6
  | .inBase => 4 | .inLen => 5 | .outBase => 6 | .outCap => 7

/-- The word number of a read-port register (rule R30). -/
def portWord : TablePort → BitVec 6
  | .code => 14 | .sym => 15

/-- The words of an instruction (30_encoding.md rules R91, R92, R100, R102, R104 and R110). -/
def encode : Instr → Code
  | .nulMarker => markerBytes 0x00
  | .tem => markerBytes 0x01
  | .res c => markerBytes c
  | .sof0 => markerBytes 0xC0
  | .sof1 => markerBytes 0xC1
  | .sof2 => markerBytes 0xC2
  | .sof3 => markerBytes 0xC3
  | .dht => markerBytes 0xC4
  | .sof5 => markerBytes 0xC5
  | .sof6 => markerBytes 0xC6
  | .sof7 => markerBytes 0xC7
  | .jpg => markerBytes 0xC8
  | .sof9 => markerBytes 0xC9
  | .sof10 => markerBytes 0xCA
  | .sof11 => markerBytes 0xCB
  | .dac => markerBytes 0xCC
  | .sof13 => markerBytes 0xCD
  | .sof14 => markerBytes 0xCE
  | .sof15 => markerBytes 0xCF
  | .rstnHeader n => markerBytes (0b11010#5 ++ n)
  | .soi => markerBytes 0xD8
  | .soiEmbedded => markerBytes 0xD8
  | .eoiHeader => markerBytes 0xD9
  | .sos => markerBytes 0xDA
  | .dqt => markerBytes 0xDB
  | .dnl => markerBytes 0xDC
  | .dri => markerBytes 0xDD
  | .dhp => markerBytes 0xDE
  | .exp => markerBytes 0xDF
  | .appn n => markerBytes (0xE#4 ++ n)
  | .jpgn n => markerBytes (0xF#4 ++ n)
  | .com => markerBytes 0xFE
  | .fill => markerBytes 0xFF
  | .notMarker b => .bytes [b]
  | .ecsData b => .bytes [b]
  | .ecsStuffedFf => markerBytes 0x00
  | .ecsRstn n => markerBytes (0b11010#5 ++ n)
  | .ecsEoi => markerBytes 0xD9
  | .ecsFill => markerBytes 0xFF
  | .ecsBadMarker c => markerBytes c
  | .dcCat0 => .bytes [0]
  | .dcCat s => .bytes [s]
  | .dcBad s => .bytes [s]
  | .acEob => .bytes [0x00]
  | .acZrl => .bytes [0xF0]
  | .acRun r => .bytes [rsByte r 0]
  | .acCoef r s => .bytes [rsByte r s]
  | .acBad r s => .bytes [rsByte r s]
  | .acRunOverflow rs => .bytes [rs]
  | .read w => readAccess w
  | .writeCtrl v => writeAccess 1 v
  | .start v => writeAccess 1 v
  | .abort v => writeAccess 1 v
  | .setIrqEn v => writeAccess 1 v
  | .writeConfig r v => writeAccess (configWord r) v
  | .clearStatus v => writeAccess 2 v
  | .selectTableEntry v => writeAccess 13 v
  | .writeReadOnly w v => writeAccess w v
  | .readTableEntry p => readAccess (portWord p)

/-- How many bytes of the stream an instruction takes at its fetch: a fill byte takes one, the code byte after
it is read again (rule R91), and a register access takes none. -/
def instrLen : Instr → Nat
  | .fill | .ecsFill => 1
  | i => match encode i with
    | .bytes bs => bs.length
    | .access _ => 0

/-- In context `c` the words of `i` are read as `i`: the context is the one its row of the table names, an AC
symbol's run stays within position 63 unless it is the overflow row (43_entropy_decoder.md rule R222),
and a CTRL write acts as its row says while BUSY or idle (40_host_interface.md rule R131). -/
def fits : Ctx → Instr → Bool
  | c, .soi => c == .start
  | c, .nulMarker | c, .tem | c, .res _ | c, .sof0 | c, .sof1 | c, .sof2 | c, .sof3 | c, .sof5
  | c, .sof6 | c, .sof7 | c, .jpg | c, .sof9 | c, .sof10 | c, .sof11 | c, .sof13 | c, .sof14
  | c, .sof15 | c, .dht | c, .dac | c, .rstnHeader _ | c, .soiEmbedded | c, .eoiHeader | c, .sos
  | c, .dqt | c, .dnl | c, .dri | c, .dhp | c, .exp | c, .appn _ | c, .jpgn _ | c, .com | c, .fill
  | c, .notMarker _ => c == .header
  | c, .ecsData _ | c, .ecsStuffedFf | c, .ecsRstn _ | c, .ecsEoi | c, .ecsFill
  | c, .ecsBadMarker _ => c == .ecs
  | c, .dcCat0 | c, .dcCat _ | c, .dcBad _ => c == .dc
  | .ac _, .acEob => true
  | .ac k, .acZrl => k + 16 ≤ 63
  | .ac k, .acRun r | .ac k, .acCoef r _ | .ac k, .acBad r _ => k + r.toNat ≤ 63
  | .ac k, .acRunOverflow rs => 63 < k + runOf rs
  | _, .acEob | _, .acZrl | _, .acRun _ | _, .acCoef _ _ | _, .acBad _ _ | _, .acRunOverflow _ => false
  | c, .start _ => c == .host false
  | c, .abort _ => c == .host true
  | c, .writeCtrl v => c == .host (v.getLsbD 0)
  | .host _, .read _ | .host _, .setIrqEn _ | .host _, .writeConfig _ _ | .host _, .clearStatus _
  | .host _, .selectTableEntry _ | .host _, .writeReadOnly _ _ | .host _, .readTableEntry _ => true
  | _, .read _ | _, .setIrqEn _ | _, .writeConfig _ _ | _, .clearStatus _ | _, .selectTableEntry _
  | _, .writeReadOnly _ _ | _, .readTableEntry _ => false

/-! ### The words of the opcode table -/

/-- The context in which a word of spec/opcode_table.json is read when no context is given: the row that fixes
the most bits, and of two that fix the same bits the one the table lists first (log entry 11). -/
def tableCtx (nbits w : Nat) : Ctx :=
  if nbits ≤ 8 then (if w = 0xF0 then .ac 1 else .dc)
  else if w = 0xFFD8 then .start
  else .header

/-- The bytes of a table word: one number, its most significant byte first (20_memory.md rule R73). -/
def tableBytes (nbits w : Nat) : List Byte :=
  (List.range (nbits / 8)).map fun i => BitVec.ofNat 8 (w >>> (8 * (nbits / 8 - 1 - i)))

/-- The instruction the decoder reads from a word of spec/opcode_table.json. -/
def decodeTableWord (nbits w : Nat) : Option Instr :=
  match decode (tableCtx nbits w) (.bytes (tableBytes nbits w)) with
  | .ok i _ => some i
  | .reject _ => none

/-! ### Segments: the bytes after a marker's code byte (30_encoding.md rules R93 to R99 and R111) -/

/-- A 16-bit field, most significant byte first (20_memory.md rule R73). -/
def be16 (n : Nat) : List Byte := [BitVec.ofNat 8 (n / 256), BitVec.ofNat 8 n]

/-- One table entry of a DQT segment: precision, table id, the 64 values in zigzag order (rule R95). -/
structure QtEntry where
  wide : Bool
  id   : BitVec 4
  vals : List Nat
  deriving DecidableEq, Repr

/-- The bytes of a DQT table entry (rule R95). -/
def qtEntryBytes (e : QtEntry) : List Byte :=
  rsByte (if e.wide then 1 else 0) e.id ::
    (if e.wide then e.vals.flatMap be16 else e.vals.map (BitVec.ofNat 8))

/-- The operand bytes of a DQT segment (rules R93 and R95). -/
def dqtBytes (es : List QtEntry) : List Byte :=
  be16 (2 + (es.flatMap qtEntryBytes).length) ++ es.flatMap qtEntryBytes

/-- One table entry of a DHT segment: class and id, the 16 counts, the symbols (rule R96). -/
structure HtEntry where
  cls    : BitVec 4
  id     : BitVec 4
  counts : List Byte
  syms   : List Byte
  deriving DecidableEq, Repr

/-- The bytes of a DHT table entry (rule R96). -/
def htEntryBytes (e : HtEntry) : List Byte := rsByte e.cls e.id :: (e.counts ++ e.syms)

/-- The operand bytes of a DHT segment (rules R93 and R96). -/
def dhtBytes (es : List HtEntry) : List Byte :=
  be16 (2 + (es.flatMap htEntryBytes).length) ++ es.flatMap htEntryBytes

/-- One component entry of a frame header (rule R94). -/
structure SofEntry where
  id : Byte
  h  : BitVec 4
  v  : BitVec 4
  tq : Byte
  deriving DecidableEq, Repr

/-- The bytes of a component entry (rule R94). -/
def sofEntryBytes (e : SofEntry) : List Byte := [e.id, rsByte e.h e.v, e.tq]

/-- The operand bytes of a SOF0 segment (rule R94). -/
def sof0Bytes (prec : Byte) (y x : Nat) (es : List SofEntry) : List Byte :=
  be16 (8 + 3 * es.length) ++ [prec] ++ be16 y ++ be16 x ++ [BitVec.ofNat 8 es.length] ++ es.flatMap sofEntryBytes

/-- The operand bytes of a DRI segment (rule R97). -/
def driBytes (ri : Nat) : List Byte := be16 4 ++ be16 ri

/-- One component entry of a scan header (rule R98). -/
structure SosEntry where
  id : Byte
  td : BitVec 4
  ta : BitVec 4
  deriving DecidableEq, Repr

/-- The bytes of a scan header's component entry (rule R98). -/
def sosEntryBytes (e : SosEntry) : List Byte := [e.id, rsByte e.td e.ta]

/-- The operand bytes of a SOS segment with the spectral fields `ss`, `se`, `a` (rule R98). -/
def sosBytes (es : List SosEntry) (ss se a : Byte) : List Byte :=
  be16 (6 + 2 * es.length) ++ [BitVec.ofNat 8 es.length] ++ es.flatMap sosEntryBytes ++ [ss, se, a]

/-- The operand bytes of a skipped segment (rule R99). -/
def skipBytes (payload : List Byte) : List Byte := be16 (2 + payload.length) ++ payload

/-- A whole segment: marker and operand bytes (rule R93). -/
def segment (code : Byte) (body : List Byte) : List Byte := 0xFF :: code :: body

/-- Entropy bytes with every 0xFF stuffed (30_encoding.md rules R100 and R111). -/
def stuff : List Byte → List Byte
  | [] => []
  | b :: bs => if b = 0xFF then 0xFF :: 0x00 :: stuff bs else b :: stuff bs

/-- Bits packed most significant first, the last byte padded with 1-bits (20_memory.md rule R74, rule R111). -/
def packBits (bits : List Bool) : List Byte :=
  (List.range ((bits.length + 7) / 8)).map fun i =>
    BitVec.ofNat 8 ((List.range 8).foldl (fun n j => 2 * n + (bits.getD (8 * i + j) true).toNat) 0)

/-- `ECS(bits)` of rule R111. -/
def ecsBytes (bits : List Bool) : List Byte := stuff (packBits bits)

end Sys2Proof
end

