-- ==== Sys2Proof/Config.lean ====
section
/-! DEFINITION. What an implementation or a platform fixes (00_scope.md rule R7) and the one free value
of the model, the rounding of an inverse transform other than the default (45_idct.md rule R247). -/

namespace Sys2Proof

/-- Which inverse transform `P_IDCT` the block has: the default of 45_idct.md rule R248, or another one
that meets rule R247. Two different numbers stand for two (possibly) different transforms. -/
inductive IdctKind where
  | nearest
  | other (n : Nat)
  deriving DecidableEq, Repr

/-- The parameters that rule R7 leaves OPEN, as the argument of the model they are: they stand in State, no
step changes them, and a statement about every state is a statement about every value of them. -/
structure Params where
  /-- `P_MAX_BLOCKS` (92_eei_decisions.md D10), a number of 8×8 blocks. -/
  maxBlocks : Nat
  /-- `P_ENTROPY_CAP` (92_eei_decisions.md D11), a number of bytes. -/
  entropyCap : Nat
  /-- `P_CSR_BASE` (92_eei_decisions.md D3), where the register window sits in the host's map. -/
  csrBase : Word
  /-- `P_IDCT` (92_eei_decisions.md D32). -/
  idct : IdctKind
  deriving DecidableEq, Repr

/-- FREE VALUE. Whether the transform `.other n` rounds sample `i` of block `F` up, where its ideal value is no
integer (45_idct.md rule R247 allows the floor and the ceiling, for each block and sample, and asks
only that the choice depends on the block alone). No body: nothing can be proved of it. Log entry 7. -/
opaque Config.idctRoundsUp : Nat → Block → Fin 64 → Bool

/-- DESIGN CHOICE (log entry 6): the parameter values the model starts with after reset. The capacities are
the ones 92_eei_decisions.md D10 and D11 name as enough for every frame and every stream, the
transform is the default of rule R248, and the window's place is the model's own. -/
def Config.params : Params :=
  { maxBlocks := 2 ^ 26 * 6, entropyCap := 2 ^ 32, csrBase := 0xF0000000, idct := .nearest }

end Sys2Proof
end

