-- ==== Sys2Proof/Machine/State.lean ====
section
/-! DEFINITION. The state of the machine (10_state.md, 20_memory.md), its reset value (10_state.md rule R60), and
why a step can stop. -/

namespace Sys2Proof.Machine

/-- The sequencer phase (10_state.md rule R33). -/
inductive Phase where
  | idle | parse | extract | check | entropy | dequant | idct | color
  deriving DecidableEq, Repr

/-- The errors of the block (60_exceptions.md rule R273), named as the table names them. -/
inductive Detail where
  | sNoSoi | sTruncated | sNotMarker | sBadLength | sDupSof | sDupComponent | sSosBeforeSof
  | sEmbeddedSoi | sEoiBeforeSos | sRstBeforeSos | sUnknownMarker | sZeroDimension
  | sBadComponentCount | sBadComponentId | sBadSampling | sBadMarkerInScan | sBadTableClass
  | sBadScanCount
  | uSofType | uArithmetic | uPrecision | uCmyk | uYiq | uSampling | uProgressive | uPartialScan
  | rQtId | rHtId | rHtTooMany | rQtUnpopulated | rHtUnpopulated
  | eNoCode | eEndOfData | eZeroRun | eDcLength | eAcLength
  | aOutput | aCoefStore | aEntropyBuf
  | hAborted
  deriving DecidableEq, Repr

/-- The frame descriptor (10_state.md rule R49). -/
structure Frame where
  seen            : Bool
  width           : Half
  height          : Half
  nf              : BitVec 2
  zeroBased       : Bool
  hmax            : BitVec 3
  vmax            : BitVec 3
  restartInterval : Half
  mcuCols         : Word
  mcuRows         : Word
  mcuTotal        : Word
  blocksPerMcu    : Word
  deriving DecidableEq, Repr

/-- A component descriptor (10_state.md rule R50). -/
structure Comp where
  id : BitVec 9
  ch : Fin 3
  h  : BitVec 3
  v  : BitVec 3
  tq : Fin 4
  td : Fin 4
  ta : Fin 4
  deriving DecidableEq, Repr

/-- A quantization table slot, in natural order (10_state.md rule R52). -/
structure QTable where
  populated : Bool
  q         : Vector Half 64
  deriving DecidableEq, Repr

/-- A Huffman table slot (10_state.md rule R53): `count` holds L1..L16, `offset` holds offset[0..16]; `symbols`,
`code` and `len` hold one entry for each symbol position. -/
structure HTable where
  populated : Bool
  count     : Vector Byte 16
  offset    : Vector Byte 17
  symbols   : List Byte
  code      : List (BitVec 24)
  len       : List (BitVec 5)
  deriving DecidableEq, Repr

/-- The bit cursor (10_state.md rule R55). -/
structure Cursor where
  byteI : Word
  bitI  : Fin 8
  deriving DecidableEq, Repr

/-- One block of the coefficient store, `coef[mcu][ch][idx]` (10_state.md rule R57). -/
structure CoefEntry where
  mcu : Nat
  ch  : Fin 3
  idx : Nat
  blk : Block
  deriving DecidableEq, Repr

/-- One block that an MCU holds: the frame position of its component, and its number in that component
(43_entropy_decoder.md rule R224). -/
structure Slot where
  pos : Fin 3
  idx : Nat
  deriving DecidableEq, Repr

/-- The working registers of an ENTROPY step in progress: what 43_entropy_decoder.md rules R216, R217 and R225
have computed and not committed. `k` is 0 before the block's DC symbol, else the zigzag position;
`todo` begins with the block being decoded. The model's own field (log entry 1). -/
structure McuWork where
  cur  : Cursor
  pred : Vector S32 3
  todo : List Slot
  k    : Nat
  blk  : Block
  done : List (Slot × Block)
  deriving DecidableEq, Repr

/-- The block step in progress, if the model is inside one (log entry 1): a marker or byte form whose fill bytes
were read up to stream offset `pos`, or an MCU being decoded. -/
inductive Txn where
  | none
  | marker (pos : Word)
  | mcu (w : McuWork)
  deriving DecidableEq, Repr

/-- What the outside world does next (00_scope.md rule R12; log entry 2): the interleaving of host steps, block
steps and resets, as plain data. -/
inductive Input where
  /-- The block takes its next step. -/
  | turn
  /-- The host accesses the register window. -/
  | access (a : RegAccess)
  /-- The host reads a register until `(value & mask) = val` (30_encoding.md rule R112). -/
  | poll (word : BitVec 6) (mask val : Word)
  /-- The host writes a byte of its memory. -/
  | memWrite (addr : Word) (b : Byte)
  /-- The host reads a byte of its memory. -/
  | memRead (addr : Word)
  /-- The reset input (70_reset_and_hazards.md rule R300). -/
  | reset
  deriving DecidableEq, Repr

/-- Why the machine stops with a fault. No step of the block itself ever does (20_memory.md rule R79). -/
inductive Fault where
  /-- Raised by the fetch of a host access at an offset outside the 256-byte window, which is no register of the
  block (10_state.md rule R30). Safe. -/
  | outsideWindow
  /-- Raised by the meaning of an entropy symbol in a state with no block being decoded, where the spec gives a
  symbol no effect; the sequencer never runs one there. Safe. -/
  | noBlockOpen
  deriving DecidableEq, Repr

/-- Why the model refuses a step. -/
inductive Refusal where
  /-- No meaning for the instruction yet. Raised by no arm of this model. Safe. -/
  | notModelled (mnemonic : String)
  /-- Raised by the fetch of a register access of a width other than 32 bits (20_memory.md rule R76). Safe. -/
  | badWidth
  /-- Raised by the fetch of a register access at an offset that is no multiple of 4 (rule R76). Safe. -/
  | unaligned
  /-- Raised by START where the output buffer overlaps the register window (20_memory.md rule R85). Safe. -/
  | outputOverlapsWindow
  deriving DecidableEq, Repr

/-- The machine's state. Registers that only show other state (STATUS, CTRL, ERRCODE, IMG_SIZE, IMG_INFO, MCU_TOTAL,
ENT_LEN, HT_CODE, HT_SYM) are computed from it, in Machine/Flags.lean. -/
structure State where
  params    : Params
  irqEn     : Bool
  done      : Bool
  err       : Bool
  errClass  : BitVec 4
  errDetail : Byte
  inBase    : Word
  inLen     : Word
  outBase   : Word
  outCap    : Word
  mcuDone   : Word
  htSel     : Word
  phase     : Phase
  soiDone   : Bool
  ipos      : Word
  work      : Word
  frame     : Frame
  comp      : Vector Comp 3
  ns        : BitVec 2
  scan      : Vector (Fin 3) 3
  qt        : Vector QTable 4
  dcHt      : Vector HTable 4
  acHt      : Vector HTable 4
  ent       : List Byte
  entLen    : Word
  cur       : Cursor
  pred      : Vector S32 3
  coef      : List CoefEntry
  mem       : List Host.Cell
  txn       : Txn
  inputs    : List Input
  rdata     : Word
  deriving DecidableEq, Repr

/-- The frame descriptor after reset and after START: all 0 (10_state.md rule R49). -/
def noFrame : Frame :=
  { seen := false, width := 0, height := 0, nf := 0, zeroBased := false, hmax := 0, vmax := 0,
    restartInterval := 0, mcuCols := 0, mcuRows := 0, mcuTotal := 0, blocksPerMcu := 0 }

/-- The machine right after reset with the parameters `p`: 10_state.md rule R60. The contents that rule R60 leaves
unspecified (component entries, scan order, table contents, entropy buffer, coefficient store) are 0 or
empty: DESIGN CHOICE, log entry 5. -/
def State.resetWith (p : Params) : State :=
  { params := p
    irqEn := false, done := false, err := false, errClass := 0, errDetail := 0
    inBase := 0, inLen := 0, outBase := 0, outCap := 0
    mcuDone := 0, htSel := 0
    phase := .idle, soiDone := false, ipos := 0, work := 0
    frame := noFrame
    comp := Vector.replicate 3 ⟨0, 0, 0, 0, 0, 0, 0⟩
    ns := 0, scan := Vector.replicate 3 0
    qt := Vector.replicate 4 ⟨false, Vector.replicate 64 0⟩
    dcHt := Vector.replicate 4 ⟨false, Vector.replicate 16 0, Vector.replicate 17 0, [], [], []⟩
    acHt := Vector.replicate 4 ⟨false, Vector.replicate 16 0, Vector.replicate 17 0, [], [], []⟩
    ent := [], entLen := 0
    cur := ⟨0, 0⟩, pred := Vector.replicate 3 0
    coef := [], mem := []
    txn := .none, inputs := [], rdata := 0 }

/-- The machine right after reset (10_state.md rule R60), with the parameter values of log entry 6. -/
def State.reset : State := State.resetWith Config.params

end Sys2Proof.Machine
end

