-- ==== Sys2Proof/Machine/Ops.lean ====
section
/-! DEFINITION. The shared operations on the state: host memory (20_memory.md), the coefficient store (10_state.md rule
R57), the step in progress, the error entry (60_exceptions.md rule R272), START, which is the only way
back from it (rule R278), and reset (70_reset_and_hazards.md rule R300). -/

namespace Sys2Proof.Machine

/-- What a step answers. -/
abbrev Out := Host.Outcome State Fault Refusal

/-! ### Host memory -/

/-- What a byte of host memory that nothing has written reads as: DESIGN CHOICE, log entry 4. -/
def memDefault : Byte := 0x00

/-- The byte at address `a`. -/
def Memory.read : List Host.Cell → Nat → Byte
  | [], _ => memDefault
  | (k, b) :: rest, a => if k = a then b else Memory.read rest a

/-- Writes byte `v` at address `a`, keeping the canonical form of `Memory.wf`. -/
def Memory.write : List Host.Cell → Nat → Byte → List Host.Cell
  | [], a, v => if v = memDefault then [] else [(a, v)]
  | (k, b) :: rest, a, v =>
    if a < k then (if v = memDefault then (k, b) :: rest else (a, v) :: (k, b) :: rest)
    else if a = k then (if v = memDefault then rest else (a, v) :: rest)
    else (k, b) :: Memory.write rest a v

/-- The addresses rise strictly from `lo`, lie in the 32-bit space and hold no byte an unlisted address reads as. -/
def Memory.wfFrom : Nat → List Host.Cell → Bool
  | _, [] => true
  | lo, (a, b) :: rest => lo ≤ a && a < 2 ^ 32 && b != memDefault && Memory.wfFrom (a + 1) rest

/-- The canonical form of host memory: equal memories are equal lists. -/
def Memory.wf (m : List Host.Cell) : Bool := Memory.wfFrom 0 m

/-- `MemRead(addr, 1)`, the address taken mod 2^32 (20_memory.md rule R71). -/
def memRead (s : State) (addr : Nat) : Byte := Memory.read s.mem (addr % 2 ^ 32)

/-- `MemWrite(addr, 1, v)` on the memory itself, the address taken mod 2^32 (rule R72). -/
def memWrite (m : List Host.Cell) (addr : Nat) (v : Byte) : List Host.Cell :=
  Memory.write m (addr % 2 ^ 32) v

/-! ### The coefficient store -/

/-- `coef[m][ch][b]` (10_state.md rule R57); a block never written reads as 0, which no rule reads (log entry 5). -/
def coefRead : List CoefEntry → Nat → Fin 3 → Nat → Block
  | [], _, _, _ => zeroBlock
  | e :: rest, m, ch, b =>
    if e.mcu = m ∧ e.ch = ch ∧ e.idx = b then e.blk else coefRead rest m ch b

/-- `coef[m][ch][b] <- blk`. -/
def coefWrite : List CoefEntry → Nat → Fin 3 → Nat → Block → List CoefEntry
  | [], m, ch, b, blk => [⟨m, ch, b, blk⟩]
  | e :: rest, m, ch, b, blk =>
    if e.mcu = m ∧ e.ch = ch ∧ e.idx = b then ⟨m, ch, b, blk⟩ :: rest
    else e :: coefWrite rest m ch b blk

/-- The blocks of one MCU, component by component in scan order and in raster order inside each
(43_entropy_decoder.md rule R224). -/
def mcuSlots (s : State) : List Slot :=
  (s.scan.toList.take s.ns.toNat).flatMap fun i =>
    (List.range (if s.frame.nf = 1 then 1 else s.comp[i].h.toNat * s.comp[i].v.toNat)).map fun b => ⟨i, b⟩

/-! ### The step in progress (log entry 1) -/

/-- Where the parser reads next: past the fill bytes of the step in progress, else at `ipos`. -/
def inPos (s : State) : Nat :=
  match s.txn with
  | .marker p => p.toNat
  | .none => s.ipos.toNat
  | .mcu _ => s.ipos.toNat

/-- The parser has read up to offset `p`, and the step goes on. -/
def moveTo (p : Nat) (s : State) : State := { s with txn := .marker (BitVec.ofNat 32 p) }

/-- The parser's step ends with the cursor at `p`. -/
def commitPos (p : Nat) (s : State) : State := { s with ipos := BitVec.ofNat 32 p, txn := .none }

/-! ### Errors -/

/-- The detail code of each error (60_exceptions.md rule R273). -/
def detailCode : Detail → Byte
  | .sNoSoi => 0x01 | .sTruncated => 0x02 | .sNotMarker => 0x03 | .sBadLength => 0x04
  | .sDupSof => 0x05 | .sDupComponent => 0x06 | .sSosBeforeSof => 0x07 | .sEmbeddedSoi => 0x08
  | .sEoiBeforeSos => 0x09 | .sRstBeforeSos => 0x0A | .sUnknownMarker => 0x0B | .sZeroDimension => 0x0C
  | .sBadComponentCount => 0x0D | .sBadComponentId => 0x0E | .sBadSampling => 0x0F
  | .sBadMarkerInScan => 0x10 | .sBadTableClass => 0x11 | .sBadScanCount => 0x12
  | .uSofType => 0x20 | .uArithmetic => 0x21 | .uPrecision => 0x22 | .uCmyk => 0x23 | .uYiq => 0x24
  | .uSampling => 0x25 | .uProgressive => 0x26 | .uPartialScan => 0x27
  | .rQtId => 0x30 | .rHtId => 0x31 | .rHtTooMany => 0x32 | .rQtUnpopulated => 0x33 | .rHtUnpopulated => 0x34
  | .eNoCode => 0x40 | .eEndOfData => 0x41 | .eZeroRun => 0x42 | .eDcLength => 0x43 | .eAcLength => 0x44
  | .aOutput => 0x50 | .aCoefStore => 0x51 | .aEntropyBuf => 0x52
  | .hAborted => 0x60

/-- The class of each error (60_exceptions.md rules R271 and R273): 1 STRUCTURE, 2 UNSUPPORTED, 3 RESOURCE, 4 ENTROPY,
5 ALLOCATION, 6 ABORTED. -/
def detailClass : Detail → BitVec 4
  | .sNoSoi | .sTruncated | .sNotMarker | .sBadLength | .sDupSof | .sDupComponent | .sSosBeforeSof
  | .sEmbeddedSoi | .sEoiBeforeSos | .sRstBeforeSos | .sUnknownMarker | .sZeroDimension
  | .sBadComponentCount | .sBadComponentId | .sBadSampling | .sBadMarkerInScan | .sBadTableClass
  | .sBadScanCount => 1
  | .uSofType | .uArithmetic | .uPrecision | .uCmyk | .uYiq | .uSampling | .uProgressive | .uPartialScan => 2
  | .rQtId | .rHtId | .rHtTooMany | .rQtUnpopulated | .rHtUnpopulated => 3
  | .eNoCode | .eEndOfData | .eZeroRun | .eDcLength | .eAcLength => 4
  | .aOutput | .aCoefStore | .aEntropyBuf => 5
  | .hAborted => 6

/-- ERROR ENTRY (60_exceptions.md rule R272): the step in progress and all it has not committed are discarded, the
block goes IDLE, ERR is set and the class and detail are saved. -/
def raiseError (d : Detail) (s : State) : State :=
  { s with txn := .none, phase := .idle, err := true, errClass := detailClass d, errDetail := detailCode d }

/-- A step that either commits all of its writes or raises (00_scope.md rule R10). -/
def commitOrRaise (s : State) (r : Except Detail State) : Out :=
  match r with
  | .ok t => .next t
  | .error d => .next (raiseError d s)

/-- `if c: raise d`. -/
def raiseIf (c : Bool) (d : Detail) : Except Detail Unit := if c then .error d else .ok ()

/-- A Huffman table slot emptied: its contents stay and cannot be read (40_host_interface.md rule R133). -/
def clearHt (t : Vector HTable 4) : Vector HTable 4 := Vector.ofFn fun i => { t[i] with populated := false }

/-- A quantization table slot emptied (rule R133). -/
def clearQt (t : Vector QTable 4) : Vector QTable 4 := Vector.ofFn fun i => { t[i] with populated := false }

/-- START (40_host_interface.md rule R133): the fresh decode that is the only return from an error
(60_exceptions.md rule R278). The component entries and scan positions keep their old contents, which rules R50 and
R51 of 10_state.md leave unspecified: DESIGN CHOICE, log entry 26. -/
def startDecode (s : State) : State :=
  { s with
    done := false, err := false, errClass := 0, errDetail := 0
    mcuDone := 0, soiDone := false, ipos := 0, work := 0
    frame := noFrame, ns := 0
    qt := clearQt s.qt, dcHt := clearHt s.dcHt, acHt := clearHt s.acHt
    entLen := 0, cur := ⟨0, 0⟩, pred := Vector.replicate 3 0
    txn := .none, phase := .parse }

/-- ABORT (40_host_interface.md rule R134): the error entry of H_ABORTED, between two block steps. -/
def abortDecode (s : State) : State := raiseError .hAborted s

/-- RESET (70_reset_and_hazards.md rules R300 and R301): every element of the block at its reset value. Host memory, the
parameters, the outside world's next inputs and what the host last read are not the block's and stay. -/
def resetBlock (s : State) : State :=
  { State.resetWith s.params with mem := s.mem, inputs := s.inputs, rdata := s.rdata }

/-- The addresses `[a, a + n)` and `[b, b + m)`, taken mod 2^32, have one in common. -/
def rangesOverlap (a n b m : Nat) : Bool :=
  0 < n && 0 < m && ((a + 2 ^ 32 - b) % 2 ^ 32 < m || (b + 2 ^ 32 - a) % 2 ^ 32 < n)

/-- The output buffer overlaps the register window (20_memory.md rule R85, 40_host_interface.md rule R140 item 4). -/
def outputOverlapsWindow (s : State) : Bool :=
  rangesOverlap s.outBase.toNat s.outCap.toNat s.params.csrBase.toNat 256

end Sys2Proof.Machine
end

