-- ==== Sys2Proof/Machine/Operands.lean ====
section
/-! DEFINITION. Every operand form: input bytes and 16-bit fields (41_segment_parser.md rule R150), the zigzag map
(30_encoding.md rule R103), bits and code words of the entropy buffer (43_entropy_decoder.md rules R211
to R215), and the narrowings of 00_scope.md rule R9. -/

namespace Sys2Proof.Machine

/-! ### Input bytes: each reader answers what it read and the offset after it -/

/-- `InByte()` at offset `p` (rule R150). -/
def inByte (s : State) (p : Nat) : Except Detail (Byte × Nat) :=
  if s.inLen.toNat ≤ p then .error .sTruncated
  else .ok (memRead s (s.inBase.toNat + p), p + 1)

/-- `InU16()`, big-endian (00_scope.md rule R10, 20_memory.md rule R73). -/
def inU16 (s : State) (p : Nat) : Except Detail (Nat × Nat) := do
  let (hi, p) ← inByte s p
  let (lo, p) ← inByte s p
  .ok (hi.toNat * 256 + lo.toNat, p)

/-- `n` input bytes in order. -/
def inBytes (s : State) : Nat → Nat → Except Detail (List Byte × Nat)
  | 0, p => .ok ([], p)
  | n + 1, p => do
    let (b, p) ← inByte s p
    let (bs, p) ← inBytes s n p
    .ok (b :: bs, p)

/-- `n` 16-bit input fields in order. -/
def inU16s (s : State) : Nat → Nat → Except Detail (List Nat × Nat)
  | 0, p => .ok ([], p)
  | n + 1, p => do
    let (v, p) ← inU16 s p
    let (vs, p) ← inU16s s n p
    .ok (v :: vs, p)

/-- `repeat n times: InByte()` for bytes whose values nothing uses: it fails where the input ends first. -/
def skipBytesAt (s : State) (n p : Nat) : Except Detail Nat :=
  if n = 0 ∨ p + n ≤ s.inLen.toNat then .ok (p + n) else .error .sTruncated

/-- The bytes a decoder may look at from offset `p`: at most two, none past IN_LEN. -/
def peekInput (s : State) (p : Nat) : List Byte :=
  if s.inLen.toNat ≤ p then []
  else if s.inLen.toNat ≤ p + 1 then [memRead s (s.inBase.toNat + p)]
  else [memRead s (s.inBase.toNat + p), memRead s (s.inBase.toNat + p + 1)]

/-! ### The zigzag map -/

/-- The natural index of each zigzag position (30_encoding.md rule R103). -/
def zigzagTable : List (Fin 64) :=
  [0, 1, 8, 16, 9, 2, 3, 10, 17, 24, 32, 25, 18, 11, 4, 5] ++
  [12, 19, 26, 33, 40, 48, 41, 34, 27, 20, 13, 6, 7, 14, 21, 28] ++
  [35, 42, 49, 56, 57, 50, 43, 36, 29, 22, 15, 23, 30, 37, 44, 51] ++
  [58, 59, 52, 45, 38, 31, 39, 46, 53, 60, 61, 54, 47, 55, 62, 63]

/-- `ZZ[k]`. -/
def zz (k : Nat) : Fin 64 := zigzagTable.getD k 0

/-- The zigzag position of natural index `n`: the same map inverted (rule R103). -/
def zigzagPos (n : Fin 64) : Nat := zigzagTable.idxOf n

/-- `for i in 0..63: qt[ZZ[i]] <- val[i]` (41_segment_parser.md rule R160). -/
def placeZigzag (vals : List Nat) : Vector Half 64 :=
  Vector.ofFn fun n => BitVec.ofNat 16 (vals.getD (zigzagPos n) 0)

/-! ### Bits of the entropy buffer -/

/-- `ReadBit()` (43_entropy_decoder.md rule R211), most significant bit first (20_memory.md rule R74). -/
def readBit (s : State) (c : Cursor) : Except Detail (Nat × Cursor) :=
  if s.entLen.toNat ≤ c.byteI.toNat then .error .eEndOfData
  else
    .ok (((s.ent.getD c.byteI.toNat 0).getLsbD (7 - c.bitI.val)).toNat,
      if c.bitI.val = 7 then ⟨c.byteI + 1, 0⟩ else ⟨c.byteI, c.bitI + 1⟩)

/-- `ReadBits(n)` (rule R212), after `v` has been read. -/
def readBitsFrom (s : State) : Nat → Nat → Cursor → Except Detail (Nat × Cursor)
  | 0, v, c => .ok (v, c)
  | n + 1, v, c => do
    let (b, c) ← readBit s c
    readBitsFrom s n (2 * v + b) c

/-- `ReadBits(n)` (rule R212). -/
def readBits (s : State) (n : Nat) (c : Cursor) : Except Detail (Nat × Cursor) := readBitsFrom s n 0 c

/-- `Align()` (rule R213). -/
def align (c : Cursor) : Cursor := if c.bitI = 0 then c else ⟨c.byteI + 1, 0⟩

/-- `offset[k]` of a Huffman table (10_state.md rule R53). -/
def offsetAt (t : HTable) (k : Nat) : Nat := (t.offset.toList.getD k 0).toNat

/-- The position `j` in `offset[L-1] .. offset[L]-1` with `code[j] = code` (43_entropy_decoder.md rule R214). -/
def matchCode (t : HTable) (L code : Nat) : Option Nat :=
  (List.range' (offsetAt t (L - 1)) (offsetAt t L - offsetAt t (L - 1))).find?
    fun j => (t.code.getD j 0).toNat == code

/-- The search of rule R214 with `left` lengths still to try, after the bits `code` were read. -/
def decodeSymbolFrom (s : State) (t : HTable) : Nat → Nat → Cursor → Except Detail (Byte × Cursor)
  | 0, _, _ => .error .eNoCode
  | left + 1, code, c => do
    let (b, c) ← readBit s c
    match matchCode t (16 - left) (2 * code + b) with
    | some j => .ok (t.symbols.getD j 0, c)
    | none => decodeSymbolFrom s t left (2 * code + b) c

/-- `DecodeSymbol(t)` (rule R214). -/
def decodeSymbol (s : State) (t : HTable) (c : Cursor) : Except Detail (Byte × Cursor) :=
  decodeSymbolFrom s t 16 0 c

/-- `EXTEND(v, n)` (rule R215). -/
def extend (v n : Nat) : Int :=
  if n = 0 then 0 else if v < 2 ^ (n - 1) then (v : Int) - (2 ^ n - 1) else v

/-! ### Narrowing (00_scope.md rule R9) -/

/-- `wrap32`. -/
def wrap32 (x : Int) : S32 := BitVec.ofInt 32 x

/-- `sat32`. -/
def sat32 (x : Int) : S32 := BitVec.ofInt 32 (min (max x (-2 ^ 31)) (2 ^ 31 - 1))

/-- `clamp255`. -/
def clamp255 (x : Int) : Byte := BitVec.ofNat 8 (min (max x 0) 255).toNat

/-- `ceil_div(a, b)`. -/
def ceilDiv (a b : Nat) : Nat := (a + b - 1) / b

/-- `blk[n]`. -/
def blockAt (b : Block) (n : Nat) : S32 := b.toList.getD n 0

end Sys2Proof.Machine
end

