-- ==== Sys2Proof/Machine/Color.lean ====
section
/-! DEFINITION. The colour converter with chroma upsampling, the output raster and the end of a decode
(46_color.md). -/

namespace Sys2Proof.Machine

/-- LUMA SAMPLE (rule R257). -/
def lumaSample (s : State) (m px py : Nat) : Int :=
  (blockAt (coefRead s.coef m 0 (py / 8 * s.frame.hmax.toNat + px / 8)) (py % 8 * 8 + px % 8)).toInt

/-- CHROMA SAMPLE, nearest neighbour: the chroma factors are 1 (rule R258). -/
def chromaSample (s : State) (ch : Fin 3) (m px py : Nat) : Int :=
  (blockAt (coefRead s.coef m ch 0) (py / s.frame.vmax.toNat * 8 + px / s.frame.hmax.toNat)).toInt

/-- The red, green and blue of one sample triple (rule R259): each exact rational sum over its denominator, floored. -/
def rgbOf (y cb cr : Int) : Byte × Byte × Byte :=
  (clamp255 ((1000 * y + 1402 * cr + 128000) / 1000),
   clamp255 ((1000000 * y - 344136 * cb - 714136 * cr + 128000000) / 1000000),
   clamp255 ((1000 * y + 1772 * cb + 128000) / 1000))

/-- The gray of one sample on all three channels (rule R260). -/
def grayOf (y : Int) : Byte × Byte × Byte := (clamp255 (y + 128), clamp255 (y + 128), clamp255 (y + 128))

/-- The colour of the pixel at MCU-relative `(px, py)` of MCU `m` (rules R257 to R260). -/
def pixelAt (s : State) (m px py : Nat) : Byte × Byte × Byte :=
  if s.frame.nf = 1 then grayOf (lumaSample s m px py)
  else rgbOf (lumaSample s m px py) (chromaSample s 1 m px py) (chromaSample s 2 m px py)

/-- The address of the first byte of pixel `(x, y)`, before it is taken mod 2^32 (rule R261). -/
def pixelAddr (s : State) (x y : Nat) : Nat := s.outBase.toNat + 3 * (y * s.frame.width.toNat + x)

/-- PIXEL WRITE (rule R261). -/
def writePixel (mem : List Host.Cell) (a : Nat) (c : Byte × Byte × Byte) : List Host.Cell :=
  memWrite (memWrite (memWrite mem a c.1) (a + 1) c.2.1) (a + 2) c.2.2

/-- The column and row of the image at MCU-relative `(px, py)` of MCU `m` (rule R255). -/
def imageXY (s : State) (m px py : Nat) : Nat × Nat :=
  (m % s.frame.mcuCols.toNat * 8 * s.frame.hmax.toNat + px, m / s.frame.mcuCols.toNat * 8 * s.frame.vmax.toNat + py)

/-- The MCU-relative coordinates `(px, py)` of an MCU, row by row (rule R255). -/
def mcuPixels (s : State) : List (Nat × Nat) :=
  (List.range (8 * s.frame.vmax.toNat)).flatMap fun py =>
    (List.range (8 * s.frame.hmax.toNat)).map fun px => (px, py)

/-- One pixel of MCU `m`, written where it lies inside the image (rules R255 and R262). -/
def convertPixel (s : State) (m : Nat) (mem : List Host.Cell) (p : Nat × Nat) : List Host.Cell :=
  let xy := imageXY s m p.1 p.2
  if xy.1 < s.frame.width.toNat ∧ xy.2 < s.frame.height.toNat then
    writePixel mem (pixelAddr s xy.1 xy.2) (pixelAt s m p.1 p.2)
  else mem

/-- The COLOR step (rule R255); after the frame's last MCU the decode is complete (rule R263). -/
def colorStep (s : State) : State :=
  let last := s.work.toNat + 1 = s.frame.mcuTotal.toNat
  { s with
    mem := (mcuPixels s).foldl (convertPixel s s.work.toNat) s.mem
    work := s.work + 1
    phase := if last then .idle else s.phase
    done := if last then true else s.done }

end Sys2Proof.Machine
end

