-- ==== Sys2Proof/Machine/Entropy.lean ====
section
/-! DEFINITION. The entropy symbols (43_entropy_decoder.md rules R216 to R223) and the opening and closing of an ENTROPY
step around them (rules R224 to R227). A symbol's meaning starts with the cursor past its code word. -/

namespace Sys2Proof.Machine

/-- The block being decoded is finished: the next one of the MCU waits for its DC symbol (rule R224). -/
def endBlock (w : McuWork) : McuWork :=
  match w.todo with
  | [] => w
  | slot :: rest => { w with todo := rest, k := 0, blk := zeroBlock, done := w.done ++ [(slot, w.blk)] }

/-- The working registers and the block being decoded, where there is one. -/
def openBlock (s : State) : Option (McuWork × Slot) :=
  match s.txn with
  | .mcu w =>
    match w.todo with
    | slot :: _ => some (w, slot)
    | [] => none
  | .marker _ => none
  | .none => none

/-- Runs a symbol's effect on the working registers; outside a block there is none (log entry 20). -/
def runSymbol (f : McuWork → Slot → Except Detail McuWork) (s : State) : Out :=
  match openBlock s with
  | some (w, slot) =>
    match f w slot with
    | .ok w' => .next { s with txn := .mcu w' }
    | .error d => .next (raiseError d s)
  | none => .fault .noBlockOpen

/-! ### DC symbols -/

/-- The DC coefficient with magnitude category `n` (rule R216). -/
def dcEffect (s : State) (n : Nat) (w : McuWork) (slot : Slot) : Except Detail McuWork := do
  raiseIf (11 < n) .eDcLength
  let (v, c) ← readBits s n w.cur
  let ch := s.comp[slot.pos].ch
  let dc := wrap32 (w.pred[ch].toInt + extend v n)
  .ok { w with cur := c, pred := w.pred.set ch.val dc ch.isLt, k := 1, blk := zeroBlock.set 0 dc }

/-- DC_CAT0: difference 0, no bits (rule R216). -/
def execDcCat0 (s : State) : Out := runSymbol (dcEffect s 0) s

/-- DC_CAT: `n` magnitude bits (rule R216). -/
def execDcCat (n : Byte) (s : State) : Out := runSymbol (dcEffect s n.toNat) s

/-- DC_BAD: a category above 11 (rule R216). -/
def execDcBad (n : Byte) (s : State) : Out := runSymbol (dcEffect s n.toNat) s

/-! ### AC symbols -/

/-- The block ends once position 63 is filled (rule R217). -/
def closeIfFull (w : McuWork) : McuWork := if 63 < w.k then endBlock w else w

/-- One pass of the AC loop for a symbol other than EOB, with run `r` and size `n` (rules R217 and R219 to R223). -/
def acEffect (s : State) (r n : Nat) (w : McuWork) (_slot : Slot) : Except Detail McuWork := do
  raiseIf (63 < w.k + r) .eZeroRun
  raiseIf (10 < n) .eAcLength
  if n = 0 then .ok (closeIfFull { w with k := w.k + r })
  else
    let (v, c) ← readBits s n w.cur
    let i := zz (w.k + r)
    .ok (closeIfFull
      { w with cur := c, k := w.k + r + 1, blk := w.blk.set i.val (wrap32 (extend v n)) i.isLt })

/-- AC_EOB: every remaining position stays 0 (rule R218). -/
def execAcEob (s : State) : Out := runSymbol (fun w _ => .ok (endBlock w)) s

/-- AC_ZRL: 16 zero positions (rule R219). -/
def execAcZrl (s : State) : Out := runSymbol (acEffect s 16 0) s

/-- AC_RUN: `r` zero positions (rule R221). -/
def execAcRun (r : BitVec 4) (s : State) : Out := runSymbol (acEffect s r.toNat 0) s

/-- AC_COEF: `r` zero positions and a coefficient of `n` bits (rule R220). -/
def execAcCoef (r n : BitVec 4) (s : State) : Out := runSymbol (acEffect s r.toNat n.toNat) s

/-- AC_BAD: a size above 10, after the run check (rule R223). -/
def execAcBad (r n : BitVec 4) (s : State) : Out := runSymbol (acEffect s r.toNat n.toNat) s

/-- AC_RUN_OVERFLOW: any symbol but EOB whose run passes position 63 (rule R222). -/
def execAcRunOverflow (rs : Byte) (s : State) : Out :=
  runSymbol (acEffect s (runOf rs) (loNibble rs).toNat) s

/-! ### The ENTROPY step around the symbols -/

/-- MCU `m` begins a restart interval (rule R226). -/
def atRestart (s : State) (m : Nat) : Bool :=
  s.frame.restartInterval != 0 && m % s.frame.restartInterval.toNat == 0

/-- The ENTROPY step opens: at a restart boundary the predictors are 0 and the cursor is aligned (rules R225 and
R226), and the MCU's blocks wait in the order of rule R224. -/
def openMcu (s : State) : State :=
  let restart := atRestart s s.mcuDone.toNat
  let w : McuWork :=
    { cur := if restart then align s.cur else s.cur
      pred := if restart then Vector.replicate 3 0 else s.pred
      todo := mcuSlots s
      k := 0
      blk := zeroBlock
      done := [] }
  { s with txn := .mcu w }

/-- The blocks of MCU `m` put into the coefficient store. -/
def storeBlocks (comp : Vector Comp 3) (m : Nat) : List (Slot × Block) → List CoefEntry → List CoefEntry
  | [], coef => coef
  | (slot, blk) :: rest, coef => storeBlocks comp m rest (coefWrite coef m comp[slot.pos].ch slot.idx blk)

/-- The ENTROPY step commits: the cursor, the predictors, `coef[m]` and MCU_DONE (rule R225); after the last MCU the
phase becomes DEQUANT (rule R227). -/
def commitMcu (w : McuWork) (s : State) : State :=
  let last := s.mcuDone.toNat + 1 = s.frame.mcuTotal.toNat
  { s with
    cur := w.cur
    pred := w.pred
    coef := storeBlocks s.comp s.mcuDone.toNat w.done s.coef
    mcuDone := s.mcuDone + 1
    phase := if last then .dequant else s.phase
    work := if last then 0 else s.work
    txn := .none }

end Sys2Proof.Machine
end

