-- ==== Sys2Proof/Machine/Frame.lean ====
section
/-! DEFINITION. SOF0, the frame header (41_segment_parser.md rules R154 to R159). -/

namespace Sys2Proof.Machine

/-- `Channel(id)` (rule R156). -/
def channelOf (nf id : Nat) : Fin 3 := if nf = 1 then 0 else Fin.ofNat 3 (id - 1)

/-- A sampling factor within 1 to 4 (rule R157). -/
def factorLegal (h : BitVec 4) : Bool := 1 ≤ h.toNat && h.toNat ≤ 4

/-- One component entry (rules R155 to R157): `first` is the frame's first entry, `zb` the zero-based-id flag so
far and `seen` the ids given before. Answers the descriptor, the flag and the offset after the entry. -/
def frameEntry (s : State) (nf : Nat) (first zb : Bool) (seen : List Nat) (p : Nat) :
    Except Detail (Comp × Bool × Nat) := do
  let (c, p) ← inByte s p
  let zb := zb || (first && c == 0)
  let id := c.toNat + zb.toNat
  raiseIf (nf == 3 && (id == 4 || id == 5)) .uYiq
  raiseIf (nf == 3 && !(id == 1 || id == 2 || id == 3)) .sBadComponentId
  raiseIf (seen.contains id) .sDupComponent
  let (hv, p) ← inByte s p
  raiseIf (!(factorLegal (hiNibble hv) && factorLegal (loNibble hv))) .sBadSampling
  let (tq, p) ← inByte s p
  raiseIf (3 < tq.toNat) .rQtId
  .ok (⟨BitVec.ofNat 9 id, channelOf nf id, (hiNibble hv).setWidth 3, (loNibble hv).setWidth 3,
    Fin.ofNat 4 tq.toNat, 0, 0⟩, zb, p)

/-- The last `left` component entries of the frame header (rule R155). -/
def frameEntries (s : State) (nf : Nat) : Nat → Bool → Bool → List Nat → Nat →
    Except Detail (List Comp × Bool × Nat)
  | 0, _, zb, _, p => .ok ([], zb, p)
  | left + 1, first, zb, seen, p => do
    let (c, zb, p) ← frameEntry s nf first zb seen p
    let (cs, zb, p) ← frameEntries s nf left false zb (c.id.toNat :: seen) p
    .ok (c :: cs, zb, p)

/-- The layout of a 3-component frame is in the profile: luma factors 1 or 2, chroma factors 1 (rule R158). -/
def profileLegal (cs : List Comp) : Bool :=
  cs.all fun c =>
    if c.ch = 0 then (c.h == 1 || c.h == 2) && (c.v == 1 || c.v == 2) else c.h == 1 && c.v == 1

/-- `hmax` and `vmax`: the luma factors of a 3-component frame, 1 and 1 for grayscale (rule R158). -/
def mcuFactors (nf : Nat) (cs : List Comp) : BitVec 3 × BitVec 3 :=
  if nf = 3 then
    match cs.find? (fun c => c.ch == 0) with
    | some c => (c.h, c.v)
    | none => (1, 1)
  else (1, 1)

/-- The first entries of `old` replaced by `cs`; the rest keep their contents (DESIGN CHOICE, log entry 26). -/
def setComps (old : Vector Comp 3) (cs : List Comp) : Vector Comp 3 :=
  Vector.ofFn fun i => cs.getD i.val old[i]

/-- SOF0 COMMIT (rule R159). -/
def commitFrame (s : State) (y x nf : Nat) (zb : Bool) (cs : List Comp) : State :=
  let (hmax, vmax) := mcuFactors nf cs
  let cols := ceilDiv x (8 * hmax.toNat)
  let rows := ceilDiv y (8 * vmax.toNat)
  { s with
    comp := setComps s.comp cs
    frame :=
      { s.frame with
        seen := true
        width := BitVec.ofNat 16 x
        height := BitVec.ofNat 16 y
        nf := BitVec.ofNat 2 nf
        zeroBased := zb
        hmax := hmax
        vmax := vmax
        mcuCols := BitVec.ofNat 32 cols
        mcuRows := BitVec.ofNat 32 rows
        mcuTotal := BitVec.ofNat 32 (cols * rows)
        blocksPerMcu := if nf = 1 then 1 else BitVec.ofNat 32 (hmax.toNat * vmax.toNat + 2) } }

/-- The whole segment (rules R154 to R159), read from offset `p`. -/
def parseSof0 (s : State) (p : Nat) : Except Detail State := do
  raiseIf s.frame.seen .sDupSof
  let (lf, p) ← inU16 s p
  let (prec, p) ← inByte s p
  raiseIf (prec != 8) .uPrecision
  let (y, p) ← inU16 s p
  let (x, p) ← inU16 s p
  raiseIf (x == 0 || y == 0) .sZeroDimension
  let (nf, p) ← inByte s p
  raiseIf (nf == 4) .uCmyk
  raiseIf (nf != 1 && nf != 3) .sBadComponentCount
  raiseIf (lf != 8 + 3 * nf.toNat) .sBadLength
  let (cs, zb, p) ← frameEntries s nf.toNat nf.toNat true false [] p
  raiseIf (nf == 3 && !profileLegal cs) .uSampling
  .ok (commitPos p (commitFrame s y x nf.toNat zb cs))

/-- SOF0 (rules R154 to R159). -/
def execSof0 (s : State) : Out := commitOrRaise s (parseSof0 s (inPos s))

end Sys2Proof.Machine
end

