-- ==== Sys2Proof/Machine/Flags.lean ====
section
/-! DEFINITION. Every flag and every host-visible register (10_state.md section 2), computed from the state, and the
read of a register (40_host_interface.md rule R130). -/

namespace Sys2Proof.Machine

/-- STATUS.BUSY: a decode runs (10_state.md rule R33). -/
def busy (s : State) : Bool := s.phase != .idle

/-- The interrupt output, and STATUS.IRQ (60_exceptions.md rule R276). -/
def irq (s : State) : Bool := s.irqEn && (s.done || s.err)

/-- STATUS.PHASE (rule R33). -/
def phaseCode : Phase → BitVec 3
  | .idle => 0 | .parse => 1 | .extract => 2 | .check => 3
  | .entropy => 4 | .dequant => 5 | .idct => 6 | .color => 7

/-- One bit of a register. -/
def bit (b : Bool) : BitVec 1 := BitVec.ofBool b

/-- CTRL reads as `IRQ_EN << 2` (rule R32). -/
def ctrlWord (s : State) : Word := 0#29 ++ bit s.irqEn ++ 0#2

/-- STATUS (rule R33). -/
def statusWord (s : State) : Word :=
  0#25 ++ phaseCode s.phase ++ bit (irq s) ++ bit s.err ++ bit s.done ++ bit (busy s)

/-- ERRCODE (rule R34). -/
def errcodeWord (s : State) : Word := 0#16 ++ s.errDetail ++ 0#4 ++ s.errClass

/-- IMG_SIZE (rule R39). -/
def imgSizeWord (s : State) : Word := s.frame.height ++ s.frame.width

/-- IMG_INFO (rule R40). -/
def imgInfoWord (s : State) : Word :=
  s.frame.restartInterval ++ 0#5 ++ s.frame.vmax ++ 0#1 ++ s.frame.hmax ++ bit s.frame.zeroBased ++
    bit s.frame.seen ++ s.frame.nf

/-- The Huffman table HT_SEL names (rules R44 and R45). -/
def selectedHt (s : State) : HTable :=
  if s.htSel.getLsbD 0 then s.acHt[(s.htSel.extractLsb' 4 2).toFin] else s.dcHt[(s.htSel.extractLsb' 4 2).toFin]

/-- HT_SEL.INDEX (rule R44). -/
def selectedIndex (s : State) : Nat := (s.htSel.extractLsb' 8 8).toNat

/-- `valid` of rule R45. -/
def selectedValid (s : State) : Bool :=
  (selectedHt s).populated && selectedIndex s < offsetAt (selectedHt s) 16

/-- HT_CODE (rule R45). -/
def htCodeWord (s : State) : Word :=
  if selectedValid s then
    1#1 ++ 0#2 ++ (selectedHt s).len.getD (selectedIndex s) 0 ++ (selectedHt s).code.getD (selectedIndex s) 0
  else 0

/-- HT_SYM (rule R46). -/
def htSymWord (s : State) : Word :=
  bit (selectedHt s).populated ++ 0#7 ++
    (if (selectedHt s).populated then BitVec.ofNat 8 (offsetAt (selectedHt s) 16) else 0#8) ++ 0#8 ++
    (if selectedValid s then (selectedHt s).symbols.getD (selectedIndex s) 0 else 0#8)

/-- The value a host read of word number `w` returns (rules R30 and R130); the offsets 0x40 to 0xFC read 0 (rule
R47). -/
def regRead (s : State) (w : BitVec 6) : Word :=
  if w.toNat = 0 then 0x4A504547
  else if w.toNat = 1 then ctrlWord s
  else if w.toNat = 2 then statusWord s
  else if w.toNat = 3 then errcodeWord s
  else if w.toNat = 4 then s.inBase
  else if w.toNat = 5 then s.inLen
  else if w.toNat = 6 then s.outBase
  else if w.toNat = 7 then s.outCap
  else if w.toNat = 8 then imgSizeWord s
  else if w.toNat = 9 then imgInfoWord s
  else if w.toNat = 10 then s.frame.mcuTotal
  else if w.toNat = 11 then s.mcuDone
  else if w.toNat = 12 then s.entLen
  else if w.toNat = 13 then s.htSel
  else if w.toNat = 14 then htCodeWord s
  else if w.toNat = 15 then htSymWord s
  else 0

end Sys2Proof.Machine
end

