-- ==== Sys2Proof/Machine/HostPort.lean ====
section
/-! DEFINITION. The host's register accesses (40_host_interface.md rules R130 to R139). -/

namespace Sys2Proof.Machine

/-- WRITE CTRL (rule R131): IRQ_EN always, then ABORT while BUSY or START while idle. A START whose output buffer
overlaps the register window is outside the contract and refused (20_memory.md rule R85; log entry 9). -/
def ctrlWrite (v : Word) (s : State) : Out :=
  let t := { s with irqEn := v.getLsbD 2 }
  if busy s then
    if v.getLsbD 1 then .next (abortDecode t) else .next t
  else if v.getLsbD 0 then
    if outputOverlapsWindow s then .refused .outputOverlapsWindow else .next (startDecode t)
  else .next t

/-- READ (rule R130): no side effect; the value goes to the host. -/
def execRead (w : BitVec 6) (s : State) : Out := .next { s with rdata := regRead s w }

/-- READ_TABLE_ENTRY (rule R139). -/
def execReadTableEntry (port : TablePort) (s : State) : Out :=
  .next { s with rdata := match port with | .code => htCodeWord s | .sym => htSymWord s }

/-- WRITE_CTRL (rule R131). -/
def execWriteCtrl (v : Word) (s : State) : Out := ctrlWrite v s

/-- START: a CTRL write with bit 0 set (rules R131 and R133). -/
def execStart (v : Word) (s : State) : Out := ctrlWrite v s

/-- ABORT: a CTRL write with bit 1 set (rules R131 and R134). -/
def execAbort (v : Word) (s : State) : Out := ctrlWrite v s

/-- SET_IRQ_EN: a CTRL write with neither bit set (rules R131 and R135). -/
def execSetIrqEn (v : Word) (s : State) : Out := ctrlWrite v s

/-- WRITE_CONFIG (rule R132): dropped while BUSY. -/
def execWriteConfig (r : ConfigReg) (v : Word) (s : State) : Out :=
  if busy s then .next s
  else
    match r with
    | .inBase => .next { s with inBase := v }
    | .inLen => .next { s with inLen := v }
    | .outBase => .next { s with outBase := v }
    | .outCap => .next { s with outCap := v }

/-- CLEAR_STATUS (rule R136): bit 1 clears DONE, bit 2 clears ERR; ERRCODE stays. -/
def execClearStatus (v : Word) (s : State) : Out :=
  .next { s with done := s.done && !v.getLsbD 1, err := s.err && !v.getLsbD 2 }

/-- SELECT_TABLE_ENTRY (rule R137): the reserved bits stay 0. -/
def execSelectTableEntry (v : Word) (s : State) : Out := .next { s with htSel := v &&& 0x0000FF31 }

/-- WRITE_READ_ONLY: a write to a read-only or reserved offset changes nothing (rule R138). -/
def execWriteReadOnly (_w : BitVec 6) (_v : Word) (s : State) : Out := .next s

end Sys2Proof.Machine
end

