-- ==== Sys2Proof/Machine/Marker.lean ====
section
/-! DEFINITION. The header markers that have no table or frame to load (41_segment_parser.md rules R151, R152 and R166 to
R170): the start of the stream, skipped segments, TEM, fill bytes, and the markers that end the decode
with an error. A meaning starts with the cursor past the marker's code byte. -/

namespace Sys2Proof.Machine

/-- SKIP (rule R166): the length field, then its payload unread. -/
def skipSegment (s : State) : Out :=
  commitOrRaise s do
    let (len, p) ← inU16 s (inPos s)
    raiseIf (len < 2) .sBadLength
    let p ← skipBytesAt s (len - 2) p
    .ok (commitPos p s)

/-- SOI as the first two bytes of the stream (rule R151). -/
def execSoi (s : State) : Out := .next { commitPos (inPos s) s with soiDone := true }

/-- TEM: no length field, no payload, no action (rule R167). -/
def execTem (s : State) : Out := .next (commitPos (inPos s) s)

/-- FILL: a 0xFF that a further 0xFF follows is dropped, and the marker fetch goes on in the same step (rule R152). -/
def execFill (s : State) : Out := .next s

/-- NOT_MARKER: a byte other than 0xFF where a marker is expected (rule R152). -/
def execNotMarker (_b : Byte) (s : State) : Out := .next (raiseError .sNotMarker s)

/-- NUL_MARKER: code 0x00 is an unknown marker (rule R170). -/
def execNulMarker (s : State) : Out := .next (raiseError .sUnknownMarker s)

/-- RES: codes 0x02 to 0xBF are unknown markers (rule R170). -/
def execRes (_code : Byte) (s : State) : Out := .next (raiseError .sUnknownMarker s)

/-- An embedded SOI (rule R168). -/
def execSoiEmbedded (s : State) : Out := .next (raiseError .sEmbeddedSoi s)

/-- EOI before SOS (rule R168). -/
def execEoiHeader (s : State) : Out := .next (raiseError .sEoiBeforeSos s)

/-- A restart marker before the scan (rule R168). -/
def execRstnHeader (_n : BitVec 3) (s : State) : Out := .next (raiseError .sRstBeforeSos s)

/-- DAC: arithmetic coding (rule R169). -/
def execDac (s : State) : Out := .next (raiseError .uArithmetic s)

/-- SOF1: an unsupported frame type (rule R169). -/
def execSof1 (s : State) : Out := .next (raiseError .uSofType s)

/-- SOF2: an unsupported frame type (rule R169). -/
def execSof2 (s : State) : Out := .next (raiseError .uSofType s)

/-- SOF3: an unsupported frame type (rule R169). -/
def execSof3 (s : State) : Out := .next (raiseError .uSofType s)

/-- SOF5: an unsupported frame type (rule R169). -/
def execSof5 (s : State) : Out := .next (raiseError .uSofType s)

/-- SOF6: an unsupported frame type (rule R169). -/
def execSof6 (s : State) : Out := .next (raiseError .uSofType s)

/-- SOF7: an unsupported frame type (rule R169). -/
def execSof7 (s : State) : Out := .next (raiseError .uSofType s)

/-- JPG: an unsupported frame type (rule R169). -/
def execJpg (s : State) : Out := .next (raiseError .uSofType s)

/-- SOF9: an unsupported frame type (rule R169). -/
def execSof9 (s : State) : Out := .next (raiseError .uSofType s)

/-- SOF10: an unsupported frame type (rule R169). -/
def execSof10 (s : State) : Out := .next (raiseError .uSofType s)

/-- SOF11: an unsupported frame type (rule R169). -/
def execSof11 (s : State) : Out := .next (raiseError .uSofType s)

/-- SOF13: an unsupported frame type (rule R169). -/
def execSof13 (s : State) : Out := .next (raiseError .uSofType s)

/-- SOF14: an unsupported frame type (rule R169). -/
def execSof14 (s : State) : Out := .next (raiseError .uSofType s)

/-- SOF15: an unsupported frame type (rule R169). -/
def execSof15 (s : State) : Out := .next (raiseError .uSofType s)

/-- DNL: skipped by its length (rule R166). -/
def execDnl (s : State) : Out := skipSegment s

/-- DHP: skipped by its length (rule R166). -/
def execDhp (s : State) : Out := skipSegment s

/-- EXP: skipped by its length (rule R166). -/
def execExp (s : State) : Out := skipSegment s

/-- APPn: skipped by its length (rule R166). -/
def execAppn (_n : BitVec 4) (s : State) : Out := skipSegment s

/-- JPGn: skipped by its length (rule R166). -/
def execJpgn (_n : BitVec 4) (s : State) : Out := skipSegment s

/-- COM: skipped by its length (rule R166). -/
def execCom (s : State) : Out := skipSegment s

end Sys2Proof.Machine
end

