-- ==== Sys2Proof/Machine/Scan.lean ====
section
/-! DEFINITION. SOS, the scan header (41_segment_parser.md rules R163 to R165), and the byte forms of the
entropy-coded segment after it (rules R171 and R172). -/

namespace Sys2Proof.Machine

/-! ### The scan header -/

/-- The frame position with `comp[i].id = id` (rule R164). -/
def findComp (s : State) (comp : Vector Comp 3) (id : Nat) : Option (Fin 3) :=
  (List.finRange 3).find? fun i => i.val < s.frame.nf.toNat && comp[i].id.toNat == id

/-- The last `left` component references of the scan header (rule R164): `seen` holds the ids given before.
Answers the component descriptors, the frame positions in scan order and the offset after. -/
def scanEntries (s : State) : Nat → List Nat → Vector Comp 3 → Nat →
    Except Detail (List (Fin 3) × Vector Comp 3 × Nat)
  | 0, _, comp, p => .ok ([], comp, p)
  | left + 1, seen, comp, p => do
    let (cs, p) ← inByte s p
    let id := cs.toNat + s.frame.zeroBased.toNat
    match findComp s comp id with
    | none => .error .sBadComponentId
    | some i =>
      raiseIf (seen.contains id) .sDupComponent
      let (t, p) ← inByte s p
      raiseIf (3 < (hiNibble t).toNat || 3 < (loNibble t).toNat) .rHtId
      let c := { comp[i] with td := Fin.ofNat 4 (hiNibble t).toNat, ta := Fin.ofNat 4 (loNibble t).toNat }
      let (is, comp, p) ← scanEntries s left (id :: seen) (comp.set i.val c i.isLt) p
      .ok (i :: is, comp, p)

/-- The first entries of `old` replaced by `is`; the rest keep their contents (DESIGN CHOICE, log entry 26). -/
def setScan (old : Vector (Fin 3) 3) (is : List (Fin 3)) : Vector (Fin 3) 3 :=
  Vector.ofFn fun j => is.getD j.val old[j]

/-- The whole segment (rules R163 to R165), read from offset `p`. -/
def parseSos (s : State) (p : Nat) : Except Detail State := do
  raiseIf (!s.frame.seen) .sSosBeforeSof
  let (len, p) ← inU16 s p
  let (ns, p) ← inByte s p
  raiseIf (ns == 0 || s.frame.nf.toNat < ns.toNat) .sBadScanCount
  raiseIf (ns.toNat < s.frame.nf.toNat) .uPartialScan
  raiseIf (len != 6 + 2 * ns.toNat) .sBadLength
  let (is, comp, p) ← scanEntries s ns.toNat [] s.comp p
  let (ss, p) ← inByte s p
  let (se, p) ← inByte s p
  let (a, p) ← inByte s p
  raiseIf (ss != 0 || se != 63 || a != 0) .uProgressive
  .ok (commitPos p
    { s with comp := comp, scan := setScan s.scan is, ns := BitVec.ofNat 2 ns.toNat, phase := .extract })

/-- SOS (rules R163 to R165). -/
def execSos (s : State) : Out := commitOrRaise s (parseSos s (inPos s))

/-! ### The entropy-coded segment -/

/-- Byte `b` at position `n` of the buffer. -/
def putEnt (ent : List Byte) (n : Nat) (b : Byte) : List Byte := ent.take n ++ b :: ent.drop (n + 1)

/-- APPEND to the entropy buffer (rule R172), which ends the EXTRACT step. -/
def appendEnt (b : Byte) (s : State) : Out :=
  commitOrRaise s do
    raiseIf (s.entLen.toNat == s.params.entropyCap) .aEntropyBuf
    .ok (commitPos (inPos s) { s with ent := putEnt s.ent s.entLen.toNat b, entLen := s.entLen + 1 })

/-- A data byte (rule R171). -/
def execEcsData (b : Byte) (s : State) : Out := appendEnt b s

/-- `FF 00`: a data byte 0xFF (rule R171). -/
def execEcsStuffedFf (s : State) : Out := appendEnt 0xFF s

/-- A restart marker: dropped, its number unchecked (rule R171). -/
def execEcsRstn (_n : BitVec 3) (s : State) : Out := .next (commitPos (inPos s) s)

/-- EOI: the end of the segment and of the stream (rule R171). -/
def execEcsEoi (s : State) : Out := .next { commitPos (inPos s) s with phase := .check }

/-- A fill byte: dropped, and the fetch goes on in the same step (rule R171). -/
def execEcsFill (s : State) : Out := .next s

/-- Any other marker (rule R171). -/
def execEcsBadMarker (_c : Byte) (s : State) : Out := .next (raiseError .sBadMarkerInScan s)

end Sys2Proof.Machine
end

