-- ==== Sys2Proof/Machine/Tables.lean ====
section
/-! DEFINITION. DQT, DHT and DRI (41_segment_parser.md rules R160 to R162) and the table builder
(42_table_builder.md). -/

namespace Sys2Proof.Machine

/-! ### Quantization tables -/

/-- The 64 values of an entry, 8 or 16 bits each (rule R160). -/
def dqtValues (s : State) (wide : Bool) (p : Nat) : Except Detail (List Nat × Nat) :=
  if wide then inU16s s 64 p
  else do
    let (bs, p) ← inBytes s 64 p
    .ok (bs.map BitVec.toNat, p)

/-- The entry loop of rule R160. `fuel` bounds the passes: each takes at least 65 of the `len` bytes. -/
def dqtLoop (s : State) (len : Nat) : Nat → Nat → Vector QTable 4 → Nat →
    Except Detail (Nat × Vector QTable 4 × Nat)
  | 0, consumed, qt, p => .ok (consumed, qt, p)
  | fuel + 1, consumed, qt, p =>
    if len ≤ consumed then .ok (consumed, qt, p)
    else do
      let (pt, p) ← inByte s p
      raiseIf (3 < (loNibble pt).toNat) .rQtId
      raiseIf (1 < (hiNibble pt).toNat) .sBadTableClass
      let (vals, p) ← dqtValues s (hiNibble pt == 1) p
      let tq : Fin 4 := Fin.ofNat 4 (loNibble pt).toNat
      dqtLoop s len fuel (consumed + 1 + 64 * ((hiNibble pt).toNat + 1))
        (qt.set tq.val ⟨true, placeZigzag vals⟩ tq.isLt) p

/-- The whole segment (rule R160), read from offset `p`. -/
def parseDqt (s : State) (p : Nat) : Except Detail State := do
  let (len, p) ← inU16 s p
  let (consumed, qt, p) ← dqtLoop s len len 2 s.qt p
  raiseIf (consumed != len) .sBadLength
  .ok (commitPos p { s with qt := qt })

/-- DQT (rule R160). -/
def execDqt (s : State) : Out := commitOrRaise s (parseDqt s (inPos s))

/-! ### The table builder -/

/-- `Offsets(count)`: the running sums, from `acc` on (42_table_builder.md rule R200). -/
def offsetsFrom : Nat → List Nat → List Nat
  | acc, [] => [acc]
  | acc, c :: cs => acc :: offsetsFrom (acc + c) cs

/-- `Codes(offset)`: for each symbol position, in order, its code and length (rule R201), from length `L` and the
running code `code` on. -/
def codesFrom : List Nat → Nat → Nat → List (Nat × Nat)
  | [], _, _ => []
  | c :: cs, L, code =>
    (List.range c).map (fun i => (code + i, L)) ++ codesFrom cs (L + 1) ((code + c) * 2)

/-- The table of 16 counts and a symbol list (rules R200, R201 and R204). -/
def buildHt (counts : List Byte) (syms : List Byte) : HTable :=
  { populated := true
    count := Vector.ofFn fun i => counts.getD i.val 0
    offset := Vector.ofFn fun k => BitVec.ofNat 8 ((offsetsFrom 0 (counts.map BitVec.toNat)).getD k.val 0)
    symbols := syms
    code := (codesFrom (counts.map BitVec.toNat) 1 0).map fun c => BitVec.ofNat 24 c.1
    len := (codesFrom (counts.map BitVec.toNat) 1 0).map fun c => BitVec.ofNat 5 c.2 }

/-! ### Huffman tables -/

/-- The entry loop of rule R161. `fuel` bounds the passes: each takes at least 17 of the `len` bytes. -/
def dhtLoop (s : State) (len : Nat) : Nat → Nat → Vector HTable 4 → Vector HTable 4 → Nat →
    Except Detail (Nat × Vector HTable 4 × Vector HTable 4 × Nat)
  | 0, consumed, dc, ac, p => .ok (consumed, dc, ac, p)
  | fuel + 1, consumed, dc, ac, p =>
    if len ≤ consumed then .ok (consumed, dc, ac, p)
    else do
      let (t, p) ← inByte s p
      raiseIf (3 < (loNibble t).toNat) .rHtId
      raiseIf (1 < (hiNibble t).toNat) .sBadTableClass
      let (counts, p) ← inBytes s 16 p
      let total := (counts.map BitVec.toNat).sum
      raiseIf (162 < total) .rHtTooMany
      let (syms, p) ← inBytes s total p
      let th : Fin 4 := Fin.ofNat 4 (loNibble t).toNat
      let table := buildHt counts syms
      if hiNibble t = 0 then
        dhtLoop s len fuel (consumed + 17 + total) (dc.set th.val table th.isLt) ac p
      else dhtLoop s len fuel (consumed + 17 + total) dc (ac.set th.val table th.isLt) p

/-- The whole segment (rule R161), read from offset `p`. -/
def parseDht (s : State) (p : Nat) : Except Detail State := do
  let (len, p) ← inU16 s p
  let (consumed, dc, ac, p) ← dhtLoop s len len 2 s.dcHt s.acHt p
  raiseIf (consumed != len) .sBadLength
  .ok (commitPos p { s with dcHt := dc, acHt := ac })

/-- DHT (rule R161). -/
def execDht (s : State) : Out := commitOrRaise s (parseDht s (inPos s))

/-! ### Restart interval -/

/-- The whole segment (rule R162), read from offset `p`. -/
def parseDri (s : State) (p : Nat) : Except Detail State := do
  let (len, p) ← inU16 s p
  raiseIf (len != 4) .sBadLength
  let (ri, p) ← inU16 s p
  .ok (commitPos p { s with frame := { s.frame with restartInterval := BitVec.ofNat 16 ri } })

/-- DRI (rule R162). -/
def execDri (s : State) : Out := commitOrRaise s (parseDri s (inPos s))

end Sys2Proof.Machine
end

