-- ==== Sys2Proof/Machine/Dispatch.lean ====
section
/-! DEFINITION. The dispatch of an instruction to its meaning. -/

namespace Sys2Proof.Machine

def exec (i : Instr) (s : State) : Host.Outcome State Fault Refusal :=
  match i with
  -- markers of the header part (30_encoding.md rule R92)
  | .nulMarker => Sys2Proof.Machine.execNulMarker s
  | .tem => Sys2Proof.Machine.execTem s
  | .res code => Sys2Proof.Machine.execRes code s
  | .sof0 => Sys2Proof.Machine.execSof0 s
  | .sof1 => Sys2Proof.Machine.execSof1 s
  | .sof2 => Sys2Proof.Machine.execSof2 s
  | .sof3 => Sys2Proof.Machine.execSof3 s
  | .sof5 => Sys2Proof.Machine.execSof5 s
  | .sof6 => Sys2Proof.Machine.execSof6 s
  | .sof7 => Sys2Proof.Machine.execSof7 s
  | .jpg => Sys2Proof.Machine.execJpg s
  | .sof9 => Sys2Proof.Machine.execSof9 s
  | .sof10 => Sys2Proof.Machine.execSof10 s
  | .sof11 => Sys2Proof.Machine.execSof11 s
  | .sof13 => Sys2Proof.Machine.execSof13 s
  | .sof14 => Sys2Proof.Machine.execSof14 s
  | .sof15 => Sys2Proof.Machine.execSof15 s
  | .dht => Sys2Proof.Machine.execDht s
  | .dac => Sys2Proof.Machine.execDac s
  | .rstnHeader n => Sys2Proof.Machine.execRstnHeader n s
  | .soi => Sys2Proof.Machine.execSoi s
  | .soiEmbedded => Sys2Proof.Machine.execSoiEmbedded s
  | .eoiHeader => Sys2Proof.Machine.execEoiHeader s
  | .sos => Sys2Proof.Machine.execSos s
  | .dqt => Sys2Proof.Machine.execDqt s
  | .dnl => Sys2Proof.Machine.execDnl s
  | .dri => Sys2Proof.Machine.execDri s
  | .dhp => Sys2Proof.Machine.execDhp s
  | .exp => Sys2Proof.Machine.execExp s
  | .appn n => Sys2Proof.Machine.execAppn n s
  | .jpgn n => Sys2Proof.Machine.execJpgn n s
  | .com => Sys2Proof.Machine.execCom s
  | .fill => Sys2Proof.Machine.execFill s
  | .notMarker b => Sys2Proof.Machine.execNotMarker b s
  -- byte forms of the entropy-coded segment (rule R100)
  | .ecsData b => Sys2Proof.Machine.execEcsData b s
  | .ecsStuffedFf => Sys2Proof.Machine.execEcsStuffedFf s
  | .ecsRstn n => Sys2Proof.Machine.execEcsRstn n s
  | .ecsEoi => Sys2Proof.Machine.execEcsEoi s
  | .ecsFill => Sys2Proof.Machine.execEcsFill s
  | .ecsBadMarker c => Sys2Proof.Machine.execEcsBadMarker c s
  -- entropy symbols (rules R102 and R104)
  | .dcCat0 => Sys2Proof.Machine.execDcCat0 s
  | .dcCat n => Sys2Proof.Machine.execDcCat n s
  | .dcBad n => Sys2Proof.Machine.execDcBad n s
  | .acEob => Sys2Proof.Machine.execAcEob s
  | .acZrl => Sys2Proof.Machine.execAcZrl s
  | .acRun r => Sys2Proof.Machine.execAcRun r s
  | .acCoef r n => Sys2Proof.Machine.execAcCoef r n s
  | .acBad r n => Sys2Proof.Machine.execAcBad r n s
  | .acRunOverflow rs => Sys2Proof.Machine.execAcRunOverflow rs s
  -- host register accesses (rule R110)
  | .read word => Sys2Proof.Machine.execRead word s
  | .writeCtrl v => Sys2Proof.Machine.execWriteCtrl v s
  | .start v => Sys2Proof.Machine.execStart v s
  | .abort v => Sys2Proof.Machine.execAbort v s
  | .setIrqEn v => Sys2Proof.Machine.execSetIrqEn v s
  | .writeConfig r v => Sys2Proof.Machine.execWriteConfig r v s
  | .clearStatus v => Sys2Proof.Machine.execClearStatus v s
  | .selectTableEntry v => Sys2Proof.Machine.execSelectTableEntry v s
  | .writeReadOnly word v => Sys2Proof.Machine.execWriteReadOnly word v s
  | .readTableEntry port => Sys2Proof.Machine.execReadTableEntry port s

end Sys2Proof.Machine
end

