-- ==== Sys2Proof/Machine/Idct.lean ====
section
/-! DEFINITION. The dequantizer (44_dequantizer.md) and the inverse transform (45_idct.md).

The ideal transform of rule R245 is computed exactly. With `T k = 2·cos(kπ/16)` the ideal value is
`S / 16`, where `S` is the sum over the coefficients `F(v, u)` of `F·A(x, u)·A(y, v)`, and `A(x, 0) = T 4`,
`A(x, u) = T ((2x+1)·u)`: `S` is an integer combination of `T 0 .. T 7` (log entry 25). Its sign, hence its
floor, is decided in the tower of fields of `√2`, `√(2+√2)` and `√(2+√(2+√2))`, with integers alone. -/

namespace Sys2Proof.Machine

/-! ### Dequantizer -/

/-- The product of rule R241 for each of the 64 coefficients. -/
def dequantBlock (q : Vector Half 64) (b : Block) : Block :=
  Vector.ofFn fun n => sat32 (b[n].toInt * (q[n].toNat : Int))

/-! ### Sums of cosines -/

/-- The integer combination `n0 + n1·T 1 + … + n7·T 7`. -/
structure CosSum where
  n0 : Int
  n1 : Int
  n2 : Int
  n3 : Int
  n4 : Int
  n5 : Int
  n6 : Int
  n7 : Int
  deriving DecidableEq, Repr

/-- Adds `c·T j` for `j` in 0..8; `T 0 = 2` and `T 8 = 0`. -/
def addUnit (a : CosSum) (j : Nat) (c : Int) : CosSum :=
  match j with
  | 0 => { a with n0 := a.n0 + 2 * c }
  | 1 => { a with n1 := a.n1 + c }
  | 2 => { a with n2 := a.n2 + c }
  | 3 => { a with n3 := a.n3 + c }
  | 4 => { a with n4 := a.n4 + c }
  | 5 => { a with n5 := a.n5 + c }
  | 6 => { a with n6 := a.n6 + c }
  | 7 => { a with n7 := a.n7 + c }
  | _ => a

/-- Adds `c·T k` for any `k`: `T (32 - k) = T k` and `T (16 - k) = -T k`. -/
def addCos (a : CosSum) (k : Nat) (c : Int) : CosSum :=
  let r := if k % 32 ≤ 16 then k % 32 else 32 - k % 32
  if r ≤ 8 then addUnit a r c else addUnit a (16 - r) (-c)

/-- The `k` of `A(x, u) = T k`. -/
def basisAngle (x u : Nat) : Nat := if u = 0 then 4 else (2 * x + 1) * u

/-- Adds `F(v, u)·A(x, u)·A(y, v)`, by `T a · T b = T (a + b) + T |a - b|`, for the coefficient at natural index `n`. -/
def addTerm (F : Block) (x y : Nat) (a : CosSum) (n : Fin 64) : CosSum :=
  let p := basisAngle x (n.val % 8)
  let q := basisAngle y (n.val / 8)
  addCos (addCos a (p + q) F[n].toInt) (max p q - min p q) F[n].toInt

/-- `S`: sixteen times the ideal value of sample `i` (rule R245). -/
def idealSum (F : Block) (i : Fin 64) : CosSum :=
  (List.finRange 64).foldl (addTerm F (i.val % 8) (i.val / 8)) ⟨0, 0, 0, 0, 0, 0, 0, 0⟩

/-! ### The sign of a sum of cosines -/

/-- The sign of `a + b·r` for a positive `r`, from the signs of `a`, `b` and `a² - b²·r²`. -/
def signPair (a b d : Int) : Int :=
  if a = b then a else if a = 0 then b else if b = 0 then a else a * d

/-- `a + b·√2`. -/
structure Quad where
  a : Int
  b : Int
  deriving DecidableEq, Repr

/-- The sign of `a + b·√2`. -/
def quadSign (x : Quad) : Int := signPair x.a.sign x.b.sign (x.a * x.a - 2 * (x.b * x.b)).sign

/-- The difference of two such numbers. -/
def quadSub (x y : Quad) : Quad := ⟨x.a - y.a, x.b - y.b⟩

/-- The sum of two such numbers. -/
def quadAdd (x y : Quad) : Quad := ⟨x.a + y.a, x.b + y.b⟩

/-- The product of two such numbers. -/
def quadMul (x y : Quad) : Quad := ⟨x.a * y.a + 2 * (x.b * y.b), x.a * y.b + x.b * y.a⟩

/-- `x + y·√(2+√2)`. -/
structure Oct where
  x : Quad
  y : Quad
  deriving DecidableEq, Repr

/-- The sign of `x + y·√(2+√2)`. -/
def octSign (z : Oct) : Int :=
  signPair (quadSign z.x) (quadSign z.y)
    (quadSign (quadSub (quadMul z.x z.x) (quadMul ⟨2, 1⟩ (quadMul z.y z.y))))

/-- The difference of two such numbers. -/
def octSub (z w : Oct) : Oct := ⟨quadSub z.x w.x, quadSub z.y w.y⟩

/-- The product of two such numbers. -/
def octMul (z w : Oct) : Oct :=
  ⟨quadAdd (quadMul z.x w.x) (quadMul ⟨2, 1⟩ (quadMul z.y w.y)), quadAdd (quadMul z.x w.y) (quadMul z.y w.x)⟩

/-- The even-indexed part of a sum of cosines, over `T 4 = √2`, `T 2 = √(2+√2)` and `T 6 = T 2·(T 4 - 1)`. -/
def evenPart (a : CosSum) : Oct := ⟨⟨a.n0, a.n4⟩, ⟨a.n2 - a.n6, a.n6⟩⟩

/-- The odd-indexed part over `T 1 = √(2+√(2+√2))`: `T 3 = T 1·(T 2 - 1)`, `T 5 = T 1·(T 4 - T 2 + 1)`,
`T 7 = T 1·(T 2·T 4 - T 4 - 1)`. -/
def oddPart (a : CosSum) : Oct := ⟨⟨a.n1 - a.n3 + a.n5 - a.n7, a.n5 - a.n7⟩, ⟨a.n3 - a.n5, a.n7⟩⟩

/-- The sign of a sum of cosines. -/
def cosSign (a : CosSum) : Int :=
  signPair (octSign (evenPart a)) (octSign (oddPart a))
    (octSign (octSub (octMul (evenPart a) (evenPart a))
      (octMul ⟨⟨2, 0⟩, ⟨1, 0⟩⟩ (octMul (oddPart a) (oddPart a)))))

/-! ### Floor and rounding of `S / 16` -/

/-- `S - 16·m`. -/
def minusSixteen (a : CosSum) (m : Int) : CosSum := { a with n0 := a.n0 - 16 * m }

/-- `16·m ≤ S`. -/
def atLeast (a : CosSum) (m : Int) : Bool := 0 ≤ cosSign (minusSixteen a m)

/-- The greatest `m` from `lo` on with `16·m ≤ S`, below `lo + 2^bits`. -/
def floorSearch (a : CosSum) : Nat → Int → Int
  | 0, lo => lo
  | bits + 1, lo => floorSearch a bits (if atLeast a (lo + 2 ^ bits) then lo + 2 ^ bits else lo)

/-- A guess at the floor of `S / 16`, from `T k` in units of 2^-64. `floorSixteenth` checks it, so nothing rests on
these constants but the time a search takes. -/
def floorGuess (a : CosSum) : Int :=
  (a.n0 * 18446744073709551616 + a.n1 * 36184590117719704236 + a.n2 * 34085138582348259979
    + a.n3 * 30675814286423109684 + a.n4 * 26087635650665564425 + a.n5 * 20496923806967563977
    + a.n6 * 14118526676175099533 + a.n7 * 7197562482978204377) / 295147905179352825856

/-- `floor(S / 16)`. Every sum of 64 terms of 32-bit coefficients lies in the range searched. -/
def floorSixteenth (a : CosSum) : Int :=
  if atLeast a (floorGuess a) && !atLeast a (floorGuess a + 1) then floorGuess a
  else floorSearch a 40 (-2 ^ 39)

/-- `-S`. -/
def negSum (a : CosSum) : CosSum := ⟨-a.n0, -a.n1, -a.n2, -a.n3, -a.n4, -a.n5, -a.n6, -a.n7⟩

/-- `S / 16` rounded to the nearest integer, ties away from zero: `sign·floor(|S|/16 + 1/2)` (rule R248). -/
def nearestSixteenth (a : CosSum) : Int :=
  if 0 ≤ cosSign a then floorSixteenth { a with n0 := a.n0 + 8 }
  else -floorSixteenth { negSum a with n0 := -a.n0 + 8 }

/-- `S / 16` is an integer. -/
def isExact (a : CosSum) : Bool := cosSign (minusSixteen a (floorSixteenth a)) == 0

/-- One sample of `P_IDCT(F)`: the default of rule R248, or the floor or the ceiling of the ideal value as the free
value chooses (rule R247). -/
def idctSample (kind : IdctKind) (F : Block) (i : Fin 64) : S32 :=
  let a := idealSum F i
  match kind with
  | .nearest => sat32 (nearestSixteenth a)
  | .other n =>
    if isExact a then sat32 (floorSixteenth a)
    else if Config.idctRoundsUp n F i then sat32 (floorSixteenth a + 1)
    else sat32 (floorSixteenth a)

/-- `P_IDCT(F)`. -/
def idctBlock (kind : IdctKind) (F : Block) : Block := Vector.ofFn fun i => idctSample kind F i

/-! ### The steps -/

/-- `coef[m]` with `f` applied to every block of the MCU. -/
def mapBlocks (comp : Vector Comp 3) (f : Comp → Block → Block) (m : Nat) :
    List Slot → List CoefEntry → List CoefEntry
  | [], coef => coef
  | slot :: rest, coef =>
    let c := comp[slot.pos]
    mapBlocks comp f m rest (coefWrite coef m c.ch slot.idx (f c (coefRead coef m c.ch slot.idx)))

/-- MCU `work` is the frame's last (rules R240, R249 and R255). -/
def lastWork (s : State) : Bool := s.work.toNat + 1 == s.frame.mcuTotal.toNat

/-- The DEQUANT step (44_dequantizer.md rule R240). -/
def dequantStep (s : State) : State :=
  { s with
    coef := mapBlocks s.comp (fun c b => dequantBlock s.qt[c.tq].q b) s.work.toNat (mcuSlots s) s.coef
    work := if lastWork s then 0 else s.work + 1
    phase := if lastWork s then .idct else s.phase }

/-- The IDCT step (45_idct.md rule R249). -/
def idctStep (s : State) : State :=
  { s with
    coef := mapBlocks s.comp (fun _ b => idctBlock s.params.idct b) s.work.toNat (mcuSlots s) s.coef
    work := if lastWork s then 0 else s.work + 1
    phase := if lastWork s then .color else s.phase }

end Sys2Proof.Machine
end

