-- ==== Sys2Proof/Machine/Sequencer.lean ====
section
/-! DEFINITION. The sequencer: what the block does next (00_scope.md rule R13, 10_state.md rule R33), the outside world's
next input (rule R12), and the fetch that `step` runs. -/

namespace Sys2Proof.Machine

/-- What the next step does: run an instruction in the state the fetch leaves, make a move of the sequencer or of
the outside world that is no instruction, or stop. -/
inductive Fetched where
  | instr (i : Instr) (s : State)
  | move (s : State)
  | fault (f : Fault)
  | refuse (r : Refusal)
  deriving DecidableEq, Repr

/-! ### The block -/

/-- The start-of-image check (41_segment_parser.md rule R151). -/
def fetchStart (s : State) : Fetched :=
  if s.inLen.toNat < 2 then .move (raiseError .sNoSoi s)
  else
    match decode .start (.bytes (peekInput s (inPos s))) with
    | .ok i n => .instr i (moveTo (inPos s + n) s)
    | .reject .noSoi => .move (raiseError .sNoSoi s)
    | .reject _ => .move (raiseError .sTruncated s)

/-- A marker or a byte form at the input cursor, in context `c` (rules R152 and R171). -/
def fetchInput (c : Ctx) (s : State) : Fetched :=
  match decode c (.bytes (peekInput s (inPos s))) with
  | .ok i n => .instr i (moveTo (inPos s + n) s)
  | .reject _ => .move (raiseError .sTruncated s)

/-- The Huffman table of the block's next symbol (43_entropy_decoder.md rules R216 and R217). -/
def symbolTable (s : State) (w : McuWork) (slot : Slot) : HTable :=
  if w.k = 0 then s.dcHt[s.comp[slot.pos].td] else s.acHt[s.comp[slot.pos].ta]

/-- The context of the block's next symbol. -/
def symbolCtx (w : McuWork) : Ctx := if w.k = 0 then .dc else .ac w.k

/-- The next symbol of the block being decoded: its code word is read and its class decoded (rules R214, R216 and
R217). -/
def fetchSymbol (s : State) (w : McuWork) (slot : Slot) : Fetched :=
  match decodeSymbol s (symbolTable s w slot) w.cur with
  | .error d => .move (raiseError d s)
  | .ok (sym, c) =>
    match decode (symbolCtx w) (.bytes [sym]) with
    | .ok i _ => .instr i { s with txn := .mcu { w with cur := c } }
    | .reject _ => .move s

/-- The ENTROPY step (rule R225): opened, run symbol by symbol, committed. -/
def fetchEntropy (s : State) : Fetched :=
  match s.txn with
  | .mcu w =>
    match w.todo with
    | slot :: _ => fetchSymbol s w slot
    | [] => .move (commitMcu w s)
  | .none => .move (openMcu s)
  | .marker _ => .move (openMcu s)

/-- A frame component's quantization table has been loaded (41_segment_parser.md rule R173). -/
def qtReady (s : State) : Bool :=
  (s.comp.toList.take s.frame.nf.toNat).all fun c => s.qt[c.tq].populated

/-- A scan component's Huffman tables have been loaded (rule R173). -/
def htReady (s : State) : Bool :=
  (s.scan.toList.take s.ns.toNat).all fun i =>
    s.dcHt[s.comp[i].td].populated && s.acHt[s.comp[i].ta].populated

/-- CHECK (rules R173 and R174), and the entry of the ENTROPY phase (43_entropy_decoder.md rule R210). -/
def checkStep (s : State) : Except Detail State := do
  raiseIf (!qtReady s) .rQtUnpopulated
  raiseIf (!htReady s) .rHtUnpopulated
  raiseIf (s.params.maxBlocks < s.frame.mcuTotal.toNat * s.frame.blocksPerMcu.toNat) .aCoefStore
  raiseIf (s.outCap.toNat < 3 * s.frame.width.toNat * s.frame.height.toNat) .aOutput
  .ok { s with cur := ⟨0, 0⟩, pred := Vector.replicate 3 0, mcuDone := 0, phase := .entropy }

/-- A move that commits or raises. -/
def moveOrRaise (s : State) (r : Except Detail State) : Fetched :=
  match r with
  | .ok t => .move t
  | .error d => .move (raiseError d s)

/-- The block's next step, by its phase (00_scope.md rule R13); an idle block takes none (60_exceptions.md rule R285). -/
def fetchBlock (s : State) : Fetched :=
  match s.phase with
  | .idle => .move s
  | .parse => if s.soiDone then fetchInput .header s else fetchStart s
  | .extract => fetchInput .ecs s
  | .check => moveOrRaise s (checkStep s)
  | .entropy => fetchEntropy s
  | .dequant => .move (dequantStep s)
  | .idct => .move (idctStep s)
  | .color => .move (colorStep s)

/-! ### The outside world -/

/-- A register access (40_host_interface.md; 20_memory.md rule R76 refuses what is no aligned 32-bit word). -/
def fetchAccess (a : RegAccess) (s : State) : Fetched :=
  match decode (.host (busy s)) (.access a) with
  | .ok i _ => .instr i s
  | .reject .outsideWindow => .fault .outsideWindow
  | .reject .unaligned => .refuse .unaligned
  | .reject _ => .refuse .badWidth

/-- POLL (30_encoding.md rule R112): a read; where the value is not the awaited one, the block takes a turn and the
read is repeated (log entry 3). -/
def pollRegister (w : BitVec 6) (mask val : Word) (s : State) : State :=
  if regRead s w &&& mask = val then { s with rdata := regRead s w }
  else { s with rdata := regRead s w, inputs := .turn :: .poll w mask val :: s.inputs }

/-- The outside world's input `e`, already taken from `inputs` (00_scope.md rule R12). -/
def fetchExternal (e : Input) (s : State) : Fetched :=
  match e with
  | .turn => fetchBlock s
  | .access a => fetchAccess a s
  | .poll w mask val => .move (pollRegister w mask val s)
  | .memWrite addr b => .move { s with mem := memWrite s.mem addr.toNat b }
  | .memRead addr => .move { s with rdata := (memRead s addr.toNat).setWidth 32 }
  | .reset => .move (resetBlock s)

/-- The model is inside a block step (log entry 1). -/
def inBlockStep (s : State) : Bool := s.txn != .none

/-- Who moves next: the block while it is inside a step (20_memory.md rule R77), then the outside world's inputs in
order, and the block alone where there are none (70_reset_and_hazards.md rule R311; log entry 2). -/
def fetch (s : State) : Fetched :=
  if inBlockStep s then fetchBlock s
  else
    match s.inputs with
    | [] => fetchBlock s
    | e :: rest => fetchExternal e { s with inputs := rest }

/-- Runs what the fetch answers. -/
def runFetched (f : Fetched) : Out :=
  match f with
  | .instr i s => exec i s
  | .move s => .next s
  | .fault r => .fault r
  | .refuse r => .refused r

/-- One whole block step of 00_scope.md rule R13: the model's steps until none of them is inside it, at most `fuel`. -/
def finishBlockStep (fuel : Nat) (o : Out) : Out :=
  match fuel, o with
  | 0, o => o
  | n + 1, .next s => if inBlockStep s then finishBlockStep n (runFetched (fetchBlock s)) else .next s
  | _ + 1, .fault r => .fault r
  | _ + 1, .refused r => .refused r

/-! ### A table word as the next instruction -/

/-- A Huffman table whose one code word, the bit 0, stands for `sym`. -/
def oneCodeTable (sym : Byte) : HTable :=
  { populated := true
    count := Vector.ofFn fun i => if i.val = 0 then 1 else 0
    offset := Vector.ofFn fun k => if k.val = 0 then 0 else 1
    symbols := [sym], code := [0], len := [1] }

/-- Writes `bs` from address `a` on. -/
def writeBytes (mem : List Host.Cell) : Nat → List Byte → List Host.Cell
  | _, [] => mem
  | a, b :: bs => writeBytes (memWrite mem a b) (a + 1) bs

/-- The `n` bytes from address `a` on set to what an unlisted byte reads as. -/
def clearBytes (mem : List Host.Cell) (a n : Nat) : List Host.Cell :=
  mem.filter fun c => !((c.1 + 2 ^ 32 - a % 2 ^ 32) % 2 ^ 32 < n)

/-- A whole stream segment is at most this long: the marker and 65535 bytes (30_encoding.md rule R93). -/
def longestSegment : Nat := 65537

/-- The next block step reads the words `bs` of the stream, then zeros, in a PARSE step with SOI passed or not. -/
def placeInput (soi : Bool) (bs : List Byte) (s : State) : State :=
  { s with
    mem := writeBytes (clearBytes s.mem s.inBase.toNat longestSegment) s.inBase.toNat bs
    inLen := BitVec.ofNat 32 longestSegment
    ipos := 0, phase := .parse, soiDone := soi, txn := .none, inputs := [] }

/-- The next step reads the symbol `sym` of an MCU in progress, at zigzag position `k`, and zero bits after it. -/
def placeSymbol (k : Nat) (sym : Byte) (s : State) : State :=
  { s with
    dcHt := s.dcHt.set s.comp[(0 : Fin 3)].td.val (oneCodeTable sym) s.comp[(0 : Fin 3)].td.isLt
    acHt := s.acHt.set s.comp[(0 : Fin 3)].ta.val (oneCodeTable sym) s.comp[(0 : Fin 3)].ta.isLt
    ent := [0, 0, 0], entLen := 3, cur := ⟨0, 0⟩
    phase := .entropy, inputs := []
    txn := .mcu ⟨⟨0, 0⟩, s.pred, [⟨0, 0⟩], k, zeroBlock, []⟩ }

/-- The words of a table row placed where the next step fetches, in the context of `tableCtx` (log entry 12). -/
def placeTableWord (nbits w : Nat) (s : State) : State :=
  match tableCtx nbits w with
  | .dc => placeSymbol 0 (BitVec.ofNat 8 w) s
  | .ac k => placeSymbol k (BitVec.ofNat 8 w) s
  | .start => placeInput false (tableBytes nbits w) s
  | .header | .ecs | .host _ => placeInput true (tableBytes nbits w) s

end Sys2Proof.Machine
end

