-- ==== Sys2Proof/Safety.lean ====
section
/-! DEFINITION. The terms in which claims are stated: whose step is next, what the input and the entropy buffer hold at a
cursor, which segments are legal, what an error leaves, the ideal transform, and the invariant of the
machine. -/

namespace Sys2Proof.Machine

/-! ### Whose step is next (00_scope.md rules R12 and R13) -/

/-- The state in which the block takes the next step, where the next step is the block's. -/
def blockTurn (s : State) : Option State :=
  if inBlockStep s then some s
  else
    match s.inputs with
    | [] => some s
    | .turn :: rest => some { s with inputs := rest }
    | _ :: _ => none

/-- What the outside world does next and the state it finds, where the next step is not the block's. -/
def hostTurn (s : State) : Option (Input × State) :=
  if inBlockStep s then none
  else
    match s.inputs with
    | [] => none
    | .turn :: _ => none
    | e :: rest => some (e, { s with inputs := rest })

/-- One whole block step of rule R13 takes at most this many steps of the model after its first: one for each input
byte, or one for each symbol of at most 48 blocks and the end of the step. -/
def stepBudget (s : State) : Nat := s.inLen.toNat + 4096

/-- One whole block step of rule R13. -/
def wholeBlockStep (s : State) : Out := finishBlockStep (stepBudget s) (runFetched (fetchBlock s))

/-- `n` whole block steps. -/
def blockSteps : Nat → State → Out
  | 0, s => .next s
  | n + 1, s =>
    match wholeBlockStep s with
    | .next t => blockSteps n t
    | .fault f => .fault f
    | .refused r => .refused r

/-! ### What an error leaves (60_exceptions.md rule R272) -/

/-- The state after the error of class `cls` and detail `det`: the last completed step's, with STATUS and ERRCODE. -/
def stopped (cls : BitVec 4) (det : Byte) (s : State) : State :=
  { s with txn := .none, phase := .idle, err := true, errClass := cls, errDetail := det }

/-- The ERRCODE values of rule R273. -/
def errcodes : List Nat :=
  [0x0101, 0x0201, 0x0301, 0x0401, 0x0501, 0x0601, 0x0701, 0x0801, 0x0901, 0x0A01, 0x0B01, 0x0C01, 0x0D01, 0x0E01,
    0x0F01, 0x1001, 0x1101, 0x1201] ++
  [0x2002, 0x2102, 0x2202, 0x2302, 0x2402, 0x2502, 0x2602, 0x2702, 0x3003, 0x3103, 0x3203, 0x3303, 0x3403] ++
  [0x4004, 0x4104, 0x4204, 0x4304, 0x4404, 0x5005, 0x5105, 0x5205, 0x6006]

/-! ### The output buffer and the register window (20_memory.md rule R85) -/

/-- A byte of the output buffer has the address of a byte of the register window. -/
def outputMeetsWindow (s : State) : Prop :=
  ∃ i j, i < s.outCap.toNat ∧ j < 256 ∧ (s.outBase.toNat + i) % 2 ^ 32 = (s.params.csrBase.toNat + j) % 2 ^ 32

/-! ### The input at an offset (41_segment_parser.md rule R150) -/

/-- The input holds the bytes `bs` from offset `p` on. -/
def inputAt (s : State) (p : Nat) (bs : List Byte) : Prop :=
  p + bs.length ≤ s.inLen.toNat ∧
    ∀ i, i < bs.length → memRead s (s.inBase.toNat + (p + i)) = bs.getD i 0

/-- The input holds the first `n` of the bytes `bs` from offset `p` on and ends there, before the last of them
(rule R150). -/
def inputEndsIn (s : State) (p : Nat) (bs : List Byte) (n : Nat) : Prop :=
  n < bs.length ∧ inputAt s p (bs.take n) ∧ s.inLen.toNat = p + n

/-! ### Legal segments (30_encoding.md rules R94 to R98) -/

/-- A DQT entry of rule R95. -/
def qtEntryLegal (e : QtEntry) : Prop :=
  e.id.toNat ≤ 3 ∧ e.vals.length = 64 ∧ ∀ v ∈ e.vals, v < if e.wide then 65536 else 256

/-- A DHT entry of rule R96. -/
def htEntryLegal (e : HtEntry) : Prop :=
  e.cls.toNat ≤ 1 ∧ e.id.toNat ≤ 3 ∧ e.counts.length = 16 ∧ (e.counts.map BitVec.toNat).sum = e.syms.length ∧
    e.syms.length ≤ 162

/-- The zero-based-id flag (41_segment_parser.md rule R155). -/
def zeroBasedIds : List SofEntry → Bool
  | [] => false
  | e :: _ => e.id == 0

/-- A component id after the remap of rule R155. -/
def frameId (zb : Bool) (e : SofEntry) : Nat := e.id.toNat + zb.toNat

/-- A component entry whose factors and table id pass rule R157. -/
def sofFieldsLegal (e : SofEntry) : Prop :=
  1 ≤ e.h.toNat ∧ e.h.toNat ≤ 4 ∧ 1 ≤ e.v.toNat ∧ e.v.toNat ≤ 4 ∧ e.tq.toNat ≤ 3

/-- Component entries of a frame of `nf` components that pass rules R155 and R157 one after the other. -/
def sofEntriesPass (nf : Nat) (es : List SofEntry) : Prop :=
  (∀ e ∈ es, sofFieldsLegal e) ∧ (es.map (frameId (zeroBasedIds es))).Nodup ∧
    (nf = 3 → ∀ e ∈ es, 1 ≤ frameId (zeroBasedIds es) e ∧ frameId (zeroBasedIds es) e ≤ 3)

/-- The sampling profile of rule R158. -/
def profileOf (es : List SofEntry) : Prop :=
  ∀ e ∈ es,
    if frameId (zeroBasedIds es) e = 1 then (e.h = 1 ∨ e.h = 2) ∧ (e.v = 1 ∨ e.v = 2) else e.h = 1 ∧ e.v = 1

/-- The sampling factors of the MCU (rule R158). -/
def mcuSampling (es : List SofEntry) : Nat × Nat :=
  if es.length = 3 then
    match es.find? (fun e => frameId (zeroBasedIds es) e == 1) with
    | some e => (e.h.toNat, e.v.toNat)
    | none => (1, 1)
  else (1, 1)

/-- The id of a scan entry after the remap of rule R155 (rule R164). -/
def scanId (s : State) (e : SosEntry) : Nat := e.id.toNat + s.frame.zeroBased.toNat

/-- The frame has a component with the id of the scan entry (rule R164). -/
def scanIdInFrame (s : State) (e : SosEntry) : Prop :=
  ∃ i : Fin 3, i.val < s.frame.nf.toNat ∧ s.comp[i].id.toNat = scanId s e

/-- Scan entries that pass rule R164 one after the other. -/
def sosEntriesPass (s : State) (es : List SosEntry) : Prop :=
  (∀ e ∈ es, scanIdInFrame s e ∧ e.td.toNat ≤ 3 ∧ e.ta.toNat ≤ 3) ∧ (es.map (scanId s)).Nodup

/-- The component descriptor of an entry (rules R155 and R156). -/
def compOf (nf : Nat) (zb : Bool) (e : SofEntry) : Comp :=
  { id := BitVec.ofNat 9 (frameId zb e)
    ch := if nf = 1 then 0 else Fin.ofNat 3 (frameId zb e - 1)
    h := BitVec.ofNat 3 e.h.toNat, v := BitVec.ofNat 3 e.v.toNat
    tq := Fin.ofNat 4 e.tq.toNat, td := 0, ta := 0 }

/-! ### The entropy buffer at a cursor (43_entropy_decoder.md rules R211 and R212) -/

/-- The cursor as a number of bits from the buffer's start. -/
def bitPos (c : Cursor) : Nat := 8 * c.byteI.toNat + c.bitI.val

/-- The cursor after `n` bits from the buffer's start. -/
def cursorAt (n : Nat) : Cursor := ⟨BitVec.ofNat 32 (n / 8), Fin.ofNat 8 n⟩

/-- Bit `n` of the entropy buffer, most significant bit of each byte first (20_memory.md rule R74). -/
def entBit (s : State) (n : Nat) : Bool := (s.ent.getD (n / 8) 0).getLsbD (7 - n % 8)

/-- The buffer holds the bits `bits` from the cursor on. -/
def bitsAt (s : State) (c : Cursor) (bits : List Bool) : Prop :=
  bitPos c + bits.length ≤ 8 * s.entLen.toNat ∧
    ∀ i, i < bits.length → entBit s (bitPos c + i) = bits.getD i false

/-- The value of a bit string, its first bit the most significant. -/
def bitsValue (bits : List Bool) : Nat := bits.foldl (fun v b => 2 * v + b.toNat) 0

/-- The value of magnitude bits: a top bit 1 is positive, a top bit 0 negative (30_encoding.md rule R105). -/
def magnitude : List Bool → Int
  | [] => 0
  | true :: bits => bitsValue (true :: bits)
  | false :: bits => (bitsValue bits : Int) - (2 ^ (bits.length + 1) - 1)

/-- The `n`-bit binary form of `v`, most significant bit first (42_table_builder.md rule R201). -/
def codeBits (v n : Nat) : List Bool := (List.range n).map fun i => v.testBit (n - 1 - i)

/-! ### Canonical codes (42_table_builder.md) -/

/-- `Σ count[L]·2^(16-L)`, for the lengths from `L` on. -/
def kraftFrom : Nat → List Nat → Nat
  | _, [] => 0
  | L, c :: cs => c * 2 ^ (16 - L) + kraftFrom (L + 1) cs

/-- `Σ count[L]·2^(16-L)` (rule R202). -/
def kraftSum (counts : List Byte) : Nat := kraftFrom 1 (counts.map BitVec.toNat)

/-- The number of codes of length at most `k` (rule R200). -/
def codesUpTo (counts : List Byte) (k : Nat) : Nat := ((counts.take k).map BitVec.toNat).sum

/-- The running code before the symbols of length `k + 1` (rule R201). -/
def firstCode (counts : List Byte) : Nat → Nat
  | 0 => 0
  | k + 1 => 2 * (firstCode counts k + (counts.getD k 0).toNat)

/-- The code word of symbol position `j` (rule R201). -/
def codeWord (t : HTable) (j : Nat) : List Bool := codeBits (t.code.getD j 0).toNat (t.len.getD j 0).toNat

/-! ### The ideal transform (45_idct.md rule R245) -/

/-- `C(k)`. -/
noncomputable def idealScale (k : Nat) : ℝ := if k = 0 then 1 / Real.sqrt 2 else 1

/-- `f(x, y)` at natural index `i = 8y + x`. -/
noncomputable def idealSample (F : Block) (i : Fin 64) : ℝ :=
  1 / 4 * ∑ u : Fin 8, ∑ v : Fin 8,
    idealScale u.val * idealScale v.val * ((blockAt F (8 * v.val + u.val)).toInt : ℝ)
      * Real.cos ((2 * (i.val % 8 : ℕ) + 1) * u.val * Real.pi / 16)
      * Real.cos ((2 * (i.val / 8 : ℕ) + 1) * v.val * Real.pi / 16)

/-! ### The invariant -/

/-- A populated Huffman table holds the codes of its counts (42_table_builder.md rule R204). -/
def tableBuilt (t : HTable) : Prop :=
  ∃ counts syms, counts.length = 16 ∧ (counts.map BitVec.toNat).sum = syms.length ∧ syms.length ≤ 162 ∧
    t = buildHt counts syms

/-- What a committed frame header leaves (41_segment_parser.md rules R155 to R159). -/
structure FrameOk (s : State) : Prop where
  count    : s.frame.nf = 1 ∨ s.frame.nf = 3
  width    : s.frame.width ≠ 0
  height   : s.frame.height ≠ 0
  hmax     : s.frame.hmax = 1 ∨ s.frame.hmax = 2
  vmax     : s.frame.vmax = 1 ∨ s.frame.vmax = 2
  gray     : s.frame.nf = 1 → s.frame.hmax = 1 ∧ s.frame.vmax = 1 ∧ s.comp[(0 : Fin 3)].ch = 0
  cols     : s.frame.mcuCols.toNat = ceilDiv s.frame.width.toNat (8 * s.frame.hmax.toNat)
  rows     : s.frame.mcuRows.toNat = ceilDiv s.frame.height.toNat (8 * s.frame.vmax.toNat)
  total    : s.frame.mcuTotal.toNat = s.frame.mcuCols.toNat * s.frame.mcuRows.toNat
  blocks   : s.frame.blocksPerMcu.toNat =
    if s.frame.nf = 1 then 1 else s.frame.hmax.toNat * s.frame.vmax.toNat + 2
  channels : s.frame.nf = 3 → ∀ i j : Fin 3, s.comp[i].ch = s.comp[j].ch → i = j
  ids      : s.frame.nf = 3 → ∀ i : Fin 3, s.comp[i].id.toNat = s.comp[i].ch.val + 1
  factors  : s.frame.nf = 3 → ∀ i : Fin 3,
    if s.comp[i].ch = 0 then s.comp[i].h = s.frame.hmax ∧ s.comp[i].v = s.frame.vmax
    else s.comp[i].h = 1 ∧ s.comp[i].v = 1

/-- What a committed scan header leaves (41_segment_parser.md rule R164). -/
structure ScanOk (s : State) : Prop where
  seen     : s.frame.seen = true
  count    : s.ns = s.frame.nf
  live     : ∀ i ∈ s.scan.toList.take s.ns.toNat, i.val < s.frame.nf.toNat
  distinct : (s.scan.toList.take s.ns.toNat).Nodup

/-- What a passed CHECK leaves (41_segment_parser.md rule R173). -/
structure Checked (s : State) : Prop where
  tables : qtReady s = true ∧ htReady s = true
  store  : s.frame.mcuTotal.toNat * s.frame.blocksPerMcu.toNat ≤ s.params.maxBlocks
  output : 3 * s.frame.width.toNat * s.frame.height.toNat ≤ s.outCap.toNat

/-- The working registers inside an ENTROPY step. -/
structure McuOk (s : State) (w : McuWork) : Prop where
  /-- The blocks done and the blocks to do are those of the MCU, in order (43_entropy_decoder.md rule R224). -/
  slots  : w.done.map Prod.fst ++ w.todo = mcuSlots s
  /-- The zigzag position is one of a block; with no block left it is the first. -/
  index  : w.k ≤ 63
  closed : w.todo = [] → w.k = 0
  /-- The bit cursor lies in the entropy buffer or at its end (rule R211). -/
  cursor : bitPos w.cur ≤ 8 * s.entLen.toNat
  /-- The block in progress is 0 at every zigzag position not reached yet (rules R217 and R218). -/
  zeros  : ∀ j, w.k ≤ j → j ≤ 63 → w.blk[zz j] = 0

/-- The invariant of the machine. -/
structure Inv (s : State) : Prop where
  /-- Host memory is in canonical form. -/
  memory     : Memory.wf s.mem = true
  /-- DONE and ERR are never both 1 (10_state.md rule R33). -/
  exclusive  : ¬(s.done = true ∧ s.err = true)
  /-- While BUSY, DONE, ERR and ERRCODE are 0 (40_host_interface.md rule R136). -/
  running    : busy s = true → s.done = false ∧ s.err = false ∧ errcodeWord s = 0
  /-- ERRCODE is 0 where DONE is 1 (46_color.md rule R263). -/
  noError    : s.done = true → errcodeWord s = 0
  /-- ERRCODE is 0 or a value of 60_exceptions.md rule R273. -/
  listed     : errcodeWord s = 0 ∨ (errcodeWord s).toNat ∈ errcodes
  /-- ERR comes with an ERRCODE (60_exceptions.md rule R272). -/
  coded      : s.err = true → errcodeWord s ≠ 0
  /-- The reserved bits of HT_SEL are 0 (10_state.md rule R44). -/
  reserved   : s.htSel &&& 0xFFFF00CE = 0
  /-- An idle block is inside no step. -/
  idle       : s.phase = .idle → s.txn = .none
  /-- Inside a parser step the cursor lies past the step's start and in the input. -/
  parsing    : ∀ p, s.txn = .marker p →
    (s.phase = .parse ∨ s.phase = .extract) ∧ s.ipos.toNat < p.toNat ∧ p.toNat ≤ s.inLen.toNat
  /-- While BUSY the parser's cursor lies in the input (41_segment_parser.md rule R150). -/
  consumed   : busy s = true → s.ipos.toNat ≤ s.inLen.toNat
  /-- The entropy buffer holds ENT_LEN bytes and no more than its capacity (10_state.md rule R54). -/
  buffered   : s.entLen.toNat ≤ s.ent.length ∧ s.entLen.toNat ≤ s.params.entropyCap
  /-- While BUSY every buffered byte has been read from the input. -/
  extracted  : busy s = true → s.entLen.toNat ≤ s.ipos.toNat
  /-- Before a frame header the frame descriptor is 0 but for the restart interval (10_state.md rule R49). -/
  noFrame    : s.frame.seen = false → s.frame = { noFrame with restartInterval := s.frame.restartInterval }
  /-- After it, the descriptor is the one of a legal frame. -/
  frame      : s.frame.seen = true → FrameOk s
  /-- After the scan header. -/
  scan       : 2 ≤ (phaseCode s.phase).toNat → ScanOk s
  /-- After CHECK. -/
  checked    : 4 ≤ (phaseCode s.phase).toNat → Checked s
  /-- MCU_DONE stays below MCU_TOTAL in the ENTROPY phase. -/
  decoding   : s.phase = .entropy → s.mcuDone.toNat < s.frame.mcuTotal.toNat
  /-- The work index stays below MCU_TOTAL in the phases after it. -/
  working    : 5 ≤ (phaseCode s.phase).toNat →
    s.mcuDone = s.frame.mcuTotal ∧ s.work.toNat < s.frame.mcuTotal.toNat
  /-- From the ENTROPY phase on the bit cursor lies in the entropy buffer or at its end (10_state.md rule R55). -/
  cursor     : 4 ≤ (phaseCode s.phase).toNat → bitPos s.cur ≤ 8 * s.entLen.toNat
  /-- An open ENTROPY step has consistent working registers. -/
  mcu        : ∀ w, s.txn = .mcu w → s.phase = .entropy ∧ McuOk s w
  /-- Every populated Huffman table holds its codes. -/
  dcTables   : ∀ t : Fin 4, s.dcHt[t].populated = true → tableBuilt s.dcHt[t]
  acTables   : ∀ t : Fin 4, s.acHt[t].populated = true → tableBuilt s.acHt[t]

end Sys2Proof.Machine
end

