-- ==== Sys2Proof/Certificates/Slice0/Obligations.lean ====
section
/-! DEFINITION. The statements for the provers. A conclusion `exec i s = .next { s with … }` says the whole next state: every
field it does not name, host memory included, is that of `s`. -/

open Sys2Proof Sys2Proof.Machine

/-! ### Encodings (30_encoding.md) -/

/-- Decoding an encoded well-formed instruction, whatever follows it, gives it back with its length. -/
def Obligations.DecodeReadsEncodedInstruction : Prop :=
  ∀ (i : Instr) (c : Ctx), wellFormed i = true → fits c i = true →
    (∀ bs rest, encode i = .bytes bs → decode c (.bytes (bs ++ rest)) = .ok i (instrLen i)) ∧
    (∀ a, encode i = .access a → decode c (.access a) = .ok i 0)

/-- What the decoder accepts is well-formed, belongs to its context, and has the words read as its encoding. -/
def Obligations.DecodedInstructionReencodes : Prop :=
  (∀ c bs i n, decode c (.bytes bs) = .ok i n →
    wellFormed i = true ∧ fits c i = true ∧ n = instrLen i ∧ ∃ ws rest, encode i = .bytes ws ∧ bs = ws ++ rest) ∧
  (∀ c a i n, decode c (.access a) = .ok i n →
    wellFormed i = true ∧ fits c i = true ∧ n = 0 ∧
      encode i = .access { a with value := if a.write then a.value else 0 })

/-- Words written out from the spec's encodings. -/
def Obligations.SpecEncodingsDecode : Prop :=
  decode .start (.bytes [0b11111111, 0b11011000]) = .ok .soi 2 ∧
  decode .header (.bytes [0b11111111, 0b11000000]) = .ok .sof0 2 ∧
  decode .header (.bytes [0b11111111, 0b11000100]) = .ok .dht 2 ∧
  decode .header (.bytes [0b11111111, 0b11011011]) = .ok .dqt 2 ∧
  decode .header (.bytes [0b11111111, 0b11101111]) = .ok (.appn 15) 2 ∧
  decode .header (.bytes [0b11111111, 0b11111111, 0b00000001]) = .ok .fill 1 ∧
  decode .ecs (.bytes [0b11111111, 0b00000000]) = .ok .ecsStuffedFf 2 ∧
  decode .ecs (.bytes [0b11111111, 0b11010111]) = .ok (.ecsRstn 7) 2 ∧
  decode .dc (.bytes [0b00001011]) = .ok (.dcCat 11) 1 ∧
  decode (.ac 1) (.bytes [0b11110000]) = .ok .acZrl 1 ∧
  decode (.ac 1) (.bytes [0b00101010]) = .ok (.acCoef 2 10) 1 ∧
  decode (.host false) (.access ⟨true, 0x34, 4, 0x00000110⟩) = .ok (.selectTableEntry 0x00000110) 0

/-! ### A step runs the decoded instruction -/

/-- In the block's turn, a parser step runs the marker or byte form at its cursor, with the cursor past its bytes
(the model's step: log entry 1). -/
def Obligations.StepRunsParserInstruction : Prop :=
  ∀ (s u : State) (i : Instr) (n : Nat), blockTurn s = some u →
    (u.phase = .parse → u.soiDone = false → 2 ≤ u.inLen.toNat →
      decode .start (.bytes (peekInput u (inPos u))) = .ok i n → step s = exec i (moveTo (inPos u + n) u)) ∧
    (u.phase = .parse → u.soiDone = true →
      decode .header (.bytes (peekInput u (inPos u))) = .ok i n → step s = exec i (moveTo (inPos u + n) u)) ∧
    (u.phase = .extract →
      decode .ecs (.bytes (peekInput u (inPos u))) = .ok i n → step s = exec i (moveTo (inPos u + n) u))

/-- In the block's turn, inside an MCU, the step runs the entropy symbol whose code word the buffer holds at the
cursor, with the cursor past the code word (the model's step: log entry 1); where the symbol search fails, it is the
error entry of E_NO_CODE or E_END_OF_DATA (rule R214). -/
def Obligations.StepRunsEntropySymbol : Prop :=
  ∀ (s u : State) (w : McuWork) (slot : Slot) (rest : List Slot) (table : HTable),
    blockTurn s = some u → u.phase = .entropy → u.txn = .mcu w → w.todo = slot :: rest →
    table = (if w.k = 0 then u.dcHt[u.comp[slot.pos].td] else u.acHt[u.comp[slot.pos].ta]) →
    (∀ sym c i n, decodeSymbol u table w.cur = .ok (sym, c) →
      decode (if w.k = 0 then .dc else .ac w.k) (.bytes [sym]) = .ok i n →
      step s = exec i { u with txn := .mcu { w with cur := c } }) ∧
    (∀ d, decodeSymbol u table w.cur = .error d →
      (d = .eNoCode ∧ step s = .next (stopped 4 0x40 u)) ∨ (d = .eEndOfData ∧ step s = .next (stopped 4 0x41 u)))

/-- A register access of the host runs the access it encodes; one that is no aligned 32-bit word inside the window
is refused or faults, by name: the model's choice, log entries 21 and 22. -/
def Obligations.StepRunsHostAccess : Prop :=
  ∀ (s u : State) (a : RegAccess), hostTurn s = some (.access a, u) →
    (∀ i n, decode (.host (busy u)) (.access a) = .ok i n → step s = exec i u) ∧
    (256 ≤ a.off → step s = .fault .outsideWindow) ∧
    (a.off < 256 → a.width ≠ 4 → step s = .refused .badWidth) ∧
    (a.off < 256 → a.width = 4 → a.off % 4 ≠ 0 → step s = .refused .unaligned)

/-! ### Host accesses (40_host_interface.md) -/

/-- Rule R130: a read changes nothing but the value the host receives, and each register reads as its rule says. -/
def Obligations.RegisterReadsReturnTheirRules : Prop :=
  ∀ (s : State) (w : BitVec 6), ∃ v : Word,
    (w.toNat ≠ 14 → w.toNat ≠ 15 → exec (.read w) s = .next { s with rdata := v }) ∧
    (w.toNat = 14 → exec (.readTableEntry .code) s = .next { s with rdata := v }) ∧
    (w.toNat = 15 → exec (.readTableEntry .sym) s = .next { s with rdata := v }) ∧
    (w.toNat = 0 → v = 0x4A504547) ∧
    (w.toNat = 1 → v = if s.irqEn then 4 else 0) ∧
    (w.toNat = 2 →
      v.getLsbD 0 = decide (s.phase ≠ .idle) ∧ v.getLsbD 1 = s.done ∧ v.getLsbD 2 = s.err ∧
      v.getLsbD 3 = (s.irqEn && (s.done || s.err)) ∧ v.extractLsb' 4 3 = phaseCode s.phase ∧ v.toNat < 128) ∧
    (w.toNat = 3 → v.toNat = s.errDetail.toNat * 256 + s.errClass.toNat) ∧
    (w.toNat = 4 → v = s.inBase) ∧ (w.toNat = 5 → v = s.inLen) ∧
    (w.toNat = 6 → v = s.outBase) ∧ (w.toNat = 7 → v = s.outCap) ∧
    (w.toNat = 8 → v.toNat = s.frame.height.toNat * 65536 + s.frame.width.toNat) ∧
    (w.toNat = 9 →
      v.toNat = s.frame.restartInterval.toNat * 65536 + s.frame.vmax.toNat * 256 + s.frame.hmax.toNat * 16
        + s.frame.zeroBased.toNat * 8 + s.frame.seen.toNat * 4 + s.frame.nf.toNat) ∧
    (w.toNat = 10 → v = s.frame.mcuTotal) ∧ (w.toNat = 11 → v = s.mcuDone) ∧
    (w.toNat = 12 → v = s.entLen) ∧ (w.toNat = 13 → v = s.htSel) ∧
    (16 ≤ w.toNat → v = 0)

/-- Rules R45 and R46: what the two registers of the table port show, for every class, id and position. -/
def Obligations.TablePortShowsSelectedEntry : Prop :=
  ∀ (s : State) (t : HTable) (j : Nat),
    (∀ id : Fin 4, id.val = (s.htSel.toNat / 16) % 4 → t = if s.htSel.toNat % 2 = 1 then s.acHt[id] else s.dcHt[id]) →
    j = (s.htSel.toNat / 256) % 256 →
    ∃ code sym : Word,
      exec (.readTableEntry .code) s = .next { s with rdata := code } ∧
      exec (.readTableEntry .sym) s = .next { s with rdata := sym } ∧
      (t.populated = true → j < (t.offset.toList.getD 16 0).toNat →
        code.toNat = 2 ^ 31 + (t.len.getD j 0).toNat * 2 ^ 24 + (t.code.getD j 0).toNat ∧
        sym.toNat = 2 ^ 31 + (t.offset.toList.getD 16 0).toNat * 2 ^ 16 + (t.symbols.getD j 0).toNat) ∧
      (t.populated = true → (t.offset.toList.getD 16 0).toNat ≤ j →
        code = 0 ∧ sym.toNat = 2 ^ 31 + (t.offset.toList.getD 16 0).toNat * 2 ^ 16) ∧
      (t.populated = false → code = 0 ∧ sym = 0)

/-- Rules R131 and R135: a CTRL write sets IRQ_EN from bit 2 and does nothing else, unless bit 1 aborts a running decode
or bit 0 starts one while idle. The four encodings of a CTRL write are one write. -/
def Obligations.CtrlWriteFollowsItsBits : Prop :=
  ∀ (s : State) (v : Word) (i : Instr), i = .start v ∨ i = .abort v ∨ i = .setIrqEn v ∨ i = .writeCtrl v →
    (s.phase ≠ .idle → v.getLsbD 1 = false → exec i s = .next { s with irqEn := v.getLsbD 2 }) ∧
    (s.phase = .idle → v.getLsbD 0 = false → exec i s = .next { s with irqEn := v.getLsbD 2 }) ∧
    (s.phase ≠ .idle → v.getLsbD 1 = true →
      exec i s = .next { s with
        irqEn := v.getLsbD 2, txn := .none, phase := .idle, err := true, errClass := 6, errDetail := 0x60 })

/-- Rules R133 and R85: START while idle begins a fresh decode; it is refused where the output buffer overlaps the register
window, at START by the model's choice (log entry 9). Component entries and scan positions keep their old contents by the
model's choice (log entry 26). -/
def Obligations.StartBeginsFreshDecode : Prop :=
  ∀ (s : State) (v : Word), s.phase = .idle → v.getLsbD 0 = true →
    (outputMeetsWindow s → exec (.start v) s = .refused .outputOverlapsWindow) ∧
    (¬outputMeetsWindow s → ∃ qt dcHt acHt,
      exec (.start v) s = .next { s with
        irqEn := v.getLsbD 2, done := false, err := false, errClass := 0, errDetail := 0, mcuDone := 0
        soiDone := false, ipos := 0, work := 0, ns := 0, entLen := 0, cur := ⟨0, 0⟩
        pred := Vector.replicate 3 0, txn := .none, phase := .parse
        frame := { seen := false, width := 0, height := 0, nf := 0, zeroBased := false, hmax := 0, vmax := 0,
                   restartInterval := 0, mcuCols := 0, mcuRows := 0, mcuTotal := 0, blocksPerMcu := 0 }
        qt := qt, dcHt := dcHt, acHt := acHt } ∧
      ∀ t : Fin 4, qt[t] = { s.qt[t] with populated := false } ∧
        dcHt[t] = { s.dcHt[t] with populated := false } ∧ acHt[t] = { s.acHt[t] with populated := false })

/-- Rules R132, R136, R137 and R138: a buffer register takes the written value while idle and keeps its own while BUSY; bits
1 and 2 of a STATUS write clear DONE and ERR; HT_SEL takes its defined bits; any other write does nothing. -/
def Obligations.RegisterWritesFollowTheirRules : Prop :=
  ∀ (s : State) (v : Word) (w : BitVec 6),
    (s.phase = .idle →
      exec (.writeConfig .inBase v) s = .next { s with inBase := v } ∧
      exec (.writeConfig .inLen v) s = .next { s with inLen := v } ∧
      exec (.writeConfig .outBase v) s = .next { s with outBase := v } ∧
      exec (.writeConfig .outCap v) s = .next { s with outCap := v }) ∧
    (s.phase ≠ .idle → ∀ r, exec (.writeConfig r v) s = .next s) ∧
    exec (.clearStatus v) s = .next { s with
      done := if v.getLsbD 1 then false else s.done, err := if v.getLsbD 2 then false else s.err } ∧
    exec (.selectTableEntry v) s = .next { s with htSel := v &&& 0x0000FF31 } ∧
    exec (.writeReadOnly w v) s = .next s

/-! ### Markers of the header (41_segment_parser.md) -/

/-- Rules R152, R168, R169 and R170: the markers that end the decode. -/
def Obligations.RejectedMarkersStopDecode : Prop :=
  ∀ (s : State),
    exec .nulMarker s = .next (stopped 1 0x0B s) ∧
    (∀ c, exec (.res c) s = .next (stopped 1 0x0B s)) ∧
    (∀ b, exec (.notMarker b) s = .next (stopped 1 0x03 s)) ∧
    exec .soiEmbedded s = .next (stopped 1 0x08 s) ∧
    exec .eoiHeader s = .next (stopped 1 0x09 s) ∧
    (∀ n, exec (.rstnHeader n) s = .next (stopped 1 0x0A s)) ∧
    exec .dac s = .next (stopped 2 0x21 s) ∧
    ∀ i, i = .sof1 ∨ i = .sof2 ∨ i = .sof3 ∨ i = .sof5 ∨ i = .sof6 ∨ i = .sof7 ∨ i = .jpg ∨ i = .sof9 ∨
        i = .sof10 ∨ i = .sof11 ∨ i = .sof13 ∨ i = .sof14 ∨ i = .sof15 →
      exec i s = .next (stopped 2 0x20 s)

/-- Rules R151, R152 and R167: SOI as the start of the stream, TEM, and a fill byte, which leaves the step open (the model's
choice: log entries 1 and 14). -/
def Obligations.MarkersWithoutPayload : Prop :=
  ∀ (s : State),
    exec .soi s = .next { s with soiDone := true, ipos := BitVec.ofNat 32 (inPos s), txn := .none } ∧
    exec .tem s = .next { s with ipos := BitVec.ofNat 32 (inPos s), txn := .none } ∧
    exec .fill s = .next s

/-- Rule R151: the start-of-image check in the block's turn. -/
def Obligations.StartOfImageCheck : Prop :=
  ∀ (s u : State), blockTurn s = some u → u.phase = .parse → u.soiDone = false → u.txn = .none → u.ipos = 0 →
    (u.inLen.toNat < 2 → step s = .next (stopped 1 0x01 u)) ∧
    (inputAt u 0 [0xFF, 0xD8] → step s = .next { u with soiDone := true, ipos := 2 }) ∧
    (∀ b0 b1, inputAt u 0 [b0, b1] → ¬(b0 = 0xFF ∧ b1 = 0xD8) → step s = .next (stopped 1 0x01 u))

/-- Rules R91, R150 and R171: where the input ends inside a marker or a byte form, the decode ends with S_TRUNCATED. -/
def Obligations.TruncatedInputStopsDecode : Prop :=
  ∀ (s u : State), blockTurn s = some u → (u.phase = .parse ∧ u.soiDone = true) ∨ u.phase = .extract →
    (u.inLen.toNat ≤ inPos u ∨ (u.inLen.toNat = inPos u + 1 ∧ inputAt u (inPos u) [0xFF])) →
    step s = .next (stopped 1 0x02 u)

/-- Rule R166: a skipped segment moves only the cursor, past the bytes its length counts. -/
def Obligations.SkippedSegmentMovesOnlyCursor : Prop :=
  ∀ (s : State) (i : Instr) (len : Nat),
    i = .dnl ∨ i = .dhp ∨ i = .exp ∨ i = .com ∨ (∃ n, i = .appn n) ∨ (∃ n, i = .jpgn n) → len < 65536 →
    (inputAt s (inPos s) (be16 len) → 2 ≤ len → inPos s + len ≤ s.inLen.toNat →
      exec i s = .next { s with ipos := BitVec.ofNat 32 (inPos s + len), txn := .none }) ∧
    (inputAt s (inPos s) (be16 len) → len < 2 → exec i s = .next (stopped 1 0x04 s)) ∧
    (inputAt s (inPos s) (be16 len) → s.inLen.toNat < inPos s + len → 2 ≤ len →
      exec i s = .next (stopped 1 0x02 s)) ∧
    (s.inLen.toNat < inPos s + 2 → exec i s = .next (stopped 1 0x02 s))

/-- Rule R162: DRI sets the restart interval, which IMG_INFO shows; a length other than 4 or an input that ends first
stops the decode. -/
def Obligations.DriSetsRestartInterval : Prop :=
  ∀ (s : State) (n : Nat), n < 65536 →
    (inputAt s (inPos s) (be16 4 ++ be16 n) →
      exec .dri s = .next { s with
        frame := { s.frame with restartInterval := BitVec.ofNat 16 n }
        ipos := BitVec.ofNat 32 (inPos s + 4), txn := .none }) ∧
    (inputAt s (inPos s) (be16 n) → n ≠ 4 → exec .dri s = .next (stopped 1 0x04 s)) ∧
    (s.inLen.toNat < inPos s + 2 → exec .dri s = .next (stopped 1 0x02 s)) ∧
    (inputAt s (inPos s) (be16 4) → s.inLen.toNat < inPos s + 4 → exec .dri s = .next (stopped 1 0x02 s)) ∧
    (imgInfoWord { s with frame := { s.frame with restartInterval := BitVec.ofNat 16 n } }).toNat / 65536 = n

/-- Rule R160: a DQT segment of legal entries loads, for each table id, the values of the last entry with that id, at
their natural positions, and changes no other table. -/
def Obligations.DqtLoadsTables : Prop :=
  ∀ (s : State) (es : List QtEntry), (∀ e ∈ es, qtEntryLegal e) → (dqtBytes es).length < 65536 →
    inputAt s (inPos s) (dqtBytes es) →
    ∃ qt, exec .dqt s = .next { s with
        qt := qt, ipos := BitVec.ofNat 32 (inPos s + (dqtBytes es).length), txn := .none } ∧
      ∀ t : Fin 4,
        match es.reverse.find? (fun e => e.id.toNat == t.val) with
        | none => qt[t] = s.qt[t]
        | some e => qt[t].populated = true ∧
          ∀ k : Fin 64, (qt[t].q[zz k.val]).toNat = e.vals.getD k.val 0

/-- Rule R160: the checks of DQT, in order, after any number of legal entries. -/
def Obligations.DqtErrorsInOrder : Prop :=
  ∀ (s : State) (es : List QtEntry) (len : Nat) (pt : Byte), (∀ e ∈ es, qtEntryLegal e) → len < 65536 →
    (inputAt s (inPos s) (be16 len ++ es.flatMap qtEntryBytes ++ [pt]) → (dqtBytes es).length < len →
      3 < pt.toNat % 16 → exec .dqt s = .next (stopped 3 0x30 s)) ∧
    (inputAt s (inPos s) (be16 len ++ es.flatMap qtEntryBytes ++ [pt]) → (dqtBytes es).length < len →
      pt.toNat % 16 ≤ 3 → 1 < pt.toNat / 16 → exec .dqt s = .next (stopped 1 0x11 s)) ∧
    (inputAt s (inPos s) (be16 len ++ es.flatMap qtEntryBytes) →
      (∀ es', es'.length < es.length → es' <+: es → (dqtBytes es').length < len) → len < (dqtBytes es).length →
      exec .dqt s = .next (stopped 1 0x04 s))

/-- Rule R161: a DHT segment of legal entries loads, for each class and id, the table built from the last entry with
that class and id, and changes no other table. -/
def Obligations.DhtLoadsTables : Prop :=
  ∀ (s : State) (es : List HtEntry), (∀ e ∈ es, htEntryLegal e) → (dhtBytes es).length < 65536 →
    inputAt s (inPos s) (dhtBytes es) →
    ∃ dcHt acHt, exec .dht s = .next { s with
        dcHt := dcHt, acHt := acHt, ipos := BitVec.ofNat 32 (inPos s + (dhtBytes es).length), txn := .none } ∧
      ∀ t : Fin 4,
        (match es.reverse.find? (fun e => e.cls.toNat == 0 && e.id.toNat == t.val) with
        | none => dcHt[t] = s.dcHt[t]
        | some e => dcHt[t] = buildHt e.counts e.syms) ∧
        (match es.reverse.find? (fun e => e.cls.toNat == 1 && e.id.toNat == t.val) with
        | none => acHt[t] = s.acHt[t]
        | some e => acHt[t] = buildHt e.counts e.syms)

/-- Rule R161: the checks of DHT, in order, after any number of legal entries. -/
def Obligations.DhtErrorsInOrder : Prop :=
  ∀ (s : State) (es : List HtEntry) (len : Nat) (t : Byte) (counts : List Byte),
    (∀ e ∈ es, htEntryLegal e) → len < 65536 →
    (inputAt s (inPos s) (be16 len ++ es.flatMap htEntryBytes ++ [t]) → (dhtBytes es).length < len →
      3 < t.toNat % 16 → exec .dht s = .next (stopped 3 0x31 s)) ∧
    (inputAt s (inPos s) (be16 len ++ es.flatMap htEntryBytes ++ [t]) → (dhtBytes es).length < len →
      t.toNat % 16 ≤ 3 → 1 < t.toNat / 16 → exec .dht s = .next (stopped 1 0x11 s)) ∧
    (inputAt s (inPos s) (be16 len ++ es.flatMap htEntryBytes ++ t :: counts) → (dhtBytes es).length < len →
      t.toNat % 16 ≤ 3 → t.toNat / 16 ≤ 1 → counts.length = 16 → 162 < (counts.map BitVec.toNat).sum →
      exec .dht s = .next (stopped 3 0x32 s)) ∧
    (inputAt s (inPos s) (be16 len ++ es.flatMap htEntryBytes) →
      (∀ es', es'.length < es.length → es' <+: es → (dhtBytes es').length < len) → len < (dhtBytes es).length →
      exec .dht s = .next (stopped 1 0x04 s))

/-- Rules R154 to R159: a frame header with legal fields commits the frame and component descriptors.
That an entry past the frame's components keeps its contents is the model's choice (log entry 26). -/
def Obligations.Sof0CommitsLegalFrame : Prop :=
  ∀ (s : State) (y x : Nat) (es : List SofEntry),
    s.frame.seen = false → 0 < y → y < 65536 → 0 < x → x < 65536 → es.length = 1 ∨ es.length = 3 →
    sofEntriesPass es.length es → (es.length = 3 → profileOf es) →
    inputAt s (inPos s) (sof0Bytes 8 y x es) →
    ∃ comp, exec .sof0 s = .next { s with
        comp := comp
        frame := { s.frame with
          seen := true, width := BitVec.ofNat 16 x, height := BitVec.ofNat 16 y, nf := BitVec.ofNat 2 es.length
          zeroBased := zeroBasedIds es
          hmax := BitVec.ofNat 3 (mcuSampling es).1, vmax := BitVec.ofNat 3 (mcuSampling es).2
          mcuCols := BitVec.ofNat 32 (ceilDiv x (8 * (mcuSampling es).1))
          mcuRows := BitVec.ofNat 32 (ceilDiv y (8 * (mcuSampling es).2))
          mcuTotal := BitVec.ofNat 32 (ceilDiv x (8 * (mcuSampling es).1) * ceilDiv y (8 * (mcuSampling es).2))
          blocksPerMcu := BitVec.ofNat 32
            (if es.length = 1 then 1 else (mcuSampling es).1 * (mcuSampling es).2 + 2) }
        ipos := BitVec.ofNat 32 (inPos s + 8 + 3 * es.length), txn := .none } ∧
      ∀ i : Fin 3, comp[i] =
        match es[i.val]? with
        | some e => compOf es.length (zeroBasedIds es) e
        | none => s.comp[i]

/-- Rule R154: the checks of the frame header's fixed fields, in order. -/
def Obligations.Sof0HeaderErrorsInOrder : Prop :=
  ∀ (s : State) (len y x : Nat) (prec nf : Byte), len < 65536 → y < 65536 → x < 65536 →
    (s.frame.seen = true → exec .sof0 s = .next (stopped 1 0x05 s)) ∧
    (s.frame.seen = false → inputAt s (inPos s) (be16 len ++ [prec]) → prec ≠ 8 →
      exec .sof0 s = .next (stopped 2 0x22 s)) ∧
    (s.frame.seen = false → inputAt s (inPos s) (be16 len ++ [8] ++ be16 y ++ be16 x) → (x = 0 ∨ y = 0) →
      exec .sof0 s = .next (stopped 1 0x0C s)) ∧
    (s.frame.seen = false → inputAt s (inPos s) (be16 len ++ [8] ++ be16 y ++ be16 x ++ [nf]) → x ≠ 0 → y ≠ 0 →
      (nf = 4 → exec .sof0 s = .next (stopped 2 0x23 s)) ∧
      (nf ≠ 1 → nf ≠ 3 → nf ≠ 4 → exec .sof0 s = .next (stopped 1 0x0D s)) ∧
      (nf = 1 ∨ nf = 3 → len ≠ 8 + 3 * nf.toNat → exec .sof0 s = .next (stopped 1 0x04 s)))

/-- Rules R155, R157 and R158: the checks of a frame's component entries, in order, after the entries `es` that pass;
`first` is whether the bad entry is the frame's first, whose id 0 sets the zero-based-id flag. -/
def Obligations.Sof0ComponentErrorsInOrder : Prop :=
  ∀ (s : State) (y x n : Nat) (es : List SofEntry) (bad : SofEntry) (id : Nat),
    s.frame.seen = false → 0 < y → y < 65536 → 0 < x → x < 65536 → n = 1 ∨ n = 3 → sofEntriesPass n es →
    id = frameId (zeroBasedIds (es ++ [bad])) bad → es.length < n →
    (inputAt s (inPos s)
        (be16 (8 + 3 * n) ++ [8] ++ be16 y ++ be16 x ++ [BitVec.ofNat 8 n] ++ es.flatMap sofEntryBytes ++ [bad.id]) →
      (n = 3 → id = 4 ∨ id = 5 → exec .sof0 s = .next (stopped 2 0x24 s)) ∧
      (n = 3 → id = 0 ∨ 5 < id → exec .sof0 s = .next (stopped 1 0x0E s)) ∧
      (id ∈ es.map (frameId (zeroBasedIds es)) → exec .sof0 s = .next (stopped 1 0x06 s))) ∧
    (inputAt s (inPos s)
        (be16 (8 + 3 * n) ++ [8] ++ be16 y ++ be16 x ++ [BitVec.ofNat 8 n] ++ es.flatMap sofEntryBytes ++
          sofEntryBytes bad) →
      (n = 3 → 1 ≤ id ∧ id ≤ 3) → id ∉ es.map (frameId (zeroBasedIds es)) →
      (¬(1 ≤ bad.h.toNat ∧ bad.h.toNat ≤ 4 ∧ 1 ≤ bad.v.toNat ∧ bad.v.toNat ≤ 4) →
        exec .sof0 s = .next (stopped 1 0x0F s)) ∧
      (1 ≤ bad.h.toNat → bad.h.toNat ≤ 4 → 1 ≤ bad.v.toNat → bad.v.toNat ≤ 4 → 3 < bad.tq.toNat →
        exec .sof0 s = .next (stopped 3 0x30 s)) ∧
      (sofFieldsLegal bad → n = 3 → es.length = 2 → ¬profileOf (es ++ [bad]) →
        exec .sof0 s = .next (stopped 2 0x25 s)))

/-- Rules R163 to R165: a scan header that names every component of the frame once commits the table ids and the scan
order, and the block goes on to the entropy-coded segment; spectral fields other than 0, 63, 0 stop the decode. That a scan position past the
scan's components keeps its contents is the model's choice (log entry 26). -/
def Obligations.SosBeginsScan : Prop :=
  ∀ (s : State) (es : List SosEntry) (pos : List (Fin 3)) (ss se a : Byte),
    s.frame.seen = true → FrameOk s → es.length = s.frame.nf.toNat → pos.length = es.length → pos.Nodup →
    (∀ j, j < es.length →
      (pos.getD j 0).val < s.frame.nf.toNat ∧
      s.comp[pos.getD j 0].id.toNat = (es.getD j ⟨0, 0, 0⟩).id.toNat + s.frame.zeroBased.toNat ∧
      (es.getD j ⟨0, 0, 0⟩).td.toNat ≤ 3 ∧ (es.getD j ⟨0, 0, 0⟩).ta.toNat ≤ 3) →
    inputAt s (inPos s) (sosBytes es ss se a) →
    (¬(ss = 0 ∧ se = 63 ∧ a = 0) → exec .sos s = .next (stopped 2 0x26 s)) ∧
    (ss = 0 ∧ se = 63 ∧ a = 0 → ∃ comp scan, exec .sos s = .next { s with
        comp := comp, scan := scan, ns := s.frame.nf, phase := .extract
        ipos := BitVec.ofNat 32 (inPos s + 6 + 2 * es.length), txn := .none } ∧
      (∀ j : Fin 3, scan[j] = if j.val < es.length then pos.getD j.val 0 else s.scan[j]) ∧
      (∀ j, j < es.length → comp[pos.getD j 0] =
        { s.comp[pos.getD j 0] with
          td := Fin.ofNat 4 (es.getD j ⟨0, 0, 0⟩).td.toNat, ta := Fin.ofNat 4 (es.getD j ⟨0, 0, 0⟩).ta.toNat }) ∧
      (∀ i : Fin 3, i ∉ pos → comp[i] = s.comp[i]))

/-- Rules R163 and R164: the checks of the scan header, in order, those of its entries after any entries `es` that pass. -/
def Obligations.SosErrorsInOrder : Prop :=
  ∀ (s : State) (len : Nat) (ns : Byte) (es : List SosEntry) (bad : SosEntry), len < 65536 →
    (s.frame.seen = false → exec .sos s = .next (stopped 1 0x07 s)) ∧
    (s.frame.seen = true → inputAt s (inPos s) (be16 len ++ [ns]) →
      (ns = 0 ∨ s.frame.nf.toNat < ns.toNat → exec .sos s = .next (stopped 1 0x12 s)) ∧
      (ns ≠ 0 → ns.toNat < s.frame.nf.toNat → exec .sos s = .next (stopped 2 0x27 s)) ∧
      (ns ≠ 0 → ns.toNat = s.frame.nf.toNat → len ≠ 6 + 2 * ns.toNat → exec .sos s = .next (stopped 1 0x04 s)) ∧
      (ns ≠ 0 → ns.toNat = s.frame.nf.toNat → len = 6 + 2 * ns.toNat → sosEntriesPass s es → es.length < ns.toNat →
        (inputAt s (inPos s) (be16 len ++ [ns] ++ es.flatMap sosEntryBytes ++ [bad.id]) →
          (¬scanIdInFrame s bad → exec .sos s = .next (stopped 1 0x0E s)) ∧
          (scanId s bad ∈ es.map (scanId s) → exec .sos s = .next (stopped 1 0x06 s))) ∧
        (inputAt s (inPos s) (be16 len ++ [ns] ++ es.flatMap sosEntryBytes ++ sosEntryBytes bad) →
          scanIdInFrame s bad → scanId s bad ∉ es.map (scanId s) → (3 < bad.td.toNat ∨ 3 < bad.ta.toNat) →
          exec .sos s = .next (stopped 3 0x31 s))))

/-! ### The entropy-coded segment -/

/-- Rules R171 and R172: a byte form appends its byte, or stops the decode where the buffer is full. The buffer is a list that holds
at least ENT_LEN bytes (log entry 24). -/
def Obligations.DataByteAppends : Prop :=
  ∀ (s : State) (i : Instr) (b : Byte), i = .ecsData b ∨ (i = .ecsStuffedFf ∧ b = 0xFF) →
    (s.entLen.toNat ≠ s.params.entropyCap → s.entLen.toNat ≤ s.ent.length →
      ∃ ent, exec i s = .next { s with
          ent := ent, entLen := s.entLen + 1, ipos := BitVec.ofNat 32 (inPos s), txn := .none } ∧
        ent.getD s.entLen.toNat 0 = b ∧ ∀ n, n ≠ s.entLen.toNat → ent.getD n 0 = s.ent.getD n 0) ∧
    (s.entLen.toNat = s.params.entropyCap → exec i s = .next (stopped 5 0x52 s))

/-- Rule R171: restart markers are dropped, EOI ends the segment, a fill byte leaves the step open (the model's choice: log
entries 1 and 14), any other marker stops the decode. -/
def Obligations.ScanMarkers : Prop :=
  ∀ (s : State),
    (∀ n, exec (.ecsRstn n) s = .next { s with ipos := BitVec.ofNat 32 (inPos s), txn := .none }) ∧
    exec .ecsEoi s = .next { s with phase := .check, ipos := BitVec.ofNat 32 (inPos s), txn := .none } ∧
    exec .ecsFill s = .next s ∧
    (∀ c, exec (.ecsBadMarker c) s = .next (stopped 1 0x10 s))

/-! ### Tables and codes (42_table_builder.md) -/

/-- Rules R200 and R201: a built table holds the counts, the offsets and symbols, and for each position of length `L` the
length and the running code. -/
def Obligations.BuiltTableFollowsCounts : Prop :=
  ∀ (counts syms : List Byte), counts.length = 16 → (counts.map BitVec.toNat).sum = syms.length → syms.length ≤ 162 →
    (buildHt counts syms).populated = true ∧ (buildHt counts syms).symbols = syms ∧
    (∀ i : Fin 16, (buildHt counts syms).count[i] = counts.getD i.val 0) ∧
    (∀ k : Fin 17, ((buildHt counts syms).offset[k]).toNat = codesUpTo counts k.val) ∧
    (buildHt counts syms).code.length = syms.length ∧ (buildHt counts syms).len.length = syms.length ∧
    ∀ L j, L < 16 → codesUpTo counts L ≤ j → j < codesUpTo counts (L + 1) →
      ((buildHt counts syms).len.getD j 0).toNat = L + 1 ∧
      ((buildHt counts syms).code.getD j 0).toNat = firstCode counts L + (j - codesUpTo counts L)

/-- Rule R203: for counts that fit the code space no code word is a prefix of another. -/
def Obligations.CodesArePrefixFree : Prop :=
  ∀ (counts syms : List Byte), counts.length = 16 → (counts.map BitVec.toNat).sum = syms.length → syms.length ≤ 162 →
    kraftSum counts ≤ 2 ^ 16 →
    ∀ i j, i < syms.length → j < syms.length → i ≠ j →
      ¬(codeWord (buildHt counts syms) i <+: codeWord (buildHt counts syms) j)

/-- Rule R214: where the buffer holds the code word of symbol position `j`, the search answers that symbol and moves past
the word. -/
def Obligations.SymbolSearchFindsCodeWord : Prop :=
  ∀ (s : State) (c : Cursor) (counts syms : List Byte) (j : Nat),
    counts.length = 16 → (counts.map BitVec.toNat).sum = syms.length → syms.length ≤ 162 → kraftSum counts ≤ 2 ^ 16 →
    j < syms.length → bitsAt s c (codeWord (buildHt counts syms) j) →
    decodeSymbol s (buildHt counts syms) c =
      .ok (syms.getD j 0, cursorAt (bitPos c + (codeWord (buildHt counts syms) j).length))

/-- Rule R214: 16 bits that start with no code word are E_NO_CODE, and a buffer that ends before a code word is complete
is E_END_OF_DATA. -/
def Obligations.SymbolSearchFailures : Prop :=
  ∀ (s : State) (c : Cursor) (counts syms : List Byte) (window : List Bool),
    counts.length = 16 → (counts.map BitVec.toNat).sum = syms.length → syms.length ≤ 162 →
    (∀ j, j < syms.length → ((buildHt counts syms).code.getD j 0).toNat < 2 ^ ((buildHt counts syms).len.getD j 0).toNat →
      ¬(codeWord (buildHt counts syms) j <+: window)) →
    bitsAt s c window →
    (window.length = 16 → decodeSymbol s (buildHt counts syms) c = .error .eNoCode) ∧
    (window.length < 16 → bitPos c + window.length = 8 * s.entLen.toNat →
      decodeSymbol s (buildHt counts syms) c = .error .eEndOfData)

/-! ### Bits (43_entropy_decoder.md) -/

/-- Rules R74, R211 and R212: `ReadBits` takes the bits in order, the first as the most significant, and fails exactly where
the buffer ends first. -/
def Obligations.ReadBitsTakesBitsInOrder : Prop :=
  ∀ (s : State) (c : Cursor) (bits : List Bool) (n : Nat),
    (bitsAt s c bits → readBits s bits.length c = .ok (bitsValue bits, cursorAt (bitPos c + bits.length))) ∧
    (8 * s.entLen.toNat < bitPos c + n → 0 < n → readBits s n c = .error .eEndOfData)

/-- Rule R215: EXTEND of the value of `n` magnitude bits, and its range. -/
def Obligations.ExtendLaw : Prop :=
  ∀ (bits : List Bool),
    extend (bitsValue bits) bits.length = magnitude bits ∧
    (bits ≠ [] →
      (-(2 ^ bits.length - 1) ≤ magnitude bits ∧ magnitude bits ≤ -2 ^ (bits.length - 1)) ∨
      (2 ^ (bits.length - 1) ≤ magnitude bits ∧ magnitude bits ≤ 2 ^ bits.length - 1))

/-! ### Entropy symbols (43_entropy_decoder.md) -/

/-- Rule R216: a DC symbol adds the difference its magnitude bits give to the channel's predictor, which becomes the
block's DC coefficient; a category above 11 and a buffer that ends first stop the decode. -/
def Obligations.DcSymbolUpdatesPredictor : Prop :=
  ∀ (s : State) (w : McuWork) (slot : Slot) (rest : List Slot) (bits : List Bool) (n : Byte) (i : Instr),
    s.txn = .mcu w → w.todo = slot :: rest → (i = .dcCat n ∨ (i = .dcCat0 ∧ n = 0)) →
    (n.toNat ≤ 11 → bits.length = n.toNat → bitsAt s w.cur bits →
      ∃ pred, exec i s = .next { s with txn := .mcu { w with
          cur := cursorAt (bitPos w.cur + n.toNat), pred := pred, k := 1
          blk := zeroBlock.set 0 (wrap32 (w.pred[s.comp[slot.pos].ch].toInt + magnitude bits)) } } ∧
        ∀ ch : Fin 3, pred[ch] =
          if ch = s.comp[slot.pos].ch then wrap32 (w.pred[ch].toInt + magnitude bits) else w.pred[ch]) ∧
    (0 < n.toNat → n.toNat ≤ 11 → 8 * s.entLen.toNat < bitPos w.cur + n.toNat → exec i s = .next (stopped 4 0x41 s)) ∧
    (∀ b : Byte, 12 ≤ b.toNat → exec (.dcBad b) s = .next (stopped 4 0x43 s))

/-- Rules R218, R219 and R221: EOB ends the block as it stands, which in a state with the invariant is 0 at every position
from the current one on; ZRL and a run-only symbol skip positions; none of them reads a bit or writes a value. -/
def Obligations.SymbolsWithoutMagnitudeBits : Prop :=
  ∀ (s : State) (w : McuWork) (slot : Slot) (rest : List Slot),
    s.txn = .mcu w → w.todo = slot :: rest →
    exec .acEob s = .next { s with txn := .mcu { w with
      todo := rest, k := 0, blk := zeroBlock, done := w.done ++ [(slot, w.blk)] } } ∧
    (Inv s → ∀ j, w.k ≤ j → j ≤ 63 → w.blk[zz j] = 0) ∧
    ∀ (r : Nat) (i : Instr), (i = .acZrl ∧ r = 16) ∨ (∃ n : BitVec 4, i = .acRun n ∧ r = n.toNat) →
      w.k + r ≤ 63 → exec i s = .next { s with txn := .mcu { w with k := w.k + r } }

/-- Rule R220: a coefficient symbol skips its zeros and places the value of its magnitude bits; the block ends where
position 63 is filled, and a buffer that ends first stops the decode. -/
def Obligations.CoefficientSymbolPlacesValue : Prop :=
  ∀ (s : State) (w : McuWork) (slot : Slot) (rest : List Slot) (r n : BitVec 4) (bits : List Bool),
    s.txn = .mcu w → w.todo = slot :: rest → 1 ≤ n.toNat → n.toNat ≤ 10 → w.k + r.toNat ≤ 63 →
    (bits.length = n.toNat → bitsAt s w.cur bits →
      ∃ blk : Block,
        (∀ j : Fin 64, blk[j] = if j = zz (w.k + r.toNat) then BitVec.ofInt 32 (magnitude bits) else w.blk[j]) ∧
        (w.k + r.toNat < 63 →
          exec (.acCoef r n) s = .next { s with txn := .mcu { w with
            cur := cursorAt (bitPos w.cur + n.toNat), k := w.k + r.toNat + 1, blk := blk } }) ∧
        (w.k + r.toNat = 63 →
          exec (.acCoef r n) s = .next { s with txn := .mcu { w with
            cur := cursorAt (bitPos w.cur + n.toNat), todo := rest, k := 0, blk := zeroBlock
            done := w.done ++ [(slot, blk)] } })) ∧
    (8 * s.entLen.toNat < bitPos w.cur + n.toNat → exec (.acCoef r n) s = .next (stopped 4 0x41 s))

/-- Rules R222 and R223: a run past position 63 stops the decode whatever the symbol's size, and a size above 10 stops
it where the run does not. -/
def Obligations.AcRunAndSizeErrors : Prop :=
  ∀ (s : State) (w : McuWork) (slot : Slot) (rest : List Slot),
    s.txn = .mcu w → w.todo = slot :: rest →
    (∀ rs : Byte, rs ≠ 0 → 63 < w.k + (if rs = 0xF0 then 16 else rs.toNat / 16) →
      exec (.acRunOverflow rs) s = .next (stopped 4 0x42 s)) ∧
    (∀ r n : BitVec 4, 11 ≤ n.toNat → w.k + r.toNat ≤ 63 → exec (.acBad r n) s = .next (stopped 4 0x44 s)) ∧
    (∀ (r n : BitVec 4) (i : Instr), i = .acBad r n ∨ i = .acCoef r n ∨ (i = .acRun r ∧ n = 0) →
      63 < w.k + r.toNat → exec i s = .next (stopped 4 0x42 s)) ∧
    (63 < w.k + 16 → exec .acZrl s = .next (stopped 4 0x42 s))

/-- Log entry 20: an entropy symbol outside an open block has no effect to give, and its meaning faults by name. -/
def Obligations.SymbolOutsideBlockFaults : Prop :=
  ∀ (s : State) (i : Instr),
    (∀ w slot rest, s.txn = .mcu w → w.todo = slot :: rest → False) →
    i = .dcCat0 ∨ (∃ n, i = .dcCat n) ∨ (∃ n, i = .dcBad n) ∨ i = .acEob ∨ i = .acZrl ∨ (∃ r, i = .acRun r) ∨
      (∃ r n, i = .acCoef r n) ∨ (∃ r n, i = .acBad r n) ∨ (∃ rs, i = .acRunOverflow rs) →
    exec i s = .fault .noBlockOpen

/-- Rules R224, R225 and R226: the ENTROPY step opens with the MCU's blocks in scan order, and at a restart boundary with
the predictors 0 and the cursor at the next byte. That opening is a step of its own is the model's choice (log entry 1). -/
def Obligations.EntropyStepOpens : Prop :=
  ∀ (s u : State), blockTurn s = some u → u.phase = .entropy → u.txn = .none →
    ∃ w, step s = .next { u with txn := .mcu w } ∧
      w.todo = (u.scan.toList.take u.ns.toNat).flatMap (fun i =>
        (List.range (if u.frame.nf = 1 then 1 else u.comp[i].h.toNat * u.comp[i].v.toNat)).map fun b => ⟨i, b⟩) ∧
      w.k = 0 ∧ w.done = [] ∧ w.blk = zeroBlock ∧
      (u.frame.restartInterval ≠ 0 ∧ u.mcuDone.toNat % u.frame.restartInterval.toNat = 0 →
        (∀ ch : Fin 3, w.pred[ch] = 0) ∧
        w.cur = if u.cur.bitI = 0 then u.cur else ⟨u.cur.byteI + 1, 0⟩) ∧
      (u.frame.restartInterval = 0 ∨ u.mcuDone.toNat % u.frame.restartInterval.toNat ≠ 0 →
        w.pred = u.pred ∧ w.cur = u.cur)

/-- Rules R225 and R227: the ENTROPY step ends by committing the cursor, the predictors, the MCU's blocks and MCU_DONE; after
the last MCU the phase is DEQUANT. That committing is a step of its own is the model's choice (log entry 1). -/
def Obligations.EntropyStepCommits : Prop :=
  ∀ (s u : State) (w : McuWork), Inv u → blockTurn s = some u → u.txn = .mcu w → w.todo = [] →
    ∃ coef, step s = .next { u with
        cur := w.cur, pred := w.pred, coef := coef, mcuDone := u.mcuDone + 1, txn := .none
        phase := if u.mcuDone.toNat + 1 = u.frame.mcuTotal.toNat then .dequant else .entropy
        work := if u.mcuDone.toNat + 1 = u.frame.mcuTotal.toNat then 0 else u.work } ∧
      (∀ slot blk, (slot, blk) ∈ w.done →
        coefRead coef u.mcuDone.toNat u.comp[slot.pos].ch slot.idx = blk) ∧
      (∀ m ch b, (m ≠ u.mcuDone.toNat ∨ ∀ slot ∈ mcuSlots u, ¬(u.comp[slot.pos].ch = ch ∧ slot.idx = b)) →
        coefRead coef m ch b = coefRead u.coef m ch b)

/-! ### CHECK and the later phases -/

/-- Rules R173, R174 and R210: the CHECK step, its checks in order, and the entry of the ENTROPY phase. -/
def Obligations.CheckStepInOrder : Prop :=
  ∀ (s u : State), blockTurn s = some u → u.phase = .check → u.txn = .none →
    ∀ qtOk htOk,
    (qtOk ↔ ∀ i : Fin 3, i.val < u.frame.nf.toNat → u.qt[u.comp[i].tq].populated = true) →
    (htOk ↔ ∀ j : Fin 3, j.val < u.ns.toNat →
      u.dcHt[u.comp[u.scan[j]].td].populated = true ∧ u.acHt[u.comp[u.scan[j]].ta].populated = true) →
    (¬qtOk → step s = .next (stopped 3 0x33 u)) ∧
    (qtOk → ¬htOk → step s = .next (stopped 3 0x34 u)) ∧
    (qtOk → htOk → u.params.maxBlocks < u.frame.mcuTotal.toNat * u.frame.blocksPerMcu.toNat →
      step s = .next (stopped 5 0x51 u)) ∧
    (qtOk → htOk → u.frame.mcuTotal.toNat * u.frame.blocksPerMcu.toNat ≤ u.params.maxBlocks →
      u.outCap.toNat < 3 * u.frame.width.toNat * u.frame.height.toNat → step s = .next (stopped 5 0x50 u)) ∧
    (qtOk → htOk → u.frame.mcuTotal.toNat * u.frame.blocksPerMcu.toNat ≤ u.params.maxBlocks →
      3 * u.frame.width.toNat * u.frame.height.toNat ≤ u.outCap.toNat →
      step s = .next { u with
        cur := ⟨0, 0⟩, pred := Vector.replicate 3 0, mcuDone := 0, phase := .entropy })

/-- Rules R240 to R242: the DEQUANT step scales every coefficient of MCU `work` by its component's table, saturating, and
no other block. The component is the scan slot's, which has the block's channel (log entry 16). -/
def Obligations.DequantStepScalesMcu : Prop :=
  ∀ (s u : State), Inv u → blockTurn s = some u → u.phase = .dequant →
    ∃ coef, step s = .next { u with
        coef := coef
        work := if u.work.toNat + 1 = u.frame.mcuTotal.toNat then 0 else u.work + 1
        phase := if u.work.toNat + 1 = u.frame.mcuTotal.toNat then .idct else .dequant } ∧
      (∀ slot ∈ mcuSlots u, ∀ n : Fin 64,
        (coefRead coef u.work.toNat u.comp[slot.pos].ch slot.idx)[n] =
          sat32 ((coefRead u.coef u.work.toNat u.comp[slot.pos].ch slot.idx)[n].toInt *
            (u.qt[u.comp[slot.pos].tq].q[n].toNat : Int))) ∧
      (∀ m ch b, (m ≠ u.work.toNat ∨ ∀ slot ∈ mcuSlots u, ¬(u.comp[slot.pos].ch = ch ∧ slot.idx = b)) →
        coefRead coef m ch b = coefRead u.coef m ch b)

/-- Rule R249: the IDCT step transforms every block of MCU `work`, and no other block. -/
def Obligations.IdctStepTransformsMcu : Prop :=
  ∀ (s u : State), Inv u → blockTurn s = some u → u.phase = .idct →
    ∃ coef, step s = .next { u with
        coef := coef
        work := if u.work.toNat + 1 = u.frame.mcuTotal.toNat then 0 else u.work + 1
        phase := if u.work.toNat + 1 = u.frame.mcuTotal.toNat then .color else .idct } ∧
      (∀ slot ∈ mcuSlots u,
        coefRead coef u.work.toNat u.comp[slot.pos].ch slot.idx =
          idctBlock u.params.idct (coefRead u.coef u.work.toNat u.comp[slot.pos].ch slot.idx)) ∧
      (∀ m ch b, (m ≠ u.work.toNat ∨ ∀ slot ∈ mcuSlots u, ¬(u.comp[slot.pos].ch = ch ∧ slot.idx = b)) →
        coefRead coef m ch b = coefRead u.coef m ch b)

/-- Rule R247: every transform the model has rounds the ideal value down or up, then saturates. -/
def Obligations.IdctConformsToIdealTransform : Prop :=
  ∀ (kind : IdctKind) (F : Block) (i : Fin 64), ∃ r : Int,
    (r = ⌊idealSample F i⌋ ∨ r = ⌈idealSample F i⌉) ∧ (idctBlock kind F)[i] = sat32 r

/-- Rule R248: the default transform rounds the ideal value to the nearest integer, ties away from zero. -/
def Obligations.DefaultIdctRoundsToNearest : Prop :=
  ∀ (F : Block) (i : Fin 64),
    (0 ≤ idealSample F i → (idctBlock .nearest F)[i] = sat32 ⌊idealSample F i + 1 / 2⌋) ∧
    (idealSample F i < 0 → (idctBlock .nearest F)[i] = sat32 (-⌊-idealSample F i + 1 / 2⌋))

/-- Rules R258, R259, R260 and R264: the colour equations, floored and clamped on each channel; gray on all three; and with
both factors 2 the four pixels of a 2×2 group read one chroma sample. -/
def Obligations.ColourAndUpsamplingLaws : Prop :=
  (∀ (y cb cr : Int),
    rgbOf y cb cr =
      (clamp255 ⌊(y : ℚ) + 1402 / 1000 * cr + 128⌋,
       clamp255 ⌊(y : ℚ) - 344136 / 1000000 * cb - 714136 / 1000000 * cr + 128⌋,
       clamp255 ⌊(y : ℚ) + 1772 / 1000 * cb + 128⌋) ∧
    grayOf y = (clamp255 (y + 128), clamp255 (y + 128), clamp255 (y + 128)) ∧
    ∀ x : Int, (clamp255 x).toNat = min (max x 0) 255) ∧
  ∀ (s : State) (ch : Fin 3) (m i j dx dy : Nat), s.frame.hmax = 2 → s.frame.vmax = 2 → i < 8 → j < 8 → dx < 2 → dy < 2 →
    chromaSample s ch m (2 * i + dx) (2 * j + dy) = (blockAt (coefRead s.coef m ch 0) (8 * j + i)).toInt

/-- Rules R255 to R258 and R261 to R263: the COLOR step writes the pixels of MCU `work` that lie in the image, at their
places in the raster and in R, G, B order, and no other byte; after the last MCU the block is idle and DONE. -/
def Obligations.ColorStepWritesMcuPixels : Prop :=
  ∀ (s u : State), Inv u → blockTurn s = some u → u.phase = .color →
    ∃ mem, step s = .next { u with
        mem := mem, work := u.work + 1
        phase := if u.work.toNat + 1 = u.frame.mcuTotal.toNat then .idle else .color
        done := if u.work.toNat + 1 = u.frame.mcuTotal.toNat then true else u.done } ∧
      (∀ x y, x < u.frame.width.toNat → y < u.frame.height.toNat →
        y / (8 * u.frame.vmax.toNat) * u.frame.mcuCols.toNat + x / (8 * u.frame.hmax.toNat) = u.work.toNat →
        (Memory.read mem ((u.outBase.toNat + 3 * (y * u.frame.width.toNat + x)) % 2 ^ 32),
          Memory.read mem ((u.outBase.toNat + 3 * (y * u.frame.width.toNat + x) + 1) % 2 ^ 32),
          Memory.read mem ((u.outBase.toNat + 3 * (y * u.frame.width.toNat + x) + 2) % 2 ^ 32)) =
          (let px := x % (8 * u.frame.hmax.toNat)
           let py := y % (8 * u.frame.vmax.toNat)
           let luma := (blockAt (coefRead u.coef u.work.toNat 0 (py / 8 * u.frame.hmax.toNat + px / 8))
             (py % 8 * 8 + px % 8)).toInt
           let chroma := fun ch : Fin 3 => (blockAt (coefRead u.coef u.work.toNat ch 0)
             (py / u.frame.vmax.toNat * 8 + px / u.frame.hmax.toNat)).toInt
           if u.frame.nf = 1 then grayOf luma else rgbOf luma (chroma 1) (chroma 2))) ∧
      (∀ a, (∀ x y k, x < u.frame.width.toNat → y < u.frame.height.toNat →
          y / (8 * u.frame.vmax.toNat) * u.frame.mcuCols.toNat + x / (8 * u.frame.hmax.toNat) = u.work.toNat →
          k < 3 → a % 2 ^ 32 ≠ (u.outBase.toNat + 3 * (y * u.frame.width.toNat + x) + k) % 2 ^ 32) →
        Memory.read mem (a % 2 ^ 32) = memRead u a)

/-! ### The whole machine -/

/-- Rule R72: a step changes a byte of host memory only as the host's own write to it or as a byte of the output raster
in the COLOR phase. -/
def Obligations.OnlyRasterBytesAreWritten : Prop :=
  ∀ (s t : State) (a : Nat), step s = .next t → memRead t a ≠ memRead s a →
    (∃ addr b u, hostTurn s = some (.memWrite addr b, u) ∧ a % 2 ^ 32 = addr.toNat) ∨
    (∃ u x y k, blockTurn s = some u ∧ u.phase = .color ∧ x < u.frame.width.toNat ∧ y < u.frame.height.toNat ∧ k < 3 ∧
      a % 2 ^ 32 = (u.outBase.toNat + 3 * (y * u.frame.width.toNat + x) + k) % 2 ^ 32)

/-- The frame of every instruction: host memory, the parameters, the coefficient store and the outside world's next inputs
stay; what the host writes to each buffer register, to HT_SEL and to IRQ_EN changes only by the host's write of it. -/
def Obligations.InstructionsKeepHostSide : Prop :=
  ∀ (i : Instr) (s t : State), exec i s = .next t →
    (∀ a, memRead t a = memRead s a) ∧ t.params = s.params ∧ t.inputs = s.inputs ∧ t.coef = s.coef ∧
    ((∀ v, i ≠ .writeConfig .inBase v) → t.inBase = s.inBase) ∧
    ((∀ v, i ≠ .writeConfig .inLen v) → t.inLen = s.inLen) ∧
    ((∀ v, i ≠ .writeConfig .outBase v) → t.outBase = s.outBase) ∧
    ((∀ v, i ≠ .writeConfig .outCap v) → t.outCap = s.outCap) ∧
    ((∀ v, i ≠ .selectTableEntry v) → t.htSel = s.htSel) ∧
    ((∀ v, i ≠ .start v ∧ i ≠ .abort v ∧ i ≠ .setIrqEn v ∧ i ≠ .writeCtrl v) → t.irqEn = s.irqEn)

/-- Rules R272 and R134: where a step sets ERR, the block's own error changes STATUS and ERRCODE and nothing else; an
aborting CTRL write sets IRQ_EN from its bit 2 besides. -/
def Obligations.ErrorEntryKeepsEverythingElse : Prop :=
  ∀ (s t : State), Inv s → step s = .next t → s.err = false → t.err = true →
    (∃ u cls det, blockTurn s = some u ∧ t = stopped cls det u ∧ det.toNat * 256 + cls.toNat ∈ errcodes) ∨
    (∃ u v, hostTurn s = some (.access ⟨true, 4, 4, v⟩, u) ∧ u.phase ≠ .idle ∧ v.getLsbD 1 = true ∧
      t = stopped 6 0x60 { u with irqEn := v.getLsbD 2 })

/-- Rules R10 and R13: a step of the model that leaves a block step open changes only its working registers (the model's
steps: log entry 1). -/
def Obligations.OpenBlockStepCommitsNothing : Prop :=
  ∀ (s t : State), Inv s → step s = .next t → t.txn ≠ .none → ∃ u, blockTurn s = some u ∧ t = { u with txn := t.txn }

/-- Rules R285 and R133: only a START write makes an idle block run; an idle block in its turn changes nothing. -/
def Obligations.OnlyStartLeavesIdle : Prop :=
  (∀ (s u : State), blockTurn s = some u → u.phase = .idle → step s = .next u) ∧
  (∀ (s t : State), step s = .next t → s.phase = .idle → t.phase ≠ .idle →
    ∃ u v, hostTurn s = some (.access ⟨true, 4, 4, v⟩, u) ∧ v.getLsbD 0 = true ∧ t.phase = .parse)

/-- Rule R263: DONE is set only by the COLOR step of the frame's last MCU, which leaves the block idle. -/
def Obligations.DoneOnlyAfterLastMcu : Prop :=
  ∀ (s t : State), step s = .next t → s.done = false → t.done = true →
    ∃ u, blockTurn s = some u ∧ u.phase = .color ∧ u.work.toNat + 1 = u.frame.mcuTotal.toNat ∧ t.phase = .idle

/-- Rules R60, R300 and R301: the reset input, and what every register reads after it. The contents rule R60 leaves unspecified,
and what reset keeps of the model's own fields, are the model's choice (log entries 5, 18 and 19). -/
def Obligations.ResetInputRestoresResetState : Prop :=
  ∀ (s u : State), hostTurn s = some (.reset, u) →
    step s = .next { State.resetWith u.params with mem := u.mem, inputs := u.inputs, rdata := u.rdata } ∧
    ∀ w : BitVec 6, regRead (State.resetWith u.params) w = if w = 0 then 0x4A504547 else 0

/-- The invariant holds right after reset, whatever the parameters. -/
def Obligations.ResetSatisfiesInvariant : Prop := ∀ p : Params, Inv (State.resetWith p)

/-- Every step keeps the invariant. -/
def Obligations.StepKeepsInvariant : Prop := ∀ (s t : State), Inv s → step s = .next t → Inv t

/-- Rule R310: a decode ends, in DONE or ERR, within `IN_LEN + 1 + 4·mcu_total` block steps from START; a block step is a run of
the model's steps (log entry 1). -/
def Obligations.DecodeEndsWithinBound : Prop :=
  ∀ (s : State), Inv s → s.phase = .parse → s.soiDone = false → s.ipos = 0 → s.frame.seen = false → s.txn = .none →
    ∃ n t, blockSteps n s = .next t ∧ t.phase = .idle ∧ (t.done = true ∨ t.err = true) ∧
      n ≤ s.inLen.toNat + 1 + 4 * t.frame.mcuTotal.toNat

/-- The block itself never faults and is never refused: only the host's accesses stop the model. -/
def Obligations.BlockStepsNeverStop : Prop :=
  ∀ (s u : State), blockTurn s = some u → ∃ t, step s = .next t

/-- Rules R150, R154, R160, R161, R163 and R164: where the input ends inside a DQT, DHT, SOF0 or SOS segment whose bytes up
to there pass their checks, the decode ends with S_TRUNCATED. A length field the input ends too soon to check may have any
value. -/
def Obligations.TruncatedSegmentsStopDecode : Prop :=
  ∀ (s : State) (len k y x : Nat) (ss se a : Byte), len < 65536 → y < 65536 → x < 65536 →
    (∀ es e, (∀ e' ∈ es ++ [e], qtEntryLegal e') → (dqtBytes es).length < len →
      inputEndsIn s (inPos s) (be16 len ++ es.flatMap qtEntryBytes ++ qtEntryBytes e) k →
      exec .dqt s = .next (stopped 1 0x02 s)) ∧
    (∀ es e, (∀ e' ∈ es ++ [e], htEntryLegal e') → (dhtBytes es).length < len →
      inputEndsIn s (inPos s) (be16 len ++ es.flatMap htEntryBytes ++ htEntryBytes e) k →
      exec .dht s = .next (stopped 1 0x02 s)) ∧
    (s.frame.seen = false → (k < 7 ∨ (0 < x ∧ 0 < y)) →
      inputEndsIn s (inPos s) (be16 len ++ [8] ++ be16 y ++ be16 x ++ [0]) k →
      exec .sof0 s = .next (stopped 1 0x02 s)) ∧
    (∀ es, s.frame.seen = false → 0 < x → 0 < y → es.length = 1 ∨ es.length = 3 → sofEntriesPass es.length es →
      inputEndsIn s (inPos s) (sof0Bytes 8 y x es) k → exec .sof0 s = .next (stopped 1 0x02 s)) ∧
    (s.frame.seen = true → inputEndsIn s (inPos s) (be16 len ++ [0]) k → exec .sos s = .next (stopped 1 0x02 s)) ∧
    (∀ es, s.frame.seen = true → es ≠ [] → es.length = s.frame.nf.toNat → sosEntriesPass s es →
      inputEndsIn s (inPos s) (sosBytes es ss se a) k → exec .sos s = .next (stopped 1 0x02 s))
end

