-- ==== Sys2Proof/Laws/Bits.lean ====
section
/-! SUPPORT. What reading bits of the entropy buffer answers, from the bits the buffer holds at the cursor. -/

namespace Sys2Proof.Machine

variable {s : State} {c : Cursor}

/-! ### Cursors and bit positions -/

theorem cursorAt_bitPos (c : Cursor) : cursorAt (bitPos c) = c := by
  obtain ⟨b, i⟩ := c
  have h1 : (8 * b.toNat + i.val) / 8 = b.toNat := by omega
  have h2 : (8 * b.toNat + i.val) % 8 = i.val := by omega
  simp [cursorAt, bitPos, h1, Fin.ext_iff, h2]

theorem bitPos_cursorAt {n : Nat} (h : n / 8 < 2 ^ 32) : bitPos (cursorAt n) = n := by
  simp only [bitPos, cursorAt, BitVec.toNat_ofNat, Fin.val_ofNat]
  omega

theorem bitsAt_cons {b : Bool} {bits : List Bool} (h : bitsAt s c (b :: bits)) :
    bitPos c < 8 * s.entLen.toNat ∧ entBit s (bitPos c) = b ∧ bitsAt s (cursorAt (bitPos c + 1)) bits := by
  obtain ⟨hl, hb⟩ := h
  simp only [List.length_cons] at hl hb
  have h0 := hb 0 (by omega)
  have hlt := s.entLen.isLt
  refine ⟨by omega, by simpa using h0, ?_⟩
  unfold bitsAt
  rw [bitPos_cursorAt (by omega)]
  refine ⟨by omega, fun i hi => ?_⟩
  have := hb (i + 1) (by omega)
  rw [show bitPos c + 1 + i = bitPos c + (i + 1) by omega, this]
  rfl

/-! ### One bit -/

/-- Inside the buffer `ReadBit` answers the bit at the cursor and moves one bit on. -/
theorem readBit_inside (h : bitPos c < 8 * s.entLen.toNat) :
    readBit s c = .ok ((entBit s (bitPos c)).toNat, cursorAt (bitPos c + 1)) := by
  have hlt := s.entLen.isLt
  obtain ⟨b, i⟩ := c
  simp only [bitPos] at h ⊢
  unfold readBit
  simp only
  rw [if_neg (by omega)]
  congr 2
  · unfold entBit
    congr 2
    · congr 1; omega
    · omega
  · by_cases hi : i.val = 7
    · rw [if_pos hi]
      simp only [cursorAt, Cursor.mk.injEq]
      constructor
      · apply BitVec.eq_of_toNat_eq
        simp only [BitVec.toNat_add, BitVec.toNat_ofNat, show (1 : Word).toNat = 1 from rfl]
        omega
      · apply Fin.ext; simp; omega
    · rw [if_neg hi]
      simp only [cursorAt, Cursor.mk.injEq]
      constructor
      · apply BitVec.eq_of_toNat_eq
        simp only [BitVec.toNat_ofNat]
        omega
      · apply Fin.ext
        rw [Fin.val_add]; simp; omega

/-- At the end of the buffer there is no bit. -/
theorem readBit_end (h : 8 * s.entLen.toNat ≤ bitPos c) : readBit s c = .error .eEndOfData := by
  unfold bitPos at h
  unfold readBit
  rw [if_pos (by omega)]

/-! ### Several bits -/

theorem readBitsFrom_at : ∀ {bits : List Bool} {v : Nat} {c : Cursor}, bitsAt s c bits →
    readBitsFrom s bits.length v c =
      .ok (bits.foldl (fun v b => 2 * v + b.toNat) v, cursorAt (bitPos c + bits.length))
  | [], v, c, _ => by simp [readBitsFrom, cursorAt_bitPos]
  | b :: bits, v, c, h => by
    obtain ⟨h1, h2, h3⟩ := bitsAt_cons h
    have hlt := s.entLen.isLt
    simp only [List.length_cons, readBitsFrom, readBit_inside h1, bind, Except.bind, readBitsFrom_at h3, h2,
      List.foldl_cons]
    rw [bitPos_cursorAt (by omega)]
    congr 3; omega

theorem readBits_at {bits : List Bool} (h : bitsAt s c bits) :
    readBits s bits.length c = .ok (bitsValue bits, cursorAt (bitPos c + bits.length)) := readBitsFrom_at h

theorem readBitsFrom_end : ∀ {n v : Nat} {c : Cursor}, 0 < n → 8 * s.entLen.toNat < bitPos c + n →
    readBitsFrom s n v c = .error .eEndOfData
  | 0, _, _, h, _ => absurd h (lt_irrefl _)
  | n + 1, v, c, _, h => by
    by_cases h1 : bitPos c < 8 * s.entLen.toNat
    · have hlt := s.entLen.isLt
      simp only [readBitsFrom, readBit_inside h1, bind, Except.bind]
      exact readBitsFrom_end (by omega) (by rw [bitPos_cursorAt (by omega)]; omega)
    · simp [readBitsFrom, readBit_end (Nat.le_of_not_lt h1), bind, Except.bind]

theorem readBits_end {n : Nat} (hn : 0 < n) (h : 8 * s.entLen.toNat < bitPos c + n) :
    readBits s n c = .error .eEndOfData := readBitsFrom_end hn h

/-- Reading bits fails only where the buffer ends. -/
theorem readBitsFrom_error : ∀ {n v : Nat} {c : Cursor} {d : Detail}, readBitsFrom s n v c = .error d → d = .eEndOfData
  | 0, _, _, _, h => by cases h
  | n + 1, v, c, d, h => by
    by_cases h1 : bitPos c < 8 * s.entLen.toNat
    · simp only [readBitsFrom, readBit_inside h1, bind, Except.bind] at h
      exact readBitsFrom_error h
    · simp only [readBitsFrom, readBit_end (Nat.le_of_not_lt h1), bind, Except.bind] at h
      cases h; rfl

/-! ### The value of bits -/

theorem foldl_bits (bits : List Bool) (v : Nat) :
    bits.foldl (fun v b => 2 * v + b.toNat) v = v * 2 ^ bits.length + bitsValue bits := by
  induction bits generalizing v with
  | nil => simp [bitsValue]
  | cons b rest ih =>
    have h1 := ih (2 * v + b.toNat)
    have h2 := ih (2 * 0 + b.toNat)
    simp only [List.foldl_cons, bitsValue, List.length_cons] at h1 h2 ⊢
    rw [h1, h2, pow_succ]; ring

theorem bitsValue_cons (b : Bool) (bits : List Bool) :
    bitsValue (b :: bits) = b.toNat * 2 ^ bits.length + bitsValue bits := by
  have := foldl_bits bits (2 * 0 + b.toNat)
  simpa [bitsValue] using this

theorem bitsValue_lt (bits : List Bool) : bitsValue bits < 2 ^ bits.length := by
  induction bits with
  | nil => simp [bitsValue]
  | cons b rest ih =>
    rw [bitsValue_cons, List.length_cons, pow_succ]
    cases b <;> simp <;> omega

theorem align_cursor (c : Cursor) : align c = if c.bitI = 0 then c else ⟨c.byteI + 1, 0⟩ := rfl

end Sys2Proof.Machine
end

