-- ==== Sys2Proof/Laws/Codes.lean ====
section
/-! SUPPORT. What a built Huffman table holds (42_table_builder.md), and what the symbol search answers. -/

namespace Sys2Proof.Machine

/-! ### Offsets -/

theorem offsetsFrom_getD : ∀ (cs : List Nat) (acc k : Nat), k ≤ cs.length →
    (offsetsFrom acc cs).getD k 0 = acc + (cs.take k).sum
  | [], acc, k, h => by obtain rfl : k = 0 := by simpa using h
                        simp [offsetsFrom]
  | c :: cs, acc, 0, _ => by simp [offsetsFrom]
  | c :: cs, acc, k + 1, h => by
    have := offsetsFrom_getD cs (acc + c) k (by simpa using h)
    simp only [offsetsFrom, List.getD_cons_succ, this, List.take_succ_cons, List.sum_cons]; omega

theorem codesUpTo_eq (counts : List Byte) (k : Nat) : codesUpTo counts k = ((counts.map BitVec.toNat).take k).sum := by
  simp [codesUpTo, List.map_take]

theorem codesUpTo_zero (counts : List Byte) : codesUpTo counts 0 = 0 := rfl

theorem codesUpTo_succ (counts : List Byte) (k : Nat) :
    codesUpTo counts (k + 1) = codesUpTo counts k + (counts.getD k 0).toNat := by
  induction counts generalizing k with
  | nil => simp [codesUpTo]
  | cons c cs ih =>
    cases k with
    | zero => simp [codesUpTo]
    | succ k =>
      have := ih k
      simp only [codesUpTo, List.take_succ_cons, List.map_cons, List.sum_cons, List.getD_cons_succ] at this ⊢
      omega

theorem codesUpTo_mono (counts : List Byte) {a b : Nat} (h : a ≤ b) : codesUpTo counts a ≤ codesUpTo counts b := by
  induction b with
  | zero => obtain rfl : a = 0 := by omega
            exact le_refl _
  | succ b ih =>
    rcases Nat.lt_or_ge a (b + 1) with h' | h'
    · exact (ih (by omega)).trans (by rw [codesUpTo_succ]; omega)
    · obtain rfl : a = b + 1 := by omega
      exact le_refl _

theorem codesUpTo_all {counts : List Byte} (h : counts.length = 16) :
    codesUpTo counts 16 = (counts.map BitVec.toNat).sum := by
  simp [codesUpTo, List.take_of_length_le (le_of_eq h)]

/-- Every position below the symbol count belongs to one length. -/
theorem position_length (counts : List Byte) {n j : Nat} (h : j < codesUpTo counts n) :
    ∃ L, L < n ∧ codesUpTo counts L ≤ j ∧ j < codesUpTo counts (L + 1) := by
  induction n with
  | zero => simp [codesUpTo] at h
  | succ n ih =>
    by_cases h' : j < codesUpTo counts n
    · obtain ⟨L, h1, h2⟩ := ih h'
      exact ⟨L, by omega, h2⟩
    · exact ⟨n, by omega, by omega, h⟩

/-! ### Codes -/

/-- The running code after `n` lengths, from the running code `code` on. -/
def runningCode : List Nat → Nat → Nat → Nat
  | _, code, 0 => code
  | cs, code, n + 1 => 2 * (runningCode cs code n + cs.getD n 0)

theorem runningCode_cons (c : Nat) (cs : List Nat) (code n : Nat) :
    runningCode (c :: cs) code (n + 1) = runningCode cs ((code + c) * 2) n := by
  induction n with
  | zero => simp [runningCode]; ring
  | succ n ih => rw [runningCode, ih, runningCode]; simp

theorem firstCode_eq (counts : List Byte) (n : Nat) : firstCode counts n = runningCode (counts.map BitVec.toNat) 0 n := by
  induction n with
  | zero => rfl
  | succ n ih =>
    rw [firstCode, runningCode, ih]
    congr 2
    simp [List.getD_eq_getElem?_getD, List.getElem?_map]
    cases counts[n]? <;> simp

/-- The pairs of code and length, position by position. -/
theorem codesFrom_getD : ∀ (cs : List Nat) (L code n i : Nat), n < cs.length → i < cs.getD n 0 →
    (codesFrom cs L code).getD ((cs.take n).sum + i) (0, 0) = (runningCode cs code n + i, L + n)
  | [], _, _, _, _, h, _ => absurd h (by simp)
  | c :: cs, L, code, 0, i, _, hi => by
    simp only [List.getD_cons_zero] at hi
    simp only [codesFrom, List.take_zero, List.sum_nil, Nat.zero_add, runningCode, Nat.add_zero]
    rw [List.getD_append _ _ _ _ (by simpa using hi)]
    simp [List.getD_eq_getElem?_getD, hi]
  | c :: cs, L, code, n + 1, i, h, hi => by
    have ih := codesFrom_getD cs (L + 1) ((code + c) * 2) n i (by simpa using h) (by simpa using hi)
    rw [runningCode_cons]
    simp only [codesFrom, List.take_succ_cons, List.sum_cons]
    rw [List.getD_append_right _ _ _ _ (by simp; omega)]
    simp only [List.length_map, List.length_range]
    rw [show c + (cs.take n).sum + i - c = (cs.take n).sum + i by omega, ih]
    congr 1; omega

theorem codesFrom_length : ∀ (cs : List Nat) (L code : Nat), (codesFrom cs L code).length = cs.sum
  | [], _, _ => rfl
  | c :: cs, L, code => by simp [codesFrom, codesFrom_length cs]

theorem runningCode_le (cs : List Nat) (n : Nat) : runningCode cs 0 n ≤ 2 ^ n * (cs.take n).sum := by
  induction n with
  | zero => simp [runningCode]
  | succ n ih =>
    have : (cs.take (n + 1)).sum = (cs.take n).sum + cs.getD n 0 := by
      rw [List.take_add_one]
      cases h : cs[n]? <;> simp [List.getD_eq_getElem?_getD, h]
    rw [runningCode, this, pow_succ]
    have h2 : cs.getD n 0 ≤ 2 ^ n * cs.getD n 0 := Nat.le_mul_of_pos_left _ (Nat.two_pow_pos n)
    nlinarith

/-! ### The built table -/

variable {counts syms : List Byte}

theorem buildHt_offsetAt (hc : counts.length = 16) (hs : (counts.map BitVec.toNat).sum = syms.length)
    (hn : syms.length ≤ 162) {k : Nat} (hk : k ≤ 16) : offsetAt (buildHt counts syms) k = codesUpTo counts k := by
  have h1 : codesUpTo counts k ≤ 162 := by
    have := codesUpTo_mono counts hk
    rw [codesUpTo_all hc, hs] at this; omega
  unfold offsetAt buildHt
  simp only [Vector.toList_ofFn, List.getD_eq_getElem?_getD, List.getElem?_ofFn]
  rw [dif_pos (by omega)]
  simp only [Option.getD_some, BitVec.toNat_ofNat]
  rw [← List.getD_eq_getElem?_getD, offsetsFrom_getD _ _ _ (by simp [hc]; omega), ← codesUpTo_eq]
  omega

theorem buildHt_entry (hc : counts.length = 16) (hs : (counts.map BitVec.toNat).sum = syms.length)
    (hn : syms.length ≤ 162) {L j : Nat} (hL : L < 16) (h1 : codesUpTo counts L ≤ j) (h2 : j < codesUpTo counts (L + 1)) :
    ((buildHt counts syms).len.getD j 0).toNat = L + 1 ∧
      ((buildHt counts syms).code.getD j 0).toNat = firstCode counts L + (j - codesUpTo counts L) := by
  have hall : codesUpTo counts (L + 1) ≤ 162 := by
    have := codesUpTo_mono counts (show L + 1 ≤ 16 by omega)
    rw [codesUpTo_all hc, hs] at this; omega
  rw [codesUpTo_succ] at h2
  have hi : j - codesUpTo counts L < (counts.map BitVec.toNat).getD L 0 := by
    have : (counts.map BitVec.toNat).getD L 0 = (counts.getD L 0).toNat := by
      simp only [List.getD_eq_getElem?_getD, List.getElem?_map]; cases counts[L]? <;> simp
    omega
  have hg := codesFrom_getD (counts.map BitVec.toNat) 1 0 L (j - codesUpTo counts L) (by simpa [hc] using hL) hi
  rw [← codesUpTo_eq, show codesUpTo counts L + (j - codesUpTo counts L) = j by omega, ← firstCode_eq] at hg
  have hj : j < (codesFrom (counts.map BitVec.toNat) 1 0).length := by
    rw [codesFrom_length]
    have := codesUpTo_mono counts (show L + 1 ≤ 16 by omega)
    rw [codesUpTo_all hc, codesUpTo_succ] at this; omega
  have hb : firstCode counts L ≤ 2 ^ 15 * 162 := by
    have h3 := runningCode_le (counts.map BitVec.toNat) L
    rw [← firstCode_eq, ← codesUpTo_eq] at h3
    have h4 : 2 ^ L ≤ 2 ^ 15 := Nat.pow_le_pow_right (by norm_num) (by omega)
    have h5 : codesUpTo counts L ≤ 162 := by have := codesUpTo_succ counts L; omega
    exact h3.trans (Nat.mul_le_mul h4 h5)
  rw [List.getD_eq_getElem?_getD, List.getElem?_eq_getElem hj, Option.getD_some] at hg
  unfold buildHt
  simp only [List.getD_eq_getElem?_getD, List.getElem?_map, List.getElem?_eq_getElem hj, Option.map_some,
    Option.getD_some, hg, BitVec.toNat_ofNat]
  constructor <;> omega

/-- Canonical order: the code of a longer word, cut to a shorter length, lies above every code of that length. -/
theorem firstCode_above (counts : List Byte) (L d : Nat) :
    2 ^ (d + 1) * (firstCode counts L + (counts.getD L 0).toNat) ≤ firstCode counts (L + d + 1) := by
  induction d with
  | zero => simp [firstCode]
  | succ d ih =>
    have h := ih
    rw [show L + (d + 1) + 1 = (L + d + 1) + 1 by omega, firstCode, pow_succ]
    nlinarith [Nat.zero_le ((counts.getD (L + d + 1) 0).toNat)]

theorem kraftFrom_bound : ∀ (cs : List Nat) (L code n : Nat), L + n ≤ 16 → n < cs.length →
    (runningCode cs code n + cs.getD n 0) * 2 ^ (16 - (L + n)) ≤ code * 2 ^ (16 - L) + kraftFrom L cs
  | [], _, _, _, _, h => absurd h (by simp)
  | c :: cs, L, code, 0, hL, h => by
    simp only [runningCode, List.getD_cons_zero, kraftFrom, Nat.add_zero]
    nlinarith [Nat.zero_le (kraftFrom (L + 1) cs)]
  | c :: cs, L, code, n + 1, hL, h => by
    have ih := kraftFrom_bound cs (L + 1) ((code + c) * 2) n (by omega) (by simpa using h)
    rw [runningCode_cons]
    simp only [List.getD_cons_succ, kraftFrom]
    rw [show L + (n + 1) = L + 1 + n by omega]
    have h2 : (code + c) * 2 * 2 ^ (16 - (L + 1)) = (code + c) * 2 ^ (16 - L) := by
      rw [show 16 - L = (16 - (L + 1)) + 1 by omega, pow_succ]; ring
    rw [h2] at ih
    nlinarith

/-- Where the counts fit the code space, every code fits its length. -/
theorem code_lt (hc : counts.length = 16) (hk : kraftSum counts ≤ 2 ^ 16) {L : Nat} (hL : L < 16) :
    firstCode counts L + (counts.getD L 0).toNat ≤ 2 ^ (L + 1) := by
  have h := kraftFrom_bound (counts.map BitVec.toNat) 1 0 L (by omega) (by simpa [hc] using hL)
  rw [← firstCode_eq] at h
  have h1 : (counts.map BitVec.toNat).getD L 0 = (counts.getD L 0).toNat := by
    simp only [List.getD_eq_getElem?_getD, List.getElem?_map]; cases counts[L]? <;> simp
  rw [h1] at h
  have h2 : (firstCode counts L + (counts.getD L 0).toNat) * 2 ^ (16 - (1 + L)) ≤ 2 ^ (L + 1) * 2 ^ (16 - (1 + L)) := by
    rw [← pow_add, show L + 1 + (16 - (1 + L)) = 16 by omega]
    simp only [kraftSum] at hk
    omega
  exact Nat.le_of_mul_le_mul_right h2 (Nat.two_pow_pos _)

/-! ### Code words -/

theorem codeBits_length (v n : Nat) : (codeBits v n).length = n := by simp [codeBits]

theorem codeBits_getElem {v n i : Nat} (h : i < n) :
    (codeBits v n)[i]'(by simpa [codeBits_length] using h) = v.testBit (n - 1 - i) := by simp [codeBits]

/-- The first bits of a code word are the word of the value's upper bits. -/
theorem codeBits_take {v n m : Nat} (h : m ≤ n) : (codeBits v n).take m = codeBits (v / 2 ^ (n - m)) m := by
  apply List.ext_getElem
  · simp [codeBits_length, h]
  · intro i h1 h2
    rw [codeBits_length] at h2
    rw [List.getElem_take, codeBits_getElem (by omega), codeBits_getElem h2, Nat.testBit_div_two_pow]
    congr 1; omega

theorem bitsValue_codeBits {v n : Nat} (h : v < 2 ^ n) : bitsValue (codeBits v n) = v := by
  induction n generalizing v with
  | zero => simp at h; simp [codeBits, bitsValue, h]
  | succ n ih =>
    have h1 : codeBits v (n + 1) = codeBits (v / 2) n ++ [v.testBit 0] := by
      have ht := codeBits_take (v := v) (show n ≤ n + 1 by omega)
      rw [show n + 1 - n = 1 by omega, pow_one] at ht
      rw [← ht]
      apply List.ext_getElem
      · simp [codeBits_length]
      · intro i h1 h2
        have h1' : i < n + 1 := by simpa [codeBits_length] using h1
        by_cases hi : i < n
        · rw [List.getElem_append_left (by simp [codeBits_length]; omega), List.getElem_take]
        · rw [List.getElem_append_right (by simp [codeBits_length]; omega), codeBits_getElem h1']
          simp only [List.getElem_singleton]; congr 1; omega
    have h2 := ih (v := v / 2) (by rw [pow_succ] at h; omega)
    rw [h1, bitsValue, List.foldl_append]
    change 2 * bitsValue (codeBits (v / 2) n) + (v.testBit 0).toNat = v
    rw [h2, Nat.testBit_zero]
    rcases Nat.mod_two_eq_zero_or_one v with h3 | h3 <;> simp [h3] <;> omega

theorem codeBits_bitsValue (bits : List Bool) : codeBits (bitsValue bits) bits.length = bits := by
  induction bits using List.reverseRecOn with
  | nil => rfl
  | append_singleton bits b ih =>
    have hv : bitsValue (bits ++ [b]) = 2 * bitsValue bits + b.toNat := by simp [bitsValue]
    have hd : (2 * bitsValue bits + b.toNat) / 2 = bitsValue bits := by cases b <;> (simp; try omega)
    have ht := codeBits_take (v := 2 * bitsValue bits + b.toNat) (show bits.length ≤ bits.length + 1 by omega)
    rw [show bits.length + 1 - bits.length = 1 by omega, pow_one, hd, ih] at ht
    rw [hv, List.length_append, List.length_singleton]
    apply List.ext_getElem
    · simp [codeBits_length]
    · intro i h1 h2
      rw [codeBits_length] at h1
      by_cases hi : i < bits.length
      · rw [List.getElem_append_left hi]
        have := List.getElem_of_eq ht (i := i) (by simp [codeBits_length]; omega)
        rw [List.getElem_take] at this
        exact this
      · rw [List.getElem_append_right (by omega), codeBits_getElem h1]
        rw [show bits.length + 1 - 1 - i = 0 by omega, Nat.testBit_zero]
        cases b <;> simp

/-! ### The symbol search -/

theorem matchCode_none {t : HTable} {L v : Nat} (h : ∀ j, offsetAt t (L - 1) ≤ j → j < offsetAt t L →
    (t.code.getD j 0).toNat ≠ v) : matchCode t L v = none := by
  unfold matchCode
  rw [List.find?_eq_none]
  intro j hj
  rw [List.mem_range'_1] at hj
  simpa using h j hj.1 (by omega)

theorem matchCode_some {t : HTable} {L v j : Nat} (h : matchCode t L v = some j) :
    offsetAt t (L - 1) ≤ j ∧ j < offsetAt t L ∧ (t.code.getD j 0).toNat = v := by
  unfold matchCode at h
  have h1 := List.mem_of_find?_eq_some h
  have h2 := List.find?_some h
  rw [List.mem_range'_1] at h1
  exact ⟨h1.1, by omega, by simpa using h2⟩

theorem matchCode_eq {t : HTable} {L v j : Nat} (h1 : offsetAt t (L - 1) ≤ j) (h2 : j < offsetAt t L)
    (h3 : (t.code.getD j 0).toNat = v)
    (hu : ∀ j', offsetAt t (L - 1) ≤ j' → j' < offsetAt t L → (t.code.getD j' 0).toNat = v → j' = j) :
    matchCode t L v = some j := by
  cases h : matchCode t L v with
  | none =>
    unfold matchCode at h
    rw [List.find?_eq_none] at h
    exact absurd (beq_iff_eq.mpr h3) (h j (by rw [List.mem_range'_1]; omega))
  | some j' =>
    obtain ⟨a, b, c⟩ := matchCode_some h
    rw [hu j' a b c]

variable {s : State}

/-- The search reads a word's bits while no shorter part of it matches, and answers the symbol where the whole does. -/
theorem decodeSymbolFrom_at {t : HTable} {j : Nat} : ∀ {bits : List Bool} {left code : Nat} {c : Cursor},
    bits ≠ [] → bits.length ≤ left → left ≤ 16 → bitsAt s c bits →
    (∀ n, 0 < n → n < bits.length →
      matchCode t (16 - left + n) ((bits.take n).foldl (fun v b => 2 * v + b.toNat) code) = none) →
    matchCode t (16 - left + bits.length) (bits.foldl (fun v b => 2 * v + b.toNat) code) = some j →
    decodeSymbolFrom s t left code c = .ok (t.symbols.getD j 0, cursorAt (bitPos c + bits.length))
  | [], _, _, _, h, _, _, _, _, _ => absurd rfl h
  | b :: bits, 0, _, _, _, h, _, _, _, _ => absurd h (by simp)
  | b :: bits, left + 1, code, c, _, hl, hl16, hb, hn, hm => by
    obtain ⟨h1, h2, h3⟩ := bitsAt_cons hb
    have hlt := s.entLen.isLt
    have e16 : 16 - (left + 1) + 1 = 16 - left := by omega
    rw [decodeSymbolFrom]
    simp only [readBit_inside h1, bind, Except.bind, h2]
    by_cases hnil : bits = []
    · subst hnil
      simp only [List.length_singleton, List.foldl_cons, List.foldl_nil, e16] at hm
      simp only [hm, List.length_singleton]
    · have hpos : 0 < bits.length := List.length_pos_of_ne_nil hnil
      have hn1 := hn 1 (by omega) (by simp only [List.length_cons]; omega)
      simp only [List.take_succ_cons, List.take_zero, List.foldl_cons, List.foldl_nil, e16] at hn1
      simp only [hn1]
      have ih := decodeSymbolFrom_at (bits := bits) (left := left) (code := 2 * code + b.toNat) hnil
        (by simpa using hl) (by omega) h3
        (fun n h4 h5 => by
          have := hn (n + 1) (by omega) (by simp only [List.length_cons]; omega)
          rw [show 16 - (left + 1) + (n + 1) = 16 - left + n by omega] at this
          simpa using this)
        (by
          rw [List.length_cons, show 16 - (left + 1) + (bits.length + 1) = 16 - left + bits.length by omega] at hm
          simpa using hm)
      rw [ih, bitPos_cursorAt (by omega), List.length_cons]
      congr 3; omega

/-- Where no part of the bits matches, the search reads them all and fails: for want of a code after 16 bits, for want
of data before. -/
theorem decodeSymbolFrom_fails {t : HTable} : ∀ {bits : List Bool} {left code : Nat} {c : Cursor},
    bits.length ≤ left → left ≤ 16 → bitsAt s c bits →
    (∀ n, 0 < n → n ≤ bits.length →
      matchCode t (16 - left + n) ((bits.take n).foldl (fun v b => 2 * v + b.toNat) code) = none) →
    (bits.length = left → decodeSymbolFrom s t left code c = .error .eNoCode) ∧
    (bits.length < left → bitPos c + bits.length = 8 * s.entLen.toNat →
      decodeSymbolFrom s t left code c = .error .eEndOfData)
  | [], 0, _, _, _, _, _, _ => ⟨fun _ => rfl, fun h => absurd h (by simp)⟩
  | [], left + 1, code, c, _, _, _, _ => ⟨fun h => absurd h (by simp), fun _ h => by
      rw [decodeSymbolFrom]
      simp only [List.length_nil, Nat.add_zero] at h
      simp [readBit_end (le_of_eq h.symm), bind, Except.bind]⟩
  | b :: bits, 0, _, _, h, _, _, _ => absurd h (by simp)
  | b :: bits, left + 1, code, c, hl, hl16, hb, hn => by
    obtain ⟨h1, h2, h3⟩ := bitsAt_cons hb
    have hlt := s.entLen.isLt
    have hn1 := hn 1 (by omega) (by simp)
    simp only [List.take_succ_cons, List.take_zero, List.foldl_cons, List.foldl_nil,
      show 16 - (left + 1) + 1 = 16 - left by omega] at hn1
    have ih := decodeSymbolFrom_fails (t := t) (bits := bits) (left := left) (code := 2 * code + b.toNat)
      (by simpa using hl) (by omega) h3
      (fun n h4 h5 => by
        have := hn (n + 1) (by omega) (by simp only [List.length_cons]; omega)
        rw [show 16 - (left + 1) + (n + 1) = 16 - left + n by omega] at this
        simpa using this)
    rw [bitPos_cursorAt (by omega)] at ih
    have hstep : decodeSymbolFrom s t (left + 1) code c =
        decodeSymbolFrom s t left (2 * code + b.toNat) (cursorAt (bitPos c + 1)) := by
      rw [decodeSymbolFrom]
      simp only [readBit_inside h1, bind, Except.bind, h2, hn1]
    rw [hstep]
    refine ⟨fun h => ih.1 (by simpa using h), fun h4 h5 => ih.2 (by simpa using h4) ?_⟩
    rw [List.length_cons] at h5; omega

end Sys2Proof.Machine
end

