-- ==== Sys2Proof/Laws/Input.lean ====
section
/-! SUPPORT. What each reader of the input answers, from what the input holds at its offset. -/

namespace Sys2Proof.Machine

variable {s : State} {p : Nat}

/-! ### What `inputAt` says -/

theorem inputAt_nil (h : p ≤ s.inLen.toNat) : inputAt s p [] := ⟨by simpa using h, by simp⟩

theorem inputAt_append {as bs : List Byte} :
    inputAt s p (as ++ bs) ↔ inputAt s p as ∧ inputAt s (p + as.length) bs := by
  constructor
  · rintro ⟨hl, hb⟩
    simp only [List.length_append] at hl hb
    refine ⟨⟨by omega, fun i hi => ?_⟩, ⟨by omega, fun i hi => ?_⟩⟩
    · have := hb i (by omega)
      rwa [List.getD_append _ _ _ _ hi] at this
    · have := hb (as.length + i) (by omega)
      rw [List.getD_append_right _ _ _ _ (by omega)] at this
      simpa [Nat.add_assoc] using this
  · rintro ⟨⟨hl1, hb1⟩, ⟨hl2, hb2⟩⟩
    refine ⟨by simp only [List.length_append]; omega, fun i hi => ?_⟩
    by_cases h : i < as.length
    · rw [List.getD_append _ _ _ _ h]; exact hb1 i h
    · rw [List.getD_append_right _ _ _ _ (by omega)]
      have := hb2 (i - as.length) (by simp only [List.length_append] at hi; omega)
      rw [← this]; congr 1; omega

theorem inputAt_cons {b : Byte} {bs : List Byte} (h : inputAt s p (b :: bs)) :
    inputAt s p [b] ∧ inputAt s (p + 1) bs := by
  have : inputAt s p ([b] ++ bs) := by simpa using h
  exact inputAt_append.mp this

theorem inputAt_length {bs : List Byte} (h : inputAt s p bs) : p + bs.length ≤ s.inLen.toNat := h.1

/-! ### Readers -/

theorem inByte_at {b : Byte} {bs : List Byte} (h : inputAt s p (b :: bs)) : inByte s p = .ok (b, p + 1) := by
  obtain ⟨hl, hb⟩ := h
  have h0 := hb 0 (by simp)
  simp only [List.length_cons] at hl
  unfold inByte
  rw [if_neg (by omega)]
  simp only [Nat.add_zero] at h0
  rw [h0]; rfl

theorem inByte_end (h : s.inLen.toNat ≤ p) : inByte s p = .error .sTruncated := by simp [inByte, h]

/-- A byte read lies in the input, and the reader moves one byte on. -/
theorem inByte_ok {b : Byte} {q : Nat} (h : inByte s p = .ok (b, q)) :
    q = p + 1 ∧ q ≤ s.inLen.toNat ∧ inputAt s p [b] := by
  unfold inByte at h
  split at h
  · cases h
  · cases h
    refine ⟨rfl, by omega, by simp; omega, ?_⟩
    intro i hi
    obtain rfl : i = 0 := by simpa using hi
    simp

theorem be16_length (n : Nat) : (be16 n).length = 2 := rfl

theorem inU16_at {n : Nat} (hn : n < 65536) (h : inputAt s p (be16 n)) : inU16 s p = .ok (n, p + 2) := by
  obtain ⟨h1, h2⟩ := inputAt_cons h
  simp only [inU16, inByte_at h1, inByte_at h2, bind, Except.bind, BitVec.toNat_ofNat]
  congr 2
  omega

theorem inU16_end (h : s.inLen.toNat < p + 2) : inU16 s p = .error .sTruncated := by
  by_cases h1 : s.inLen.toNat ≤ p
  · simp [inU16, inByte_end h1, bind, Except.bind]
  · have h2 : inByte s (p + 1) = .error .sTruncated := inByte_end (by omega)
    unfold inU16
    cases hb : inByte s p with
    | error d => simp [inByte, h1] at hb
    | ok r => obtain ⟨b, q⟩ := r; obtain ⟨rfl, -, -⟩ := inByte_ok hb; simp [bind, Except.bind, h2]

/-- A 16-bit field read lies in the input, and the reader moves two bytes on. -/
theorem inU16_ok {n q : Nat} (h : inU16 s p = .ok (n, q)) : q = p + 2 ∧ q ≤ s.inLen.toNat ∧ n < 65536 := by
  unfold inU16 at h
  cases h1 : inByte s p with
  | error d => simp [h1, bind, Except.bind] at h
  | ok r1 =>
    obtain ⟨b1, q1⟩ := r1
    cases h2 : inByte s q1 with
    | error d => simp [h1, h2, bind, Except.bind] at h
    | ok r2 =>
      obtain ⟨b2, q2⟩ := r2
      simp only [h1, h2, bind, Except.bind, Except.ok.injEq, Prod.mk.injEq] at h
      obtain ⟨rfl, rfl⟩ := h
      obtain ⟨e1, -, -⟩ := inByte_ok h1
      obtain ⟨e2, e3, -⟩ := inByte_ok h2
      exact ⟨by omega, e3, by omega⟩

theorem inBytes_at : ∀ {bs : List Byte} {p : Nat}, inputAt s p bs → inBytes s bs.length p = .ok (bs, p + bs.length)
  | [], _, _ => rfl
  | b :: bs, p, h => by
    have h2 := inBytes_at (inputAt_cons h).2
    simp only [List.length_cons, inBytes, inByte_at h, h2, bind, Except.bind]
    congr 2; omega

/-- The bytes read are as many as asked for, and the reader moves past them. -/
theorem inBytes_ok : ∀ {n p : Nat} {bs : List Byte} {q : Nat}, inBytes s n p = .ok (bs, q) →
    bs.length = n ∧ q = p + n ∧ (0 < n → q ≤ s.inLen.toNat)
  | 0, p, bs, q, h => by cases h; simp
  | n + 1, p, bs, q, h => by
    unfold inBytes at h
    cases h1 : inByte s p with
    | error d => simp [h1, bind, Except.bind] at h
    | ok r1 =>
      obtain ⟨b, q1⟩ := r1
      cases h2 : inBytes s n q1 with
      | error d => simp [h1, h2, bind, Except.bind] at h
      | ok r2 =>
        obtain ⟨bs', q2⟩ := r2
        simp only [h1, h2, bind, Except.bind, Except.ok.injEq, Prod.mk.injEq] at h
        obtain ⟨rfl, rfl⟩ := h
        obtain ⟨e1, e1', -⟩ := inByte_ok h1
        obtain ⟨e2, e3, e4⟩ := inBytes_ok h2
        refine ⟨by simp [e2], by omega, fun _ => ?_⟩
        rcases Nat.eq_zero_or_pos n with rfl | hn
        · omega
        · exact e4 hn

theorem inU16s_at : ∀ {vs : List Nat} {p : Nat}, (∀ v ∈ vs, v < 65536) → inputAt s p (vs.flatMap be16) →
    inU16s s vs.length p = .ok (vs, p + (vs.flatMap be16).length)
  | [], _, _, _ => rfl
  | v :: vs, p, hv, h => by
    rw [List.flatMap_cons] at h
    obtain ⟨h1, h2⟩ := inputAt_append.mp h
    have h3 := inU16s_at (fun w hw => hv w (List.mem_cons_of_mem _ hw)) h2
    rw [be16_length] at h3
    simp only [List.length_cons, inU16s, inU16_at (hv v (List.mem_cons_self ..)) h1, h3, bind, Except.bind,
      List.flatMap_cons, List.length_append, be16_length]
    congr 2; omega

theorem inU16s_ok : ∀ {n p : Nat} {vs : List Nat} {q : Nat}, inU16s s n p = .ok (vs, q) →
    vs.length = n ∧ q = p + 2 * n ∧ (0 < n → q ≤ s.inLen.toNat)
  | 0, p, vs, q, h => by cases h; simp
  | n + 1, p, vs, q, h => by
    unfold inU16s at h
    cases h1 : inU16 s p with
    | error d => simp [h1, bind, Except.bind] at h
    | ok r1 =>
      obtain ⟨v, q1⟩ := r1
      cases h2 : inU16s s n q1 with
      | error d => simp [h1, h2, bind, Except.bind] at h
      | ok r2 =>
        obtain ⟨vs', q2⟩ := r2
        simp only [h1, h2, bind, Except.bind, Except.ok.injEq, Prod.mk.injEq] at h
        obtain ⟨rfl, rfl⟩ := h
        obtain ⟨e1, e1', -⟩ := inU16_ok h1
        obtain ⟨e2, e3, e4⟩ := inU16s_ok h2
        refine ⟨by simp [e2], by omega, fun _ => ?_⟩
        rcases Nat.eq_zero_or_pos n with rfl | hn
        · omega
        · exact e4 hn

theorem skipBytesAt_ok {n q : Nat} (h : skipBytesAt s n p = .ok q) :
    q = p + n ∧ (p ≤ s.inLen.toNat → q ≤ s.inLen.toNat) := by
  unfold skipBytesAt at h
  split at h
  · cases h; exact ⟨rfl, fun _ => by omega⟩
  · cases h

/-! ### What a decoder may look at -/

theorem peekInput_end (h : s.inLen.toNat ≤ p) : peekInput s p = [] := by simp [peekInput, h]

theorem peekInput_last {b : Byte} (h : inputAt s p [b]) (hl : s.inLen.toNat = p + 1) : peekInput s p = [b] := by
  have h0 := h.2 0 (by simp)
  simp only [Nat.add_zero] at h0
  unfold peekInput
  rw [if_neg (by omega), if_pos (by omega), h0]; rfl

theorem peekInput_two {b c : Byte} {bs : List Byte} (h : inputAt s p (b :: c :: bs)) : peekInput s p = [b, c] := by
  have hl := inputAt_length h
  have h0 := h.2 0 (by simp)
  have h1 := h.2 1 (by simp)
  simp only [List.length_cons] at hl
  simp only [Nat.add_zero] at h0
  unfold peekInput
  rw [if_neg (by omega), if_neg (by omega), h0, show s.inBase.toNat + p + 1 = s.inBase.toNat + (p + 1) by omega, h1]
  rfl

theorem peekInput_length : p + (peekInput s p).length ≤ s.inLen.toNat ∨ peekInput s p = [] := by
  unfold peekInput
  split
  · exact .inr rfl
  · split
    · left; simp; omega
    · left; simp; omega

/-- What the decoder reads of the stream lies in the input, and takes at least one byte. -/
theorem decode_peek_len {c : Ctx} {i : Instr} {n : Nat} (hc : c = .start ∨ c = .header ∨ c = .ecs)
    (h : decode c (.bytes (peekInput s p)) = .ok i n) : 0 < n ∧ p + n ≤ s.inLen.toNat := by
  have hlen : 0 < n ∧ n ≤ (peekInput s p).length := by
    generalize peekInput s p = bs at h
    rcases hc with rfl | rfl | rfl <;> simp only [decode] at h
    · unfold decodeStart at h
      split at h
      · split at h
        · cases h; simp
        · cases h
      · cases h
    · cases bs with
      | nil => cases h
      | cons b rest =>
        unfold decodeHeader at h
        split at h
        · cases h
        · rename_i b' rest' heq
          obtain ⟨rfl, rfl⟩ := List.cons.inj heq
          split at h
          · cases rest with
            | nil => cases h
            | cons c r => simp only at h; split at h <;> cases h <;> simp
          · cases h; simp
    · cases bs with
      | nil => cases h
      | cons b rest =>
        unfold decodeEcs at h
        split at h
        · cases h
        · rename_i b' rest' heq
          obtain ⟨rfl, rfl⟩ := List.cons.inj heq
          split at h
          · cases rest with
            | nil => cases h
            | cons c r => simp only at h; split at h <;> cases h <;> simp
          · cases h; simp
  rcases peekInput_length (s := s) (p := p) with h' | h'
  · omega
  · rw [h'] at hlen; simp at hlen; omega

end Sys2Proof.Machine
end

