-- ==== Sys2Proof/Laws/Tables.lean ====
section
/-! SUPPORT. What the entry loops of DQT and DHT answer on legal entries, and what a built Huffman table holds. -/

namespace Sys2Proof.Machine

variable {s : State}

/-! ### Zigzag order -/

theorem zigzagPos_zz : ∀ k : Fin 64, zigzagPos (zz k.val) = k.val := by decide

/-- `qt[ZZ[k]]` is the `k`-th value of the segment. -/
theorem placeZigzag_zz (vals : List Nat) (k : Fin 64) :
    (placeZigzag vals)[zz k.val] = BitVec.ofNat 16 (vals.getD k.val 0) := by
  simp [placeZigzag, zigzagPos_zz]

/-! ### DQT -/

theorem nibbles_rsByte : ∀ a b : BitVec 4, hiNibble (rsByte a b) = a ∧ loNibble (rsByte a b) = b := by decide

theorem dqtValues_at {e : QtEntry} (h : qtEntryLegal e) {p : Nat}
    (hb : inputAt s p (if e.wide then e.vals.flatMap be16 else e.vals.map (BitVec.ofNat 8))) :
    dqtValues s e.wide p = .ok (e.vals, p + 64 * (e.wide.toNat + 1)) := by
  obtain ⟨-, hl, hv⟩ := h
  unfold dqtValues
  cases hw : e.wide
  · simp only [hw, Bool.false_eq_true, if_false] at hb hv ⊢
    have h1 := inBytes_at hb
    rw [List.length_map, hl] at h1
    simp only [h1, bind, Except.bind, List.map_map]
    congr 2
    · conv_rhs => rw [← List.map_id e.vals]
      apply List.map_congr_left
      intro v hm
      have := hv v hm
      simp [Nat.mod_eq_of_lt this]
  · simp only [hw, if_true] at hb hv ⊢
    have h1 := inU16s_at (s := s) (vs := e.vals) (p := p) (fun v hm => by simpa using hv v hm) hb
    rw [hl] at h1
    rw [h1]
    congr 2
    have : ∀ l : List Nat, (l.flatMap be16).length = 2 * l.length := by
      intro l; induction l with
      | nil => rfl
      | cons a l ih => simp only [List.flatMap_cons, List.length_append, be16_length, ih, List.length_cons]; omega
    rw [this, hl]; simp

/-- Loading one entry. -/
def setQt (qt : Vector QTable 4) (e : QtEntry) : Vector QTable 4 :=
  qt.set (Fin.ofNat 4 e.id.toNat).val ⟨true, placeZigzag e.vals⟩ (Fin.ofNat 4 e.id.toNat).isLt

theorem qtEntryBytes_length {e : QtEntry} (h : qtEntryLegal e) :
    (qtEntryBytes e).length = 1 + 64 * (e.wide.toNat + 1) := by
  have : ∀ l : List Nat, (l.flatMap be16).length = 2 * l.length := by
    intro l; induction l with
    | nil => rfl
    | cons a l ih => simp only [List.flatMap_cons, List.length_append, be16_length, ih, List.length_cons]; omega
  cases hw : e.wide <;> simp [qtEntryBytes, hw, h.2.1, this]

/-- A legal entry is one pass of the loop. -/
theorem dqtLoop_entry {e : QtEntry} (h : qtEntryLegal e) {len fuel c p : Nat} {qt : Vector QTable 4} (hc : c < len)
    (hb : inputAt s p (qtEntryBytes e)) :
    dqtLoop s len (fuel + 1) c qt p =
      dqtLoop s len fuel (c + (qtEntryBytes e).length) (setQt qt e) (p + (qtEntryBytes e).length) := by
  have h0 := inputAt_cons hb
  obtain ⟨e1, e2⟩ := nibbles_rsByte (if e.wide then 1 else 0) e.id
  have h3 := h.1
  rw [dqtLoop, if_neg (Nat.not_le.mpr hc)]
  simp only [inByte_at hb, bind, Except.bind, e1, e2, raiseIf, decide_eq_true_eq, if_neg (Nat.not_lt.mpr h3)]
  have e3 : ¬ 1 < e.wide.toNat := by cases e.wide <;> decide
  have e4 : ((if e.wide then (1 : BitVec 4) else 0) == 1) = e.wide := by cases e.wide <;> decide
  have e5 : (if e.wide then (1 : BitVec 4) else 0).toNat = e.wide.toNat := by cases e.wide <;> decide
  simp only [e5, if_neg e3, e4, dqtValues_at h h0.2, qtEntryBytes_length h]
  rw [show c + 1 + 64 * (e.wide.toNat + 1) = c + (1 + 64 * (e.wide.toNat + 1)) by omega,
    show p + 1 + 64 * (e.wide.toNat + 1) = p + (1 + 64 * (e.wide.toNat + 1)) by omega]
  rfl

/-- Legal entries are as many passes, while the length goes past each entry's start. -/
theorem dqtLoop_entries : ∀ {es : List QtEntry} {len fuel c p : Nat} {qt : Vector QTable 4}, (∀ e ∈ es, qtEntryLegal e) →
    (∀ es', es'.length < es.length → es' <+: es → c + (es'.flatMap qtEntryBytes).length < len) →
    inputAt s p (es.flatMap qtEntryBytes) →
    dqtLoop s len (es.length + fuel) c qt p =
      dqtLoop s len fuel (c + (es.flatMap qtEntryBytes).length) (es.foldl setQt qt) (p + (es.flatMap qtEntryBytes).length)
  | [], len, fuel, c, p, qt, _, _, _ => by simp
  | e :: es, len, fuel, c, p, qt, hl, hp, hb => by
    rw [List.flatMap_cons] at hb
    obtain ⟨hb1, hb2⟩ := inputAt_append.mp hb
    have hc : c < len := by simpa using hp [] (by simp) (List.nil_prefix)
    have ih := dqtLoop_entries (es := es) (len := len) (fuel := fuel) (c := c + (qtEntryBytes e).length)
      (qt := setQt qt e) (fun e' he => hl e' (List.mem_cons_of_mem _ he)) (fun es' h1 h2 => by
        have := hp (e :: es') (by simpa using h1) (by simpa using h2)
        rw [List.flatMap_cons, List.length_append] at this; omega) hb2
    rw [show (e :: es).length + fuel = (es.length + fuel) + 1 by simp only [List.length_cons]; omega,
      dqtLoop_entry (hl e (List.mem_cons_self ..)) hc hb1, ih, List.flatMap_cons, List.length_append, List.foldl_cons]
    congr 1 <;> omega

theorem dqtLoop_end {len fuel c p : Nat} {qt : Vector QTable 4} (h : len ≤ c) :
    dqtLoop s len fuel c qt p = .ok (c, qt, p) := by
  cases fuel with
  | zero => rfl
  | succ n => rw [dqtLoop, if_pos h]

/-- For each id the table is the last entry's with that id. -/
theorem foldl_setQt (es : List QtEntry) (qt : Vector QTable 4) (hl : ∀ e ∈ es, e.id.toNat ≤ 3) (t : Fin 4) :
    (es.foldl setQt qt)[t] =
      match es.reverse.find? (fun e => e.id.toNat == t.val) with
      | none => qt[t]
      | some e => ⟨true, placeZigzag e.vals⟩ := by
  induction es using List.reverseRecOn with
  | nil => rfl
  | append_singleton es e ih =>
    have he := hl e (by simp)
    rw [List.foldl_append, List.reverse_append]
    simp only [List.foldl_cons, List.foldl_nil, List.reverse_cons, List.reverse_nil, List.nil_append,
      List.singleton_append, List.find?_cons]
    by_cases h : e.id.toNat = t.val
    · simp [setQt, h]
    · rw [beq_false_of_ne h]
      rw [← ih (fun e' he' => hl e' (by simp [he']))]
      have hne : ¬ e.id.toNat % 4 = t.val := by omega
      simp [setQt, hne]

/-! ### DHT -/

/-- Loading one entry into the tables of class `cls`. -/
def setHt (cls : Nat) (ht : Vector HTable 4) (e : HtEntry) : Vector HTable 4 :=
  if e.cls.toNat = cls then
    ht.set (Fin.ofNat 4 e.id.toNat).val (buildHt e.counts e.syms) (Fin.ofNat 4 e.id.toNat).isLt
  else ht

theorem htEntryBytes_length {e : HtEntry} (h : htEntryLegal e) : (htEntryBytes e).length = 17 + e.syms.length := by
  simp [htEntryBytes, h.2.2.1]; omega

/-- A legal entry is one pass of the loop. -/
theorem dhtLoop_entry {e : HtEntry} (h : htEntryLegal e) {len fuel c p : Nat} {dc ac : Vector HTable 4} (hc : c < len)
    (hb : inputAt s p (htEntryBytes e)) :
    dhtLoop s len (fuel + 1) c dc ac p =
      dhtLoop s len fuel (c + (htEntryBytes e).length) (setHt 0 dc e) (setHt 1 ac e) (p + (htEntryBytes e).length) := by
  obtain ⟨h1, h2, h3, h4, h5⟩ := h
  have h0 := inputAt_cons hb
  obtain ⟨hb1, hb2⟩ := inputAt_append.mp h0.2
  obtain ⟨e1, e2⟩ := nibbles_rsByte e.cls e.id
  have hc1 := inBytes_at hb1
  have hc2 := inBytes_at hb2
  rw [h3] at hc1 hc2
  rw [dhtLoop, if_neg (Nat.not_le.mpr hc)]
  simp only [inByte_at hb, bind, Except.bind, e1, e2, raiseIf, decide_eq_true_eq, if_neg (Nat.not_lt.mpr h2),
    if_neg (Nat.not_lt.mpr h1), hc1, h4, if_neg (Nat.not_lt.mpr h5), hc2]
  rw [htEntryBytes_length ⟨h1, h2, h3, h4, h5⟩, show c + 17 + e.syms.length = c + (17 + e.syms.length) by omega,
    show p + 1 + 16 + e.syms.length = p + (17 + e.syms.length) by omega]
  have h6 : e.cls.toNat = 0 ∨ e.cls.toNat = 1 := by omega
  rcases h6 with h6 | h6
  · have : e.cls = 0 := BitVec.eq_of_toNat_eq h6
    simp [setHt, this]
  · have : e.cls = 1 := BitVec.eq_of_toNat_eq h6
    simp [setHt, this]

/-- Legal entries are as many passes, while the length goes past each entry's start. -/
theorem dhtLoop_entries : ∀ {es : List HtEntry} {len fuel c p : Nat} {dc ac : Vector HTable 4},
    (∀ e ∈ es, htEntryLegal e) →
    (∀ es', es'.length < es.length → es' <+: es → c + (es'.flatMap htEntryBytes).length < len) →
    inputAt s p (es.flatMap htEntryBytes) →
    dhtLoop s len (es.length + fuel) c dc ac p =
      dhtLoop s len fuel (c + (es.flatMap htEntryBytes).length) (es.foldl (setHt 0) dc) (es.foldl (setHt 1) ac)
        (p + (es.flatMap htEntryBytes).length)
  | [], len, fuel, c, p, dc, ac, _, _, _ => by simp
  | e :: es, len, fuel, c, p, dc, ac, hl, hp, hb => by
    rw [List.flatMap_cons] at hb
    obtain ⟨hb1, hb2⟩ := inputAt_append.mp hb
    have hc : c < len := by simpa using hp [] (by simp) (List.nil_prefix)
    have ih := dhtLoop_entries (es := es) (len := len) (fuel := fuel) (c := c + (htEntryBytes e).length)
      (dc := setHt 0 dc e) (ac := setHt 1 ac e)
      (fun e' he => hl e' (List.mem_cons_of_mem _ he)) (fun es' h1 h2 => by
        have := hp (e :: es') (by simpa using h1) (by simpa using h2)
        rw [List.flatMap_cons, List.length_append] at this; omega) hb2
    rw [show (e :: es).length + fuel = (es.length + fuel) + 1 by simp only [List.length_cons]; omega,
      dhtLoop_entry (hl e (List.mem_cons_self ..)) hc hb1, ih, List.flatMap_cons, List.length_append, List.foldl_cons,
      List.foldl_cons]
    congr 1 <;> omega

theorem dhtLoop_end {len fuel c p : Nat} {dc ac : Vector HTable 4} (h : len ≤ c) :
    dhtLoop s len fuel c dc ac p = .ok (c, dc, ac, p) := by
  cases fuel with
  | zero => rfl
  | succ n => rw [dhtLoop, if_pos h]

/-- For each class and id the table is the last entry's with that class and id. -/
theorem foldl_setHt (cls : Nat) (es : List HtEntry) (ht : Vector HTable 4) (hl : ∀ e ∈ es, e.id.toNat ≤ 3) (t : Fin 4) :
    (es.foldl (setHt cls) ht)[t] =
      match es.reverse.find? (fun e => e.cls.toNat == cls && e.id.toNat == t.val) with
      | none => ht[t]
      | some e => buildHt e.counts e.syms := by
  induction es using List.reverseRecOn with
  | nil => rfl
  | append_singleton es e ih =>
    have he := hl e (by simp)
    rw [List.foldl_append, List.reverse_append]
    simp only [List.foldl_cons, List.foldl_nil, List.reverse_cons, List.reverse_nil, List.nil_append,
      List.singleton_append, List.find?_cons]
    by_cases h : e.cls.toNat = cls ∧ e.id.toNat = t.val
    · simp [setHt, h.1, h.2]
    · have hf : (e.cls.toNat == cls && e.id.toNat == t.val) = false := by simpa using h
      rw [hf, ← ih (fun e' he' => hl e' (by simp [he']))]
      unfold setHt
      split
      · rename_i hcls
        have hid : e.id.toNat ≠ t.val := fun hid => h ⟨hcls, hid⟩
        have hne : ¬ e.id.toNat % 4 = t.val := by omega
        simp [hne]
      · rfl

end Sys2Proof.Machine
end

