-- ==== Sys2Proof/Laws/Headers.lean ====
section
/-! SUPPORT. What the entry loops of the frame header and of the scan header answer on entries that pass their checks. -/

namespace Sys2Proof.Machine

variable {s : State}

/-! ### Frame header -/

/-- An entry's id passes rule R155 after the ids `seen`. -/
def idPasses (nf : Nat) (seen : List Nat) (id : Nat) : Prop := (nf = 3 → 1 ≤ id ∧ id ≤ 3) ∧ id ∉ seen

theorem factorLegal_iff (h : BitVec 4) : factorLegal h = true ↔ 1 ≤ h.toNat ∧ h.toNat ≤ 4 := by
  simp [factorLegal]

theorem sofEntryBytes_length (e : SofEntry) : (sofEntryBytes e).length = 3 := rfl

/-- The descriptor's id is the remapped id. -/
theorem compOf_id (nf : Nat) (zb : Bool) (e : SofEntry) : (compOf nf zb e).id.toNat = frameId zb e := by
  have := e.id.isLt
  simp only [compOf, frameId, BitVec.toNat_ofNat]
  cases zb <;> simp <;> omega

/-- An entry that passes gives its descriptor. -/
theorem frameEntry_at {e : SofEntry} {nf p : Nat} {first zb : Bool} {seen : List Nat} (hf : sofFieldsLegal e)
    (hid : idPasses nf seen (frameId (zb || (first && e.id == 0)) e)) (hb : inputAt s p (sofEntryBytes e)) :
    frameEntry s nf first zb seen p =
      .ok (compOf nf (zb || (first && e.id == 0)) e, zb || (first && e.id == 0), p + 3) := by
  obtain ⟨h1, h2, h3, h4, h5⟩ := hf
  obtain ⟨hid1, hid2⟩ := hid
  have b1 := inputAt_cons hb
  have b2 := inputAt_cons b1.2
  obtain ⟨n1, n2⟩ := nibbles_rsByte e.h e.v
  unfold frameEntry
  simp only [inByte_at hb, inByte_at b1.2, inByte_at b2.2, bind, Except.bind]
  generalize hz : (zb || (first && e.id == 0)) = z at hid1 hid2 ⊢
  have hfid : e.id.toNat + z.toNat = frameId z e := rfl
  have c1 : (nf == 3 && (frameId z e == 4 || frameId z e == 5)) = false := by
    by_cases h : nf = 3
    · have := hid1 h; simp [h]; omega
    · simp [h]
  have c2 : (nf == 3 && !(frameId z e == 1 || frameId z e == 2 || frameId z e == 3)) = false := by
    by_cases h : nf = 3
    · have := hid1 h; simp [h]; omega
    · simp [h]
  have c3 : seen.contains (frameId z e) = false := by simpa using hid2
  have c4 : (!(factorLegal e.h && factorLegal e.v)) = false := by
    simp [(factorLegal_iff e.h).mpr ⟨h1, h2⟩, (factorLegal_iff e.v).mpr ⟨h3, h4⟩]
  have c5 : decide (3 < e.tq.toNat) = false := by simpa using h5
  have w : ∀ h : BitVec 4, h.setWidth 3 = BitVec.ofNat 3 h.toNat := by decide
  simp only [hfid, c1, c2, c3, n1, n2, c4, c5, raiseIf, Bool.false_eq_true, if_false, w]
  rfl

/-- After the first entry, entries that pass are as many descriptors, and the loop goes on with what is left. -/
theorem frameEntries_rest : ∀ {es : List SofEntry} {nf k p : Nat} {zb : Bool} {seen : List Nat},
    (∀ e ∈ es, sofFieldsLegal e) → (es.map (frameId zb)).Nodup → (∀ e ∈ es, idPasses nf seen (frameId zb e)) →
    inputAt s p (es.flatMap sofEntryBytes) →
    frameEntries s nf (es.length + k) false zb seen p =
      (frameEntries s nf k false zb ((es.map (frameId zb)).reverse ++ seen) (p + 3 * es.length)).map
        fun r => (es.map (compOf nf zb) ++ r.1, r.2)
  | [], nf, k, p, zb, seen, _, _, _, _ => by
    cases h : frameEntries s nf k false zb seen p <;> simp [h, Except.map]
  | e :: es, nf, k, p, zb, seen, hf, hn, hi, hb => by
    rw [List.flatMap_cons] at hb
    obtain ⟨b1, b2⟩ := inputAt_append.mp hb
    rw [sofEntryBytes_length] at b2
    rw [List.map_cons, List.nodup_cons] at hn
    have h1 := frameEntry_at (s := s) (nf := nf) (p := p) (first := false) (zb := zb) (seen := seen)
      (hf e (List.mem_cons_self ..)) (by simpa using hi e (List.mem_cons_self ..)) b1
    simp only [Bool.false_and, Bool.or_false] at h1
    have ih := frameEntries_rest (es := es) (nf := nf) (k := k) (zb := zb) (seen := frameId zb e :: seen)
      (fun e' h => hf e' (List.mem_cons_of_mem _ h)) hn.2 (fun e' h => by
        obtain ⟨a, b⟩ := hi e' (List.mem_cons_of_mem _ h)
        refine ⟨a, fun hm => ?_⟩
        rcases List.mem_cons.mp hm with h' | h'
        · exact hn.1 (h' ▸ List.mem_map_of_mem h)
        · exact b h') b2
    rw [show (e :: es).length + k = (es.length + k) + 1 by simp only [List.length_cons]; omega, frameEntries]
    simp only [h1, bind, Except.bind, compOf_id, ih, List.map_cons, List.reverse_cons, List.append_assoc,
      List.singleton_append, List.length_cons]
    rw [show p + 3 * (es.length + 1) = p + 3 + 3 * es.length by omega]
    cases frameEntries s nf k false zb ((es.map (frameId zb)).reverse ++ frameId zb e :: seen) (p + 3 + 3 * es.length) <;>
      rfl

/-- Entries that pass, from the frame's first: the flag is the first entry's, and the loop goes on with what is left. -/
theorem frameEntries_pass {es : List SofEntry} {nf k p : Nat} (hne : es ≠ []) (hp : sofEntriesPass nf es)
    (hb : inputAt s p (es.flatMap sofEntryBytes)) :
    frameEntries s nf (es.length + k) true false [] p =
      (frameEntries s nf k false (zeroBasedIds es) (es.map (frameId (zeroBasedIds es))).reverse (p + 3 * es.length)).map
        fun r => (es.map (compOf nf (zeroBasedIds es)) ++ r.1, r.2) := by
  obtain ⟨hf, hn, hi⟩ := hp
  cases es with
  | nil => exact absurd rfl hne
  | cons e es =>
    have hz : zeroBasedIds (e :: es) = (e.id == 0) := rfl
    rw [hz] at hn hi ⊢
    generalize hzb : (e.id == 0) = zb at hn hi ⊢
    rw [List.flatMap_cons] at hb
    obtain ⟨b1, b2⟩ := inputAt_append.mp hb
    rw [sofEntryBytes_length] at b2
    rw [List.map_cons, List.nodup_cons] at hn
    have h1 := frameEntry_at (s := s) (nf := nf) (p := p) (first := true) (zb := false) (seen := [])
      (hf e (List.mem_cons_self ..)) (by
        simp only [Bool.true_and, Bool.false_or, hzb]
        exact ⟨fun h => hi h e (List.mem_cons_self ..), by simp⟩) b1
    simp only [Bool.true_and, Bool.false_or, hzb] at h1
    have ih := frameEntries_rest (s := s) (es := es) (nf := nf) (k := k) (p := p + 3) (zb := zb) (seen := [frameId zb e])
      (fun e' h => hf e' (List.mem_cons_of_mem _ h)) hn.2 (fun e' h =>
        ⟨fun h3 => hi h3 e' (List.mem_cons_of_mem _ h), fun hm =>
          hn.1 (List.mem_singleton.mp hm ▸ List.mem_map_of_mem h)⟩) b2
    rw [show (e :: es).length + k = (es.length + k) + 1 by simp only [List.length_cons]; omega, frameEntries]
    simp only [h1, bind, Except.bind, compOf_id, ih, List.map_cons, List.reverse_cons, List.length_cons]
    rw [show p + 3 * (es.length + 1) = p + 3 + 3 * es.length by omega]
    cases frameEntries s nf k false zb ((es.map (frameId zb)).reverse ++ [frameId zb e]) (p + 3 + 3 * es.length) <;>
      rfl

/-- A whole frame's entries. -/
theorem frameEntries_all {es : List SofEntry} {nf p : Nat} (hne : es ≠ []) (hp : sofEntriesPass nf es)
    (hb : inputAt s p (es.flatMap sofEntryBytes)) :
    frameEntries s nf es.length true false [] p =
      .ok (es.map (compOf nf (zeroBasedIds es)), zeroBasedIds es, p + 3 * es.length) := by
  have := frameEntries_pass (k := 0) hne hp hb
  simpa [frameEntries, Except.map] using this

/-! ### Scan header -/

theorem findComp_ids {comp comp' : Vector Comp 3} (h : ∀ i : Fin 3, comp'[i].id = comp[i].id) (id : Nat) :
    findComp s comp' id = findComp s comp id := by
  unfold findComp
  congr 1; funext i; rw [h i]

/-- Where one live position alone has the id, it is the one found. -/
theorem findComp_eq {comp : Vector Comp 3} {id : Nat} {i : Fin 3} (hi : i.val < s.frame.nf.toNat)
    (hid : comp[i].id.toNat = id)
    (hu : ∀ j : Fin 3, j.val < s.frame.nf.toNat → comp[j].id.toNat = id → j = i) : findComp s comp id = some i := by
  cases h : findComp s comp id with
  | none =>
    unfold findComp at h
    rw [List.find?_eq_none] at h
    exact absurd (Bool.and_eq_true_iff.mpr ⟨decide_eq_true hi, beq_iff_eq.mpr hid⟩) (h i (List.mem_finRange i))
  | some j =>
    unfold findComp at h
    have := List.find?_some h
    simp only [Bool.and_eq_true, decide_eq_true_eq, beq_iff_eq] at this
    rw [hu j this.1 this.2]

theorem findComp_some {comp : Vector Comp 3} {id : Nat} {i : Fin 3} (h : findComp s comp id = some i) :
    i.val < s.frame.nf.toNat ∧ comp[i].id.toNat = id := by
  unfold findComp at h
  have := List.find?_some h
  simpa using this

theorem findComp_none {comp : Vector Comp 3} {id : Nat}
    (h : ∀ i : Fin 3, i.val < s.frame.nf.toNat → comp[i].id.toNat ≠ id) : findComp s comp id = none := by
  unfold findComp
  rw [List.find?_eq_none]
  intro i _
  have := h i
  simp only [Bool.and_eq_true, decide_eq_true_eq, beq_iff_eq, not_and]
  exact this

/-- A component reference loaded. -/
def setScanComp (comp : Vector Comp 3) (i : Fin 3) (e : SosEntry) : Vector Comp 3 :=
  comp.set i.val { comp[i] with td := Fin.ofNat 4 e.td.toNat, ta := Fin.ofNat 4 e.ta.toNat } i.isLt

theorem setScanComp_id (comp : Vector Comp 3) (i j : Fin 3) (e : SosEntry) :
    (setScanComp comp i e)[j].id = comp[j].id := by
  simp only [setScanComp, Fin.getElem_fin, Vector.getElem_set]
  split
  · rename_i h; simp [h]
  · rfl

/-- Component references that pass rule R164, each naming the frame position beside it. -/
theorem scanEntries_pass : ∀ {es : List (SosEntry × Fin 3)} {seen : List Nat} {comp : Vector Comp 3} {p : Nat},
    (∀ x ∈ es, findComp s comp (x.1.id.toNat + s.frame.zeroBased.toNat) = some x.2) →
    (es.map fun x => x.1.id.toNat + s.frame.zeroBased.toNat).Nodup →
    (∀ x ∈ es, x.1.id.toNat + s.frame.zeroBased.toNat ∉ seen) →
    (∀ x ∈ es, x.1.td.toNat ≤ 3 ∧ x.1.ta.toNat ≤ 3) →
    inputAt s p (es.flatMap fun x => sosEntryBytes x.1) →
    scanEntries s es.length seen comp p =
      .ok (es.map Prod.snd, es.foldl (fun c x => setScanComp c x.2 x.1) comp, p + 2 * es.length)
  | [], _, _, _, _, _, _, _, _ => by simp [scanEntries]
  | (e, i) :: es, seen, comp, p, hfind, hn, hs, ht, hb => by
    rw [List.flatMap_cons] at hb
    obtain ⟨b1, b2⟩ := inputAt_append.mp hb
    have b3 := inputAt_cons b1
    obtain ⟨n1, n2⟩ := nibbles_rsByte e.td e.ta
    have hf := hfind (e, i) (List.mem_cons_self ..)
    obtain ⟨t1, t2⟩ := ht (e, i) (List.mem_cons_self ..)
    have hns : seen.contains (e.id.toNat + s.frame.zeroBased.toNat) = false := by
      simpa using hs (e, i) (List.mem_cons_self ..)
    rw [List.map_cons, List.nodup_cons] at hn
    have ih := scanEntries_pass (es := es) (seen := (e.id.toNat + s.frame.zeroBased.toNat) :: seen)
      (comp := setScanComp comp i e) (p := p + 2)
      (fun x hx => by
        rw [findComp_ids (fun j => setScanComp_id comp i j e)]
        exact hfind x (List.mem_cons_of_mem _ hx)) hn.2
      (fun x hx hm => by
        rcases List.mem_cons.mp hm with h | h
        · exact hn.1 (List.mem_map.mpr ⟨x, hx, h⟩)
        · exact hs x (List.mem_cons_of_mem _ hx) h)
      (fun x hx => ht x (List.mem_cons_of_mem _ hx)) b2
    have hr : (decide (3 < e.td.toNat) || decide (3 < e.ta.toNat)) = false := by
      simp only [Bool.or_eq_false_iff, decide_eq_false_iff_not]; exact ⟨Nat.not_lt.mpr t1, Nat.not_lt.mpr t2⟩
    rw [List.length_cons, scanEntries]
    simp only [inByte_at b1, bind, Except.bind, hf, hns, inByte_at b3.2, n1, n2, raiseIf, hr, Bool.false_eq_true,
      if_false]
    have hset : comp.set i.val { comp[i] with td := Fin.ofNat 4 e.td.toNat, ta := Fin.ofNat 4 e.ta.toNat } i.isLt =
        setScanComp comp i e := rfl
    rw [hset, show p + 1 + 1 = p + 2 by omega, ih]
    simp only [List.map_cons, List.foldl_cons]
    congr 3; omega

end Sys2Proof.Machine
end

