-- ==== Sys2Proof/Laws/Memory.lean ====
section
/-! SUPPORT. Host memory: a read after a write, and that every operation on memory keeps its canonical form. -/

namespace Sys2Proof.Machine

/-! ### Read after write -/

/-- Nothing below `lo` is listed. -/
theorem Memory.read_of_lt {lo a : Nat} {m : List Host.Cell} (h : Memory.wfFrom lo m = true) (ha : a < lo) :
    Memory.read m a = memDefault := by
  induction m generalizing lo with
  | nil => rfl
  | cons c rest ih =>
    obtain ⟨k, b⟩ := c
    simp only [Memory.wfFrom, Bool.and_eq_true, decide_eq_true_eq] at h
    obtain ⟨⟨⟨h1, h2⟩, h3⟩, h4⟩ := h
    simp only [Memory.read]
    rw [if_neg (by omega)]
    exact ih h4 (by omega)

theorem Memory.read_write_same {lo : Nat} {m : List Host.Cell} (h : Memory.wfFrom lo m = true) (a : Nat) (v : Byte) :
    Memory.read (Memory.write m a v) a = v := by
  induction m generalizing lo with
  | nil => by_cases hv : v = memDefault <;> simp [Memory.write, Memory.read, hv]
  | cons c rest ih =>
    obtain ⟨k, b⟩ := c
    have h' := h
    simp only [Memory.wfFrom, Bool.and_eq_true, decide_eq_true_eq] at h
    obtain ⟨⟨⟨h1, h2⟩, h3⟩, h4⟩ := h
    simp only [Memory.write]
    split
    · rename_i hlt
      split
      · rename_i hv
        simp only [Memory.read, hv]
        rw [if_neg (by omega)]
        exact Memory.read_of_lt h4 (by omega)
      · simp [Memory.read]
    · split
      · rename_i heq
        split
        · rename_i hv
          rw [hv]
          exact Memory.read_of_lt h4 (by omega)
        · simp [Memory.read]
      · simp only [Memory.read]
        rw [if_neg (by omega)]
        exact ih h4

theorem Memory.read_write_other (m : List Host.Cell) {a a' : Nat} (v : Byte) (hne : a' ≠ a) :
    Memory.read (Memory.write m a v) a' = Memory.read m a' := by
  induction m with
  | nil => by_cases hv : v = memDefault <;> simp [Memory.write, Memory.read, hv, Ne.symm hne]
  | cons c rest ih =>
    obtain ⟨k, b⟩ := c
    simp only [Memory.write]
    split
    · split
      · rfl
      · simp [Memory.read, Ne.symm hne]
    · split
      · rename_i heq
        split <;> simp [Memory.read, ← heq, Ne.symm hne]
      · simp only [Memory.read, ih]

/-! ### The canonical form -/

theorem Memory.wfFrom_mono {lo lo' : Nat} {m : List Host.Cell} (h : Memory.wfFrom lo m = true) (hle : lo' ≤ lo) :
    Memory.wfFrom lo' m = true := by
  cases m with
  | nil => rfl
  | cons c rest =>
    obtain ⟨k, b⟩ := c
    simp only [Memory.wfFrom, Bool.and_eq_true, decide_eq_true_eq] at h ⊢
    exact ⟨⟨⟨by omega, h.1.1.2⟩, h.1.2⟩, h.2⟩

theorem Memory.wfFrom_write {lo a : Nat} {m : List Host.Cell} (h : Memory.wfFrom lo m = true) (v : Byte)
    (hlo : lo ≤ a) (ha : a < 2 ^ 32) : Memory.wfFrom lo (Memory.write m a v) = true := by
  induction m generalizing lo with
  | nil =>
    by_cases hv : v = memDefault
    · simp [Memory.write, hv, Memory.wfFrom]
    · simp [Memory.write, hv, Memory.wfFrom, hlo]; exact ha
  | cons c rest ih =>
    obtain ⟨k, b⟩ := c
    simp only [Memory.wfFrom, Bool.and_eq_true, decide_eq_true_eq] at h
    obtain ⟨⟨⟨h1, h2⟩, h3⟩, h4⟩ := h
    simp only [Memory.write]
    split
    · rename_i hlt
      split
      · simp only [Memory.wfFrom, Bool.and_eq_true, decide_eq_true_eq]
        exact ⟨⟨⟨h1, h2⟩, h3⟩, h4⟩
      · rename_i hv
        simp only [Memory.wfFrom, Bool.and_eq_true, decide_eq_true_eq]
        exact ⟨⟨⟨hlo, ha⟩, by simpa using hv⟩, ⟨⟨⟨by omega, h2⟩, h3⟩, h4⟩⟩
    · split
      · rename_i heq
        split
        · exact Memory.wfFrom_mono h4 (by omega)
        · rename_i hv
          simp only [Memory.wfFrom, Bool.and_eq_true, decide_eq_true_eq]
          exact ⟨⟨⟨hlo, ha⟩, by simpa using hv⟩, heq ▸ h4⟩
      · simp only [Memory.wfFrom, Bool.and_eq_true, decide_eq_true_eq]
        exact ⟨⟨⟨h1, h2⟩, h3⟩, ih h4 (by omega)⟩

/-! ### The operations of the machine -/

theorem memWrite_wf {m : List Host.Cell} (h : Memory.wf m = true) (a : Nat) (v : Byte) :
    Memory.wf (memWrite m a v) = true :=
  Memory.wfFrom_write h v (Nat.zero_le _) (Nat.mod_lt _ (by norm_num))

theorem read_memWrite_same {m : List Host.Cell} (h : Memory.wf m = true) (a : Nat) (v : Byte) :
    Memory.read (memWrite m a v) (a % 2 ^ 32) = v := Memory.read_write_same h _ v

theorem read_memWrite_other (m : List Host.Cell) {a a' : Nat} (v : Byte) (h : a' ≠ a % 2 ^ 32) :
    Memory.read (memWrite m a v) a' = Memory.read m a' := Memory.read_write_other m v h

theorem writePixel_wf {m : List Host.Cell} (h : Memory.wf m = true) (a : Nat) (c : Byte × Byte × Byte) :
    Memory.wf (writePixel m a c) = true := memWrite_wf (memWrite_wf (memWrite_wf h _ _) _ _) _ _

/-- A pixel changes the three bytes it is written to and no other. -/
theorem read_writePixel_other (m : List Host.Cell) {a a' : Nat} (c : Byte × Byte × Byte)
    (h : ∀ k < 3, a' ≠ (a + k) % 2 ^ 32) : Memory.read (writePixel m a c) a' = Memory.read m a' := by
  unfold writePixel
  rw [read_memWrite_other _ _ (h 2 (by omega)), read_memWrite_other _ _ (h 1 (by omega)),
    read_memWrite_other _ _ (by simpa using h 0 (by omega))]

theorem read_writePixel_same {m : List Host.Cell} (h : Memory.wf m = true) (a : Nat) (c : Byte × Byte × Byte) :
    (Memory.read (writePixel m a c) (a % 2 ^ 32), Memory.read (writePixel m a c) ((a + 1) % 2 ^ 32),
      Memory.read (writePixel m a c) ((a + 2) % 2 ^ 32)) = c := by
  have h1 := memWrite_wf h a c.1
  have h2 := memWrite_wf h1 (a + 1) c.2.1
  unfold writePixel
  rw [read_memWrite_same h2, read_memWrite_other _ _ (by omega), read_memWrite_other _ _ (by omega),
    read_memWrite_same h, read_memWrite_other _ _ (by omega), read_memWrite_same h1]

theorem convertPixel_wf (s : State) (n : Nat) {m : List Host.Cell} (h : Memory.wf m = true) (p : Nat × Nat) :
    Memory.wf (convertPixel s n m p) = true := by
  simp only [convertPixel]; split
  · exact writePixel_wf h _ _
  · exact h

theorem convertPixels_wf (s : State) (n : Nat) (ps : List (Nat × Nat)) {m : List Host.Cell}
    (h : Memory.wf m = true) : Memory.wf (ps.foldl (convertPixel s n) m) = true := by
  induction ps generalizing m with
  | nil => exact h
  | cons p rest ih => exact ih (convertPixel_wf s n h p)

theorem colorStep_wf {s : State} (h : Memory.wf s.mem = true) : Memory.wf (colorStep s).mem = true :=
  convertPixels_wf s _ _ h

theorem writeBytes_wf (bs : List Byte) {m : List Host.Cell} (h : Memory.wf m = true) (a : Nat) :
    Memory.wf (writeBytes m a bs) = true := by
  induction bs generalizing m a with
  | nil => exact h
  | cons b rest ih => exact ih (memWrite_wf h a b) (a + 1)

theorem Memory.wfFrom_filter (f : Host.Cell → Bool) {lo : Nat} {m : List Host.Cell} (h : Memory.wfFrom lo m = true) :
    Memory.wfFrom lo (m.filter f) = true := by
  induction m generalizing lo with
  | nil => rfl
  | cons c rest ih =>
    obtain ⟨k, b⟩ := c
    simp only [Memory.wfFrom, Bool.and_eq_true, decide_eq_true_eq] at h
    obtain ⟨⟨⟨h1, h2⟩, h3⟩, h4⟩ := h
    by_cases hf : f (k, b) = true
    · rw [List.filter_cons_of_pos hf]
      simp only [Memory.wfFrom, Bool.and_eq_true, decide_eq_true_eq]
      exact ⟨⟨⟨h1, h2⟩, h3⟩, ih h4⟩
    · rw [List.filter_cons_of_neg hf]
      exact Memory.wfFrom_mono (ih h4) (by omega)

theorem clearBytes_wf {m : List Host.Cell} (h : Memory.wf m = true) (a n : Nat) :
    Memory.wf (clearBytes m a n) = true := Memory.wfFrom_filter _ h

theorem reset_memory_wf : Memory.wf State.reset.mem = true := rfl

end Sys2Proof.Machine
end

