-- ==== Sys2Proof/Laws/Step.lean ====
section
/-! SUPPORT. What a step is: the block's move or the outside world's input; what committing or raising answers, and what
the meaning of an entropy symbol answers. -/

namespace Sys2Proof.Machine

/-! ### Whose step -/

theorem step_of_blockTurn {s u : State} (h : blockTurn s = some u) : step s = runFetched (fetchBlock u) := by
  unfold blockTurn at h
  unfold step fetch
  split at h
  · rename_i ho; cases h; rw [if_pos ho]
  · rename_i ho
    rw [if_neg ho]
    split at h
    · rename_i hi; cases h; rw [hi]
    · rename_i rest hi; cases h; rw [hi]; rfl
    · cases h

theorem step_of_hostTurn {s u : State} {e : Input} (h : hostTurn s = some (e, u)) :
    step s = runFetched (fetchExternal e u) := by
  unfold hostTurn at h
  unfold step fetch
  split at h
  · cases h
  · rename_i ho
    rw [if_neg ho]
    split at h
    · cases h
    · cases h
    · rename_i e' rest hi; cases h; rw [hi]

/-- The block's turn differs from the state in the outside world's inputs alone, and keeps an open step open. -/
theorem blockTurn_eq {s u : State} (h : blockTurn s = some u) :
    u = { s with inputs := u.inputs } := by
  unfold blockTurn at h
  split at h
  · cases h; rfl
  · split at h
    · cases h; rfl
    · cases h; rfl
    · cases h

/-- So does the outside world's turn, which comes between two block steps only. -/
theorem hostTurn_eq {s u : State} {e : Input} (h : hostTurn s = some (e, u)) :
    u = { s with inputs := u.inputs } ∧ s.txn = .none := by
  unfold hostTurn at h
  split at h
  · cases h
  · rename_i ho
    split at h
    · cases h
    · cases h
    · cases h; exact ⟨rfl, by simpa [inBlockStep] using ho⟩

theorem turn_cases (s : State) : (∃ u, blockTurn s = some u) ∨ ∃ e u, hostTurn s = some (e, u) := by
  unfold blockTurn hostTurn
  split
  · exact .inl ⟨_, rfl⟩
  · cases h : s.inputs with
    | nil => exact .inl ⟨_, rfl⟩
    | cons e rest => cases e <;> first | exact .inl ⟨_, rfl⟩ | exact .inr ⟨_, _, rfl⟩

/-! ### Committing or raising -/

theorem commitOrRaise_ok (s t : State) : commitOrRaise s (.ok t) = .next t := rfl

theorem commitOrRaise_error (s : State) (d : Detail) : commitOrRaise s (.error d) = .next (raiseError d s) := rfl

theorem raiseError_stopped (d : Detail) (s : State) : raiseError d s = stopped (detailClass d) (detailCode d) s := rfl

theorem raiseIf_true (d : Detail) : raiseIf true d = .error d := rfl

theorem raiseIf_false (d : Detail) : raiseIf false d = .ok () := rfl

/-- A step that commits or raises answers a next state: what it commits, or the error entry. -/
theorem commitOrRaise_next {s t : State} {r : Except Detail State} (h : commitOrRaise s r = .next t) :
    r = .ok t ∨ ∃ d, r = .error d ∧ t = raiseError d s := by
  cases r with
  | ok u => cases h; exact .inl rfl
  | error d => cases h; exact .inr ⟨d, rfl, rfl⟩

/-- Every error of the block has one of the ERRCODE values of 60_exceptions.md rule R273. -/
theorem detail_errcode (d : Detail) : (detailCode d).toNat * 256 + (detailClass d).toNat ∈ errcodes := by
  cases d <;> decide

/-! ### Entropy symbols -/

theorem openBlock_mcu {s : State} {w : McuWork} {slot : Slot} {rest : List Slot} (h : s.txn = .mcu w)
    (ht : w.todo = slot :: rest) : openBlock s = some (w, slot) := by
  simp [openBlock, h, ht]

theorem openBlock_some {s : State} {w : McuWork} {slot : Slot} (h : openBlock s = some (w, slot)) :
    s.txn = .mcu w ∧ ∃ rest, w.todo = slot :: rest := by
  unfold openBlock at h
  split at h
  · rename_i w' hw
    split at h
    · rename_i sl rest ht; cases h; exact ⟨hw, rest, ht⟩
    · cases h
  · cases h
  · cases h

/-- In an open block a symbol's effect is written to the working registers, or its error is raised. -/
theorem runSymbol_open {s : State} {w : McuWork} {slot : Slot} {rest : List Slot} (h : s.txn = .mcu w)
    (ht : w.todo = slot :: rest) (f : McuWork → Slot → Except Detail McuWork) :
    runSymbol f s =
      match f w slot with
      | .ok w' => .next { s with txn := .mcu w' }
      | .error d => .next (raiseError d s) := by
  cases hf : f w slot <;> simp only [runSymbol, openBlock_mcu h ht, hf]

/-- All that a symbol can do. -/
theorem runSymbol_next {f : McuWork → Slot → Except Detail McuWork} {s t : State} (h : runSymbol f s = .next t) :
    ∃ w slot rest, s.txn = .mcu w ∧ w.todo = slot :: rest ∧
      ((∃ w', f w slot = .ok w' ∧ t = { s with txn := .mcu w' }) ∨ ∃ d, f w slot = .error d ∧ t = raiseError d s) := by
  unfold runSymbol at h
  cases ho : openBlock s with
  | none => simp [ho] at h
  | some x =>
    obtain ⟨w, slot⟩ := x
    obtain ⟨h1, rest, h2⟩ := openBlock_some ho
    refine ⟨w, slot, rest, h1, h2, ?_⟩
    simp only [ho] at h
    cases hf : f w slot with
    | ok w' => simp only [hf] at h; cases h; exact .inl ⟨w', rfl, rfl⟩
    | error d => simp only [hf] at h; cases h; exact .inr ⟨d, rfl, rfl⟩

/-- A finished block leaves the MCU's list and its values join the blocks done. -/
theorem endBlock_cons {w : McuWork} {slot : Slot} {rest : List Slot} (h : w.todo = slot :: rest) :
    endBlock w = { w with todo := rest, k := 0, blk := zeroBlock, done := w.done ++ [(slot, w.blk)] } := by
  simp [endBlock, h]

/-! ### The coefficient store -/

theorem coefRead_write_same (c : List CoefEntry) (m : Nat) (ch : Fin 3) (b : Nat) (blk : Block) :
    coefRead (coefWrite c m ch b blk) m ch b = blk := by
  induction c with
  | nil => simp [coefWrite, coefRead]
  | cons e rest ih =>
    simp only [coefWrite]
    split
    · simp [coefRead]
    · rename_i h; simp only [coefRead]; rw [if_neg h, ih]

theorem coefRead_write_other (c : List CoefEntry) {m m' : Nat} {ch ch' : Fin 3} {b b' : Nat} (blk : Block)
    (h : ¬(m = m' ∧ ch = ch' ∧ b = b')) : coefRead (coefWrite c m ch b blk) m' ch' b' = coefRead c m' ch' b' := by
  induction c with
  | nil => simp [coefWrite, coefRead, h]
  | cons e rest ih =>
    simp only [coefWrite]
    split
    · rename_i he
      simp only [coefRead]
      rw [if_neg h, if_neg]
      rintro ⟨h1, h2, h3⟩
      exact h ⟨he.1 ▸ h1, he.2.1 ▸ h2, he.2.2 ▸ h3⟩
    · simp only [coefRead, ih]

/-! ### Who never stops -/

/-- A marker of the header never faults and is never refused. -/
theorem commitOrRaise_isNext (s : State) (r : Except Detail State) : ∃ t, commitOrRaise s r = .next t := by
  cases r <;> exact ⟨_, rfl⟩

end Sys2Proof.Machine
end

