-- ==== Sys2Proof/Laws/Parser.lean ====
section
/-! SUPPORT. Everything a parser step can do: for each segment reader, what a state it commits is. -/

namespace Sys2Proof.Machine

variable {s t : State} {p q : Nat}

/-! ### Chains of checks and reads -/

theorem bind_ok {α β : Type} {x : Except Detail α} {f : α → Except Detail β} {b : β}
    (h : (x >>= f) = .ok b) : ∃ a, x = .ok a ∧ f a = .ok b := by
  cases x with
  | error d => cases h
  | ok a => exact ⟨a, rfl, h⟩

theorem raiseIf_ok {c : Bool} {d : Detail} {u : Unit} (h : raiseIf c d = .ok u) : c = false := by
  cases c
  · rfl
  · cases h

/-! ### Skipped segments and DRI -/

theorem skipSegment_next (h : skipSegment s = .next t) :
    (∃ d, t = raiseError d s) ∨ ∃ q, t = commitPos q s ∧ inPos s < q ∧ q ≤ s.inLen.toNat := by
  unfold skipSegment at h
  rcases commitOrRaise_next h with h | ⟨d, -, rfl⟩
  · right
    obtain ⟨⟨len, p⟩, h1, h⟩ := bind_ok h
    obtain ⟨u, h2, h⟩ := bind_ok h
    obtain ⟨q, h3, h⟩ := bind_ok h
    cases h
    obtain ⟨e1, e2, -⟩ := inU16_ok h1
    obtain ⟨e3, e4⟩ := skipBytesAt_ok h3
    exact ⟨q, rfl, by omega, e4 e2⟩
  · exact .inl ⟨d, rfl⟩

theorem parseDri_ok (h : parseDri s p = .ok t) :
    ∃ ri q, t = commitPos q { s with frame := { s.frame with restartInterval := BitVec.ofNat 16 ri } } ∧ p < q ∧
      q ≤ s.inLen.toNat := by
  unfold parseDri at h
  obtain ⟨⟨len, p1⟩, h1, h⟩ := bind_ok h
  obtain ⟨u, -, h⟩ := bind_ok h
  obtain ⟨⟨ri, p2⟩, h2, h⟩ := bind_ok h
  cases h
  obtain ⟨e1, -, -⟩ := inU16_ok h1
  obtain ⟨e2, e3, -⟩ := inU16_ok h2
  exact ⟨ri, p2, rfl, by omega, e3⟩

/-! ### DQT and DHT -/

theorem dqtLoop_ok : ∀ {fuel len c : Nat} {qt qt' : Vector QTable 4} {c' p q : Nat},
    dqtLoop s len fuel c qt p = .ok (c', qt', q) → p ≤ s.inLen.toNat → p ≤ q ∧ q ≤ s.inLen.toNat
  | 0, len, c, qt, qt', c', p, q, h, hp => by cases h; exact ⟨le_refl _, hp⟩
  | fuel + 1, len, c, qt, qt', c', p, q, h, hp => by
    unfold dqtLoop at h
    split at h
    · cases h; exact ⟨le_refl _, hp⟩
    · obtain ⟨⟨pt, p1⟩, h1, h⟩ := bind_ok h
      obtain ⟨-, -, h⟩ := bind_ok h
      obtain ⟨-, -, h⟩ := bind_ok h
      obtain ⟨⟨vals, p2⟩, h2, h⟩ := bind_ok h
      obtain ⟨e1, e2, -⟩ := inByte_ok h1
      have e3 : p1 ≤ p2 ∧ p2 ≤ s.inLen.toNat := by
        unfold dqtValues at h2
        split at h2
        · obtain ⟨-, e, e'⟩ := inU16s_ok h2; exact ⟨by omega, e' (by omega)⟩
        · obtain ⟨⟨bs, p3⟩, h3, h4⟩ := bind_ok h2
          cases h4
          obtain ⟨-, e, e'⟩ := inBytes_ok h3; exact ⟨by omega, e' (by omega)⟩
      have := dqtLoop_ok h e3.2
      exact ⟨by omega, this.2⟩

theorem parseDqt_ok (h : parseDqt s p = .ok t) :
    ∃ qt q, t = commitPos q { s with qt := qt } ∧ p < q ∧ q ≤ s.inLen.toNat := by
  unfold parseDqt at h
  obtain ⟨⟨len, p1⟩, h1, h⟩ := bind_ok h
  obtain ⟨⟨c, qt, p2⟩, h2, h⟩ := bind_ok h
  obtain ⟨-, -, h⟩ := bind_ok h
  cases h
  obtain ⟨e1, e2, -⟩ := inU16_ok h1
  have := dqtLoop_ok h2 e2
  exact ⟨qt, p2, rfl, by omega, this.2⟩

/-- Every populated table of a class is a built one. -/
def allBuilt (ht : Vector HTable 4) : Prop := ∀ t : Fin 4, ht[t].populated = true → tableBuilt ht[t]

theorem allBuilt_set {ht : Vector HTable 4} (h : allBuilt ht) (i : Fin 4) {x : HTable} (hx : tableBuilt x) :
    allBuilt (ht.set i.val x i.isLt) := by
  intro t
  simp only [Fin.getElem_fin, Vector.getElem_set]
  split
  · exact fun _ => hx
  · exact h t

theorem dhtLoop_ok : ∀ {fuel len c : Nat} {dc ac dc' ac' : Vector HTable 4} {c' p q : Nat},
    dhtLoop s len fuel c dc ac p = .ok (c', dc', ac', q) → p ≤ s.inLen.toNat →
    p ≤ q ∧ q ≤ s.inLen.toNat ∧ (allBuilt dc → allBuilt dc') ∧ (allBuilt ac → allBuilt ac')
  | 0, len, c, dc, ac, dc', ac', c', p, q, h, hp => by cases h; exact ⟨le_refl _, hp, id, id⟩
  | fuel + 1, len, c, dc, ac, dc', ac', c', p, q, h, hp => by
    unfold dhtLoop at h
    split at h
    · cases h; exact ⟨le_refl _, hp, id, id⟩
    · obtain ⟨⟨tt, p1⟩, h1, h⟩ := bind_ok h
      obtain ⟨-, -, h⟩ := bind_ok h
      obtain ⟨-, -, h⟩ := bind_ok h
      obtain ⟨⟨counts, p2⟩, h2, h⟩ := bind_ok h
      obtain ⟨_, h3, h⟩ := bind_ok h
      obtain ⟨⟨syms, p4⟩, h4, h⟩ := bind_ok h
      obtain ⟨e1, e2, -⟩ := inByte_ok h1
      obtain ⟨l1, e3, e4⟩ := inBytes_ok h2
      obtain ⟨l2, e5, e6⟩ := inBytes_ok h4
      have e7 := e4 (by omega)
      have e8 : p4 ≤ s.inLen.toNat := by
        rcases Nat.eq_zero_or_pos (counts.map BitVec.toNat).sum with h0 | h0
        · omega
        · exact e6 h0
      have hb : tableBuilt (buildHt counts syms) :=
        ⟨counts, syms, l1, l2.symm, by have := raiseIf_ok h3; simp at this; omega, rfl⟩
      simp only at h
      split at h
      · obtain ⟨a, b, c, d⟩ := dhtLoop_ok h e8
        exact ⟨by omega, b, fun hd => c (allBuilt_set hd _ hb), d⟩
      · obtain ⟨a, b, c, d⟩ := dhtLoop_ok h e8
        exact ⟨by omega, b, c, fun hd => d (allBuilt_set hd _ hb)⟩

theorem parseDht_ok (h : parseDht s p = .ok t) :
    ∃ dc ac q, t = commitPos q { s with dcHt := dc, acHt := ac } ∧ p < q ∧ q ≤ s.inLen.toNat ∧
      (allBuilt s.dcHt → allBuilt dc) ∧ (allBuilt s.acHt → allBuilt ac) := by
  unfold parseDht at h
  obtain ⟨⟨len, p1⟩, h1, h⟩ := bind_ok h
  obtain ⟨⟨c, dc, ac, p2⟩, h2, h⟩ := bind_ok h
  obtain ⟨-, -, h⟩ := bind_ok h
  cases h
  obtain ⟨e1, e2, -⟩ := inU16_ok h1
  obtain ⟨a, b, c, d⟩ := dhtLoop_ok h2 e2
  exact ⟨dc, ac, p2, rfl, by omega, b, c, d⟩

/-! ### SOF0 -/

/-- What rules R155 to R157 say of a component descriptor they accept. -/
structure CompOk (nf : Nat) (c : Comp) : Prop where
  h       : 1 ≤ c.h.toNat ∧ c.h.toNat ≤ 4
  v       : 1 ≤ c.v.toNat ∧ c.v.toNat ≤ 4
  gray    : nf = 1 → c.ch = 0
  colour  : nf = 3 → c.id.toNat = c.ch.val + 1

theorem frameEntry_ok {nf : Nat} {first zb zb' : Bool} {seen : List Nat} {c : Comp} (hnf : nf = 1 ∨ nf = 3)
    (h : frameEntry s nf first zb seen p = .ok (c, zb', q)) :
    CompOk nf c ∧ c.id.toNat ∉ seen ∧ q = p + 3 ∧ q ≤ s.inLen.toNat := by
  unfold frameEntry at h
  obtain ⟨⟨b, p1⟩, h1, h⟩ := bind_ok h
  obtain ⟨_, h2, h⟩ := bind_ok h
  obtain ⟨_, h3, h⟩ := bind_ok h
  obtain ⟨_, h4, h⟩ := bind_ok h
  obtain ⟨⟨hv, p2⟩, h5, h⟩ := bind_ok h
  obtain ⟨_, h6, h⟩ := bind_ok h
  obtain ⟨⟨tq, p3⟩, h7, h⟩ := bind_ok h
  obtain ⟨_, h8, h⟩ := bind_ok h
  simp only [Except.ok.injEq, Prod.mk.injEq] at h
  obtain ⟨rfl, -, rfl⟩ := h
  replace h2 := raiseIf_ok h2
  replace h3 := raiseIf_ok h3
  replace h4 := raiseIf_ok h4
  replace h6 := raiseIf_ok h6
  obtain ⟨e1, -, -⟩ := inByte_ok h1
  obtain ⟨e2, -, -⟩ := inByte_ok h5
  obtain ⟨e3, e4, -⟩ := inByte_ok h7
  generalize hz : (zb || first && b == 0) = z at *
  have hidlt : b.toNat + z.toNat < 512 := by have := b.isLt; cases z <;> simp <;> omega
  have hf : factorLegal (hiNibble hv) = true ∧ factorLegal (loNibble hv) = true := by simpa using h6
  have w : ∀ x : BitVec 4, factorLegal x = true → 1 ≤ (x.setWidth 3).toNat ∧ (x.setWidth 3).toNat ≤ 4 := by decide
  refine ⟨⟨w _ hf.1, w _ hf.2, ?_, ?_⟩, ?_, by omega, by omega⟩
  · rintro rfl; rfl
  · rintro rfl
    have h3' : b.toNat + z.toNat = 1 ∨ b.toNat + z.toNat = 2 ∨ b.toNat + z.toNat = 3 := by
      simp at h3; omega
    simp only [channelOf, BitVec.toNat_ofNat]
    rw [if_neg (by omega)]
    simp only [Fin.val_ofNat]; omega
  · simpa [Nat.mod_eq_of_lt hidlt] using h4

theorem frameEntries_ok : ∀ {left nf : Nat} {first zb zb' : Bool} {seen : List Nat} {cs : List Comp} {p q : Nat},
    nf = 1 ∨ nf = 3 → frameEntries s nf left first zb seen p = .ok (cs, zb', q) →
    cs.length = left ∧ (∀ c ∈ cs, CompOk nf c ∧ c.id.toNat ∉ seen) ∧ (cs.map fun c => c.id.toNat).Nodup ∧
      q = p + 3 * left ∧ (0 < left → q ≤ s.inLen.toNat)
  | 0, nf, first, zb, zb', seen, cs, p, q, _, h => by cases h; simp
  | left + 1, nf, first, zb, zb', seen, cs, p, q, hnf, h => by
    unfold frameEntries at h
    obtain ⟨⟨c, z, p1⟩, h1, h⟩ := bind_ok h
    obtain ⟨⟨cs', z', p2⟩, h2, h⟩ := bind_ok h
    simp only [Except.ok.injEq, Prod.mk.injEq] at h
    obtain ⟨rfl, -, rfl⟩ := h
    obtain ⟨a1, a2, a3, a4⟩ := frameEntry_ok hnf h1
    obtain ⟨b1, b2, b3, b4, b5⟩ := frameEntries_ok hnf h2
    refine ⟨by simp [b1], ?_, ?_, by omega, fun _ => ?_⟩
    · intro c' hc'
      rcases List.mem_cons.mp hc' with rfl | hc'
      · exact ⟨a1, a2⟩
      · obtain ⟨x, y⟩ := b2 c' hc'
        exact ⟨x, fun hm => y (List.mem_cons_of_mem _ hm)⟩
    · rw [List.map_cons, List.nodup_cons]
      refine ⟨fun hm => ?_, b3⟩
      obtain ⟨c', hc', he⟩ := List.mem_map.mp hm
      exact (b2 c' hc').2 (he ▸ List.mem_cons_self ..)
    · rcases Nat.eq_zero_or_pos left with rfl | h0
      · omega
      · exact b5 h0

/-- What a frame header that is committed holds. -/
structure FrameRead (s : State) (y x nf : Nat) (cs : List Comp) : Prop where
  unseen  : s.frame.seen = false
  height  : 0 < y ∧ y < 65536
  width   : 0 < x ∧ x < 65536
  count   : nf = 1 ∨ nf = 3
  length  : cs.length = nf
  comps   : ∀ c ∈ cs, CompOk nf c
  ids     : (cs.map fun c => c.id.toNat).Nodup
  profile : nf = 3 → profileLegal cs = true

theorem parseSof0_ok (h : parseSof0 s p = .ok t) :
    ∃ y x nf zb cs q, t = commitPos q (commitFrame s y x nf zb cs) ∧ p < q ∧ q ≤ s.inLen.toNat ∧
      FrameRead s y x nf cs := by
  unfold parseSof0 at h
  obtain ⟨_, h0, h⟩ := bind_ok h
  obtain ⟨⟨lf, p1⟩, h1, h⟩ := bind_ok h
  obtain ⟨⟨prec, p2⟩, h2, h⟩ := bind_ok h
  obtain ⟨-, -, h⟩ := bind_ok h
  obtain ⟨⟨y, p3⟩, h3, h⟩ := bind_ok h
  obtain ⟨⟨x, p4⟩, h4, h⟩ := bind_ok h
  obtain ⟨_, h5, h⟩ := bind_ok h
  obtain ⟨⟨nf, p5⟩, h6, h⟩ := bind_ok h
  obtain ⟨-, -, h⟩ := bind_ok h
  obtain ⟨_, h7, h⟩ := bind_ok h
  obtain ⟨-, -, h⟩ := bind_ok h
  obtain ⟨⟨cs, zb, p6⟩, h8, h⟩ := bind_ok h
  obtain ⟨_, h9, h⟩ := bind_ok h
  cases h
  replace h0 := raiseIf_ok h0
  replace h5 := raiseIf_ok h5
  replace h7 := raiseIf_ok h7
  replace h9 := raiseIf_ok h9
  obtain ⟨e1, -, -⟩ := inU16_ok h1
  obtain ⟨e2, -, -⟩ := inByte_ok h2
  obtain ⟨e3, -, hy⟩ := inU16_ok h3
  obtain ⟨e4, -, hx⟩ := inU16_ok h4
  obtain ⟨e5, -, -⟩ := inByte_ok h6
  have hnf : nf.toNat = 1 ∨ nf.toNat = 3 := by
    have : nf = 1 ∨ nf = 3 := by
      by_cases h1 : nf = 1
      · exact .inl h1
      · exact .inr ((by simpa using h7 : ¬nf = 1 → nf = 3) h1)
    rcases this with rfl | rfl
    · exact .inl rfl
    · exact .inr rfl
  obtain ⟨a1, a2, a3, a4, a5⟩ := frameEntries_ok hnf h8
  refine ⟨y, x, nf.toNat, zb, cs, p6, rfl, by omega, a5 (by omega), h0, ⟨?_, hy⟩, ⟨?_, hx⟩, hnf, a1,
    fun c hc => (a2 c hc).1, a3, fun h3 => ?_⟩
  · simp at h5; omega
  · simp at h5; omega
  · have : nf = 3 := BitVec.eq_of_toNat_eq h3
    simpa [this] using h9

/-! ### SOS -/

theorem scanEntries_ok : ∀ {left : Nat} {seen : List Nat} {comp comp' : Vector Comp 3} {is : List (Fin 3)} {p q : Nat},
    scanEntries s left seen comp p = .ok (is, comp', q) →
    is.length = left ∧ q = p + 2 * left ∧ (0 < left → q ≤ s.inLen.toNat) ∧
      (∀ i ∈ is, i.val < s.frame.nf.toNat ∧ comp[i].id.toNat ∉ seen) ∧ is.Nodup ∧
      ∀ i : Fin 3, ∃ td ta, comp'[i] = { comp[i] with td := td, ta := ta }
  | 0, seen, comp, comp', is, p, q, h => by
    cases h
    exact ⟨rfl, rfl, nofun, by simp, List.nodup_nil, fun i => ⟨_, _, rfl⟩⟩
  | left + 1, seen, comp, comp', is, p, q, h => by
    unfold scanEntries at h
    obtain ⟨⟨cs, p1⟩, h1, h⟩ := bind_ok h
    simp only at h
    split at h
    · cases h
    · rename_i i hfind
      obtain ⟨_, h2, h⟩ := bind_ok h
      obtain ⟨⟨tt, p2⟩, h3, h⟩ := bind_ok h
      obtain ⟨-, -, h⟩ := bind_ok h
      obtain ⟨⟨is', comp1, p3⟩, h4, h⟩ := bind_ok h
      cases h
      replace h2 := raiseIf_ok h2
      obtain ⟨e1, -, -⟩ := inByte_ok h1
      obtain ⟨e2, e3, -⟩ := inByte_ok h3
      obtain ⟨f1, f2⟩ := findComp_some hfind
      obtain ⟨a1, a2, a3, a4, a5, a6⟩ := scanEntries_ok h4
      have hset : ∀ j : Fin 3, (comp.set i.val { comp[i] with
          td := Fin.ofNat 4 (hiNibble tt).toNat, ta := Fin.ofNat 4 (loNibble tt).toNat } i.isLt)[j] =
          if i = j then { comp[i] with td := Fin.ofNat 4 (hiNibble tt).toNat, ta := Fin.ofNat 4 (loNibble tt).toNat }
          else comp[j] := by
        intro j
        simp only [Fin.getElem_fin, Vector.getElem_set]
        by_cases h : i = j
        · subst h; simp
        · rw [if_neg (fun h' => h (Fin.ext h')), if_neg h]
      have hid : ∀ j : Fin 3, (comp.set i.val { comp[i] with
          td := Fin.ofNat 4 (hiNibble tt).toNat, ta := Fin.ofNat 4 (loNibble tt).toNat } i.isLt)[j].id = comp[j].id := by
        intro j; rw [hset j]; split
        · rename_i h; subst h; rfl
        · rfl
      simp only at a2 a3
      refine ⟨by simp [a1], by show p3 = _; omega, fun _ => ?_, ?_, ?_, ?_⟩
      · show p3 ≤ _
        rcases Nat.eq_zero_or_pos left with rfl | h0
        · omega
        · exact a3 h0
      · intro j hj
        rcases List.mem_cons.mp hj with rfl | hj
        · exact ⟨f1, by rw [f2]; simpa using h2⟩
        · obtain ⟨x, y⟩ := a4 j hj
          rw [hid j] at y
          exact ⟨x, fun hm => y (List.mem_cons_of_mem _ hm)⟩
      · rw [List.nodup_cons]
        refine ⟨fun hm => ?_, a5⟩
        have := (a4 i hm).2
        rw [hid i, f2] at this
        exact this (List.mem_cons_self ..)
      · intro j
        obtain ⟨td, ta, hj⟩ := a6 j
        rw [hj, hset j]
        split
        · rename_i h; subst h; exact ⟨td, ta, rfl⟩
        · exact ⟨td, ta, rfl⟩

theorem parseSos_ok (h : parseSos s p = .ok t) :
    ∃ is comp q, t = commitPos q { s with
        comp := comp, scan := setScan s.scan is, ns := s.frame.nf, phase := .extract } ∧ p < q ∧ q ≤ s.inLen.toNat ∧
      s.frame.seen = true ∧ is.length = s.frame.nf.toNat ∧ (∀ i ∈ is, i.val < s.frame.nf.toNat) ∧ is.Nodup ∧
      ∀ i : Fin 3, ∃ td ta, comp[i] = { s.comp[i] with td := td, ta := ta } := by
  unfold parseSos at h
  obtain ⟨_, h0, h⟩ := bind_ok h
  obtain ⟨⟨len, p1⟩, h1, h⟩ := bind_ok h
  obtain ⟨⟨ns, p2⟩, h2, h⟩ := bind_ok h
  obtain ⟨_, h3, h⟩ := bind_ok h
  obtain ⟨_, h4, h⟩ := bind_ok h
  obtain ⟨-, -, h⟩ := bind_ok h
  obtain ⟨⟨is, comp, p3⟩, h5, h⟩ := bind_ok h
  obtain ⟨⟨ss, p4⟩, h6, h⟩ := bind_ok h
  obtain ⟨⟨se, p5⟩, h7, h⟩ := bind_ok h
  obtain ⟨⟨a, p6⟩, h8, h⟩ := bind_ok h
  obtain ⟨-, -, h⟩ := bind_ok h
  cases h
  replace h0 := raiseIf_ok h0
  replace h3 := raiseIf_ok h3
  replace h4 := raiseIf_ok h4
  obtain ⟨e1, -, -⟩ := inU16_ok h1
  obtain ⟨e2, -, -⟩ := inByte_ok h2
  obtain ⟨a1, a2, -, a4, a5, a6⟩ := scanEntries_ok h5
  obtain ⟨e3, -, -⟩ := inByte_ok h6
  obtain ⟨e4, -, -⟩ := inByte_ok h7
  obtain ⟨e5, e6, -⟩ := inByte_ok h8
  have hns : ns.toNat = s.frame.nf.toNat := by simp at h3 h4; omega
  refine ⟨is, comp, p6, ?_, by omega, e6, by simpa using h0, by omega, fun i hi => (a4 i hi).1, a5, a6⟩
  rw [hns]; simp

/-! ### The entropy-coded segment -/

theorem appendEnt_next {b : Byte} (h : appendEnt b s = .next t) :
    (∃ d, t = raiseError d s) ∨
      (s.entLen.toNat ≠ s.params.entropyCap ∧
        t = commitPos (inPos s) { s with ent := putEnt s.ent s.entLen.toNat b, entLen := s.entLen + 1 }) := by
  unfold appendEnt at h
  rcases commitOrRaise_next h with h | ⟨d, -, rfl⟩
  · right
    obtain ⟨_, h1, h⟩ := bind_ok h
    cases h
    exact ⟨by simpa using raiseIf_ok h1, rfl⟩
  · exact .inl ⟨d, rfl⟩

end Sys2Proof.Machine
end

