-- ==== Sys2Proof/Laws/Moves.lean ====
section
/-! SUPPORT. Everything one step can do: the register writes, CHECK, a block's turn and the outside world's turn, the
blocks and the pixels of one MCU, and what the parts of the invariant read of the state. -/

namespace Sys2Proof.Machine

/-! ### Numbers -/

/-- A concatenation as a number. -/
theorem append_toNat {n m : Nat} (x : BitVec n) (y : BitVec m) : (x ++ y).toNat = x.toNat * 2 ^ m + y.toNat := by
  rw [BitVec.toNat_append, ← Nat.shiftLeft_add_eq_or_of_lt y.isLt, Nat.shiftLeft_eq]

/-- ERRCODE as a number (10_state.md rule R34). -/
theorem errcode_toNat (s : State) : (errcodeWord s).toNat = s.errDetail.toNat * 256 + s.errClass.toNat := by
  simp only [errcodeWord, append_toNat, BitVec.toNat_ofNat]
  omega

/-- Two offsets below 2^32 that reach the same address are equal. -/
theorem mod_add_inj {o a b : Nat} (ha : a < 2 ^ 32) (hb : b < 2 ^ 32) (h : (o + a) % 2 ^ 32 = (o + b) % 2 ^ 32) : a = b := by
  have : o + a ≡ o + b [MOD 2 ^ 32] := h
  have := Nat.ModEq.add_left_cancel' o this
  rwa [Nat.ModEq, Nat.mod_eq_of_lt ha, Nat.mod_eq_of_lt hb] at this

/-! ### What the parts of the invariant read -/

/-- `FrameOk` reads the frame and the components alone. -/
theorem frameOk_of {s t : State} (h : FrameOk s) (h1 : t.frame = s.frame) (h2 : t.comp = s.comp) : FrameOk t where
  count := by rw [h1]; exact h.count
  width := by rw [h1]; exact h.width
  height := by rw [h1]; exact h.height
  hmax := by rw [h1]; exact h.hmax
  vmax := by rw [h1]; exact h.vmax
  gray := by rw [h1, h2]; exact h.gray
  cols := by rw [h1]; exact h.cols
  rows := by rw [h1]; exact h.rows
  total := by rw [h1]; exact h.total
  blocks := by rw [h1]; exact h.blocks
  channels := by rw [h1, h2]; exact h.channels
  ids := by rw [h1, h2]; exact h.ids
  factors := by rw [h1, h2]; exact h.factors

/-- `ScanOk` reads the frame and the scan alone. -/
theorem scanOk_of {s t : State} (h : ScanOk s) (h1 : t.frame = s.frame) (h2 : t.ns = s.ns) (h3 : t.scan = s.scan) : ScanOk t where
  seen := by rw [h1]; exact h.seen
  count := by rw [h1, h2]; exact h.count
  live := by rw [h1, h2, h3]; exact h.live
  distinct := by rw [h2, h3]; exact h.distinct

/-- `McuOk` reads the MCU's blocks and ENT_LEN alone. -/
theorem mcuOk_of {s t : State} {w : McuWork} (h : McuOk s w) (h1 : mcuSlots t = mcuSlots s) (h2 : t.entLen = s.entLen) : McuOk t w where
  slots := by rw [h1]; exact h.slots
  index := h.index
  closed := h.closed
  cursor := by rw [h2]; exact h.cursor
  zeros := h.zeros

/-- `Checked` reads the headers, the tables, the store size and OUT_CAP alone. -/
theorem checked_of {s t : State} (h : Checked s) (h1 : t.frame = s.frame) (h2 : t.comp = s.comp) (h3 : t.ns = s.ns) (h4 : t.scan = s.scan)
    (h5 : t.qt = s.qt) (h6 : t.dcHt = s.dcHt) (h7 : t.acHt = s.acHt) (h8 : t.params = s.params) (h9 : t.outCap = s.outCap) : Checked t where
  tables := by
    have := h.tables
    simpa only [qtReady, htReady, h1, h2, h3, h4, h5, h6, h7] using this
  store := by rw [h1, h8]; exact h.store
  output := by rw [h1, h9]; exact h.output

/-- An idle block. -/
theorem busy_false {s : State} (h : busy s = false) : s.phase = .idle := by simpa [busy] using h

/-- A running block. -/
theorem busy_true {s : State} (h : s.phase ≠ .idle) : busy s = true := by simpa [busy] using h

/-- An MCU count of one direction is at most 8192. -/
theorem ceilDiv_le {a n : Nat} (h : a < 65536) (hn : n = 1 ∨ n = 2) : ceilDiv a (8 * n) ≤ 8192 := by
  unfold ceilDiv
  rcases hn with rfl | rfl <;> omega

/-- Components with distinct ids are told apart by them. -/
theorem comp_eq_of_id {cs : List Comp} (h : (cs.map fun c => c.id.toNat).Nodup) {i j : Nat} (hi : i < cs.length) (hj : j < cs.length)
    (he : cs[i].id = cs[j].id) : i = j := by
  have := (List.nodup_iff_injective_getElem.mp h) (a₁ := ⟨i, by simpa using hi⟩) (a₂ := ⟨j, by simpa using hj⟩) (by simp [he])
  simpa using this

/-- A frame header that passes its checks leaves a legal frame (41_segment_parser.md rule R159). -/
theorem frameOk_commit {s : State} {y x nf : Nat} {zb : Bool} {cs : List Comp} (r : FrameRead s y x nf cs) : FrameOk (commitFrame s y x nf zb cs) := by
  have hcomp : ∀ i : Fin 3, (commitFrame s y x nf zb cs).comp[i] = cs.getD i.val s.comp[i] := by
    intro i; simp [commitFrame, setComps]
  have hf : ∀ hm vm, mcuFactors nf cs = (hm, vm) → (hm = 1 ∨ hm = 2) ∧ (vm = 1 ∨ vm = 2) ∧
      (nf = 1 → hm = 1 ∧ vm = 1) ∧ (nf = 3 → ∀ c ∈ cs, if c.ch = 0 then c.h = hm ∧ c.v = vm else c.h = 1 ∧ c.v = 1) := by
    intro hm vm he
    rcases r.count with rfl | rfl
    · simp [mcuFactors] at he; obtain ⟨rfl, rfl⟩ := he; simp
    · have hp := r.profile rfl
      simp only [profileLegal, List.all_eq_true] at hp
      simp only [mcuFactors, if_true] at he
      split at he
      · rename_i c hc
        have hm := List.mem_of_find?_eq_some hc
        have h0 : c.ch = 0 := by simpa using List.find?_some hc
        simp only [Prod.mk.injEq] at he
        obtain ⟨rfl, rfl⟩ := he
        have := hp c hm
        rw [if_pos h0] at this
        simp at this
        refine ⟨this.1, this.2, by simp, fun _ d hd => ?_⟩
        split
        · rename_i hd0
          obtain ⟨i, hi, rfl⟩ := List.getElem_of_mem hm
          obtain ⟨j, hj, rfl⟩ := List.getElem_of_mem hd
          have e1 := (r.comps _ hm).colour rfl
          have e2 := (r.comps _ hd).colour rfl
          have := comp_eq_of_id r.ids hi hj (BitVec.eq_of_toNat_eq (by rw [e1, e2, h0, hd0]))
          subst this; exact ⟨rfl, rfl⟩
        · rename_i hd0
          have := hp d hd
          rw [if_neg hd0] at this
          simpa using this
      · rename_i hn
        -- three distinct ids in 1..3, so one has channel 0
        have hn' : ∀ c ∈ cs, c.ch ≠ 0 := by simpa using hn
        exfalso
        have hids : ∀ x ∈ cs.map (fun c => c.id.toNat), x ∈ [2, 3] := by
          intro x hx
          obtain ⟨c, hc, rfl⟩ := List.mem_map.mp hx
          have e := (r.comps c hc).colour rfl
          have := hn' c hc
          have : c.ch.val ≠ 0 := fun h => this (Fin.ext h)
          have := c.ch.isLt
          simp; omega
        have := (r.ids.subperm hids).length_le
        simp [r.length] at this
  rcases hmf : mcuFactors nf cs with ⟨hm, vm⟩
  obtain ⟨f1, f2, f3, f4⟩ := hf hm vm hmf
  have eq : commitFrame s y x nf zb cs =
      { s with comp := setComps s.comp cs
               frame := { s.frame with
                  seen := true, width := BitVec.ofNat 16 x, height := BitVec.ofNat 16 y, nf := BitVec.ofNat 2 nf, zeroBased := zb, hmax := hm, vmax := vm
                  mcuCols := BitVec.ofNat 32 (ceilDiv x (8 * hm.toNat)), mcuRows := BitVec.ofNat 32 (ceilDiv y (8 * vm.toNat))
                  mcuTotal := BitVec.ofNat 32 (ceilDiv x (8 * hm.toNat) * ceilDiv y (8 * vm.toNat))
                  blocksPerMcu := if nf = 1 then 1 else BitVec.ofNat 32 (hm.toNat * vm.toNat + 2) } } := by
    unfold commitFrame; rw [hmf]
  have g1 : hm.toNat = 1 ∨ hm.toNat = 2 := by rcases f1 with rfl | rfl <;> simp
  have g2 : vm.toNat = 1 ∨ vm.toNat = 2 := by rcases f2 with rfl | rfl <;> simp
  have c1 := ceilDiv_le r.width.2 g1
  have c2 := ceilDiv_le r.height.2 g2
  have c3 : ceilDiv x (8 * hm.toNat) * ceilDiv y (8 * vm.toNat) ≤ 8192 * 8192 := Nat.mul_le_mul c1 c2
  have hnf3 : BitVec.ofNat 2 nf = 3 → nf = 3 := by rcases r.count with rfl | rfl <;> decide
  have hnf1 : BitVec.ofNat 2 nf = 1 → nf = 1 := by rcases r.count with rfl | rfl <;> decide
  have hmem : ∀ i : Fin 3, nf = 3 → (setComps s.comp cs)[i] ∈ cs := by
    intro i h3
    have hl : i.val < cs.length := by rw [r.length, h3]; exact i.isLt
    have : (setComps s.comp cs)[i] = cs[i.val] := by simp [setComps, List.getD_eq_getElem?_getD, hl]
    rw [this]; exact List.getElem_mem hl
  have hget : ∀ i : Fin 3, nf = 3 → ∃ hl : i.val < cs.length, (setComps s.comp cs)[i] = cs[i.val] := by
    intro i h3
    have hl : i.val < cs.length := by rw [r.length, h3]; exact i.isLt
    exact ⟨hl, by simp [setComps, List.getD_eq_getElem?_getD, hl]⟩
  rw [eq]
  exact
  { count := by rcases r.count with rfl | rfl <;> simp
    width := by
      intro h; have := congrArg BitVec.toNat h; simp at this; have := r.width; omega
    height := by
      intro h; have := congrArg BitVec.toNat h; simp at this; have := r.height; omega
    hmax := f1
    vmax := f2
    gray := fun h => by
      have h1 := hnf1 h
      have hl : 0 < cs.length := by rw [r.length, h1]; decide
      refine ⟨(f3 h1).1, (f3 h1).2, ?_⟩
      show (setComps s.comp cs)[(0 : Fin 3)].ch = 0
      have : (setComps s.comp cs)[(0 : Fin 3)] = cs[0] := by simp [setComps, List.getD_eq_getElem?_getD, hl]
      rw [this]; exact (r.comps _ (List.getElem_mem hl)).gray h1
    cols := by
      have := r.width.2
      simp only [BitVec.toNat_ofNat]; rw [Nat.mod_eq_of_lt (a := x) (by omega), Nat.mod_eq_of_lt (by omega)]
    rows := by
      have := r.height.2
      simp only [BitVec.toNat_ofNat]; rw [Nat.mod_eq_of_lt (a := y) (by omega), Nat.mod_eq_of_lt (by omega)]
    total := by
      simp only [BitVec.toNat_ofNat]; rw [Nat.mod_eq_of_lt (by omega), Nat.mod_eq_of_lt (a := ceilDiv x _) (by omega), Nat.mod_eq_of_lt (a := ceilDiv y _) (by omega)]
    blocks := by
      rcases r.count with rfl | rfl
      · simp
      · rcases g1 with a | a <;> rcases g2 with b | b <;> simp [a, b]
    channels := fun h i j hij => by
      have h3 := hnf3 h
      obtain ⟨hi, ei⟩ := hget i h3
      obtain ⟨hj, ej⟩ := hget j h3
      simp only at hij
      rw [ei, ej] at hij
      have e1 := (r.comps _ (List.getElem_mem hi)).colour h3
      have e2 := (r.comps _ (List.getElem_mem hj)).colour h3
      exact Fin.ext (comp_eq_of_id r.ids hi hj (BitVec.eq_of_toNat_eq (by rw [e1, e2, hij])))
    ids := fun h i => (r.comps _ (hmem i (hnf3 h))).colour (hnf3 h)
    factors := fun h i => f4 (hnf3 h) _ (hmem i (hnf3 h)) }

/-- A positive size takes at least one MCU. -/
theorem ceilDiv_pos {a b : Nat} (ha : a ≠ 0) (hb : 0 < b) : 0 < ceilDiv a b := by
  unfold ceilDiv
  exact Nat.div_pos (by omega) hb

/-- A legal frame has at least one MCU. -/
theorem mcuTotal_pos {s : State} (h : FrameOk s) : 0 < s.frame.mcuTotal.toNat := by
  rw [h.total, h.cols, h.rows]
  have w := h.width
  have hh := h.height
  have w' : s.frame.width.toNat ≠ 0 := fun e => w (BitVec.eq_of_toNat_eq (by simpa using e))
  have h' : s.frame.height.toNat ≠ 0 := fun e => hh (BitVec.eq_of_toNat_eq (by simpa using e))
  have a : 0 < s.frame.hmax.toNat := by rcases h.hmax with e | e <;> rw [e] <;> decide
  have b : 0 < s.frame.vmax.toNat := by rcases h.vmax with e | e <;> rw [e] <;> decide
  exact Nat.mul_pos (ceilDiv_pos w' (by omega)) (ceilDiv_pos h' (by omega))

/-! ### Register accesses -/

/-- The host register accesses among the instructions. -/
def isHostAccess : Instr → Bool
  | .read _ | .writeCtrl _ | .start _ | .abort _ | .setIrqEn _ | .writeConfig _ _ | .clearStatus _ | .selectTableEntry _
  | .writeReadOnly _ _ | .readTableEntry _ => true
  | _ => false

/-- A register access decodes to one of them. -/
theorem decodeHost_isHostAccess {b a i n} (h : decodeHost b a = .ok i n) : isHostAccess i = true := by
  unfold decodeHost decodeRegWrite decodeCtrlWrite decodeRegRead at h
  repeat' split at h
  all_goals (cases h; try rfl)

/-- An access that decodes to a CTRL write is a 32-bit write at offset 4. -/
theorem decodeHost_ctrl {b : Bool} {a : RegAccess} {i : Instr} {n : Nat} {v : Word} (h : decodeHost b a = .ok i n)
    (hi : i = .start v ∨ i = .abort v ∨ i = .setIrqEn v ∨ i = .writeCtrl v) : a = ⟨true, 4, 4, v⟩ := by
  obtain ⟨wr, off, wd, val⟩ := a
  unfold decodeHost at h
  simp only at h
  split at h
  · cases h
  split at h
  · cases h
  split at h
  · cases h
  rename_i h1 h2 h3
  obtain rfl : wd = 4 := by simpa using h2
  have hw : (BitVec.ofNat 6 (off / 4)).toNat = off / 4 := by rw [BitVec.toNat_ofNat, Nat.mod_eq_of_lt (by omega)]
  split at h
  · rename_i h4
    subst h4
    simp only [Decoded.ok.injEq] at h
    obtain ⟨h, -⟩ := h
    unfold decodeRegWrite at h
    split at h
    · rename_i h5
      obtain rfl : off = 4 := by omega
      unfold decodeCtrlWrite at h
      repeat' split at h
      all_goals (subst h; simp only [Instr.start.injEq, Instr.abort.injEq, Instr.setIrqEn.injEq, Instr.writeCtrl.injEq,
        reduceCtorEq, or_false, false_or] at hi; rw [hi])
    · exfalso
      repeat' split at h
      all_goals (subst h; simp at hi)
  · exfalso
    simp only [Decoded.ok.injEq] at h
    obtain ⟨h, -⟩ := h
    unfold decodeRegRead at h
    repeat' split at h
    all_goals (subst h; simp at hi)

/-- All that a CTRL write can do (40_host_interface.md rule R131). -/
theorem ctrlWrite_next {v s t} (h : ctrlWrite v s = .next t) :
    (busy s = true ∧ v.getLsbD 1 = true ∧ t = abortDecode { s with irqEn := v.getLsbD 2 }) ∨
    (busy s = false ∧ v.getLsbD 0 = true ∧ t = startDecode { s with irqEn := v.getLsbD 2 }) ∨ t = { s with irqEn := v.getLsbD 2 } := by
  unfold ctrlWrite at h
  simp only at h
  split at h
  · split at h
    · cases h; rename_i a b; exact .inl ⟨a, b, rfl⟩
    · cases h; exact .inr (.inr rfl)
  · split at h
    · split at h
      · cases h
      · cases h; rename_i a b c; exact .inr (.inl ⟨by simpa using a, b, rfl⟩)
    · cases h; exact .inr (.inr rfl)

/-! ### Streams and symbols decode in their context -/

/-- A marker code decodes to a header instruction. -/
theorem markerCode_fits : ∀ c : Byte, c ≠ 0xFF → fits .header (decodeMarkerCode c) = true := by decide +kernel

/-- A code byte of the entropy-coded segment decodes to a byte form. -/
theorem ecsCode_fits : ∀ c : Byte, fits .ecs (decodeEcsCode c) = true := by decide +kernel

/-- The header decoder answers header instructions. -/
theorem decodeHeader_fits {bs i n} (h : decodeHeader bs = .ok i n) : fits .header i = true := by
  unfold decodeHeader at h
  split at h
  · cases h
  · split at h
    · split at h
      · cases h
      · split at h
        · cases h; rfl
        · cases h; exact markerCode_fits _ ‹_›
    · cases h; rfl

/-- The entropy-coded segment decoder answers byte forms. -/
theorem decodeEcs_fits {bs i n} (h : decodeEcs bs = .ok i n) : fits .ecs i = true := by
  unfold decodeEcs at h
  split at h
  · cases h
  · split at h
    · split at h
      · cases h
      · split at h
        · cases h; rfl
        · cases h; exact ecsCode_fits _
    · cases h; rfl

/-- The entropy symbols among the instructions. -/
def isEntropySymbol : Instr → Bool
  | .dcCat0 | .dcCat _ | .dcBad _ | .acEob | .acZrl | .acRun _ | .acCoef _ _ | .acBad _ _ | .acRunOverflow _ => true
  | _ => false

/-- A DC symbol byte decodes to one of them. -/
theorem decodeDc_isSymbol (b : Byte) : isEntropySymbol (decodeDc b) = true := by
  unfold decodeDc; repeat' split <;> try rfl

/-- An AC symbol byte decodes to one of them. -/
theorem decodeAc_isSymbol (k : Nat) (b : Byte) : isEntropySymbol (decodeAc k b) = true := by
  unfold decodeAc; repeat' split <;> try rfl

/-! ### CHECK -/

/-- What a CHECK that passes answers and has found (41_segment_parser.md rules R173 and R174). -/
theorem checkStep_ok {s t : State} (h : checkStep s = .ok t) :
    t = { s with cur := ⟨0, 0⟩, pred := Vector.replicate 3 0, mcuDone := 0, phase := .entropy } ∧ Checked s := by
  unfold checkStep at h
  obtain ⟨u1, h1, h⟩ := bind_ok h
  obtain ⟨u2, h2, h⟩ := bind_ok h
  obtain ⟨u3, h3, h⟩ := bind_ok h
  obtain ⟨u4, h4, h⟩ := bind_ok h
  cases h
  have a1 := raiseIf_ok h1
  have a2 := raiseIf_ok h2
  have a3 := raiseIf_ok h3
  have a4 := raiseIf_ok h4
  refine ⟨rfl, ⟨by simpa using a1, by simpa using a2⟩, by simpa using a3, by simpa using a4⟩

/-! ### A block's turn -/

/-- What the block's step answers: the error entry, a step still open, a commit, or the COLOR step. -/
inductive BlockResult (u t : State) : Prop where
  | raised (d : Detail) (h : t = raiseError d u)
  | inside (h : t = { u with txn := t.txn })
  | committed (h1 : t.txn = .none ∨ (t.txn = u.txn ∧ u.phase ≠ .parse ∧ u.phase ≠ .extract ∧ u.phase ≠ .entropy)) (h2 : t.err = u.err) (h3 : t.done = u.done) (h4 : t.mem = u.mem)
  | color (h1 : u.phase = .color) (h : t = colorStep u)

/-- What a parser instruction answers. -/
theorem exec_parser {i : Instr} {u t : State} {x : Txn} (hi : fits .header i = true ∨ fits .ecs i = true ∨ i = .soi)
    (h : exec i { u with txn := x } = .next t) : BlockResult u t := by
  have hskip : skipSegment { u with txn := x } = .next t → BlockResult u t := by
    intro h
    rcases skipSegment_next h with ⟨d, rfl⟩ | ⟨q, rfl, -⟩
    · exact .raised d rfl
    · exact .committed (.inl rfl) rfl rfl rfl
  have happ : ∀ b, appendEnt b { u with txn := x } = .next t → BlockResult u t := by
    intro b h
    rcases appendEnt_next h with ⟨d, rfl⟩ | ⟨-, rfl⟩
    · exact .raised d rfl
    · exact .committed (.inl rfl) rfl rfl rfl
  have hparse : ∀ r, commitOrRaise { u with txn := x } r = .next t → (∀ t, r = .ok t → t.txn = .none ∧ t.err = u.err ∧ t.done = u.done ∧ t.mem = u.mem) → BlockResult u t := by
    intro r h hr
    rcases commitOrRaise_next h with h | ⟨d, -, rfl⟩
    · obtain ⟨a, b, c, d⟩ := hr _ h; exact .committed (.inl a) b c d
    · exact .raised d rfl
  cases i <;> first
    | (exfalso; simp [fits] at hi; done)
    | exact hskip h
    | exact happ _ h
    | (cases h; exact .raised _ rfl)
    | (cases h; exact .committed (.inl rfl) rfl rfl rfl)
    | (cases h; exact .inside rfl)
    | (refine hparse _ h fun t ht => ?_
       first
       | (obtain ⟨ri, q, rfl, -⟩ := parseDri_ok ht; exact ⟨rfl, rfl, rfl, rfl⟩)
       | (obtain ⟨ri, q, rfl, -⟩ := parseDqt_ok ht; exact ⟨rfl, rfl, rfl, rfl⟩)
       | (obtain ⟨a, b, q, rfl, -⟩ := parseDht_ok ht; exact ⟨rfl, rfl, rfl, rfl⟩)
       | (obtain ⟨y, x, nf, zb, cs, q, rfl, -⟩ := parseSof0_ok ht; exact ⟨rfl, rfl, rfl, rfl⟩)
       | (obtain ⟨a, b, q, rfl, -⟩ := parseSos_ok ht; exact ⟨rfl, rfl, rfl, rfl⟩))

/-- Every step of the block's turn answers one of these. -/
theorem fetchBlock_result {u t : State} (h : runFetched (fetchBlock u) = .next t) : BlockResult u t := by
  unfold fetchBlock at h
  split at h
  · cases h; exact .inside rfl
  · split at h
    · unfold fetchInput at h; split at h
      · rename_i i n hx; exact exec_parser (.inl (decodeHeader_fits hx)) h
      · cases h; exact .raised _ rfl
    · unfold fetchStart at h; split at h
      · cases h; exact .raised _ rfl
      · split at h
        · rename_i i n hx
          refine exec_parser (.inr (.inr ?_)) h
          simp only [decode, decodeStart] at hx
          split at hx
          · split at hx
            · cases hx; rfl
            · cases hx
          · cases hx
        · cases h; exact .raised _ rfl
        · cases h; exact .raised _ rfl
  · unfold fetchInput at h; split at h
    · rename_i i n hx; exact exec_parser (.inr (.inl (decodeEcs_fits hx))) h
    · cases h; exact .raised _ rfl
  · unfold moveOrRaise at h; split at h
    · rename_i v hv
      cases h
      obtain ⟨rfl, -⟩ := checkStep_ok hv
      exact .committed (.inr ⟨rfl, by simp_all⟩) rfl rfl rfl
    · cases h; exact .raised _ rfl
  · unfold fetchEntropy at h
    split at h
    · rename_i w hw
      split at h
      · rename_i slot rest ht
        unfold fetchSymbol at h
        split at h
        · cases h; exact .raised _ rfl
        · split at h
          · rename_i x sym c hs y i n hx
            have hi : isEntropySymbol i = true := by
              unfold symbolCtx at hx
              split at hx
              · cases hx; exact decodeDc_isSymbol _
              · cases hx; exact decodeAc_isSymbol _ _
            have hr : ∀ f, runSymbol f { u with txn := .mcu { w with cur := c } } = .next t → BlockResult u t := by
              intro f h
              obtain ⟨w, slot, rest, h1, h2, ⟨w', -, rfl⟩ | ⟨d, -, rfl⟩⟩ := runSymbol_next h
              · exact .inside rfl
              · exact .raised d rfl
            cases i <;> first
              | exact absurd (show false = true from hi) Bool.noConfusion
              | exact hr _ h
              | exact hr (dcEffect _ 0) h
              | exact hr (fun w _ => .ok (endBlock w)) h
          · cases h; exact .inside rfl
      · cases h; exact .committed (.inl rfl) rfl rfl rfl
    · cases h; exact .inside rfl
    · cases h; exact .inside rfl
  · cases h; exact .committed (.inr ⟨rfl, by simp_all⟩) rfl rfl rfl
  · cases h; exact .committed (.inr ⟨rfl, by simp_all⟩) rfl rfl rfl
  · cases h; exact .color ‹_› rfl

/-- A step is the block's turn or the outside world's. -/
theorem step_turn (s : State) :
    (∃ u, blockTurn s = some u ∧ step s = runFetched (fetchBlock u)) ∨
    (∃ e u, hostTurn s = some (e, u) ∧ step s = runFetched (fetchExternal e u)) := by
  rcases turn_cases s with ⟨u, h⟩ | ⟨e, u, h⟩
  · exact .inl ⟨u, h, step_of_blockTurn h⟩
  · exact .inr ⟨e, u, h, step_of_hostTurn h⟩

/-! ### The outside world's turn -/

/-- A turn given to the block is not the outside world's. -/
theorem hostTurn_ne {s u : State} {e} (h : hostTurn s = some (e, u)) : e ≠ .turn := by
  unfold hostTurn at h
  split at h
  · cases h
  · split at h
    · cases h
    · cases h
    · rename_i hne _; cases h; intro he; subst he; rename_i hx _ ; simp_all

/-- All that the outside world's turn can do to DONE, ERR, host memory and an open step. -/
theorem fetchExternal_next {e : Input} {u t : State} (ht : u.txn = .none) (he : e ≠ .turn) (h : runFetched (fetchExternal e u) = .next t) :
    t.txn = .none ∧ (t.done = true → u.done = true) ∧
    ((∃ a b, e = .memWrite a b ∧ t.mem = memWrite u.mem a.toNat b) ∨ t.mem = u.mem) ∧
    ((t.err = true → u.err = true) ∨ ∃ v, e = .access ⟨true, 4, 4, v⟩ ∧ u.phase ≠ .idle ∧ v.getLsbD 1 = true ∧
      t = abortDecode { u with irqEn := v.getLsbD 2 }) := by
  cases e with
  | turn => exact absurd rfl he
  | poll w m v =>
    simp only [fetchExternal, pollRegister] at h
    split at h <;> (cases h; exact ⟨ht, id, .inr rfl, .inl id⟩)
  | memWrite a b => cases h; exact ⟨ht, id, .inl ⟨a, b, rfl, rfl⟩, .inl id⟩
  | memRead a => cases h; exact ⟨ht, id, .inr rfl, .inl id⟩
  | reset => cases h; exact ⟨rfl, nofun, .inr rfl, .inl nofun⟩
  | access a =>
    simp only [fetchExternal, fetchAccess] at h
    split at h
    · rename_i i n hd
      have hhost := decodeHost_isHostAccess hd
      have hk : ∀ v, a = ⟨true, 4, 4, v⟩ → ctrlWrite v u = .next t → t.txn = .none ∧ (t.done = true → u.done = true) ∧ ((∃ a_1 b, Input.access a = .memWrite a_1 b ∧ t.mem = memWrite u.mem a_1.toNat b) ∨ t.mem = u.mem) ∧
          ((t.err = true → u.err = true) ∨ ∃ v, Input.access a = .access ⟨true, 4, 4, v⟩ ∧ u.phase ≠ .idle ∧
            v.getLsbD 1 = true ∧ t = abortDecode { u with irqEn := v.getLsbD 2 }) := by
        intro v ha hc
        rcases ctrlWrite_next hc with ⟨hb, h1, rfl⟩ | ⟨-, a, rfl⟩ | rfl
        · exact ⟨rfl, id, .inr rfl, .inr ⟨v, congrArg _ ha, fun hp => by simp [busy, hp] at hb, h1, rfl⟩⟩
        · exact ⟨rfl, nofun, .inr rfl, .inl nofun⟩
        · exact ⟨ht, id, .inr rfl, .inl id⟩
      cases i <;> first
        | exact absurd (show false = true from hhost) Bool.noConfusion
        | exact hk _ (decodeHost_ctrl hd (by simp)) h
        | (cases h; exact ⟨ht, id, .inr rfl, .inl id⟩)
        | (cases h; refine ⟨ht, fun a => ?_, .inr rfl, .inl fun a => ?_⟩ <;> (simp only [Bool.and_eq_true] at a; exact a.1))
        | skip
      rename_i r v
      simp only [runFetched, exec, execWriteConfig] at h
      split at h
      · cases h; exact ⟨ht, id, .inr rfl, .inl id⟩
      · cases r <;> (cases h; exact ⟨ht, id, .inr rfl, .inl id⟩)
    · cases h
    · cases h
    · cases h

/-! ### The bit cursor stays in the buffer (10_state.md rule R55) -/

/-- A bit read leaves the cursor in the buffer or at its end. -/
theorem readBit_inBuffer {s : State} {c c' : Cursor} {b : Nat} (h : readBit s c = .ok (b, c')) : bitPos c' ≤ 8 * s.entLen.toNat := by
  unfold readBit at h
  split at h
  · cases h
  · have := s.entLen.isLt
    have hb := c.bitI.isLt
    cases h
    split
    · show 8 * (c.byteI + 1).toNat + 0 ≤ _
      rw [BitVec.toNat_add, show (1 : Word).toNat = 1 from rfl, Nat.mod_eq_of_lt (by omega)]; omega
    · rename_i h7
      show 8 * c.byteI.toNat + (c.bitI + 1).val ≤ _
      have : (c.bitI + 1).val ≤ 7 := by omega
      omega

/-- So do several bits. -/
theorem readBitsFrom_inBuffer {s : State} : ∀ {n v : Nat} {c c' : Cursor} {r : Nat}, bitPos c ≤ 8 * s.entLen.toNat →
    readBitsFrom s n v c = .ok (r, c') → bitPos c' ≤ 8 * s.entLen.toNat
  | 0, _, _, _, _, hc, h => by cases h; exact hc
  | n + 1, _, _, _, _, hc, h => by
    obtain ⟨⟨b, c1⟩, h1, h⟩ := bind_ok h
    exact readBitsFrom_inBuffer (readBit_inBuffer h1) h

/-- So does a field of magnitude bits. -/
theorem readBits_inBuffer {s : State} {n : Nat} {c c' : Cursor} {r : Nat} (hc : bitPos c ≤ 8 * s.entLen.toNat)
    (h : readBits s n c = .ok (r, c')) : bitPos c' ≤ 8 * s.entLen.toNat := readBitsFrom_inBuffer hc h

/-- So does a code word. -/
theorem decodeSymbolFrom_inBuffer {s : State} {t : HTable} : ∀ {left code : Nat} {c c' : Cursor} {sym : Byte},
    decodeSymbolFrom s t left code c = .ok (sym, c') → bitPos c' ≤ 8 * s.entLen.toNat
  | 0, _, _, _, _, h => by cases h
  | left + 1, code, _, _, _, h => by
    obtain ⟨⟨b, c1⟩, h1, h⟩ := bind_ok h
    simp only at h
    split at h
    · cases h; exact readBit_inBuffer h1
    · exact decodeSymbolFrom_inBuffer h

/-- So does the next byte boundary. -/
theorem align_inBuffer {s : State} {c : Cursor} (h : bitPos c ≤ 8 * s.entLen.toNat) : bitPos (align c) ≤ 8 * s.entLen.toNat := by
  unfold align
  split
  · exact h
  · rename_i h0
    have h0 : c.bitI.val ≠ 0 := fun e => h0 (Fin.ext e)
    have := s.entLen.isLt
    unfold bitPos at h
    show 8 * (c.byteI + 1).toNat + 0 ≤ _
    rw [BitVec.toNat_add, show (1 : Word).toNat = 1 from rfl, Nat.mod_eq_of_lt (by omega)]; omega

/-- The symbol search fails in two ways only (43_entropy_decoder.md rule R214). -/
theorem decodeSymbolFrom_error {s : State} {t : HTable} : ∀ {left code : Nat} {c : Cursor} {d : Detail},
    decodeSymbolFrom s t left code c = .error d → d = .eNoCode ∨ d = .eEndOfData
  | 0, _, _, _, h => by cases h; exact .inl rfl
  | left + 1, code, c, d, h => by
    rw [decodeSymbolFrom] at h
    cases hb : readBit s c with
    | error d' =>
      rw [hb] at h; cases h
      unfold readBit at hb
      split at hb
      · cases hb; exact .inr rfl
      · cases hb
    | ok r =>
      obtain ⟨b, c1⟩ := r
      rw [hb] at h
      simp only [bind, Except.bind] at h
      split at h
      · cases h
      · exact decodeSymbolFrom_error h

/-! ### The working registers of an MCU -/

/-- The zigzag map takes distinct positions to distinct indexes. -/
theorem zz_inj {i j : Nat} (hi : i ≤ 63) (hj : j ≤ 63) (h : zz i = zz j) : i = j := by
  have : ∀ i j : Fin 64, zz i.val = zz j.val → i = j := by decide +kernel
  have := this ⟨i, by omega⟩ ⟨j, by omega⟩ h
  simpa using this

/-- The end of a block keeps the working registers consistent. -/
theorem mcuOk_end {s w slot rest} (h : McuOk s w) (ht : w.todo = slot :: rest) : McuOk s (endBlock w) := by
  rw [endBlock_cons ht]
  exact ⟨by rw [← h.1, ht]; simp, Nat.zero_le _, fun _ => rfl, h.4, fun j _ _ => by simp [zeroBlock]⟩

/-- So does a pass of the AC loop that writes no position still ahead. -/
theorem mcuOk_close {s} {w w' : McuWork} {slot rest} (h : McuOk s w) (ht : w.todo = slot :: rest) (h1 : w'.todo = w.todo) (h2 : w'.done = w.done)
    (hc : bitPos w'.cur ≤ 8 * s.entLen.toNat) (hz : ∀ j, w'.k ≤ j → j ≤ 63 → w'.blk[zz j] = 0) : McuOk s (closeIfFull w') := by
  unfold closeIfFull
  split
  · rw [endBlock_cons (h1.trans ht)]
    exact ⟨by rw [← h.1, ht, h2]; simp, Nat.zero_le _, fun _ => rfl, hc, fun j _ _ => by simp [zeroBlock]⟩
  · refine ⟨by rw [h1, h2]; exact h.1, by omega, fun e => ?_, hc, hz⟩
    rw [h1, ht] at e; cases e

/-- So does a DC symbol. -/
theorem mcuOk_dc {s n} {w w' : McuWork} {slot rest} (h : McuOk s w) (ht : w.todo = slot :: rest) (hx : dcEffect s n w slot = .ok w') : McuOk s w' := by
  unfold dcEffect at hx
  obtain ⟨u1, h1, hx⟩ := bind_ok hx
  obtain ⟨⟨v, c⟩, h2, hx⟩ := bind_ok hx
  cases hx
  refine ⟨h.1, by simp, fun e => ?_, readBits_inBuffer h.4 h2, fun j hj h63 => ?_⟩
  · simp [ht] at e
  · have : (zz j).val ≠ 0 := fun e => by
      have := zz_inj h63 (Nat.zero_le 63) (Fin.ext e : zz j = zz 0); simp only at hj; omega
    simp only [Fin.getElem_fin]
    rw [Vector.getElem_set_ne _ _ (by omega)]
    simp [zeroBlock]

/-- So does an AC symbol. -/
theorem mcuOk_ac {s r n} {w w' : McuWork} {slot rest} (h : McuOk s w) (ht : w.todo = slot :: rest) (hx : acEffect s r n w slot = .ok w') : McuOk s w' := by
  unfold acEffect at hx
  obtain ⟨u1, h1, hx⟩ := bind_ok hx
  obtain ⟨u2, h2, hx⟩ := bind_ok hx
  have hk := raiseIf_ok h1
  simp only [decide_eq_false_iff_not] at hk
  split at hx
  · cases hx; exact mcuOk_close h ht rfl rfl h.4 fun j hj h63 => h.5 j (by simp only at hj; omega) h63
  · obtain ⟨⟨v, c⟩, h3, hx⟩ := bind_ok hx
    cases hx
    refine mcuOk_close h ht rfl rfl (readBits_inBuffer h.4 h3) fun j hj h63 => ?_
    simp only at hj
    have : (zz j).val ≠ (zz (w.k + r)).val := fun e => by
      have := zz_inj h63 (by omega) (Fin.ext e : zz j = zz (w.k + r)); omega
    simp only [Fin.getElem_fin]
    rw [Vector.getElem_set_ne _ _ (by omega)]
    exact h.5 j (by omega) h63

/-! ### The blocks of one MCU -/

/-- A slot's place in the coefficient store. -/
def slotKey (u : State) (x : Slot) : Fin 3 × Nat := (u.comp[x.pos].ch, x.idx)

/-- The slots of an MCU have distinct places. -/
theorem slotKeys_nodup {u : State} (hf : FrameOk u) (hs : ScanOk u) : ((mcuSlots u).map (slotKey u)).Nodup := by
  unfold mcuSlots
  have hd := hs.distinct
  have hc := hs.count
  rcases hf.count with e | e
  · have : (u.scan.toList.take u.ns.toNat).length ≤ 1 := by rw [hc, e]; simp
    generalize u.scan.toList.take u.ns.toNat = l at *
    match l, this with
    | [], _ => simp
    | [i], _ => simp [e, slotKey]
  · rw [List.map_flatMap, List.nodup_flatMap]
    constructor
    · intro i hi
      rw [List.map_map]
      apply List.Nodup.map_on _ List.nodup_range
      intro a _ b _ h
      simp [slotKey] at h; exact h
    · refine List.Pairwise.imp_of_mem ?_ hd
      intro i j hi hj hne
      rw [Function.onFun, List.disjoint_left]
      intro x hx hy
      simp only [List.mem_map, List.mem_range, exists_exists_and_eq_and, slotKey] at hx hy
      obtain ⟨a, -, rfl⟩ := hx
      obtain ⟨b, -, hb⟩ := hy
      exact hne (hf.channels e i j (by simpa using (Prod.mk.inj hb).1.symm))

/-- What storing the blocks of an MCU leaves (43_entropy_decoder.md rule R225). -/
theorem storeBlocks_spec (u : State) (m : Nat) : ∀ (l : List (Slot × Block)) (c : List CoefEntry), ((l.map Prod.fst).map (slotKey u)).Nodup →
    (∀ slot blk, (slot, blk) ∈ l → coefRead (storeBlocks u.comp m l c) m u.comp[slot.pos].ch slot.idx = blk) ∧
    (∀ m' ch b, (m' ≠ m ∨ ∀ slot ∈ l.map Prod.fst, ¬(u.comp[slot.pos].ch = ch ∧ slot.idx = b)) →
      coefRead (storeBlocks u.comp m l c) m' ch b = coefRead c m' ch b) := by
  intro l
  induction l with
  | nil => intro c _; exact ⟨nofun, fun _ _ _ _ => rfl⟩
  | cons x l ih =>
    obtain ⟨slot, blk⟩ := x
    intro c hn
    simp only [List.map_cons, List.nodup_cons] at hn
    obtain ⟨i1, i2⟩ := ih (coefWrite c m u.comp[slot.pos].ch slot.idx blk) hn.2
    have hout : ∀ slot' ∈ l.map Prod.fst, ¬(u.comp[slot'.pos].ch = u.comp[slot.pos].ch ∧ slot'.idx = slot.idx) := by
      intro s' hs' h
      exact hn.1 (List.mem_map.mpr ⟨s', hs', by exact Prod.ext h.1 h.2⟩)
    constructor
    · intro s' b' hmem
      rcases List.mem_cons.mp hmem with h | h
      · cases h
        show coefRead (storeBlocks u.comp m l _) _ _ _ = _
        rw [i2 _ _ _ (.inr hout)]; exact coefRead_write_same _ _ _ _ _
      · exact i1 _ _ h
    · intro m' ch b h
      show coefRead (storeBlocks u.comp m l _) _ _ _ = _
      rw [i2 m' ch b (h.imp id fun h s hs => h s (List.mem_cons_of_mem _ hs))]
      apply coefRead_write_other
      rintro ⟨a1, a2, a3⟩
      rcases h with h | h
      · exact h a1.symm
      · exact h slot (List.mem_cons_self ..) ⟨a2, a3⟩

/-- What mapping the blocks of an MCU leaves (44_dequantizer.md rule R240, 45_idct.md rule R249). -/
theorem mapBlocks_spec (u : State) (f : Comp → Block → Block) (m : Nat) : ∀ (l : List Slot) (c : List CoefEntry), (l.map (slotKey u)).Nodup →
    (∀ slot ∈ l, coefRead (mapBlocks u.comp f m l c) m u.comp[slot.pos].ch slot.idx = f u.comp[slot.pos] (coefRead c m u.comp[slot.pos].ch slot.idx)) ∧
    (∀ m' ch b, (m' ≠ m ∨ ∀ slot ∈ l, ¬(u.comp[slot.pos].ch = ch ∧ slot.idx = b)) →
      coefRead (mapBlocks u.comp f m l c) m' ch b = coefRead c m' ch b) := by
  intro l
  induction l with
  | nil => intro c _; exact ⟨nofun, fun _ _ _ _ => rfl⟩
  | cons slot l ih =>
    intro c hn
    simp only [List.map_cons, List.nodup_cons] at hn
    obtain ⟨i1, i2⟩ := ih (coefWrite c m u.comp[slot.pos].ch slot.idx (f u.comp[slot.pos] (coefRead c m u.comp[slot.pos].ch slot.idx))) hn.2
    have hout : ∀ slot' ∈ l, ¬(u.comp[slot'.pos].ch = u.comp[slot.pos].ch ∧ slot'.idx = slot.idx) := by
      intro s' hs' h
      exact hn.1 (List.mem_map.mpr ⟨s', hs', by exact Prod.ext h.1 h.2⟩)
    constructor
    · intro s' hmem
      show coefRead (mapBlocks u.comp f m l _) _ _ _ = _
      rcases List.mem_cons.mp hmem with h | h
      · cases h
        rw [i2 _ _ _ (.inr hout)]; exact coefRead_write_same _ _ _ _ _
      · rw [i1 _ h, coefRead_write_other]
        rintro ⟨-, a2, a3⟩
        exact hout s' h ⟨a2.symm, a3.symm⟩
    · intro m' ch b h
      show coefRead (mapBlocks u.comp f m l _) _ _ _ = _
      rw [i2 m' ch b (h.imp id fun h s hs => h s (List.mem_cons_of_mem _ hs))]
      apply coefRead_write_other
      rintro ⟨a1, a2, a3⟩
      rcases h with h | h
      · exact h a1.symm
      · exact h slot (List.mem_cons_self ..) ⟨a2, a3⟩

/-! ### The pixels of one MCU -/

/-- The MCU-relative coordinates. -/
theorem mem_mcuPixels {u : State} {p : Nat × Nat} : p ∈ mcuPixels u ↔ p.1 < 8 * u.frame.hmax.toNat ∧ p.2 < 8 * u.frame.vmax.toNat := by
  obtain ⟨a, b⟩ := p
  simp [mcuPixels]; tauto

/-- A coordinate, its MCU and its place in the MCU. -/
theorem mcuCoordinate_iff {M a x px : Nat} (hM : 0 < M) : (a * 8 * M + px = x ∧ px < 8 * M) ↔ (x / (8 * M) = a ∧ x % (8 * M) = px) := by
  have e : a * 8 * M = 8 * M * a := by ring
  rw [e]
  constructor
  · rintro ⟨rfl, h⟩
    exact ⟨by rw [Nat.mul_add_div (by omega), Nat.div_eq_of_lt h, Nat.add_zero], by rw [Nat.mul_add_mod, Nat.mod_eq_of_lt h]⟩
  · rintro ⟨rfl, rfl⟩
    exact ⟨Nat.div_add_mod _ _, Nat.mod_lt _ (by omega)⟩

/-- Converting pixels leaves every byte outside them. -/
theorem foldl_convertPixel_other (u : State) (n : Nat) (a : Nat) : ∀ (ps : List (Nat × Nat)) (m : List Host.Cell),
    (∀ p ∈ ps, (imageXY u n p.1 p.2).1 < u.frame.width.toNat → (imageXY u n p.1 p.2).2 < u.frame.height.toNat → ∀ k < 3,
      a ≠ (pixelAddr u (imageXY u n p.1 p.2).1 (imageXY u n p.1 p.2).2 + k) % 2 ^ 32) →
    Memory.read (ps.foldl (convertPixel u n) m) a = Memory.read m a := by
  intro ps
  induction ps with
  | nil => intro m _; rfl
  | cons p ps ih =>
    intro m h
    rw [List.foldl_cons, ih _ fun q hq => h q (List.mem_cons_of_mem _ hq)]
    unfold convertPixel
    simp only
    split
    · rename_i hin
      have := h p (List.mem_cons_self ..) hin.1 hin.2
      refine read_writePixel_other _ _ ?_
      exact this
    · rfl

/-- Converting the pixels of an MCU leaves each pixel's own colour at its place. -/
theorem foldl_convertPixel_same (u : State) (n : Nat) (p : Nat × Nat)
    (hin : (imageXY u n p.1 p.2).1 < u.frame.width.toNat ∧ (imageXY u n p.1 p.2).2 < u.frame.height.toNat)
    (hcap : 3 * u.frame.width.toNat * u.frame.height.toNat < 2 ^ 32)
    : ∀ (ps : List (Nat × Nat)) (m : List Host.Cell), Memory.wf m = true → p ∈ ps →
    (∀ q ∈ ps, imageXY u n q.1 q.2 = imageXY u n p.1 p.2 → q = p) →
    (Memory.read (ps.foldl (convertPixel u n) m) (pixelAddr u (imageXY u n p.1 p.2).1 (imageXY u n p.1 p.2).2 % 2 ^ 32),
     Memory.read (ps.foldl (convertPixel u n) m) ((pixelAddr u (imageXY u n p.1 p.2).1 (imageXY u n p.1 p.2).2 + 1) % 2 ^ 32),
     Memory.read (ps.foldl (convertPixel u n) m) ((pixelAddr u (imageXY u n p.1 p.2).1 (imageXY u n p.1 p.2).2 + 2) % 2 ^ 32)) = pixelAt u n p.1 p.2 := by
  intro ps
  induction ps with
  | nil => intro m _ hm; cases hm
  | cons q ps ih =>
    intro m hwf hmem hinj
    by_cases hp : p ∈ ps
    · exact ih _ (convertPixel_wf u n hwf q) hp fun q' h' => hinj q' (List.mem_cons_of_mem _ h')
    · have hq : q = p := by
        rcases List.mem_cons.mp hmem with h | h
        · exact h.symm
        · exact absurd h hp
      subst hq
      have hoth : ∀ k < 3, ∀ p' ∈ ps, (imageXY u n p'.1 p'.2).1 < u.frame.width.toNat → (imageXY u n p'.1 p'.2).2 < u.frame.height.toNat → ∀ k' < 3,
          (pixelAddr u (imageXY u n q.1 q.2).1 (imageXY u n q.1 q.2).2 + k) % 2 ^ 32 ≠ (pixelAddr u (imageXY u n p'.1 p'.2).1 (imageXY u n p'.1 p'.2).2 + k') % 2 ^ 32 := by
        intro k hk p' hp' h1 h2 k' hk' he
        have hne : imageXY u n p'.1 p'.2 ≠ imageXY u n q.1 q.2 := by
          intro h; exact hp ((hinj p' (List.mem_cons_of_mem _ hp') h) ▸ hp')
        rcases hxy' : imageXY u n p'.1 p'.2 with ⟨x', y'⟩
        rcases hxy : imageXY u n q.1 q.2 with ⟨x, y⟩
        rw [hxy'] at h1 h2 he hne
        rw [hxy] at hin he hne
        simp only [pixelAddr] at he h1 h2 hin hne
        generalize hW : u.frame.width.toNat = W at *
        generalize hH : u.frame.height.toNat = H at *
        have b1 : y * W + x + 1 ≤ W * H := by nlinarith
        have b2 : y' * W + x' + 1 ≤ W * H := by nlinarith
        have e : y * W + x = y' * W + x' := by
          have : 3 * W * H = 3 * (W * H) := by ring
          have he' : 3 * (y * W + x) + k = 3 * (y' * W + x') + k' := mod_add_inj (o := u.outBase.toNat) (by omega) (by omega) (by rw [← Nat.add_assoc, ← Nat.add_assoc]; exact he)
          omega
        apply hne
        have hx : x = x' := by
          have := congrArg (· % W) e
          simpa [Nat.mul_add_mod, Nat.mod_eq_of_lt hin.1, Nat.mod_eq_of_lt h1, Nat.add_comm, Nat.mul_comm] using this
        subst hx
        have : y * W = y' * W := by omega
        have := Nat.eq_of_mul_eq_mul_right (by omega) this
        rw [this]
      rw [List.foldl_cons]
      have r := fun k hk => foldl_convertPixel_other u n ((pixelAddr u (imageXY u n q.1 q.2).1 (imageXY u n q.1 q.2).2 + k) % 2 ^ 32) ps (convertPixel u n m q)
        (hoth k hk)
      have r0 := r 0 (by omega)
      have r1 := r 1 (by omega)
      have r2 := r 2 (by omega)
      rw [Nat.add_zero] at r0
      rw [r0, r1, r2]
      unfold convertPixel
      simp only
      rw [if_pos hin]
      exact read_writePixel_same hwf _ _

end Sys2Proof.Machine
end

