-- ==== Sys2Proof/Laws/PerInstr.lean ====
section
/-! SUPPORT. What holds of every instruction as syntax, one lemma for each constructor: the shape of its words. -/

namespace Sys2Proof.Laws.Units

/-- The words of an instruction are one or two bytes of the stream, of which its fetch takes at least one
(30_encoding.md rules R91, R100, R102 and R104), or one aligned 32-bit access inside the register window
(20_memory.md rule R76), which takes none. -/
def Statement (i : Instr) : Prop :=
  wellFormed i = true →
    match encode i with
    | .bytes bs => 0 < instrLen i ∧ instrLen i ≤ bs.length ∧ bs.length ≤ 2
    | .access a => instrLen i = 0 ∧ a.width = 4 ∧ a.off % 4 = 0 ∧ a.off < 256

/-- A register access of any word number has that shape. -/
theorem access_shape (w : BitVec 6) : 4 * w.toNat % 4 = 0 ∧ 4 * w.toNat < 256 := by
  have := w.isLt
  omega

theorem nulMarker : Statement .nulMarker := fun _ => ⟨Nat.succ_pos _, Nat.le_of_ble_eq_true rfl, Nat.le_of_ble_eq_true rfl⟩

theorem tem : Statement .tem := fun _ => ⟨Nat.succ_pos _, Nat.le_of_ble_eq_true rfl, Nat.le_of_ble_eq_true rfl⟩

theorem res (code : Byte) : Statement (.res code) := fun _ => ⟨Nat.succ_pos _, Nat.le_of_ble_eq_true rfl, Nat.le_of_ble_eq_true rfl⟩

theorem sof0 : Statement .sof0 := fun _ => ⟨Nat.succ_pos _, Nat.le_of_ble_eq_true rfl, Nat.le_of_ble_eq_true rfl⟩

theorem sof1 : Statement .sof1 := fun _ => ⟨Nat.succ_pos _, Nat.le_of_ble_eq_true rfl, Nat.le_of_ble_eq_true rfl⟩

theorem sof2 : Statement .sof2 := fun _ => ⟨Nat.succ_pos _, Nat.le_of_ble_eq_true rfl, Nat.le_of_ble_eq_true rfl⟩

theorem sof3 : Statement .sof3 := fun _ => ⟨Nat.succ_pos _, Nat.le_of_ble_eq_true rfl, Nat.le_of_ble_eq_true rfl⟩

theorem sof5 : Statement .sof5 := fun _ => ⟨Nat.succ_pos _, Nat.le_of_ble_eq_true rfl, Nat.le_of_ble_eq_true rfl⟩

theorem sof6 : Statement .sof6 := fun _ => ⟨Nat.succ_pos _, Nat.le_of_ble_eq_true rfl, Nat.le_of_ble_eq_true rfl⟩

theorem sof7 : Statement .sof7 := fun _ => ⟨Nat.succ_pos _, Nat.le_of_ble_eq_true rfl, Nat.le_of_ble_eq_true rfl⟩

theorem jpg : Statement .jpg := fun _ => ⟨Nat.succ_pos _, Nat.le_of_ble_eq_true rfl, Nat.le_of_ble_eq_true rfl⟩

theorem sof9 : Statement .sof9 := fun _ => ⟨Nat.succ_pos _, Nat.le_of_ble_eq_true rfl, Nat.le_of_ble_eq_true rfl⟩

theorem sof10 : Statement .sof10 := fun _ => ⟨Nat.succ_pos _, Nat.le_of_ble_eq_true rfl, Nat.le_of_ble_eq_true rfl⟩

theorem sof11 : Statement .sof11 := fun _ => ⟨Nat.succ_pos _, Nat.le_of_ble_eq_true rfl, Nat.le_of_ble_eq_true rfl⟩

theorem sof13 : Statement .sof13 := fun _ => ⟨Nat.succ_pos _, Nat.le_of_ble_eq_true rfl, Nat.le_of_ble_eq_true rfl⟩

theorem sof14 : Statement .sof14 := fun _ => ⟨Nat.succ_pos _, Nat.le_of_ble_eq_true rfl, Nat.le_of_ble_eq_true rfl⟩

theorem sof15 : Statement .sof15 := fun _ => ⟨Nat.succ_pos _, Nat.le_of_ble_eq_true rfl, Nat.le_of_ble_eq_true rfl⟩

theorem dht : Statement .dht := fun _ => ⟨Nat.succ_pos _, Nat.le_of_ble_eq_true rfl, Nat.le_of_ble_eq_true rfl⟩

theorem dac : Statement .dac := fun _ => ⟨Nat.succ_pos _, Nat.le_of_ble_eq_true rfl, Nat.le_of_ble_eq_true rfl⟩

theorem rstnHeader (n : BitVec 3) : Statement (.rstnHeader n) := fun _ => ⟨Nat.succ_pos _, Nat.le_of_ble_eq_true rfl, Nat.le_of_ble_eq_true rfl⟩

theorem soi : Statement .soi := fun _ => ⟨Nat.succ_pos _, Nat.le_of_ble_eq_true rfl, Nat.le_of_ble_eq_true rfl⟩

theorem soiEmbedded : Statement .soiEmbedded := fun _ => ⟨Nat.succ_pos _, Nat.le_of_ble_eq_true rfl, Nat.le_of_ble_eq_true rfl⟩

theorem eoiHeader : Statement .eoiHeader := fun _ => ⟨Nat.succ_pos _, Nat.le_of_ble_eq_true rfl, Nat.le_of_ble_eq_true rfl⟩

theorem sos : Statement .sos := fun _ => ⟨Nat.succ_pos _, Nat.le_of_ble_eq_true rfl, Nat.le_of_ble_eq_true rfl⟩

theorem dqt : Statement .dqt := fun _ => ⟨Nat.succ_pos _, Nat.le_of_ble_eq_true rfl, Nat.le_of_ble_eq_true rfl⟩

theorem dnl : Statement .dnl := fun _ => ⟨Nat.succ_pos _, Nat.le_of_ble_eq_true rfl, Nat.le_of_ble_eq_true rfl⟩

theorem dri : Statement .dri := fun _ => ⟨Nat.succ_pos _, Nat.le_of_ble_eq_true rfl, Nat.le_of_ble_eq_true rfl⟩

theorem dhp : Statement .dhp := fun _ => ⟨Nat.succ_pos _, Nat.le_of_ble_eq_true rfl, Nat.le_of_ble_eq_true rfl⟩

theorem exp : Statement .exp := fun _ => ⟨Nat.succ_pos _, Nat.le_of_ble_eq_true rfl, Nat.le_of_ble_eq_true rfl⟩

theorem appn (n : BitVec 4) : Statement (.appn n) := fun _ => ⟨Nat.succ_pos _, Nat.le_of_ble_eq_true rfl, Nat.le_of_ble_eq_true rfl⟩

theorem jpgn (n : BitVec 4) : Statement (.jpgn n) := fun _ => ⟨Nat.succ_pos _, Nat.le_of_ble_eq_true rfl, Nat.le_of_ble_eq_true rfl⟩

theorem com : Statement .com := fun _ => ⟨Nat.succ_pos _, Nat.le_of_ble_eq_true rfl, Nat.le_of_ble_eq_true rfl⟩

theorem fill : Statement .fill := fun _ => ⟨Nat.succ_pos _, Nat.le_of_ble_eq_true rfl, Nat.le_of_ble_eq_true rfl⟩

theorem notMarker (b : Byte) : Statement (.notMarker b) := fun _ => ⟨Nat.succ_pos _, Nat.le_of_ble_eq_true rfl, Nat.le_of_ble_eq_true rfl⟩

theorem ecsData (b : Byte) : Statement (.ecsData b) := fun _ => ⟨Nat.succ_pos _, Nat.le_of_ble_eq_true rfl, Nat.le_of_ble_eq_true rfl⟩

theorem ecsStuffedFf : Statement .ecsStuffedFf := fun _ => ⟨Nat.succ_pos _, Nat.le_of_ble_eq_true rfl, Nat.le_of_ble_eq_true rfl⟩

theorem ecsRstn (n : BitVec 3) : Statement (.ecsRstn n) := fun _ => ⟨Nat.succ_pos _, Nat.le_of_ble_eq_true rfl, Nat.le_of_ble_eq_true rfl⟩

theorem ecsEoi : Statement .ecsEoi := fun _ => ⟨Nat.succ_pos _, Nat.le_of_ble_eq_true rfl, Nat.le_of_ble_eq_true rfl⟩

theorem ecsFill : Statement .ecsFill := fun _ => ⟨Nat.succ_pos _, Nat.le_of_ble_eq_true rfl, Nat.le_of_ble_eq_true rfl⟩

theorem ecsBadMarker (c : Byte) : Statement (.ecsBadMarker c) := fun _ => ⟨Nat.succ_pos _, Nat.le_of_ble_eq_true rfl, Nat.le_of_ble_eq_true rfl⟩

theorem dcCat0 : Statement .dcCat0 := fun _ => ⟨Nat.succ_pos _, Nat.le_of_ble_eq_true rfl, Nat.le_of_ble_eq_true rfl⟩

theorem dcCat (s : Byte) : Statement (.dcCat s) := fun _ => ⟨Nat.succ_pos _, Nat.le_of_ble_eq_true rfl, Nat.le_of_ble_eq_true rfl⟩

theorem dcBad (s : Byte) : Statement (.dcBad s) := fun _ => ⟨Nat.succ_pos _, Nat.le_of_ble_eq_true rfl, Nat.le_of_ble_eq_true rfl⟩

theorem acEob : Statement .acEob := fun _ => ⟨Nat.succ_pos _, Nat.le_of_ble_eq_true rfl, Nat.le_of_ble_eq_true rfl⟩

theorem acZrl : Statement .acZrl := fun _ => ⟨Nat.succ_pos _, Nat.le_of_ble_eq_true rfl, Nat.le_of_ble_eq_true rfl⟩

theorem acRun (r : BitVec 4) : Statement (.acRun r) := fun _ => ⟨Nat.succ_pos _, Nat.le_of_ble_eq_true rfl, Nat.le_of_ble_eq_true rfl⟩

theorem acCoef (r s : BitVec 4) : Statement (.acCoef r s) := fun _ => ⟨Nat.succ_pos _, Nat.le_of_ble_eq_true rfl, Nat.le_of_ble_eq_true rfl⟩

theorem acBad (r s : BitVec 4) : Statement (.acBad r s) := fun _ => ⟨Nat.succ_pos _, Nat.le_of_ble_eq_true rfl, Nat.le_of_ble_eq_true rfl⟩

theorem acRunOverflow (rs : Byte) : Statement (.acRunOverflow rs) := fun _ => ⟨Nat.succ_pos _, Nat.le_of_ble_eq_true rfl, Nat.le_of_ble_eq_true rfl⟩

theorem read (word : BitVec 6) : Statement (.read word) := fun _ => ⟨rfl, rfl, access_shape _⟩

theorem writeCtrl (v : Word) : Statement (.writeCtrl v) := fun _ => ⟨rfl, rfl, access_shape _⟩

theorem start (v : Word) : Statement (.start v) := fun _ => ⟨rfl, rfl, access_shape _⟩

theorem abort (v : Word) : Statement (.abort v) := fun _ => ⟨rfl, rfl, access_shape _⟩

theorem setIrqEn (v : Word) : Statement (.setIrqEn v) := fun _ => ⟨rfl, rfl, access_shape _⟩

theorem writeConfig (r : ConfigReg) (v : Word) : Statement (.writeConfig r v) := fun _ => ⟨rfl, rfl, access_shape _⟩

theorem clearStatus (v : Word) : Statement (.clearStatus v) := fun _ => ⟨rfl, rfl, access_shape _⟩

theorem selectTableEntry (v : Word) : Statement (.selectTableEntry v) := fun _ => ⟨rfl, rfl, access_shape _⟩

theorem writeReadOnly (word : BitVec 6) (v : Word) : Statement (.writeReadOnly word v) := fun _ => ⟨rfl, rfl, access_shape _⟩

theorem readTableEntry (port : TablePort) : Statement (.readTableEntry port) := fun _ => ⟨rfl, rfl, access_shape _⟩

end Sys2Proof.Laws.Units
end

