-- ==== Sys2Proof/Laws/State.lean ====
section
/-! SUPPORT. One lemma per field of State for each named update: the update writes the fields it names and no other. -/

namespace Sys2Proof.Machine

/-! ### raiseError -/

@[simp] theorem raiseError_params (d : Detail) (s : State) : (raiseError d s).params = s.params := rfl
@[simp] theorem raiseError_irqEn (d : Detail) (s : State) : (raiseError d s).irqEn = s.irqEn := rfl
@[simp] theorem raiseError_done (d : Detail) (s : State) : (raiseError d s).done = s.done := rfl
@[simp] theorem raiseError_err (d : Detail) (s : State) : (raiseError d s).err = true := rfl
@[simp] theorem raiseError_errClass (d : Detail) (s : State) : (raiseError d s).errClass = detailClass d := rfl
@[simp] theorem raiseError_errDetail (d : Detail) (s : State) : (raiseError d s).errDetail = detailCode d := rfl
@[simp] theorem raiseError_inBase (d : Detail) (s : State) : (raiseError d s).inBase = s.inBase := rfl
@[simp] theorem raiseError_inLen (d : Detail) (s : State) : (raiseError d s).inLen = s.inLen := rfl
@[simp] theorem raiseError_outBase (d : Detail) (s : State) : (raiseError d s).outBase = s.outBase := rfl
@[simp] theorem raiseError_outCap (d : Detail) (s : State) : (raiseError d s).outCap = s.outCap := rfl
@[simp] theorem raiseError_mcuDone (d : Detail) (s : State) : (raiseError d s).mcuDone = s.mcuDone := rfl
@[simp] theorem raiseError_htSel (d : Detail) (s : State) : (raiseError d s).htSel = s.htSel := rfl
@[simp] theorem raiseError_phase (d : Detail) (s : State) : (raiseError d s).phase = .idle := rfl
@[simp] theorem raiseError_soiDone (d : Detail) (s : State) : (raiseError d s).soiDone = s.soiDone := rfl
@[simp] theorem raiseError_ipos (d : Detail) (s : State) : (raiseError d s).ipos = s.ipos := rfl
@[simp] theorem raiseError_work (d : Detail) (s : State) : (raiseError d s).work = s.work := rfl
@[simp] theorem raiseError_frame (d : Detail) (s : State) : (raiseError d s).frame = s.frame := rfl
@[simp] theorem raiseError_comp (d : Detail) (s : State) : (raiseError d s).comp = s.comp := rfl
@[simp] theorem raiseError_ns (d : Detail) (s : State) : (raiseError d s).ns = s.ns := rfl
@[simp] theorem raiseError_scan (d : Detail) (s : State) : (raiseError d s).scan = s.scan := rfl
@[simp] theorem raiseError_qt (d : Detail) (s : State) : (raiseError d s).qt = s.qt := rfl
@[simp] theorem raiseError_dcHt (d : Detail) (s : State) : (raiseError d s).dcHt = s.dcHt := rfl
@[simp] theorem raiseError_acHt (d : Detail) (s : State) : (raiseError d s).acHt = s.acHt := rfl
@[simp] theorem raiseError_ent (d : Detail) (s : State) : (raiseError d s).ent = s.ent := rfl
@[simp] theorem raiseError_entLen (d : Detail) (s : State) : (raiseError d s).entLen = s.entLen := rfl
@[simp] theorem raiseError_cur (d : Detail) (s : State) : (raiseError d s).cur = s.cur := rfl
@[simp] theorem raiseError_pred (d : Detail) (s : State) : (raiseError d s).pred = s.pred := rfl
@[simp] theorem raiseError_coef (d : Detail) (s : State) : (raiseError d s).coef = s.coef := rfl
@[simp] theorem raiseError_mem (d : Detail) (s : State) : (raiseError d s).mem = s.mem := rfl
@[simp] theorem raiseError_txn (d : Detail) (s : State) : (raiseError d s).txn = .none := rfl
@[simp] theorem raiseError_inputs (d : Detail) (s : State) : (raiseError d s).inputs = s.inputs := rfl
@[simp] theorem raiseError_rdata (d : Detail) (s : State) : (raiseError d s).rdata = s.rdata := rfl

/-! ### moveTo -/

@[simp] theorem moveTo_params (p : Nat) (s : State) : (moveTo p s).params = s.params := rfl
@[simp] theorem moveTo_irqEn (p : Nat) (s : State) : (moveTo p s).irqEn = s.irqEn := rfl
@[simp] theorem moveTo_done (p : Nat) (s : State) : (moveTo p s).done = s.done := rfl
@[simp] theorem moveTo_err (p : Nat) (s : State) : (moveTo p s).err = s.err := rfl
@[simp] theorem moveTo_errClass (p : Nat) (s : State) : (moveTo p s).errClass = s.errClass := rfl
@[simp] theorem moveTo_errDetail (p : Nat) (s : State) : (moveTo p s).errDetail = s.errDetail := rfl
@[simp] theorem moveTo_inBase (p : Nat) (s : State) : (moveTo p s).inBase = s.inBase := rfl
@[simp] theorem moveTo_inLen (p : Nat) (s : State) : (moveTo p s).inLen = s.inLen := rfl
@[simp] theorem moveTo_outBase (p : Nat) (s : State) : (moveTo p s).outBase = s.outBase := rfl
@[simp] theorem moveTo_outCap (p : Nat) (s : State) : (moveTo p s).outCap = s.outCap := rfl
@[simp] theorem moveTo_mcuDone (p : Nat) (s : State) : (moveTo p s).mcuDone = s.mcuDone := rfl
@[simp] theorem moveTo_htSel (p : Nat) (s : State) : (moveTo p s).htSel = s.htSel := rfl
@[simp] theorem moveTo_phase (p : Nat) (s : State) : (moveTo p s).phase = s.phase := rfl
@[simp] theorem moveTo_soiDone (p : Nat) (s : State) : (moveTo p s).soiDone = s.soiDone := rfl
@[simp] theorem moveTo_ipos (p : Nat) (s : State) : (moveTo p s).ipos = s.ipos := rfl
@[simp] theorem moveTo_work (p : Nat) (s : State) : (moveTo p s).work = s.work := rfl
@[simp] theorem moveTo_frame (p : Nat) (s : State) : (moveTo p s).frame = s.frame := rfl
@[simp] theorem moveTo_comp (p : Nat) (s : State) : (moveTo p s).comp = s.comp := rfl
@[simp] theorem moveTo_ns (p : Nat) (s : State) : (moveTo p s).ns = s.ns := rfl
@[simp] theorem moveTo_scan (p : Nat) (s : State) : (moveTo p s).scan = s.scan := rfl
@[simp] theorem moveTo_qt (p : Nat) (s : State) : (moveTo p s).qt = s.qt := rfl
@[simp] theorem moveTo_dcHt (p : Nat) (s : State) : (moveTo p s).dcHt = s.dcHt := rfl
@[simp] theorem moveTo_acHt (p : Nat) (s : State) : (moveTo p s).acHt = s.acHt := rfl
@[simp] theorem moveTo_ent (p : Nat) (s : State) : (moveTo p s).ent = s.ent := rfl
@[simp] theorem moveTo_entLen (p : Nat) (s : State) : (moveTo p s).entLen = s.entLen := rfl
@[simp] theorem moveTo_cur (p : Nat) (s : State) : (moveTo p s).cur = s.cur := rfl
@[simp] theorem moveTo_pred (p : Nat) (s : State) : (moveTo p s).pred = s.pred := rfl
@[simp] theorem moveTo_coef (p : Nat) (s : State) : (moveTo p s).coef = s.coef := rfl
@[simp] theorem moveTo_mem (p : Nat) (s : State) : (moveTo p s).mem = s.mem := rfl
@[simp] theorem moveTo_txn (p : Nat) (s : State) : (moveTo p s).txn = .marker (BitVec.ofNat 32 p) := rfl
@[simp] theorem moveTo_inputs (p : Nat) (s : State) : (moveTo p s).inputs = s.inputs := rfl
@[simp] theorem moveTo_rdata (p : Nat) (s : State) : (moveTo p s).rdata = s.rdata := rfl

/-! ### commitPos -/

@[simp] theorem commitPos_params (p : Nat) (s : State) : (commitPos p s).params = s.params := rfl
@[simp] theorem commitPos_irqEn (p : Nat) (s : State) : (commitPos p s).irqEn = s.irqEn := rfl
@[simp] theorem commitPos_done (p : Nat) (s : State) : (commitPos p s).done = s.done := rfl
@[simp] theorem commitPos_err (p : Nat) (s : State) : (commitPos p s).err = s.err := rfl
@[simp] theorem commitPos_errClass (p : Nat) (s : State) : (commitPos p s).errClass = s.errClass := rfl
@[simp] theorem commitPos_errDetail (p : Nat) (s : State) : (commitPos p s).errDetail = s.errDetail := rfl
@[simp] theorem commitPos_inBase (p : Nat) (s : State) : (commitPos p s).inBase = s.inBase := rfl
@[simp] theorem commitPos_inLen (p : Nat) (s : State) : (commitPos p s).inLen = s.inLen := rfl
@[simp] theorem commitPos_outBase (p : Nat) (s : State) : (commitPos p s).outBase = s.outBase := rfl
@[simp] theorem commitPos_outCap (p : Nat) (s : State) : (commitPos p s).outCap = s.outCap := rfl
@[simp] theorem commitPos_mcuDone (p : Nat) (s : State) : (commitPos p s).mcuDone = s.mcuDone := rfl
@[simp] theorem commitPos_htSel (p : Nat) (s : State) : (commitPos p s).htSel = s.htSel := rfl
@[simp] theorem commitPos_phase (p : Nat) (s : State) : (commitPos p s).phase = s.phase := rfl
@[simp] theorem commitPos_soiDone (p : Nat) (s : State) : (commitPos p s).soiDone = s.soiDone := rfl
@[simp] theorem commitPos_ipos (p : Nat) (s : State) : (commitPos p s).ipos = BitVec.ofNat 32 p := rfl
@[simp] theorem commitPos_work (p : Nat) (s : State) : (commitPos p s).work = s.work := rfl
@[simp] theorem commitPos_frame (p : Nat) (s : State) : (commitPos p s).frame = s.frame := rfl
@[simp] theorem commitPos_comp (p : Nat) (s : State) : (commitPos p s).comp = s.comp := rfl
@[simp] theorem commitPos_ns (p : Nat) (s : State) : (commitPos p s).ns = s.ns := rfl
@[simp] theorem commitPos_scan (p : Nat) (s : State) : (commitPos p s).scan = s.scan := rfl
@[simp] theorem commitPos_qt (p : Nat) (s : State) : (commitPos p s).qt = s.qt := rfl
@[simp] theorem commitPos_dcHt (p : Nat) (s : State) : (commitPos p s).dcHt = s.dcHt := rfl
@[simp] theorem commitPos_acHt (p : Nat) (s : State) : (commitPos p s).acHt = s.acHt := rfl
@[simp] theorem commitPos_ent (p : Nat) (s : State) : (commitPos p s).ent = s.ent := rfl
@[simp] theorem commitPos_entLen (p : Nat) (s : State) : (commitPos p s).entLen = s.entLen := rfl
@[simp] theorem commitPos_cur (p : Nat) (s : State) : (commitPos p s).cur = s.cur := rfl
@[simp] theorem commitPos_pred (p : Nat) (s : State) : (commitPos p s).pred = s.pred := rfl
@[simp] theorem commitPos_coef (p : Nat) (s : State) : (commitPos p s).coef = s.coef := rfl
@[simp] theorem commitPos_mem (p : Nat) (s : State) : (commitPos p s).mem = s.mem := rfl
@[simp] theorem commitPos_txn (p : Nat) (s : State) : (commitPos p s).txn = .none := rfl
@[simp] theorem commitPos_inputs (p : Nat) (s : State) : (commitPos p s).inputs = s.inputs := rfl
@[simp] theorem commitPos_rdata (p : Nat) (s : State) : (commitPos p s).rdata = s.rdata := rfl

/-! ### startDecode -/

@[simp] theorem startDecode_params (s : State) : (startDecode s).params = s.params := rfl
@[simp] theorem startDecode_irqEn (s : State) : (startDecode s).irqEn = s.irqEn := rfl
@[simp] theorem startDecode_done (s : State) : (startDecode s).done = false := rfl
@[simp] theorem startDecode_err (s : State) : (startDecode s).err = false := rfl
@[simp] theorem startDecode_errClass (s : State) : (startDecode s).errClass = 0 := rfl
@[simp] theorem startDecode_errDetail (s : State) : (startDecode s).errDetail = 0 := rfl
@[simp] theorem startDecode_inBase (s : State) : (startDecode s).inBase = s.inBase := rfl
@[simp] theorem startDecode_inLen (s : State) : (startDecode s).inLen = s.inLen := rfl
@[simp] theorem startDecode_outBase (s : State) : (startDecode s).outBase = s.outBase := rfl
@[simp] theorem startDecode_outCap (s : State) : (startDecode s).outCap = s.outCap := rfl
@[simp] theorem startDecode_mcuDone (s : State) : (startDecode s).mcuDone = 0 := rfl
@[simp] theorem startDecode_htSel (s : State) : (startDecode s).htSel = s.htSel := rfl
@[simp] theorem startDecode_phase (s : State) : (startDecode s).phase = .parse := rfl
@[simp] theorem startDecode_soiDone (s : State) : (startDecode s).soiDone = false := rfl
@[simp] theorem startDecode_ipos (s : State) : (startDecode s).ipos = 0 := rfl
@[simp] theorem startDecode_work (s : State) : (startDecode s).work = 0 := rfl
@[simp] theorem startDecode_frame (s : State) : (startDecode s).frame = noFrame := rfl
@[simp] theorem startDecode_comp (s : State) : (startDecode s).comp = s.comp := rfl
@[simp] theorem startDecode_ns (s : State) : (startDecode s).ns = 0 := rfl
@[simp] theorem startDecode_scan (s : State) : (startDecode s).scan = s.scan := rfl
@[simp] theorem startDecode_qt (s : State) : (startDecode s).qt = clearQt s.qt := rfl
@[simp] theorem startDecode_dcHt (s : State) : (startDecode s).dcHt = clearHt s.dcHt := rfl
@[simp] theorem startDecode_acHt (s : State) : (startDecode s).acHt = clearHt s.acHt := rfl
@[simp] theorem startDecode_ent (s : State) : (startDecode s).ent = s.ent := rfl
@[simp] theorem startDecode_entLen (s : State) : (startDecode s).entLen = 0 := rfl
@[simp] theorem startDecode_cur (s : State) : (startDecode s).cur = ⟨0, 0⟩ := rfl
@[simp] theorem startDecode_pred (s : State) : (startDecode s).pred = Vector.replicate 3 0 := rfl
@[simp] theorem startDecode_coef (s : State) : (startDecode s).coef = s.coef := rfl
@[simp] theorem startDecode_mem (s : State) : (startDecode s).mem = s.mem := rfl
@[simp] theorem startDecode_txn (s : State) : (startDecode s).txn = .none := rfl
@[simp] theorem startDecode_inputs (s : State) : (startDecode s).inputs = s.inputs := rfl
@[simp] theorem startDecode_rdata (s : State) : (startDecode s).rdata = s.rdata := rfl

/-! ### openMcu -/

@[simp] theorem openMcu_params (s : State) : (openMcu s).params = s.params := rfl
@[simp] theorem openMcu_irqEn (s : State) : (openMcu s).irqEn = s.irqEn := rfl
@[simp] theorem openMcu_done (s : State) : (openMcu s).done = s.done := rfl
@[simp] theorem openMcu_err (s : State) : (openMcu s).err = s.err := rfl
@[simp] theorem openMcu_errClass (s : State) : (openMcu s).errClass = s.errClass := rfl
@[simp] theorem openMcu_errDetail (s : State) : (openMcu s).errDetail = s.errDetail := rfl
@[simp] theorem openMcu_inBase (s : State) : (openMcu s).inBase = s.inBase := rfl
@[simp] theorem openMcu_inLen (s : State) : (openMcu s).inLen = s.inLen := rfl
@[simp] theorem openMcu_outBase (s : State) : (openMcu s).outBase = s.outBase := rfl
@[simp] theorem openMcu_outCap (s : State) : (openMcu s).outCap = s.outCap := rfl
@[simp] theorem openMcu_mcuDone (s : State) : (openMcu s).mcuDone = s.mcuDone := rfl
@[simp] theorem openMcu_htSel (s : State) : (openMcu s).htSel = s.htSel := rfl
@[simp] theorem openMcu_phase (s : State) : (openMcu s).phase = s.phase := rfl
@[simp] theorem openMcu_soiDone (s : State) : (openMcu s).soiDone = s.soiDone := rfl
@[simp] theorem openMcu_ipos (s : State) : (openMcu s).ipos = s.ipos := rfl
@[simp] theorem openMcu_work (s : State) : (openMcu s).work = s.work := rfl
@[simp] theorem openMcu_frame (s : State) : (openMcu s).frame = s.frame := rfl
@[simp] theorem openMcu_comp (s : State) : (openMcu s).comp = s.comp := rfl
@[simp] theorem openMcu_ns (s : State) : (openMcu s).ns = s.ns := rfl
@[simp] theorem openMcu_scan (s : State) : (openMcu s).scan = s.scan := rfl
@[simp] theorem openMcu_qt (s : State) : (openMcu s).qt = s.qt := rfl
@[simp] theorem openMcu_dcHt (s : State) : (openMcu s).dcHt = s.dcHt := rfl
@[simp] theorem openMcu_acHt (s : State) : (openMcu s).acHt = s.acHt := rfl
@[simp] theorem openMcu_ent (s : State) : (openMcu s).ent = s.ent := rfl
@[simp] theorem openMcu_entLen (s : State) : (openMcu s).entLen = s.entLen := rfl
@[simp] theorem openMcu_cur (s : State) : (openMcu s).cur = s.cur := rfl
@[simp] theorem openMcu_pred (s : State) : (openMcu s).pred = s.pred := rfl
@[simp] theorem openMcu_coef (s : State) : (openMcu s).coef = s.coef := rfl
@[simp] theorem openMcu_mem (s : State) : (openMcu s).mem = s.mem := rfl
@[simp] theorem openMcu_inputs (s : State) : (openMcu s).inputs = s.inputs := rfl
@[simp] theorem openMcu_rdata (s : State) : (openMcu s).rdata = s.rdata := rfl

/-! ### commitMcu -/

@[simp] theorem commitMcu_params (w : McuWork) (s : State) : (commitMcu w s).params = s.params := rfl
@[simp] theorem commitMcu_irqEn (w : McuWork) (s : State) : (commitMcu w s).irqEn = s.irqEn := rfl
@[simp] theorem commitMcu_done (w : McuWork) (s : State) : (commitMcu w s).done = s.done := rfl
@[simp] theorem commitMcu_err (w : McuWork) (s : State) : (commitMcu w s).err = s.err := rfl
@[simp] theorem commitMcu_errClass (w : McuWork) (s : State) : (commitMcu w s).errClass = s.errClass := rfl
@[simp] theorem commitMcu_errDetail (w : McuWork) (s : State) : (commitMcu w s).errDetail = s.errDetail := rfl
@[simp] theorem commitMcu_inBase (w : McuWork) (s : State) : (commitMcu w s).inBase = s.inBase := rfl
@[simp] theorem commitMcu_inLen (w : McuWork) (s : State) : (commitMcu w s).inLen = s.inLen := rfl
@[simp] theorem commitMcu_outBase (w : McuWork) (s : State) : (commitMcu w s).outBase = s.outBase := rfl
@[simp] theorem commitMcu_outCap (w : McuWork) (s : State) : (commitMcu w s).outCap = s.outCap := rfl
@[simp] theorem commitMcu_mcuDone (w : McuWork) (s : State) : (commitMcu w s).mcuDone = s.mcuDone + 1 := rfl
@[simp] theorem commitMcu_htSel (w : McuWork) (s : State) : (commitMcu w s).htSel = s.htSel := rfl
@[simp] theorem commitMcu_soiDone (w : McuWork) (s : State) : (commitMcu w s).soiDone = s.soiDone := rfl
@[simp] theorem commitMcu_ipos (w : McuWork) (s : State) : (commitMcu w s).ipos = s.ipos := rfl
@[simp] theorem commitMcu_frame (w : McuWork) (s : State) : (commitMcu w s).frame = s.frame := rfl
@[simp] theorem commitMcu_comp (w : McuWork) (s : State) : (commitMcu w s).comp = s.comp := rfl
@[simp] theorem commitMcu_ns (w : McuWork) (s : State) : (commitMcu w s).ns = s.ns := rfl
@[simp] theorem commitMcu_scan (w : McuWork) (s : State) : (commitMcu w s).scan = s.scan := rfl
@[simp] theorem commitMcu_qt (w : McuWork) (s : State) : (commitMcu w s).qt = s.qt := rfl
@[simp] theorem commitMcu_dcHt (w : McuWork) (s : State) : (commitMcu w s).dcHt = s.dcHt := rfl
@[simp] theorem commitMcu_acHt (w : McuWork) (s : State) : (commitMcu w s).acHt = s.acHt := rfl
@[simp] theorem commitMcu_ent (w : McuWork) (s : State) : (commitMcu w s).ent = s.ent := rfl
@[simp] theorem commitMcu_entLen (w : McuWork) (s : State) : (commitMcu w s).entLen = s.entLen := rfl
@[simp] theorem commitMcu_cur (w : McuWork) (s : State) : (commitMcu w s).cur = w.cur := rfl
@[simp] theorem commitMcu_pred (w : McuWork) (s : State) : (commitMcu w s).pred = w.pred := rfl
@[simp] theorem commitMcu_coef (w : McuWork) (s : State) : (commitMcu w s).coef = storeBlocks s.comp s.mcuDone.toNat w.done s.coef := rfl
@[simp] theorem commitMcu_mem (w : McuWork) (s : State) : (commitMcu w s).mem = s.mem := rfl
@[simp] theorem commitMcu_txn (w : McuWork) (s : State) : (commitMcu w s).txn = .none := rfl
@[simp] theorem commitMcu_inputs (w : McuWork) (s : State) : (commitMcu w s).inputs = s.inputs := rfl
@[simp] theorem commitMcu_rdata (w : McuWork) (s : State) : (commitMcu w s).rdata = s.rdata := rfl

/-! ### dequantStep -/

@[simp] theorem dequantStep_params (s : State) : (dequantStep s).params = s.params := rfl
@[simp] theorem dequantStep_irqEn (s : State) : (dequantStep s).irqEn = s.irqEn := rfl
@[simp] theorem dequantStep_done (s : State) : (dequantStep s).done = s.done := rfl
@[simp] theorem dequantStep_err (s : State) : (dequantStep s).err = s.err := rfl
@[simp] theorem dequantStep_errClass (s : State) : (dequantStep s).errClass = s.errClass := rfl
@[simp] theorem dequantStep_errDetail (s : State) : (dequantStep s).errDetail = s.errDetail := rfl
@[simp] theorem dequantStep_inBase (s : State) : (dequantStep s).inBase = s.inBase := rfl
@[simp] theorem dequantStep_inLen (s : State) : (dequantStep s).inLen = s.inLen := rfl
@[simp] theorem dequantStep_outBase (s : State) : (dequantStep s).outBase = s.outBase := rfl
@[simp] theorem dequantStep_outCap (s : State) : (dequantStep s).outCap = s.outCap := rfl
@[simp] theorem dequantStep_mcuDone (s : State) : (dequantStep s).mcuDone = s.mcuDone := rfl
@[simp] theorem dequantStep_htSel (s : State) : (dequantStep s).htSel = s.htSel := rfl
@[simp] theorem dequantStep_soiDone (s : State) : (dequantStep s).soiDone = s.soiDone := rfl
@[simp] theorem dequantStep_ipos (s : State) : (dequantStep s).ipos = s.ipos := rfl
@[simp] theorem dequantStep_frame (s : State) : (dequantStep s).frame = s.frame := rfl
@[simp] theorem dequantStep_comp (s : State) : (dequantStep s).comp = s.comp := rfl
@[simp] theorem dequantStep_ns (s : State) : (dequantStep s).ns = s.ns := rfl
@[simp] theorem dequantStep_scan (s : State) : (dequantStep s).scan = s.scan := rfl
@[simp] theorem dequantStep_qt (s : State) : (dequantStep s).qt = s.qt := rfl
@[simp] theorem dequantStep_dcHt (s : State) : (dequantStep s).dcHt = s.dcHt := rfl
@[simp] theorem dequantStep_acHt (s : State) : (dequantStep s).acHt = s.acHt := rfl
@[simp] theorem dequantStep_ent (s : State) : (dequantStep s).ent = s.ent := rfl
@[simp] theorem dequantStep_entLen (s : State) : (dequantStep s).entLen = s.entLen := rfl
@[simp] theorem dequantStep_cur (s : State) : (dequantStep s).cur = s.cur := rfl
@[simp] theorem dequantStep_pred (s : State) : (dequantStep s).pred = s.pred := rfl
@[simp] theorem dequantStep_mem (s : State) : (dequantStep s).mem = s.mem := rfl
@[simp] theorem dequantStep_txn (s : State) : (dequantStep s).txn = s.txn := rfl
@[simp] theorem dequantStep_inputs (s : State) : (dequantStep s).inputs = s.inputs := rfl
@[simp] theorem dequantStep_rdata (s : State) : (dequantStep s).rdata = s.rdata := rfl

/-! ### idctStep -/

@[simp] theorem idctStep_params (s : State) : (idctStep s).params = s.params := rfl
@[simp] theorem idctStep_irqEn (s : State) : (idctStep s).irqEn = s.irqEn := rfl
@[simp] theorem idctStep_done (s : State) : (idctStep s).done = s.done := rfl
@[simp] theorem idctStep_err (s : State) : (idctStep s).err = s.err := rfl
@[simp] theorem idctStep_errClass (s : State) : (idctStep s).errClass = s.errClass := rfl
@[simp] theorem idctStep_errDetail (s : State) : (idctStep s).errDetail = s.errDetail := rfl
@[simp] theorem idctStep_inBase (s : State) : (idctStep s).inBase = s.inBase := rfl
@[simp] theorem idctStep_inLen (s : State) : (idctStep s).inLen = s.inLen := rfl
@[simp] theorem idctStep_outBase (s : State) : (idctStep s).outBase = s.outBase := rfl
@[simp] theorem idctStep_outCap (s : State) : (idctStep s).outCap = s.outCap := rfl
@[simp] theorem idctStep_mcuDone (s : State) : (idctStep s).mcuDone = s.mcuDone := rfl
@[simp] theorem idctStep_htSel (s : State) : (idctStep s).htSel = s.htSel := rfl
@[simp] theorem idctStep_soiDone (s : State) : (idctStep s).soiDone = s.soiDone := rfl
@[simp] theorem idctStep_ipos (s : State) : (idctStep s).ipos = s.ipos := rfl
@[simp] theorem idctStep_frame (s : State) : (idctStep s).frame = s.frame := rfl
@[simp] theorem idctStep_comp (s : State) : (idctStep s).comp = s.comp := rfl
@[simp] theorem idctStep_ns (s : State) : (idctStep s).ns = s.ns := rfl
@[simp] theorem idctStep_scan (s : State) : (idctStep s).scan = s.scan := rfl
@[simp] theorem idctStep_qt (s : State) : (idctStep s).qt = s.qt := rfl
@[simp] theorem idctStep_dcHt (s : State) : (idctStep s).dcHt = s.dcHt := rfl
@[simp] theorem idctStep_acHt (s : State) : (idctStep s).acHt = s.acHt := rfl
@[simp] theorem idctStep_ent (s : State) : (idctStep s).ent = s.ent := rfl
@[simp] theorem idctStep_entLen (s : State) : (idctStep s).entLen = s.entLen := rfl
@[simp] theorem idctStep_cur (s : State) : (idctStep s).cur = s.cur := rfl
@[simp] theorem idctStep_pred (s : State) : (idctStep s).pred = s.pred := rfl
@[simp] theorem idctStep_mem (s : State) : (idctStep s).mem = s.mem := rfl
@[simp] theorem idctStep_txn (s : State) : (idctStep s).txn = s.txn := rfl
@[simp] theorem idctStep_inputs (s : State) : (idctStep s).inputs = s.inputs := rfl
@[simp] theorem idctStep_rdata (s : State) : (idctStep s).rdata = s.rdata := rfl

/-! ### colorStep -/

@[simp] theorem colorStep_params (s : State) : (colorStep s).params = s.params := rfl
@[simp] theorem colorStep_irqEn (s : State) : (colorStep s).irqEn = s.irqEn := rfl
@[simp] theorem colorStep_err (s : State) : (colorStep s).err = s.err := rfl
@[simp] theorem colorStep_errClass (s : State) : (colorStep s).errClass = s.errClass := rfl
@[simp] theorem colorStep_errDetail (s : State) : (colorStep s).errDetail = s.errDetail := rfl
@[simp] theorem colorStep_inBase (s : State) : (colorStep s).inBase = s.inBase := rfl
@[simp] theorem colorStep_inLen (s : State) : (colorStep s).inLen = s.inLen := rfl
@[simp] theorem colorStep_outBase (s : State) : (colorStep s).outBase = s.outBase := rfl
@[simp] theorem colorStep_outCap (s : State) : (colorStep s).outCap = s.outCap := rfl
@[simp] theorem colorStep_mcuDone (s : State) : (colorStep s).mcuDone = s.mcuDone := rfl
@[simp] theorem colorStep_htSel (s : State) : (colorStep s).htSel = s.htSel := rfl
@[simp] theorem colorStep_soiDone (s : State) : (colorStep s).soiDone = s.soiDone := rfl
@[simp] theorem colorStep_ipos (s : State) : (colorStep s).ipos = s.ipos := rfl
@[simp] theorem colorStep_work (s : State) : (colorStep s).work = s.work + 1 := rfl
@[simp] theorem colorStep_frame (s : State) : (colorStep s).frame = s.frame := rfl
@[simp] theorem colorStep_comp (s : State) : (colorStep s).comp = s.comp := rfl
@[simp] theorem colorStep_ns (s : State) : (colorStep s).ns = s.ns := rfl
@[simp] theorem colorStep_scan (s : State) : (colorStep s).scan = s.scan := rfl
@[simp] theorem colorStep_qt (s : State) : (colorStep s).qt = s.qt := rfl
@[simp] theorem colorStep_dcHt (s : State) : (colorStep s).dcHt = s.dcHt := rfl
@[simp] theorem colorStep_acHt (s : State) : (colorStep s).acHt = s.acHt := rfl
@[simp] theorem colorStep_ent (s : State) : (colorStep s).ent = s.ent := rfl
@[simp] theorem colorStep_entLen (s : State) : (colorStep s).entLen = s.entLen := rfl
@[simp] theorem colorStep_cur (s : State) : (colorStep s).cur = s.cur := rfl
@[simp] theorem colorStep_pred (s : State) : (colorStep s).pred = s.pred := rfl
@[simp] theorem colorStep_coef (s : State) : (colorStep s).coef = s.coef := rfl
@[simp] theorem colorStep_txn (s : State) : (colorStep s).txn = s.txn := rfl
@[simp] theorem colorStep_inputs (s : State) : (colorStep s).inputs = s.inputs := rfl
@[simp] theorem colorStep_rdata (s : State) : (colorStep s).rdata = s.rdata := rfl

/-! ### pollRegister -/

@[simp] theorem pollRegister_params (w : BitVec 6) (mask val : Word) (s : State) : (pollRegister w mask val s).params = s.params := by
  unfold pollRegister; split <;> rfl
@[simp] theorem pollRegister_irqEn (w : BitVec 6) (mask val : Word) (s : State) : (pollRegister w mask val s).irqEn = s.irqEn := by
  unfold pollRegister; split <;> rfl
@[simp] theorem pollRegister_done (w : BitVec 6) (mask val : Word) (s : State) : (pollRegister w mask val s).done = s.done := by
  unfold pollRegister; split <;> rfl
@[simp] theorem pollRegister_err (w : BitVec 6) (mask val : Word) (s : State) : (pollRegister w mask val s).err = s.err := by
  unfold pollRegister; split <;> rfl
@[simp] theorem pollRegister_errClass (w : BitVec 6) (mask val : Word) (s : State) : (pollRegister w mask val s).errClass = s.errClass := by
  unfold pollRegister; split <;> rfl
@[simp] theorem pollRegister_errDetail (w : BitVec 6) (mask val : Word) (s : State) : (pollRegister w mask val s).errDetail = s.errDetail := by
  unfold pollRegister; split <;> rfl
@[simp] theorem pollRegister_inBase (w : BitVec 6) (mask val : Word) (s : State) : (pollRegister w mask val s).inBase = s.inBase := by
  unfold pollRegister; split <;> rfl
@[simp] theorem pollRegister_inLen (w : BitVec 6) (mask val : Word) (s : State) : (pollRegister w mask val s).inLen = s.inLen := by
  unfold pollRegister; split <;> rfl
@[simp] theorem pollRegister_outBase (w : BitVec 6) (mask val : Word) (s : State) : (pollRegister w mask val s).outBase = s.outBase := by
  unfold pollRegister; split <;> rfl
@[simp] theorem pollRegister_outCap (w : BitVec 6) (mask val : Word) (s : State) : (pollRegister w mask val s).outCap = s.outCap := by
  unfold pollRegister; split <;> rfl
@[simp] theorem pollRegister_mcuDone (w : BitVec 6) (mask val : Word) (s : State) : (pollRegister w mask val s).mcuDone = s.mcuDone := by
  unfold pollRegister; split <;> rfl
@[simp] theorem pollRegister_htSel (w : BitVec 6) (mask val : Word) (s : State) : (pollRegister w mask val s).htSel = s.htSel := by
  unfold pollRegister; split <;> rfl
@[simp] theorem pollRegister_phase (w : BitVec 6) (mask val : Word) (s : State) : (pollRegister w mask val s).phase = s.phase := by
  unfold pollRegister; split <;> rfl
@[simp] theorem pollRegister_soiDone (w : BitVec 6) (mask val : Word) (s : State) : (pollRegister w mask val s).soiDone = s.soiDone := by
  unfold pollRegister; split <;> rfl
@[simp] theorem pollRegister_ipos (w : BitVec 6) (mask val : Word) (s : State) : (pollRegister w mask val s).ipos = s.ipos := by
  unfold pollRegister; split <;> rfl
@[simp] theorem pollRegister_work (w : BitVec 6) (mask val : Word) (s : State) : (pollRegister w mask val s).work = s.work := by
  unfold pollRegister; split <;> rfl
@[simp] theorem pollRegister_frame (w : BitVec 6) (mask val : Word) (s : State) : (pollRegister w mask val s).frame = s.frame := by
  unfold pollRegister; split <;> rfl
@[simp] theorem pollRegister_comp (w : BitVec 6) (mask val : Word) (s : State) : (pollRegister w mask val s).comp = s.comp := by
  unfold pollRegister; split <;> rfl
@[simp] theorem pollRegister_ns (w : BitVec 6) (mask val : Word) (s : State) : (pollRegister w mask val s).ns = s.ns := by
  unfold pollRegister; split <;> rfl
@[simp] theorem pollRegister_scan (w : BitVec 6) (mask val : Word) (s : State) : (pollRegister w mask val s).scan = s.scan := by
  unfold pollRegister; split <;> rfl
@[simp] theorem pollRegister_qt (w : BitVec 6) (mask val : Word) (s : State) : (pollRegister w mask val s).qt = s.qt := by
  unfold pollRegister; split <;> rfl
@[simp] theorem pollRegister_dcHt (w : BitVec 6) (mask val : Word) (s : State) : (pollRegister w mask val s).dcHt = s.dcHt := by
  unfold pollRegister; split <;> rfl
@[simp] theorem pollRegister_acHt (w : BitVec 6) (mask val : Word) (s : State) : (pollRegister w mask val s).acHt = s.acHt := by
  unfold pollRegister; split <;> rfl
@[simp] theorem pollRegister_ent (w : BitVec 6) (mask val : Word) (s : State) : (pollRegister w mask val s).ent = s.ent := by
  unfold pollRegister; split <;> rfl
@[simp] theorem pollRegister_entLen (w : BitVec 6) (mask val : Word) (s : State) : (pollRegister w mask val s).entLen = s.entLen := by
  unfold pollRegister; split <;> rfl
@[simp] theorem pollRegister_cur (w : BitVec 6) (mask val : Word) (s : State) : (pollRegister w mask val s).cur = s.cur := by
  unfold pollRegister; split <;> rfl
@[simp] theorem pollRegister_pred (w : BitVec 6) (mask val : Word) (s : State) : (pollRegister w mask val s).pred = s.pred := by
  unfold pollRegister; split <;> rfl
@[simp] theorem pollRegister_coef (w : BitVec 6) (mask val : Word) (s : State) : (pollRegister w mask val s).coef = s.coef := by
  unfold pollRegister; split <;> rfl
@[simp] theorem pollRegister_mem (w : BitVec 6) (mask val : Word) (s : State) : (pollRegister w mask val s).mem = s.mem := by
  unfold pollRegister; split <;> rfl
@[simp] theorem pollRegister_txn (w : BitVec 6) (mask val : Word) (s : State) : (pollRegister w mask val s).txn = s.txn := by
  unfold pollRegister; split <;> rfl
@[simp] theorem pollRegister_rdata (w : BitVec 6) (mask val : Word) (s : State) : (pollRegister w mask val s).rdata = regRead s w := by
  unfold pollRegister; split <;> rfl

end Sys2Proof.Machine
end

