-- ==== Sys2Proof/Laws/Truncation.lean ====
section
/-! SUPPORT. Inputs that end inside a segment (41_segment_parser.md rule R150): what the readers, the table loops and the
header loops answer there; and scan entries that pass, with entries still to read. -/

namespace Sys2Proof.Machine

variable {s : State} {p : Nat}

/-! ### What `inputEndsIn` says -/

theorem inputEndsIn_lt {bs : List Byte} {k : Nat} (h : inputEndsIn s p bs k) : s.inLen.toNat < p + bs.length := by
  have := h.1; have := h.2.2; omega

/-- An input that ends inside two parts ends inside the first, or holds it and ends inside the second. -/
theorem inputEndsIn_append {as bs : List Byte} {k : Nat} (h : inputEndsIn s p (as ++ bs) k) :
    inputEndsIn s p as k ∨ (inputAt s p as ∧ inputEndsIn s (p + as.length) bs (k - as.length)) := by
  obtain ⟨h1, h2, h3⟩ := h
  by_cases hk : k < as.length
  · exact .inl ⟨hk, by rwa [List.take_append_of_le_length (by omega)] at h2, h3⟩
  · rw [List.take_append, List.take_of_length_le (by omega)] at h2
    obtain ⟨a, b⟩ := inputAt_append.mp h2
    rw [List.length_append] at h1
    exact .inr ⟨a, by omega, b, by omega⟩

theorem inputEndsIn_cons {b : Byte} {bs : List Byte} {k : Nat} (h : inputEndsIn s p (b :: bs) k) :
    s.inLen.toNat ≤ p ∨ (inputAt s p [b] ∧ inputEndsIn s (p + 1) bs (k - 1)) := by
  have h' : inputEndsIn s p ([b] ++ bs) k := h
  rcases inputEndsIn_append h' with h1 | h1
  · have := inputEndsIn_lt h1; simp at this; exact .inl (by omega)
  · exact .inr h1

/-! ### The readers -/

theorem inU16_short {n k : Nat} (h : inputEndsIn s p (be16 n) k) : inU16 s p = .error .sTruncated :=
  inU16_end (by have := inputEndsIn_lt h; rwa [be16_length] at this)

theorem inBytes_end : ∀ {n p : Nat}, s.inLen.toNat < p + n → 0 < n → inBytes s n p = .error .sTruncated
  | n + 1, p, h, _ => by
    unfold inBytes
    by_cases h0 : s.inLen.toNat ≤ p
    · rw [inByte_end h0]; rfl
    · have hb : inByte s p = .ok (memRead s (s.inBase.toNat + p), p + 1) := by simp [inByte, h0]
      simp only [hb, bind, Except.bind, inBytes_end (n := n) (p := p + 1) (by omega) (by omega)]

theorem inU16s_end : ∀ {n p : Nat}, s.inLen.toNat < p + 2 * n → 0 < n → inU16s s n p = .error .sTruncated
  | n + 1, p, h, _ => by
    unfold inU16s
    by_cases h0 : s.inLen.toNat < p + 2
    · rw [inU16_end h0]; rfl
    · cases h1 : inU16 s p with
      | error d =>
        unfold inU16 inByte at h1
        simp only [bind, Except.bind, if_neg (show ¬s.inLen.toNat ≤ p by omega),
          if_neg (show ¬s.inLen.toNat ≤ p + 1 by omega)] at h1
        cases h1
      | ok r =>
        obtain ⟨v, q⟩ := r
        obtain ⟨rfl, -, -⟩ := inU16_ok h1
        simp only [bind, Except.bind, inU16s_end (n := n) (p := p + 2) (by omega) (by omega)]

/-! ### DQT and DHT -/

theorem dqtLoop_short_entry {e : QtEntry} (h : qtEntryLegal e) {len fuel c k : Nat} {qt : Vector QTable 4} (hc : c < len)
    (hb : inputEndsIn s p (qtEntryBytes e) k) : dqtLoop s len (fuel + 1) c qt p = .error .sTruncated := by
  obtain ⟨wide, id, vals⟩ := e
  obtain ⟨e1, e2⟩ := nibbles_rsByte (if wide then 1 else 0) id
  obtain ⟨h3, h4, -⟩ := h
  simp only at h3 h4
  rw [dqtLoop, if_neg (Nat.not_le.mpr hc)]
  rcases inputEndsIn_cons hb with h0 | ⟨h0, h1⟩
  · rw [inByte_end h0]; rfl
  · have hlt := inputEndsIn_lt h1
    simp only [inByte_at h0, bind, Except.bind, e1, e2, raiseIf, decide_eq_true_eq, if_neg (Nat.not_lt.mpr h3)]
    cases wide with
    | false =>
      simp only [Bool.false_eq_true, if_false, List.length_map, h4] at hlt ⊢
      simp [dqtValues, inBytes_end hlt (by decide), bind, Except.bind]
    | true =>
      have hl : (vals.flatMap be16).length = 2 * 64 := by
        rw [List.length_flatMap]; simp [be16_length, h4]
      simp only [if_true, hl] at hlt ⊢
      simp [dqtValues, inU16s_end hlt (by decide)]

theorem dqtLoop_short {e : QtEntry} : ∀ {es : List QtEntry} {p len fuel c k : Nat} {qt : Vector QTable 4},
    (∀ e' ∈ es ++ [e], qtEntryLegal e') → c + (es.flatMap qtEntryBytes).length < len → es.length < fuel →
    inputEndsIn s p (es.flatMap qtEntryBytes ++ qtEntryBytes e) k → dqtLoop s len fuel c qt p = .error .sTruncated
  | [], p, len, fuel + 1, c, k, qt, hl, hc, _, hb => dqtLoop_short_entry (hl e (by simp)) (by simpa using hc) hb
  | e0 :: es, p, len, fuel + 1, c, k, qt, hl, hc, hf, hb => by
    rw [List.flatMap_cons, List.length_append] at hc
    rw [List.flatMap_cons, List.append_assoc] at hb
    rcases inputEndsIn_append hb with h1 | ⟨h1, h2⟩
    · exact dqtLoop_short_entry (hl e0 (by simp)) (by omega) h1
    · rw [dqtLoop_entry (hl e0 (by simp)) (by omega) h1]
      exact dqtLoop_short (fun e' h => hl e' (List.mem_cons_of_mem _ h)) (by omega) (by simpa using hf) h2

theorem dhtLoop_short_entry {e : HtEntry} (h : htEntryLegal e) {len fuel c k : Nat} {dc ac : Vector HTable 4} (hc : c < len)
    (hb : inputEndsIn s p (htEntryBytes e) k) : dhtLoop s len (fuel + 1) c dc ac p = .error .sTruncated := by
  obtain ⟨e1, e2⟩ := nibbles_rsByte e.cls e.id
  obtain ⟨h1, h2, h3, h4, h5⟩ := h
  rw [dhtLoop, if_neg (Nat.not_le.mpr hc)]
  rcases inputEndsIn_cons hb with h0 | ⟨h0, h6⟩
  · rw [inByte_end h0]; rfl
  · simp only [inByte_at h0, bind, Except.bind, e1, e2, raiseIf, decide_eq_true_eq, if_neg (Nat.not_lt.mpr h1),
      if_neg (Nat.not_lt.mpr h2)]
    rcases inputEndsIn_append h6 with h7 | ⟨h7, h8⟩
    · have := inputEndsIn_lt h7
      rw [h3] at this
      rw [inBytes_end this (by decide)]
    · have hc := inBytes_at h7
      rw [h3] at hc
      have := inputEndsIn_lt h8
      rw [h3] at this
      have h9 : 0 < e.syms.length := by have := h8.1; omega
      simp only [hc, h4, if_neg (Nat.not_lt.mpr h5), inBytes_end this h9]

theorem dhtLoop_short {e : HtEntry} : ∀ {es : List HtEntry} {p len fuel c k : Nat} {dc ac : Vector HTable 4},
    (∀ e' ∈ es ++ [e], htEntryLegal e') → c + (es.flatMap htEntryBytes).length < len → es.length < fuel →
    inputEndsIn s p (es.flatMap htEntryBytes ++ htEntryBytes e) k → dhtLoop s len fuel c dc ac p = .error .sTruncated
  | [], p, len, fuel + 1, c, k, dc, ac, hl, hc, _, hb => dhtLoop_short_entry (hl e (by simp)) (by simpa using hc) hb
  | e0 :: es, p, len, fuel + 1, c, k, dc, ac, hl, hc, hf, hb => by
    rw [List.flatMap_cons, List.length_append] at hc
    rw [List.flatMap_cons, List.append_assoc] at hb
    rcases inputEndsIn_append hb with h1 | ⟨h1, h2⟩
    · exact dhtLoop_short_entry (hl e0 (by simp)) (by omega) h1
    · rw [dhtLoop_entry (hl e0 (by simp)) (by omega) h1]
      exact dhtLoop_short (fun e' h => hl e' (List.mem_cons_of_mem _ h)) (by omega) (by simpa using hf) h2

/-! ### SOF0 -/

theorem frameEntry_short {e : SofEntry} {nf k : Nat} {first zb : Bool} {seen : List Nat} (hf : sofFieldsLegal e)
    (hid : idPasses nf seen (frameId (zb || (first && e.id == 0)) e)) (hb : inputEndsIn s p (sofEntryBytes e) k) :
    frameEntry s nf first zb seen p = .error .sTruncated := by
  obtain ⟨h1, h2, h3, h4, h5⟩ := hf
  obtain ⟨hid1, hid2⟩ := hid
  obtain ⟨n1, n2⟩ := nibbles_rsByte e.h e.v
  unfold frameEntry
  rcases inputEndsIn_cons hb with b | ⟨b0, hb⟩
  · rw [inByte_end b]; rfl
  simp only [inByte_at b0, bind, Except.bind]
  generalize hz : (zb || (first && e.id == 0)) = z at hid1 hid2 ⊢
  have hfid : e.id.toNat + z.toNat = frameId z e := rfl
  have c1 : (nf == 3 && (frameId z e == 4 || frameId z e == 5)) = false := by
    by_cases h : nf = 3
    · have := hid1 h; simp [h]; omega
    · simp [h]
  have c2 : (nf == 3 && !(frameId z e == 1 || frameId z e == 2 || frameId z e == 3)) = false := by
    by_cases h : nf = 3
    · have := hid1 h; simp [h]; omega
    · simp [h]
  have c3 : seen.contains (frameId z e) = false := by simpa using hid2
  have c4 : (!(factorLegal e.h && factorLegal e.v)) = false := by
    simp [(factorLegal_iff e.h).mpr ⟨h1, h2⟩, (factorLegal_iff e.v).mpr ⟨h3, h4⟩]
  simp only [hfid, c1, c2, c3, raiseIf, Bool.false_eq_true, if_false]
  rcases inputEndsIn_cons hb with b | ⟨b1, hb⟩
  · rw [inByte_end b]
  simp only [inByte_at b1, n1, n2, c4, Bool.false_eq_true, if_false]
  rw [inByte_end]
  have := inputEndsIn_lt hb; simp at this; omega

theorem frameEntries_short_rest : ∀ {es : List SofEntry} {nf p k : Nat} {zb : Bool} {seen : List Nat},
    (∀ e ∈ es, sofFieldsLegal e) → (es.map (frameId zb)).Nodup → (∀ e ∈ es, idPasses nf seen (frameId zb e)) →
    inputEndsIn s p (es.flatMap sofEntryBytes) k → frameEntries s nf es.length false zb seen p = .error .sTruncated
  | [], _, _, _, _, _, _, _, _, hb => absurd hb.1 (by simp)
  | e :: es, nf, p, k, zb, seen, hf, hn, hi, hb => by
    rw [List.flatMap_cons] at hb
    have hz : (zb || (false && e.id == 0)) = zb := by simp
    rw [List.length_cons, frameEntries]
    rcases inputEndsIn_append hb with h1 | ⟨h1, h2 : inputEndsIn s (p + 3) _ _⟩
    · rw [frameEntry_short (hf e (by simp)) (by rw [hz]; exact hi e (by simp)) h1]; rfl
    · rw [frameEntry_at (hf e (by simp)) (by rw [hz]; exact hi e (by simp)) h1, hz]
      rw [List.map_cons, List.nodup_cons] at hn
      simp only [bind, Except.bind, compOf_id]
      rw [frameEntries_short_rest (fun e' h => hf e' (List.mem_cons_of_mem _ h)) hn.2 _ h2]
      intro e' he'
      obtain ⟨i1, i2⟩ := hi e' (List.mem_cons_of_mem _ he')
      refine ⟨i1, fun hm => ?_⟩
      rcases List.mem_cons.mp hm with h | h
      · exact hn.1 (h ▸ List.mem_map_of_mem he')
      · exact i2 h

theorem frameEntries_short {es : List SofEntry} {nf k : Nat} (hp : sofEntriesPass nf es)
    (hb : inputEndsIn s p (es.flatMap sofEntryBytes) k) : frameEntries s nf es.length true false [] p = .error .sTruncated := by
  obtain ⟨hf, hn, hi⟩ := hp
  cases es with
  | nil => exact absurd hb.1 (by simp)
  | cons e es =>
    rw [List.flatMap_cons] at hb
    have hz : (false || (true && e.id == 0)) = zeroBasedIds (e :: es) := by simp [zeroBasedIds]
    have hid : ∀ e' ∈ e :: es, ∀ seen, frameId (zeroBasedIds (e :: es)) e' ∉ seen →
        idPasses nf seen (frameId (zeroBasedIds (e :: es)) e') := fun e' he' seen h => ⟨fun h3 => hi h3 e' he', h⟩
    rw [List.length_cons, frameEntries]
    rcases inputEndsIn_append hb with h1 | ⟨h1, h2 : inputEndsIn s (p + 3) _ _⟩
    · rw [frameEntry_short (hf e (by simp)) (by rw [hz]; exact hid e (by simp) [] (by simp)) h1]; rfl
    · rw [frameEntry_at (hf e (by simp)) (by rw [hz]; exact hid e (by simp) [] (by simp)) h1, hz]
      rw [List.map_cons, List.nodup_cons] at hn
      simp only [bind, Except.bind, compOf_id]
      rw [frameEntries_short_rest (fun e' h => hf e' (List.mem_cons_of_mem _ h)) hn.2 _ h2]
      intro e' he'
      refine hid e' (List.mem_cons_of_mem _ he') _ fun hm => ?_
      simp only [List.mem_singleton] at hm
      exact hn.1 (hm ▸ List.mem_map_of_mem he')

/-! ### SOS -/

theorem findComp_isSome {e : SosEntry} {comp : Vector Comp 3} (hc : ∀ i : Fin 3, comp[i].id = s.comp[i].id)
    (h : scanIdInFrame s e) : ∃ i, findComp s comp (scanId s e) = some i := by
  rw [findComp_ids (comp := s.comp) hc]
  obtain ⟨i, h1, h2⟩ := h
  cases hf : findComp s s.comp (scanId s e) with
  | some j => exact ⟨j, rfl⟩
  | none =>
    unfold findComp at hf
    have := List.find?_eq_none.mp hf i (List.mem_finRange i)
    simp only [h1, decide_true, Bool.true_and, beq_iff_eq] at this
    exact absurd h2 this

/-- A reference that passes is one pass of the loop. -/
theorem scanEntries_step {e : SosEntry} {left : Nat} {seen : List Nat} {comp : Vector Comp 3}
    (hc : ∀ i : Fin 3, comp[i].id = s.comp[i].id) (h : scanIdInFrame s e) (ht : e.td.toNat ≤ 3 ∧ e.ta.toNat ≤ 3)
    (hs : scanId s e ∉ seen) (hb : inputAt s p (sosEntryBytes e)) :
    ∃ i, scanEntries s (left + 1) seen comp p =
      (scanEntries s left (scanId s e :: seen) (setScanComp comp i e) (p + 2)).map fun r => (i :: r.1, r.2) := by
  obtain ⟨i, hf⟩ := findComp_isSome hc h
  refine ⟨i, ?_⟩
  have b := inputAt_cons hb
  obtain ⟨n1, n2⟩ := nibbles_rsByte e.td e.ta
  have hr : (decide (3 < e.td.toNat) || decide (3 < e.ta.toNat)) = false := by simp; omega
  have hns : seen.contains (scanId s e) = false := by simpa using hs
  unfold scanId at hf hns
  rw [scanEntries]
  simp only [inByte_at b.1, bind, Except.bind, hf, hns, inByte_at b.2, n1, n2, raiseIf, hr, Bool.false_eq_true, if_false]
  have hset : comp.set i.val { comp[i] with td := Fin.ofNat 4 e.td.toNat, ta := Fin.ofNat 4 e.ta.toNat } i.isLt =
      setScanComp comp i e := rfl
  rw [hset]
  cases hx : scanEntries s left (scanId s e :: seen) (setScanComp comp i e) (p + 2) <;>
    (unfold scanId at hx; simp only [Nat.add_assoc, Nat.reduceAdd, hx]; rfl)

/-- After references that pass the loop goes on with what is left, in components with the same ids. -/
theorem scanEntries_rest : ∀ {es : List SosEntry} {left p : Nat} {seen : List Nat} {comp : Vector Comp 3},
    (∀ i : Fin 3, comp[i].id = s.comp[i].id) → sosEntriesPass s es → (∀ e ∈ es, scanId s e ∉ seen) →
    inputAt s p (es.flatMap sosEntryBytes) →
    ∃ is comp', (∀ i : Fin 3, comp'[i].id = s.comp[i].id) ∧
      scanEntries s (es.length + left) seen comp p =
        (scanEntries s left ((es.map (scanId s)).reverse ++ seen) comp' (p + 2 * es.length)).map fun r => (is ++ r.1, r.2)
  | [], left, p, seen, comp, hc, _, _, _ =>
    ⟨[], comp, hc, by cases h : scanEntries s left seen comp p <;> simp [h, Except.map]⟩
  | e :: es, left, p, seen, comp, hc, hp, hs, hb => by
    obtain ⟨h1, h2⟩ := hp
    rw [List.map_cons, List.nodup_cons] at h2
    rw [List.flatMap_cons] at hb
    obtain ⟨b1, b2⟩ := inputAt_append.mp hb
    have he := h1 e (List.mem_cons_self ..)
    obtain ⟨i, hi⟩ := scanEntries_step (left := es.length + left) hc he.1 he.2 (hs e (List.mem_cons_self ..)) b1
    obtain ⟨is, comp', h3, h4⟩ := scanEntries_rest (es := es) (left := left) (p := p + 2) (seen := scanId s e :: seen)
      (comp := setScanComp comp i e) (fun j => by rw [setScanComp_id]; exact hc j)
      ⟨fun e' h => h1 e' (List.mem_cons_of_mem _ h), h2.2⟩
      (fun e' he' hm => by
        rcases List.mem_cons.mp hm with h | h
        · exact h2.1 (h ▸ List.mem_map_of_mem he')
        · exact hs e' (List.mem_cons_of_mem _ he') h) b2
    refine ⟨i :: is, comp', h3, ?_⟩
    rw [show (e :: es).length + left = es.length + left + 1 by simp only [List.length_cons]; omega, hi, h4]
    rw [show p + 2 + 2 * es.length = p + 2 * (e :: es).length by simp only [List.length_cons]; omega]
    simp only [List.map_cons, List.reverse_cons, List.append_assoc, List.singleton_append]
    cases scanEntries s left ((es.map (scanId s)).reverse ++ scanId s e :: seen) comp' (p + 2 * (e :: es).length) <;> rfl

theorem scanEntries_short : ∀ {es : List SosEntry} {p k : Nat} {seen : List Nat} {comp : Vector Comp 3},
    (∀ i : Fin 3, comp[i].id = s.comp[i].id) → sosEntriesPass s es → (∀ e ∈ es, scanId s e ∉ seen) →
    inputEndsIn s p (es.flatMap sosEntryBytes) k → scanEntries s es.length seen comp p = .error .sTruncated
  | [], _, _, _, _, _, _, _, hb => absurd hb.1 (by simp)
  | e :: es, p, k, seen, comp, hc, hp, hs, hb => by
    obtain ⟨h1, h2⟩ := hp
    rw [List.map_cons, List.nodup_cons] at h2
    rw [List.flatMap_cons] at hb
    have he := h1 e (List.mem_cons_self ..)
    rcases inputEndsIn_append hb with b | ⟨b1, b2 : inputEndsIn s (p + 2) _ _⟩
    · rw [List.length_cons, scanEntries]
      rcases inputEndsIn_cons b with b | ⟨b0, b⟩
      · rw [inByte_end b]; rfl
      obtain ⟨i, hf⟩ := findComp_isSome hc he.1
      have hns : seen.contains (scanId s e) = false := by simpa using hs e (List.mem_cons_self ..)
      unfold scanId at hf hns
      have hlt := inputEndsIn_lt b
      simp only [inByte_at b0, bind, Except.bind, hf, hns, raiseIf, Bool.false_eq_true, if_false]
      rw [inByte_end (by simp at hlt; omega)]
    · obtain ⟨i, hi⟩ := scanEntries_step (left := es.length) hc he.1 he.2 (hs e (List.mem_cons_self ..)) b1
      rw [List.length_cons, hi, scanEntries_short (fun j => by rw [setScanComp_id]; exact hc j)
        ⟨fun e' h => h1 e' (List.mem_cons_of_mem _ h), h2.2⟩ _ b2]
      · rfl
      · intro e' he' hm
        rcases List.mem_cons.mp hm with h | h
        · exact h2.1 (h ▸ List.mem_map_of_mem he')
        · exact hs e' (List.mem_cons_of_mem _ he') h

end Sys2Proof.Machine
end

