-- ==== Sys2Proof/Tests/Slice0.lean ====
section
/-! SUPPORT. The model's own tests: ill-formed terms the checks refuse, one word of each constructor written out from
30_encoding.md, single steps with the values of 95_test_vectors.md, and for each statement with hypotheses
states and operands that meet them. -/

namespace Sys2Proof.Tests

open Sys2Proof Sys2Proof.Machine

/-! ### WellFormed refuses an ill-formed term of each check -/

theorem test_wf_res_low : wellFormed (.res 0x01) = false := by decide
theorem test_wf_res_high : wellFormed (.res 0xC0) = false := by decide
theorem test_wf_jpgn : wellFormed (.jpgn 14) = false := by decide
theorem test_wf_notMarker : wellFormed (.notMarker 0xFF) = false := by decide
theorem test_wf_ecsData : wellFormed (.ecsData 0xFF) = false := by decide
theorem test_wf_ecsBadMarker_stuffed : wellFormed (.ecsBadMarker 0x00) = false := by decide
theorem test_wf_ecsBadMarker_rst : wellFormed (.ecsBadMarker 0xD7) = false := by decide
theorem test_wf_ecsBadMarker_eoi : wellFormed (.ecsBadMarker 0xD9) = false := by decide
theorem test_wf_ecsBadMarker_fill : wellFormed (.ecsBadMarker 0xFF) = false := by decide
theorem test_wf_dcCat_zero : wellFormed (.dcCat 0) = false := by decide
theorem test_wf_dcCat_high : wellFormed (.dcCat 12) = false := by decide
theorem test_wf_dcBad : wellFormed (.dcBad 11) = false := by decide
theorem test_wf_acRun_zero : wellFormed (.acRun 0) = false := by decide
theorem test_wf_acRun_zrl : wellFormed (.acRun 15) = false := by decide
theorem test_wf_acCoef_zero : wellFormed (.acCoef 3 0) = false := by decide
theorem test_wf_acCoef_high : wellFormed (.acCoef 3 11) = false := by decide
theorem test_wf_acBad : wellFormed (.acBad 3 10) = false := by decide
theorem test_wf_acRunOverflow : wellFormed (.acRunOverflow 0x00) = false := by decide
theorem test_wf_read : wellFormed (.read 14) = false := by decide
theorem test_wf_writeCtrl : wellFormed (.writeCtrl 0b011) = false := by decide
theorem test_wf_start : wellFormed (.start 0b110) = false := by decide
theorem test_wf_abort : wellFormed (.abort 0b101) = false := by decide
theorem test_wf_setIrqEn : wellFormed (.setIrqEn 0b101) = false := by decide
theorem test_wf_writeReadOnly : wellFormed (.writeReadOnly 4 0) = false := by decide

/-! ### A word of each constructor, bit by bit (30_encoding.md rules R91, R92, R100, R102, R104 and R110) -/

theorem test_decode_nulMarker : decode .header (.bytes [0b11111111, 0b00000000]) = .ok .nulMarker 2 := by decide
theorem test_decode_tem : decode .header (.bytes [0b11111111, 0b00000001]) = .ok .tem 2 := by decide
theorem test_decode_res : decode .header (.bytes [0b11111111, 0b10111111]) = .ok (.res 0xBF) 2 := by decide
theorem test_decode_sof0 : decode .header (.bytes [0b11111111, 0b11000000]) = .ok .sof0 2 := by decide
theorem test_decode_sof1 : decode .header (.bytes [0b11111111, 0b11000001]) = .ok .sof1 2 := by decide
theorem test_decode_sof2 : decode .header (.bytes [0b11111111, 0b11000010]) = .ok .sof2 2 := by decide
theorem test_decode_sof3 : decode .header (.bytes [0b11111111, 0b11000011]) = .ok .sof3 2 := by decide
theorem test_decode_sof5 : decode .header (.bytes [0b11111111, 0b11000101]) = .ok .sof5 2 := by decide
theorem test_decode_sof6 : decode .header (.bytes [0b11111111, 0b11000110]) = .ok .sof6 2 := by decide
theorem test_decode_sof7 : decode .header (.bytes [0b11111111, 0b11000111]) = .ok .sof7 2 := by decide
theorem test_decode_jpg : decode .header (.bytes [0b11111111, 0b11001000]) = .ok .jpg 2 := by decide
theorem test_decode_sof9 : decode .header (.bytes [0b11111111, 0b11001001]) = .ok .sof9 2 := by decide
theorem test_decode_sof10 : decode .header (.bytes [0b11111111, 0b11001010]) = .ok .sof10 2 := by decide
theorem test_decode_sof11 : decode .header (.bytes [0b11111111, 0b11001011]) = .ok .sof11 2 := by decide
theorem test_decode_sof13 : decode .header (.bytes [0b11111111, 0b11001101]) = .ok .sof13 2 := by decide
theorem test_decode_sof14 : decode .header (.bytes [0b11111111, 0b11001110]) = .ok .sof14 2 := by decide
theorem test_decode_sof15 : decode .header (.bytes [0b11111111, 0b11001111]) = .ok .sof15 2 := by decide
theorem test_decode_dht : decode .header (.bytes [0b11111111, 0b11000100]) = .ok .dht 2 := by decide
theorem test_decode_dac : decode .header (.bytes [0b11111111, 0b11001100]) = .ok .dac 2 := by decide
theorem test_decode_rstnHeader : decode .header (.bytes [0b11111111, 0b11010101]) = .ok (.rstnHeader 5) 2 := by decide
theorem test_decode_soiEmbedded : decode .header (.bytes [0b11111111, 0b11011000]) = .ok .soiEmbedded 2 := by decide
theorem test_decode_eoiHeader : decode .header (.bytes [0b11111111, 0b11011001]) = .ok .eoiHeader 2 := by decide
theorem test_decode_sos : decode .header (.bytes [0b11111111, 0b11011010]) = .ok .sos 2 := by decide
theorem test_decode_dqt : decode .header (.bytes [0b11111111, 0b11011011]) = .ok .dqt 2 := by decide
theorem test_decode_dnl : decode .header (.bytes [0b11111111, 0b11011100]) = .ok .dnl 2 := by decide
theorem test_decode_dri : decode .header (.bytes [0b11111111, 0b11011101]) = .ok .dri 2 := by decide
theorem test_decode_dhp : decode .header (.bytes [0b11111111, 0b11011110]) = .ok .dhp 2 := by decide
theorem test_decode_exp : decode .header (.bytes [0b11111111, 0b11011111]) = .ok .exp 2 := by decide
theorem test_decode_appn : decode .header (.bytes [0b11111111, 0b11101101]) = .ok (.appn 13) 2 := by decide
theorem test_decode_jpgn : decode .header (.bytes [0b11111111, 0b11111101]) = .ok (.jpgn 13) 2 := by decide
theorem test_decode_com : decode .header (.bytes [0b11111111, 0b11111110]) = .ok .com 2 := by decide
theorem test_decode_fill : decode .header (.bytes [0b11111111, 0b11111111]) = .ok .fill 1 := by decide
theorem test_decode_notMarker : decode .header (.bytes [0b11111110]) = .ok (.notMarker 0xFE) 1 := by decide
theorem test_decode_soi : decode .start (.bytes [0b11111111, 0b11011000]) = .ok .soi 2 := by decide
theorem test_decode_ecsData : decode .ecs (.bytes [0b01101111]) = .ok (.ecsData 0x6F) 1 := by decide
theorem test_decode_ecsStuffedFf : decode .ecs (.bytes [0b11111111, 0b00000000]) = .ok .ecsStuffedFf 2 := by decide
theorem test_decode_ecsRstn : decode .ecs (.bytes [0b11111111, 0b11010100]) = .ok (.ecsRstn 4) 2 := by decide
theorem test_decode_ecsEoi : decode .ecs (.bytes [0b11111111, 0b11011001]) = .ok .ecsEoi 2 := by decide
theorem test_decode_ecsFill : decode .ecs (.bytes [0b11111111, 0b11111111]) = .ok .ecsFill 1 := by decide
theorem test_decode_ecsBadMarker : decode .ecs (.bytes [0b11111111, 0b11000100]) = .ok (.ecsBadMarker 0xC4) 2 := by decide
theorem test_decode_dcCat0 : decode .dc (.bytes [0b00000000]) = .ok .dcCat0 1 := by decide
theorem test_decode_dcCat : decode .dc (.bytes [0b00001011]) = .ok (.dcCat 11) 1 := by decide
theorem test_decode_dcBad : decode .dc (.bytes [0b00001100]) = .ok (.dcBad 12) 1 := by decide
theorem test_decode_acEob : decode (.ac 1) (.bytes [0b00000000]) = .ok .acEob 1 := by decide
theorem test_decode_acZrl : decode (.ac 47) (.bytes [0b11110000]) = .ok .acZrl 1 := by decide
theorem test_decode_acRun : decode (.ac 1) (.bytes [0b11100000]) = .ok (.acRun 14) 1 := by decide
theorem test_decode_acCoef : decode (.ac 1) (.bytes [0b11100001]) = .ok (.acCoef 14 1) 1 := by decide
theorem test_decode_acBad : decode (.ac 1) (.bytes [0b00011011]) = .ok (.acBad 1 11) 1 := by decide
theorem test_decode_acRunOverflow : decode (.ac 48) (.bytes [0b11110000]) = .ok (.acRunOverflow 0xF0) 1 := by decide
theorem test_decode_read :
    decode (.host true) (.access ⟨false, 0x30, 4, 0⟩) = .ok (.read 12) 0 := by decide
theorem test_decode_readTableEntry :
    decode (.host false) (.access ⟨false, 0x38, 4, 0⟩) = .ok (.readTableEntry .code) 0 := by decide
theorem test_decode_start :
    decode (.host false) (.access ⟨true, 0x04, 4, 0b101⟩) = .ok (.start 0b101) 0 := by decide
theorem test_decode_abort :
    decode (.host true) (.access ⟨true, 0x04, 4, 0b010⟩) = .ok (.abort 0b010) 0 := by decide
theorem test_decode_setIrqEn :
    decode (.host true) (.access ⟨true, 0x04, 4, 0b100⟩) = .ok (.setIrqEn 0b100) 0 := by decide
theorem test_decode_writeCtrl :
    decode (.host true) (.access ⟨true, 0x04, 4, 0b101⟩) = .ok (.writeCtrl 0b101) 0 := by decide
theorem test_decode_writeConfig :
    decode (.host false) (.access ⟨true, 0x1C, 4, 0x1000⟩) = .ok (.writeConfig .outCap 0x1000) 0 := by decide
theorem test_decode_clearStatus :
    decode (.host false) (.access ⟨true, 0x08, 4, 0b110⟩) = .ok (.clearStatus 0b110) 0 := by decide
theorem test_decode_selectTableEntry :
    decode (.host false) (.access ⟨true, 0x34, 4, 0x0311⟩) = .ok (.selectTableEntry 0x0311) 0 := by decide
theorem test_decode_writeReadOnly :
    decode (.host false) (.access ⟨true, 0xFC, 4, 1⟩) = .ok (.writeReadOnly 63 1) 0 := by decide

/-! ### States the tests start from -/

/-- One value of the state a step answers. -/
def after {α : Type} (o : Out) (f : State → α) : Option α :=
  match o with
  | .next t => some (f t)
  | .fault _ => none
  | .refused _ => none

/-- ERRCODE and PHASE after a step. -/
def errAfter (o : Out) : Option (Nat × Phase) := after o fun t => ((errcodeWord t).toNat, t.phase)

/-- A block whose input buffer at 0x1000 holds `bs`, past SOI, in phase `ph`. -/
def reading (ph : Phase) (bs : List Byte) : State :=
  { State.reset with
    mem := writeBytes [] 0x1000 bs, inBase := 0x1000, inLen := BitVec.ofNat 32 bs.length, outBase := 0x8000
    outCap := 0x1000, phase := ph, soiDone := true }

/-- The component entries of program P3: 4:2:0. -/
def p3Entries : List SofEntry := [⟨1, 2, 2, 0⟩, ⟨2, 1, 1, 0⟩, ⟨3, 1, 1, 0⟩]

/-- `s` after a legal frame header: `es` of size `x` by `y`. -/
def framed (s : State) (x y : Nat) (es : List SofEntry) : State :=
  commitFrame s y x es.length (zeroBasedIds es) (es.map (compOf es.length (zeroBasedIds es)))

/-- A gray frame of size `x` by 8 whose scan header is read. -/
def grayScan (ph : Phase) (bs : List Byte) (x : Nat) : State :=
  { framed (reading ph bs) x 8 [⟨1, 1, 1, 0⟩] with ns := 1, scan := Vector.replicate 3 0 }

/-- Table TB2: 1 code of length 1, 2 of length 2. -/
def tb2 : HTable := buildHt (1 :: 2 :: List.replicate 14 0) [0x00, 0x01, 0x03]

/-- A gray frame past CHECK: TB2 for both classes, every quantizer 2, the entropy buffer `ent`. -/
def grayDecode (ph : Phase) (x : Nat) (ent : List Byte) : State :=
  { grayScan ph (List.replicate 8 0) x with
    qt := Vector.replicate 4 ⟨true, Vector.replicate 64 2⟩
    dcHt := Vector.replicate 4 tb2, acHt := Vector.replicate 4 tb2
    ent := ent, entLen := BitVec.ofNat 32 ent.length, ipos := 8 }

/-- An ENTROPY step inside its one block, at zigzag position `k`, the predictor 7. -/
def inBlock (k : Nat) (ent : List Byte) : State :=
  { grayDecode .entropy 8 ent with
    txn := .mcu ⟨⟨0, 0⟩, Vector.replicate 3 7, [⟨0, 0⟩], k, zeroBlock, []⟩ }

/-- The working registers after a step, and a value of them. -/
def workAfter {α : Type} (o : Out) (f : McuWork → α) : Option α :=
  match o with
  | .next t =>
    match t.txn with
    | .mcu w => some (f w)
    | .marker _ => none
    | .none => none
  | .fault _ => none
  | .refused _ => none

/-! ### Single steps: header markers (values of 95_test_vectors.md section 2.2) -/

/-- SP14. -/
theorem test_nulMarker : errAfter (exec .nulMarker (reading .parse [])) = some (0x0B01, .idle) := by decide
theorem test_res : errAfter (exec (.res 0x02) (reading .parse [])) = some (0x0B01, .idle) := by decide
/-- SP5: TEM has no payload. -/
theorem test_tem : after (step (reading .parse [0xFF, 0x01, 0xFF])) (fun t => (t.ipos, t.txn)) = some (2, .none) := by decide
/-- SP5: a fill byte takes one byte and the marker fetch goes on. -/
theorem test_fill : after (step (reading .parse [0xFF, 0xFF, 0x01])) (fun t => (t.ipos, t.txn)) = some (0, .marker 1) := by
  decide
/-- SP4. -/
theorem test_notMarker : errAfter (step (reading .parse [0x00])) = some (0x0301, .idle) := by decide
/-- P1's first step. -/
theorem test_soi :
    after (step { reading .parse [0xFF, 0xD8] with soiDone := false }) (fun t => (t.ipos, t.soiDone, t.txn)) =
      some (2, true, .none) := by decide
/-- SP2. -/
theorem test_no_soi : errAfter (step { reading .parse [0xFF, 0xD9] with soiDone := false }) = some (0x0101, .idle) := by
  decide
/-- SP3: the input ends where a marker is expected. -/
theorem test_truncated : errAfter (step (reading .parse [])) = some (0x0201, .idle) := by decide
/-- SP11. -/
theorem test_soiEmbedded : errAfter (step (reading .parse [0xFF, 0xD8])) = some (0x0801, .idle) := by decide
/-- SP12. -/
theorem test_eoiHeader : errAfter (step (reading .parse [0xFF, 0xD9])) = some (0x0901, .idle) := by decide
/-- SP13. -/
theorem test_rstnHeader : errAfter (step (reading .parse [0xFF, 0xD3])) = some (0x0A01, .idle) := by decide
/-- SP23. -/
theorem test_dac : errAfter (step (reading .parse [0xFF, 0xCC, 0x00])) = some (0x2102, .idle) := by decide
/-- SP22, and rule R169 for the other types. -/
theorem test_sof2 : errAfter (step (reading .parse [0xFF, 0xC2, 0x00])) = some (0x2002, .idle) := by decide
theorem test_sof1 : errAfter (step (reading .parse [0xFF, 0xC1])) = some (0x2002, .idle) := by decide
theorem test_sof3 : errAfter (step (reading .parse [0xFF, 0xC3])) = some (0x2002, .idle) := by decide
theorem test_sof5 : errAfter (step (reading .parse [0xFF, 0xC5])) = some (0x2002, .idle) := by decide
theorem test_sof6 : errAfter (step (reading .parse [0xFF, 0xC6])) = some (0x2002, .idle) := by decide
theorem test_sof7 : errAfter (step (reading .parse [0xFF, 0xC7])) = some (0x2002, .idle) := by decide
theorem test_jpg : errAfter (step (reading .parse [0xFF, 0xC8])) = some (0x2002, .idle) := by decide
theorem test_sof9 : errAfter (step (reading .parse [0xFF, 0xC9])) = some (0x2002, .idle) := by decide
theorem test_sof10 : errAfter (step (reading .parse [0xFF, 0xCA])) = some (0x2002, .idle) := by decide
theorem test_sof11 : errAfter (step (reading .parse [0xFF, 0xCB])) = some (0x2002, .idle) := by decide
theorem test_sof13 : errAfter (step (reading .parse [0xFF, 0xCD])) = some (0x2002, .idle) := by decide
theorem test_sof14 : errAfter (step (reading .parse [0xFF, 0xCE])) = some (0x2002, .idle) := by decide
theorem test_sof15 : errAfter (step (reading .parse [0xFF, 0xCF])) = some (0x2002, .idle) := by decide
/-- SP5: a COM of 2 payload bytes. -/
theorem test_com :
    after (step (reading .parse [0xFF, 0xFE, 0x00, 0x04, 0x41, 0x42])) (fun t => (t.ipos, t.phase)) = some (6, .parse) := by
  decide
/-- SP50. -/
theorem test_appn_bad_length : errAfter (step (reading .parse [0xFF, 0xE0, 0x00, 0x01])) = some (0x0401, .idle) := by decide
theorem test_appn : after (step (reading .parse [0xFF, 0xEF, 0x00, 0x02])) (·.ipos) = some 4 := by decide
theorem test_jpgn : after (step (reading .parse [0xFF, 0xF0, 0x00, 0x03, 0xFF])) (·.ipos) = some 5 := by decide
theorem test_dnl : after (step (reading .parse [0xFF, 0xDC, 0x00, 0x04, 0x00, 0x08])) (·.ipos) = some 6 := by decide
theorem test_dhp : errAfter (step (reading .parse [0xFF, 0xDE, 0x00, 0x04, 0x00])) = some (0x0201, .idle) := by decide
theorem test_exp : after (step (reading .parse [0xFF, 0xDF, 0x00, 0x02, 0x00])) (·.ipos) = some 4 := by decide
/-- The expansion of `DRI(1)` in section 2.1. -/
theorem test_dri :
    after (step (reading .parse [0xFF, 0xDD, 0x00, 0x04, 0x00, 0x01])) (fun t => (t.ipos, t.frame.restartInterval)) =
      some (6, 1) := by decide
/-- SP6. -/
theorem test_dri_bad_length : errAfter (step (reading .parse [0xFF, 0xDD, 0x00, 0x05, 0x00, 0x01])) = some (0x0401, .idle) := by
  decide
/-- SP36: `qt[2][1]` = 300, `qt[2][8]` = 600, `qt[2][63]` = 18900. -/
theorem test_dqt :
    after (step (reading .parse (segment 0xDB (dqtBytes [⟨true, 2, (List.range 64).map (300 * ·)⟩]))))
      (fun t => (t.ipos, t.qt[2].q[1], t.qt[2].q[8], t.qt[2].q[63])) = some (133, 300, 600, 18900) := by decide +kernel
/-- SP31. -/
theorem test_dqt_bad_id : errAfter (step (reading .parse [0xFF, 0xDB, 0x00, 0x43, 0x07])) = some (0x3003, .idle) := by decide
/-- SP55: one segment, two tables. -/
theorem test_dht :
    after (step (reading .parse (segment 0xC4 (dhtBytes
      [⟨0, 0, 1 :: List.replicate 15 0, [5]⟩, ⟨1, 0, 1 :: List.replicate 15 0, [0]⟩]))))
      (fun t => (t.ipos, t.dcHt[0].symbols, t.acHt[0].symbols, t.dcHt[1].populated)) = some (40, [5], [0], false) := by decide
/-- PR1: the id is checked before the class. -/
theorem test_dht_bad_id : errAfter (step (reading .parse [0xFF, 0xC4, 0x00, 0x14, 0x24])) = some (0x3103, .idle) := by decide
/-- Program P3's frame: IMG_INFO 0x00000227. -/
theorem test_sof0 :
    after (step (reading .parse (segment 0xC0 (sof0Bytes 8 16 16 p3Entries))))
      (fun t => (imgInfoWord t, imgSizeWord t, t.frame.mcuTotal, t.frame.blocksPerMcu)) =
      some (0x00000227, 0x00100010, 1, 6) := by decide
/-- SP24. -/
theorem test_sof0_precision :
    errAfter (step (reading .parse (segment 0xC0 (sof0Bytes 12 8 8 [⟨1, 1, 1, 0⟩])))) = some (0x2202, .idle) := by decide
/-- Program P1's scan header. -/
theorem test_sos :
    after (step (grayScan .parse (segment 0xDA (sosBytes [⟨1, 2, 3⟩] 0 63 0)) 8))
      (fun t => (t.phase, t.ns, t.comp[0].td, t.comp[0].ta, t.ipos)) = some (.extract, 1, 2, 3, 10) := by decide
/-- SP10. -/
theorem test_sos_before_sof :
    errAfter (step (reading .parse (segment 0xDA (sosBytes [⟨1, 0, 0⟩] 0 63 0)))) = some (0x0701, .idle) := by decide

/-! ### Byte forms (41_segment_parser.md rule R171) -/

theorem test_ecsData :
    after (step (grayScan .extract [0x6F] 8)) (fun t => (t.ent, t.entLen, t.ipos)) = some ([0x6F], 1, 1) := by decide
theorem test_ecsStuffedFf :
    after (step (grayScan .extract [0xFF, 0x00] 8)) (fun t => (t.ent, t.entLen, t.ipos)) = some ([0xFF], 1, 2) := by decide
theorem test_ecsRstn :
    after (step (grayScan .extract [0xFF, 0xD0] 8)) (fun t => (t.entLen, t.ipos, t.phase)) = some (0, 2, .extract) := by decide
theorem test_ecsEoi : after (step (grayScan .extract [0xFF, 0xD9] 8)) (fun t => (t.ipos, t.phase)) = some (2, .check) := by
  decide
theorem test_ecsFill : after (step (grayScan .extract [0xFF, 0xFF] 8)) (fun t => (t.entLen, t.txn)) = some (0, .marker 1) := by
  decide
/-- SP19. -/
theorem test_ecsBadMarker : errAfter (step (grayScan .extract [0xFF, 0xC4] 8)) = some (0x1001, .idle) := by decide
/-- AL5: an entropy buffer of no bytes. -/
theorem test_ecsData_full :
    errAfter (step { grayScan .extract [0x6F] 8 with params := { Config.params with entropyCap := 0 } }) =
      some (0x5205, .idle) := by decide

/-! ### Entropy symbols (43_entropy_decoder.md rules R215 to R223) -/

theorem test_dcCat0 : workAfter (exec .dcCat0 (inBlock 0 [])) (fun w => (w.k, w.blk[0], w.pred[0])) = some (1, 7, 7) := by
  decide
/-- Magnitude bits `010` of category 3 are −5 (program P2), added to the predictor 7. -/
theorem test_dcCat :
    workAfter (exec (.dcCat 3) (inBlock 0 [0b01000000])) (fun w => (w.k, w.blk[0], w.pred[0], w.pred[1], w.cur)) =
      some (1, 2, 2, 7, ⟨0, 3⟩) := by decide
theorem test_dcBad : errAfter (exec (.dcBad 12) (inBlock 0 [0])) = some (0x4304, .idle) := by decide
theorem test_acEob : workAfter (exec .acEob (inBlock 5 [])) (fun w => (w.k, w.todo, w.done.length)) = some (0, [], 1) := by
  decide
theorem test_acZrl : workAfter (exec .acZrl (inBlock 47 [])) (·.k) = some 63 := by decide
theorem test_acRun : workAfter (exec (.acRun 14) (inBlock 1 [])) (·.k) = some 15 := by decide
/-- Zigzag position 3 is natural index 16 (section 2.1); the bit 0 of size 1 is −1. -/
theorem test_acCoef :
    workAfter (exec (.acCoef 2 1) (inBlock 1 [0])) (fun w => (w.k, w.blk[16], w.blk[3], w.cur)) =
      some (4, -1, 0, ⟨0, 1⟩) := by decide
/-- Position 63 ends the block. -/
theorem test_acCoef_last :
    workAfter (exec (.acCoef 0 1) (inBlock 63 [0x80])) (fun w => (w.k, w.todo, w.done.map fun x => x.2[63])) =
      some (0, [], [1]) := by decide
theorem test_acBad : errAfter (exec (.acBad 0 11) (inBlock 1 [0])) = some (0x4404, .idle) := by decide
/-- PR5: the run is checked before the size. -/
theorem test_acRunOverflow : errAfter (exec (.acRunOverflow 0xFB) (inBlock 49 [0])) = some (0x4204, .idle) := by decide
/-- A run of 16 from position 48 passes position 63. -/
theorem test_acRunOverflow_zrl : errAfter (exec (.acRunOverflow 0xF0) (inBlock 48 [])) = some (0x4204, .idle) := by decide

/-! ### Host accesses (values of 95_test_vectors.md section 2.9) -/

/-- HI1. -/
theorem test_read : after (exec (.read 0) State.reset) (·.rdata) = some 0x4A504547 := by decide
/-- HI11: the second code of DC table 0 after program P2. -/
theorem test_readTableEntry_code :
    after (exec (.readTableEntry .code) { grayDecode .idle 8 [] with htSel := 0x0100 }) (·.rdata) = some 0x82000002 := by decide
theorem test_readTableEntry_sym :
    after (exec (.readTableEntry .sym) { grayDecode .idle 8 [] with htSel := 0x0200 }) (·.rdata) = some 0x80030003 := by decide
/-- HI6: right after START, BUSY and PHASE 1. -/
theorem test_start : after (exec (.start 1) State.reset) statusWord = some 0x00000011 := by decide
/-- HI9. -/
theorem test_abort :
    after (exec (.abort 2) (reading .parse [])) (fun t => (statusWord t, errcodeWord t)) =
      some (0x00000004, 0x00006006) := by decide
/-- HI4. -/
theorem test_setIrqEn : after (exec (.setIrqEn 4) State.reset) (fun t => (ctrlWord t, statusWord t)) = some (4, 0) := by decide
/-- HI5: ABORT while idle. -/
theorem test_writeCtrl : after (exec (.writeCtrl 2) State.reset) (fun t => (statusWord t, errcodeWord t)) = some (0, 0) := by
  decide
theorem test_writeConfig : after (exec (.writeConfig .inLen 0x8D) State.reset) (·.inLen) = some 0x8D := by decide
/-- HI10. -/
theorem test_writeConfig_busy : after (exec (.writeConfig .inLen 0) (reading .parse [1])) (·.inLen) = some 1 := by decide
/-- HI7: ERRCODE is kept. -/
theorem test_clearStatus :
    after (exec (.clearStatus 4) (raiseError .sNoSoi State.reset)) (fun t => (statusWord t, errcodeWord t)) =
      some (0, 0x00000101) := by decide
/-- HI3. -/
theorem test_selectTableEntry : after (exec (.selectTableEntry 0xFFFFFFFF) State.reset) (·.htSel) = some 0x0000FF31 := by decide
/-- HI2. -/
theorem test_writeReadOnly : after (exec (.writeReadOnly 3 0xFFFFFFFF) State.reset) errcodeWord = some 0 := by decide

/-! ### The later phases (values of 95_test_vectors.md sections 2.6 to 2.8 and 2.10) -/

/-- SP34. -/
theorem test_check_no_qt : errAfter (step (grayScan .check [] 8)) = some (0x3303, .idle) := by decide
/-- AL1 and AL2: 3·8·8 = 192 output bytes. -/
theorem test_check_output : errAfter (step { grayDecode .check 8 [] with outCap := 191 }) = some (0x5005, .idle) := by decide
theorem test_check : after (step { grayDecode .check 8 [] with outCap := 192 }) (·.phase) = some .entropy := by decide
/-- The saturating product of rule R241. -/
theorem test_dequant :
    after (step { grayDecode .dequant 8 [] with
      coef := [⟨0, 0, 0, (zeroBlock.set 0 24).set 1 0x7FFFFFFF⟩] })
      (fun t => (t.phase, (coefRead t.coef 0 0 0)[0], (coefRead t.coef 0 0 0)[1])) = some (.idct, 48, 0x7FFFFFFF) := by decide
/-- F[0] = 12 has the ideal value 1.5, a tie, and gives 2. -/
theorem test_idct_tie : (idctBlock .nearest (zeroBlock.set 0 12))[0] = 2 := by decide
theorem test_color_row : rgbOf 50 (-30) 40 = (234, 159, 124) := by decide
theorem test_gray_clamp : grayOf (-200) = (0, 0, 0) := by decide

/-! ### Table words as the next instruction -/

theorem test_tableWord_decode : decodeTableWord 16 0xFFDA = some .sos ∧ decodeTableWord 8 0x0B = some (.dcCat 11) := by decide
theorem test_tableWord_marker : after (step (State.reset.withFetchWord 16 0xFF01)) (fun t => (t.ipos, t.phase)) = some (2, .parse) := by
  decide
theorem test_tableWord_symbol : workAfter (step (State.reset.withFetchWord 8 0x02)) (fun w => (w.k, w.cur)) = some (1, ⟨0, 3⟩) := by
  decide

/-! ### States and operands that meet the hypotheses of the statements, one for each clause

Each theorem is named after the statement it belongs to. -/

/-- The block moves where nothing is asked of it from outside. -/
theorem turn_of (s : State) (h : s.inputs = []) (ht : s.txn = .none) : blockTurn s = some s := by
  simp [blockTurn, inBlockStep, ht, h]

theorem witness_DecodeReadsEncodedInstruction :
    (wellFormed (.jpgn 13) = true ∧ fits .header (.jpgn 13) = true ∧ encode (.jpgn 13) = .bytes [0xFF, 0xFD]) ∧
    (wellFormed (.writeReadOnly 63 1) = true ∧ fits (.host true) (.writeReadOnly 63 1) = true ∧
      encode (.writeReadOnly 63 1) = .access ⟨true, 252, 4, 1⟩) := by decide

theorem witness_DecodedInstructionReencodes :
    decode .ecs (.bytes [0xFF, 0x01, 0x02]) = .ok (.ecsBadMarker 1) 2 ∧
    decode (.host false) (.access ⟨false, 0xFC, 4, 9⟩) = .ok (.read 63) 0 := by decide

theorem witness_StepRunsParserInstruction :
    (blockTurn { reading .parse [0xFF, 0xD8] with soiDone := false } =
        some { reading .parse [0xFF, 0xD8] with soiDone := false } ∧
      decode .start (.bytes (peekInput { reading .parse [0xFF, 0xD8] with soiDone := false }
        (inPos { reading .parse [0xFF, 0xD8] with soiDone := false }))) = .ok .soi 2) ∧
    (blockTurn (reading .parse [0xFF, 0xFF, 0xFE]) = some (reading .parse [0xFF, 0xFF, 0xFE]) ∧
      decode .header (.bytes (peekInput (reading .parse [0xFF, 0xFF, 0xFE]) (inPos (reading .parse [0xFF, 0xFF, 0xFE])))) =
        .ok .fill 1) ∧
    (blockTurn (reading .extract [0x12]) = some (reading .extract [0x12]) ∧
      decode .ecs (.bytes (peekInput (reading .extract [0x12]) (inPos (reading .extract [0x12])))) =
        .ok (.ecsData 0x12) 1) :=
  ⟨⟨turn_of _ rfl rfl, by decide⟩, ⟨turn_of _ rfl rfl, by decide⟩, ⟨turn_of _ rfl rfl, by decide⟩⟩

theorem witness_StepRunsEntropySymbol :
    (blockTurn (inBlock 0 [0x80]) = some (inBlock 0 [0x80]) ∧ (inBlock 0 [0x80]).phase = .entropy ∧
      tb2 = (inBlock 0 [0x80]).dcHt[(inBlock 0 [0x80]).comp[0].td] ∧
      decodeSymbol (inBlock 0 [0x80]) tb2 ⟨0, 0⟩ = .ok (0x01, ⟨0, 2⟩) ∧ decode .dc (.bytes [0x01]) = .ok (.dcCat 1) 1) ∧
    (blockTurn (inBlock 63 [0x7F]) = some (inBlock 63 [0x7F]) ∧
      decodeSymbol (inBlock 63 [0x7F]) tb2 ⟨0, 0⟩ = .ok (0x00, ⟨0, 1⟩) ∧
      decode (.ac 63) (.bytes [0x00]) = .ok .acEob 1) ∧
    decodeSymbol (inBlock 0 []) tb2 ⟨0, 0⟩ = .error .eEndOfData ∧
    decodeSymbol (inBlock 0 [0xFF, 0xFF]) (buildHt (List.replicate 16 0) []) ⟨0, 0⟩ = .error .eNoCode :=
  ⟨⟨rfl, rfl, by decide, by decide, by decide⟩, ⟨rfl, rfl, by decide⟩, by decide, by decide⟩

/-- A state in which the host makes the access `a` next. -/
def asking (s : State) (a : RegAccess) : State := { s with inputs := [.access a] }

theorem asking_turn (a : RegAccess) : hostTurn (asking State.reset a) = some (.access a, State.reset) := rfl

theorem witness_StepRunsHostAccess :
    (hostTurn (asking State.reset ⟨false, 252, 4, 0⟩) = some (.access ⟨false, 252, 4, 0⟩, State.reset) ∧
      decode (.host (busy State.reset)) (.access ⟨false, 252, 4, 0⟩) = .ok (.read 63) 0) ∧
    (hostTurn (asking State.reset ⟨false, 256, 4, 0⟩) = some (.access ⟨false, 256, 4, 0⟩, State.reset) ∧ 256 ≤ 256) ∧
    (hostTurn (asking State.reset ⟨true, 255, 2, 0⟩) = some (.access ⟨true, 255, 2, 0⟩, State.reset) ∧ 255 < 256 ∧ 2 ≠ 4) ∧
    (hostTurn (asking State.reset ⟨true, 254, 4, 0⟩) = some (.access ⟨true, 254, 4, 0⟩, State.reset) ∧ 254 < 256 ∧
      254 % 4 ≠ 0) :=
  ⟨⟨rfl, by decide⟩, ⟨rfl, by decide⟩, ⟨rfl, by decide⟩, ⟨rfl, by decide⟩⟩

/-- Each clause names its word number, and the last takes all from 16 on. -/
theorem witness_RegisterReadsReturnTheirRules :
    (∀ n < 64, (BitVec.ofNat 6 n).toNat = n) ∧ (13#6).toNat ≠ 14 ∧ (13#6).toNat ≠ 15 ∧ 16 ≤ (16#6).toNat := by decide

/-- The last position of a table, the position after it, and an empty table. -/
theorem witness_TablePortShowsSelectedEntry :
    (tb2.populated = true ∧ 2 < (tb2.offset.toList.getD 16 0).toNat ∧ (tb2.offset.toList.getD 16 0).toNat ≤ 3 ∧
      (0x0210#32).toNat / 256 % 256 = 2 ∧ (0x0310#32).toNat / 256 % 256 = 3 ∧
      ∀ id : Fin 4, (grayDecode .idle 8 []).dcHt[id] = tb2) ∧
    State.reset.dcHt[0].populated = false := by decide +kernel

theorem witness_CtrlWriteFollowsItsBits :
    ((reading .parse []).phase ≠ .idle ∧ (0b101#32).getLsbD 1 = false) ∧
    (State.reset.phase = .idle ∧ (0b110#32).getLsbD 0 = false) ∧
    ((reading .color []).phase ≠ .idle ∧ (0b010#32).getLsbD 1 = true) := by decide

theorem witness_StartBeginsFreshDecode :
    (State.reset.phase = .idle ∧ (1#32).getLsbD 0 = true ∧ ¬outputMeetsWindow State.reset) ∧
    ({ State.reset with outBase := 0xEFFFFFFF, outCap := 2 }.phase = .idle ∧
      outputMeetsWindow { State.reset with outBase := 0xEFFFFFFF, outCap := 2 }) := by
  refine ⟨⟨rfl, by decide, ?_⟩, rfl, 1, 0, by decide, by decide, by decide⟩
  rintro ⟨i, j, h, -⟩
  exact absurd h (Nat.not_lt_zero i)

theorem witness_RegisterWritesFollowTheirRules : State.reset.phase = .idle ∧ (reading .extract []).phase ≠ .idle := by decide

/-! #### Parser -/

theorem witness_StartOfImageCheck :
    (blockTurn { reading .parse [0xFF] with soiDone := false } = some { reading .parse [0xFF] with soiDone := false } ∧
      { reading .parse [0xFF] with soiDone := false }.inLen.toNat < 2) ∧
    inputAt { reading .parse [0xFF, 0xD8] with soiDone := false } 0 [0xFF, 0xD8] ∧
    (inputAt { reading .parse [0xFF, 0xD9] with soiDone := false } 0 [0xFF, 0xD9] ∧
      ¬((0xFF : Byte) = 0xFF ∧ (0xD9 : Byte) = 0xD8)) :=
  ⟨⟨turn_of _ rfl rfl, by decide⟩, ⟨by decide, by decide⟩, ⟨by decide, by decide⟩, by decide⟩

theorem witness_TruncatedInputStopsDecode :
    (blockTurn (reading .parse []) = some (reading .parse []) ∧ (reading .parse []).soiDone = true ∧
      (reading .parse []).inLen.toNat ≤ inPos (reading .parse [])) ∧
    (blockTurn (reading .extract [0xFF]) = some (reading .extract [0xFF]) ∧
      (reading .extract [0xFF]).inLen.toNat = inPos (reading .extract [0xFF]) + 1 ∧
      inputAt (reading .extract [0xFF]) (inPos (reading .extract [0xFF])) [0xFF]) :=
  ⟨⟨turn_of _ rfl rfl, rfl, by decide⟩, turn_of _ rfl rfl, by decide, by decide, by decide⟩

theorem witness_SkippedSegmentMovesOnlyCursor :
    (inputAt (reading .parse (be16 2)) 0 (be16 2) ∧ 0 + 2 ≤ (reading .parse (be16 2)).inLen.toNat) ∧
    (inputAt (reading .parse (be16 1)) 0 (be16 1) ∧ 1 < 2) ∧
    (inputAt (reading .parse (be16 3)) 0 (be16 3) ∧ (reading .parse (be16 3)).inLen.toNat < 0 + 3) ∧
    (reading .parse [0]).inLen.toNat < inPos (reading .parse [0]) + 2 :=
  ⟨⟨⟨by decide, by decide⟩, by decide⟩, ⟨⟨by decide, by decide⟩, by decide⟩, ⟨⟨by decide, by decide⟩, by decide⟩, by decide⟩

theorem witness_DriSetsRestartInterval :
    inputAt (reading .parse (be16 4 ++ be16 65535)) 0 (be16 4 ++ be16 65535) ∧
    (inputAt (reading .parse (be16 5)) 0 (be16 5) ∧ 5 ≠ 4) ∧
    (reading .parse [0]).inLen.toNat < inPos (reading .parse [0]) + 2 ∧
    (inputAt (reading .parse (be16 4)) 0 (be16 4) ∧ (reading .parse (be16 4)).inLen.toNat < 0 + 4) :=
  ⟨⟨by decide, by decide⟩, ⟨⟨by decide, by decide⟩, by decide⟩, by decide, ⟨by decide, by decide⟩, by decide⟩

/-- An 8-bit and a 16-bit table with the greatest values, and ids 0 and 3. -/
def qtEntries : List QtEntry := [⟨false, 0, List.replicate 64 255⟩, ⟨true, 3, List.replicate 64 65535⟩]

theorem qtEntries_legal : ∀ e ∈ qtEntries, qtEntryLegal e := by unfold qtEntryLegal; decide

theorem witness_DqtLoadsTables :
    (∀ e ∈ qtEntries, qtEntryLegal e) ∧ (dqtBytes qtEntries).length < 65536 ∧
      inputAt (reading .parse (dqtBytes qtEntries)) 0 (dqtBytes qtEntries) :=
  ⟨qtEntries_legal, by decide +kernel, by decide +kernel, by decide +kernel⟩

/-- The bytes of a DQT segment of length field `len` that begins with the first of those tables. -/
def dqtPrefix (len : Nat) (more : List Byte) : List Byte :=
  be16 len ++ (qtEntries.take 1).flatMap qtEntryBytes ++ more

theorem witness_DqtErrorsInOrder :
    (inputAt (reading .parse (dqtPrefix 68 [0x24])) 0 (dqtPrefix 68 [0x24]) ∧ (dqtBytes (qtEntries.take 1)).length < 68 ∧
      3 < (0x24 : Byte).toNat % 16) ∧
    (inputAt (reading .parse (dqtPrefix 68 [0x23])) 0 (dqtPrefix 68 [0x23]) ∧ (0x23 : Byte).toNat % 16 ≤ 3 ∧
      1 < (0x23 : Byte).toNat / 16) ∧
    (inputAt (reading .parse (dqtPrefix 66 [])) 0 (dqtPrefix 66 []) ∧
      (∀ es', es'.length < (qtEntries.take 1).length → es' <+: qtEntries.take 1 → (dqtBytes es').length < 66) ∧
      66 < (dqtBytes (qtEntries.take 1)).length) := by
  refine ⟨⟨⟨by decide, by decide +kernel⟩, by decide, by decide⟩, ⟨⟨by decide, by decide +kernel⟩, by decide, by decide⟩,
    ⟨by decide, by decide +kernel⟩, fun es' h _ => ?_, by decide⟩
  have : es' = [] := List.length_eq_zero_iff.mp (by simpa [qtEntries] using h)
  rw [this]; decide

/-- A DC table of one code and an AC table of 162. -/
def htEntries : List HtEntry :=
  [⟨0, 0, 1 :: List.replicate 15 0, [0x0B]⟩, ⟨1, 3, List.replicate 15 0 ++ [162], List.replicate 162 0⟩]

theorem htEntries_legal : ∀ e ∈ htEntries, htEntryLegal e := by unfold htEntryLegal; decide +kernel

theorem witness_DhtLoadsTables :
    (∀ e ∈ htEntries, htEntryLegal e) ∧ (dhtBytes htEntries).length < 65536 ∧
      inputAt (reading .parse (dhtBytes htEntries)) 0 (dhtBytes htEntries) :=
  ⟨htEntries_legal, by decide +kernel, by decide +kernel, by decide +kernel⟩

/-- The bytes of a DHT segment of length field `len` that begins with the first of those tables. -/
def dhtPrefix (len : Nat) (more : List Byte) : List Byte :=
  be16 len ++ (htEntries.take 1).flatMap htEntryBytes ++ more

theorem witness_DhtErrorsInOrder :
    (inputAt (reading .parse (dhtPrefix 21 [0x24])) 0 (dhtPrefix 21 [0x24]) ∧ (dhtBytes (htEntries.take 1)).length < 21 ∧
      3 < (0x24 : Byte).toNat % 16) ∧
    (inputAt (reading .parse (dhtPrefix 21 [0x23])) 0 (dhtPrefix 21 [0x23]) ∧ (0x23 : Byte).toNat % 16 ≤ 3 ∧
      1 < (0x23 : Byte).toNat / 16) ∧
    (inputAt (reading .parse (dhtPrefix 21 (0x13 :: List.replicate 15 0 ++ [163]))) 0
        (dhtPrefix 21 (0x13 :: List.replicate 15 0 ++ [163])) ∧
      (List.replicate 15 0 ++ [163] : List Byte).length = 16 ∧
      162 < ((List.replicate 15 0 ++ [163] : List Byte).map BitVec.toNat).sum ∧ (0x13 : Byte).toNat / 16 ≤ 1) ∧
    (inputAt (reading .parse (dhtPrefix 19 [])) 0 (dhtPrefix 19 []) ∧
      (∀ es', es'.length < (htEntries.take 1).length → es' <+: htEntries.take 1 → (dhtBytes es').length < 19) ∧
      19 < (dhtBytes (htEntries.take 1)).length) := by
  refine ⟨⟨⟨by decide, by decide +kernel⟩, by decide, by decide⟩, ⟨⟨by decide, by decide +kernel⟩, by decide, by decide⟩,
    ⟨⟨by decide, by decide +kernel⟩, by decide, by decide, by decide⟩,
    ⟨by decide, by decide +kernel⟩, fun es' h _ => ?_, by decide⟩
  have : es' = [] := List.length_eq_zero_iff.mp (by simpa [htEntries] using h)
  rw [this]; decide

/-- Program P3's entries with zero-based ids. -/
def zeroEntries : List SofEntry := [⟨0, 2, 1, 3⟩, ⟨1, 1, 1, 0⟩, ⟨2, 1, 1, 0⟩]

theorem zeroEntries_pass : sofEntriesPass 3 zeroEntries := by unfold sofEntriesPass sofFieldsLegal; decide
theorem zeroEntries_profile : profileOf zeroEntries := by unfold profileOf; decide
theorem grayEntry_pass : sofEntriesPass 1 [⟨255, 4, 4, 3⟩] := by unfold sofEntriesPass sofFieldsLegal; decide

theorem witness_Sof0CommitsLegalFrame :
    ((reading .parse (sof0Bytes 8 65535 1 zeroEntries)).frame.seen = false ∧ zeroEntries.length = 3 ∧
      sofEntriesPass zeroEntries.length zeroEntries ∧ profileOf zeroEntries ∧
      inputAt (reading .parse (sof0Bytes 8 65535 1 zeroEntries)) 0 (sof0Bytes 8 65535 1 zeroEntries)) ∧
    (sofEntriesPass 1 [⟨255, 4, 4, 3⟩] ∧
      inputAt (reading .parse (sof0Bytes 8 1 65535 [⟨255, 4, 4, 3⟩])) 0 (sof0Bytes 8 1 65535 [⟨255, 4, 4, 3⟩])) :=
  ⟨⟨rfl, rfl, zeroEntries_pass, zeroEntries_profile, by decide, by decide +kernel⟩, grayEntry_pass, by decide, by decide⟩

/-- The fixed fields of a frame header. -/
def sofHead (len : Nat) (prec : Byte) (more : List Byte) : List Byte := be16 len ++ [prec] ++ more

theorem witness_Sof0HeaderErrorsInOrder :
    (framed State.reset 8 8 zeroEntries).frame.seen = true ∧
    (State.reset.frame.seen = false ∧ inputAt (reading .parse (sofHead 11 12 [])) 0 (sofHead 11 12 []) ∧
      (12 : Byte) ≠ 8) ∧
    (inputAt (reading .parse (sofHead 11 8 (be16 0 ++ be16 8))) 0 (be16 11 ++ [8] ++ be16 0 ++ be16 8) ∧
      inputAt (reading .parse (sofHead 11 8 (be16 8 ++ be16 0))) 0 (be16 11 ++ [8] ++ be16 8 ++ be16 0)) ∧
    (inputAt (reading .parse (sofHead 11 8 (be16 8 ++ be16 8 ++ [4]))) 0 (be16 11 ++ [8] ++ be16 8 ++ be16 8 ++ [4]) ∧
      inputAt (reading .parse (sofHead 11 8 (be16 8 ++ be16 8 ++ [2]))) 0 (be16 11 ++ [8] ++ be16 8 ++ be16 8 ++ [2]) ∧
      inputAt (reading .parse (sofHead 12 8 (be16 8 ++ be16 8 ++ [1]))) 0 (be16 12 ++ [8] ++ be16 8 ++ be16 8 ++ [1]) ∧
      12 ≠ 8 + 3 * (1 : Byte).toNat) :=
  ⟨by decide, ⟨rfl, ⟨by decide, by decide⟩, by decide⟩, ⟨⟨by decide, by decide⟩, ⟨by decide, by decide⟩⟩,
    ⟨by decide, by decide⟩, ⟨by decide, by decide⟩, ⟨by decide, by decide⟩, by decide⟩

/-- A 3-component frame header up to its first component entry. -/
def sof3Head : List Byte := be16 17 ++ [8] ++ be16 8 ++ be16 8 ++ [3]

/-- The input of a frame header of 3 components: the good entries `es`, then the bytes `more`. -/
def sof3 (es : List SofEntry) (more : List Byte) : State := reading .parse (sof3Head ++ es.flatMap sofEntryBytes ++ more)

theorem witness_Sof0ComponentErrorsInOrder :
    (sofEntriesPass 3 (zeroEntries.take 2) ∧ (zeroEntries.take 2).length < 3) ∧
    -- ids 4 and 5; id 6 and, behind a first id 1, id 0; a second id 1; after the zero-based remap, ids 3 and 5
    (inputAt (sof3 [] [5]) 0 (sof3Head ++ [].flatMap sofEntryBytes ++ [5]) ∧
      frameId (zeroBasedIds ([] ++ [⟨5, 1, 1, 0⟩])) ⟨5, 1, 1, 0⟩ = 5 ∧
      inputAt (sof3 (zeroEntries.take 2) [4]) 0 (sof3Head ++ (zeroEntries.take 2).flatMap sofEntryBytes ++ [4]) ∧
      frameId (zeroBasedIds (zeroEntries.take 2 ++ [⟨4, 1, 1, 0⟩])) ⟨4, 1, 1, 0⟩ = 5) ∧
    (inputAt (sof3 [] [6]) 0 (sof3Head ++ [].flatMap sofEntryBytes ++ [6]) ∧
      frameId (zeroBasedIds ([] ++ [⟨6, 1, 1, 0⟩])) ⟨6, 1, 1, 0⟩ = 6 ∧
      inputAt (sof3 [⟨1, 1, 1, 0⟩] [0]) 0 (sof3Head ++ [⟨1, 1, 1, 0⟩].flatMap sofEntryBytes ++ [0]) ∧
      frameId (zeroBasedIds ([⟨1, 1, 1, 0⟩] ++ [⟨0, 1, 1, 0⟩])) ⟨0, 1, 1, 0⟩ = 0) ∧
    (inputAt (sof3 (zeroEntries.take 2) [1]) 0 (sof3Head ++ (zeroEntries.take 2).flatMap sofEntryBytes ++ [1]) ∧
      2 ∈ (zeroEntries.take 2).map (frameId (zeroBasedIds (zeroEntries.take 2)))) ∧
    -- factors 0 and 5, table id 4, a luma factor 4 in the last entry
    (inputAt (sof3 [] (sofEntryBytes ⟨3, 0, 5, 0⟩)) 0 (sof3Head ++ [].flatMap sofEntryBytes ++ sofEntryBytes ⟨3, 0, 5, 0⟩) ∧
      inputAt (sof3 [] (sofEntryBytes ⟨3, 4, 1, 4⟩)) 0 (sof3Head ++ [].flatMap sofEntryBytes ++ sofEntryBytes ⟨3, 4, 1, 4⟩)) ∧
    (inputAt (sof3 (zeroEntries.take 2) (sofEntryBytes ⟨2, 1, 2, 0⟩)) 0
        (sof3Head ++ (zeroEntries.take 2).flatMap sofEntryBytes ++ sofEntryBytes ⟨2, 1, 2, 0⟩) ∧
      sofFieldsLegal ⟨2, 1, 2, 0⟩ ∧ ¬profileOf (zeroEntries.take 2 ++ [⟨2, 1, 2, 0⟩])) := by
  refine ⟨⟨by unfold sofEntriesPass sofFieldsLegal; decide, by decide⟩,
    ⟨⟨by decide, by decide⟩, by decide, ⟨by decide, by decide⟩, by decide⟩,
    ⟨⟨by decide, by decide⟩, by decide, ⟨by decide, by decide⟩, by decide⟩,
    ⟨⟨by decide, by decide⟩, by decide⟩,
    ⟨⟨by decide, by decide⟩, ⟨by decide, by decide⟩⟩,
    ⟨⟨by decide, by decide⟩, by unfold sofFieldsLegal; decide, by unfold profileOf; decide⟩⟩

/-- The frame of those entries, and a scan header in the input. -/
def sosState (bs : List Byte) : State := framed (reading .parse bs) 16 16 zeroEntries

/-- A scan in another order than the frame's. -/
def sosEntries : List SosEntry := [⟨2, 3, 0⟩, ⟨0, 0, 3⟩, ⟨1, 1, 1⟩]

theorem sosState_frame (bs : List Byte) : FrameOk (sosState bs) :=
  { count := .inr rfl, width := by simp [sosState, framed, commitFrame], height := by simp [sosState, framed, commitFrame]
    hmax := .inr rfl, vmax := .inl rfl, gray := fun h => absurd h (by simp [sosState, framed, commitFrame, zeroEntries])
    cols := (by decide : (sosState []).frame.mcuCols.toNat =
      ceilDiv (sosState []).frame.width.toNat (8 * (sosState []).frame.hmax.toNat))
    rows := (by decide : (sosState []).frame.mcuRows.toNat =
      ceilDiv (sosState []).frame.height.toNat (8 * (sosState []).frame.vmax.toNat))
    total := rfl, blocks := rfl
    channels := fun _ => (by decide : ∀ i j : Fin 3, (sosState []).comp[i].ch = (sosState []).comp[j].ch → i = j)
    ids := fun _ => (by decide : ∀ i : Fin 3, (sosState []).comp[i].id.toNat = (sosState []).comp[i].ch.val + 1)
    factors := fun _ => (by decide : ∀ i : Fin 3, if (sosState []).comp[i].ch = 0
      then (sosState []).comp[i].h = (sosState []).frame.hmax ∧ (sosState []).comp[i].v = (sosState []).frame.vmax
      else (sosState []).comp[i].h = 1 ∧ (sosState []).comp[i].v = 1) }

theorem witness_SosBeginsScan :
    (sosState []).frame.seen = true ∧ FrameOk (sosState []) ∧ sosEntries.length = (sosState []).frame.nf.toNat ∧
    ([2, 0, 1] : List (Fin 3)).Nodup ∧
    (∀ j, j < 3 → (([2, 0, 1] : List (Fin 3)).getD j 0).val < (sosState []).frame.nf.toNat ∧
      (sosState []).comp[([2, 0, 1] : List (Fin 3)).getD j 0].id.toNat =
        (sosEntries.getD j ⟨0, 0, 0⟩).id.toNat + (sosState []).frame.zeroBased.toNat ∧
      (sosEntries.getD j ⟨0, 0, 0⟩).td.toNat ≤ 3 ∧ (sosEntries.getD j ⟨0, 0, 0⟩).ta.toNat ≤ 3) ∧
    inputAt (sosState (sosBytes sosEntries 0 63 0)) 0 (sosBytes sosEntries 0 63 0) ∧
    (inputAt (sosState (sosBytes sosEntries 0 62 0)) 0 (sosBytes sosEntries 0 62 0) ∧
      ¬((0 : Byte) = 0 ∧ (62 : Byte) = 63 ∧ (0 : Byte) = 0)) :=
  ⟨rfl, sosState_frame _, rfl, by decide, by decide, ⟨by decide, by decide +kernel⟩, ⟨by decide, by decide +kernel⟩, by decide⟩

theorem witness_SosErrorsInOrder :
    State.reset.frame.seen = false ∧
    (inputAt (sosState (be16 6 ++ [0])) 0 (be16 6 ++ [0]) ∧ inputAt (sosState (be16 14 ++ [4])) 0 (be16 14 ++ [4]) ∧
      (sosState []).frame.nf.toNat < (4 : Byte).toNat) ∧
    (inputAt (sosState (be16 10 ++ [2])) 0 (be16 10 ++ [2]) ∧ (2 : Byte).toNat < (sosState []).frame.nf.toNat) ∧
    (inputAt (sosState (be16 13 ++ [3])) 0 (be16 13 ++ [3]) ∧ 13 ≠ 6 + 2 * (3 : Byte).toNat) ∧
    -- after an entry that passes: an id the frame lacks, the id again, a table id of 4; and as the first entry
    (sosEntriesPass (sosState []) (sosEntries.take 1) ∧ (sosEntries.take 1).length < (3 : Byte).toNat) ∧
    (inputAt (sosState (be16 12 ++ [3] ++ (sosEntries.take 1).flatMap sosEntryBytes ++ [3])) 0
        (be16 12 ++ [3] ++ (sosEntries.take 1).flatMap sosEntryBytes ++ [3]) ∧
      ¬scanIdInFrame (sosState []) ⟨3, 0, 0⟩ ∧
      inputAt (sosState (be16 12 ++ [3] ++ [].flatMap sosEntryBytes ++ [3])) 0 (be16 12 ++ [3] ++ [].flatMap sosEntryBytes ++ [3])) ∧
    (inputAt (sosState (be16 12 ++ [3] ++ (sosEntries.take 1).flatMap sosEntryBytes ++ [2])) 0
        (be16 12 ++ [3] ++ (sosEntries.take 1).flatMap sosEntryBytes ++ [2]) ∧
      scanId (sosState []) ⟨2, 0, 0⟩ ∈ (sosEntries.take 1).map (scanId (sosState []))) ∧
    (inputAt (sosState (be16 12 ++ [3] ++ (sosEntries.take 1).flatMap sosEntryBytes ++ sosEntryBytes ⟨0, 4, 0⟩)) 0
        (be16 12 ++ [3] ++ (sosEntries.take 1).flatMap sosEntryBytes ++ sosEntryBytes ⟨0, 4, 0⟩) ∧
      scanIdInFrame (sosState []) ⟨0, 4, 0⟩ ∧
      scanId (sosState []) ⟨0, 4, 0⟩ ∉ (sosEntries.take 1).map (scanId (sosState [])) ∧ 3 < (4 : BitVec 4).toNat) :=
  ⟨rfl, ⟨⟨by decide, by decide⟩, ⟨by decide, by decide⟩, by decide⟩, ⟨⟨by decide, by decide⟩, by decide⟩,
    ⟨⟨by decide, by decide⟩, by decide⟩, ⟨by unfold sosEntriesPass scanIdInFrame; decide, by decide⟩,
    ⟨⟨by decide, by decide +kernel⟩, by unfold scanIdInFrame; decide, ⟨by decide, by decide +kernel⟩⟩,
    ⟨⟨by decide, by decide +kernel⟩, by decide⟩,
    ⟨⟨by decide, by decide +kernel⟩, by unfold scanIdInFrame; decide, by decide, by decide⟩⟩

/-- A DHT entry with one code, as in SP48. -/
def oneCodeEntry : HtEntry := ⟨0, 0, 1 :: List.replicate 15 0, [0]⟩

/-- SP48's segment, and inputs that end in a length field, in a table entry and in each part of a frame or scan header. -/
theorem witness_TruncatedSegmentsStopDecode :
    ((∀ e ∈ qtEntries.take 1 ++ qtEntries.drop 1, qtEntryLegal e) ∧ (dqtBytes (qtEntries.take 1)).length < 67 + 129 ∧
      inputEndsIn (reading .parse ((be16 (67 + 129) ++ qtEntries.flatMap qtEntryBytes).take 100)) 0
        (be16 (67 + 129) ++ (qtEntries.take 1).flatMap qtEntryBytes ++ qtEntryBytes ⟨true, 3, List.replicate 64 65535⟩) 100) ∧
    ((∀ e ∈ [oneCodeEntry] ++ [oneCodeEntry], htEntryLegal e) ∧ (dhtBytes [oneCodeEntry]).length < 21 ∧
      inputEndsIn (reading .parse (be16 21 ++ htEntryBytes oneCodeEntry ++ [0])) 0
        (be16 21 ++ [oneCodeEntry].flatMap htEntryBytes ++ htEntryBytes oneCodeEntry) 21) ∧
    (State.reset.frame.seen = false ∧
      inputEndsIn (reading .parse (sofHead 99 8 (be16 0 ++ [0]))) 0 (be16 99 ++ [8] ++ be16 0 ++ be16 8 ++ [0]) 6 ∧
      inputEndsIn (reading .parse (sofHead 99 8 (be16 8 ++ be16 8))) 0 (be16 99 ++ [8] ++ be16 8 ++ be16 8 ++ [0]) 7) ∧
    (sofEntriesPass 3 zeroEntries ∧
      inputEndsIn (reading .parse ((sof0Bytes 8 8 8 zeroEntries).take 16)) 0 (sof0Bytes 8 8 8 zeroEntries) 16) ∧
    inputEndsIn (sosState (be16 99)) 0 (be16 99 ++ [0]) 2 ∧
    (sosEntriesPass (sosState []) sosEntries ∧ sosEntries.length = (sosState []).frame.nf.toNat ∧
      inputEndsIn (sosState ((sosBytes sosEntries 0 63 0).take 11)) 0 (sosBytes sosEntries 0 63 0) 11) :=
  ⟨⟨qtEntries_legal, by decide +kernel, by decide +kernel, ⟨by decide +kernel, by decide +kernel⟩, by decide +kernel⟩,
    ⟨by unfold htEntryLegal; decide, by decide, by decide, ⟨by decide, by decide +kernel⟩, by decide⟩,
    ⟨rfl, ⟨by decide, ⟨by decide, by decide +kernel⟩, by decide⟩, by decide, ⟨by decide, by decide +kernel⟩, by decide⟩,
    ⟨zeroEntries_pass, by decide, ⟨by decide, by decide +kernel⟩, by decide⟩,
    ⟨by decide, ⟨by decide, by decide +kernel⟩, by decide⟩,
    by unfold sosEntriesPass scanIdInFrame; decide +kernel, rfl, by decide, ⟨by decide, by decide +kernel⟩, by decide⟩

theorem witness_DataByteAppends :
    ((reading .extract []).entLen.toNat ≠ (reading .extract []).params.entropyCap ∧
      (reading .extract []).entLen.toNat ≤ (reading .extract []).ent.length) ∧
    { reading .extract [] with params := { Config.params with entropyCap := 0 } }.entLen.toNat = 0 := by decide

/-! #### Tables, codes and symbols -/

/-- The counts of TB2. -/
def tb2Counts : List Byte := 1 :: 2 :: List.replicate 14 0

/-- Counts whose 162 codes are of length 16, and whose last position is 161. -/
def longCounts : List Byte := List.replicate 15 0 ++ [162]

theorem witness_BuiltTableFollowsCounts :
    tb2Counts.length = 16 ∧ (tb2Counts.map BitVec.toNat).sum = ([0x00, 0x01, 0x03] : List Byte).length ∧
    (longCounts.length = 16 ∧ (longCounts.map BitVec.toNat).sum = (List.replicate 162 (0 : Byte)).length ∧
      (List.replicate 162 (0 : Byte)).length ≤ 162 ∧ codesUpTo longCounts 15 ≤ 161 ∧ 161 < codesUpTo longCounts (15 + 1)) := by
  decide +kernel

theorem witness_CodesArePrefixFree :
    tb2Counts.length = 16 ∧ (tb2Counts.map BitVec.toNat).sum = 3 ∧ kraftSum tb2Counts = 2 ^ 16 := by decide

/-- The last code word of TB2, `11`, at the last two bits of the buffer. -/
theorem witness_SymbolSearchFindsCodeWord :
    kraftSum tb2Counts ≤ 2 ^ 16 ∧ codeWord (buildHt tb2Counts [0x00, 0x01, 0x03]) 2 = [true, true] ∧
      bitsAt (inBlock 0 [0x03]) ⟨0, 6⟩ (codeWord (buildHt tb2Counts [0x00, 0x01, 0x03]) 2) :=
  ⟨by decide, by decide +kernel, by decide +kernel, by decide +kernel⟩

/-- The one code of length 16 is `0…0`: 16 ones begin with no code word, and 15 bits end before one is complete. -/
theorem witness_SymbolSearchFailures :
    (∀ j, j < 1 → ((buildHt (List.replicate 15 0 ++ [1]) [0]).code.getD j 0).toNat <
        2 ^ ((buildHt (List.replicate 15 0 ++ [1]) [0]).len.getD j 0).toNat →
      ¬(codeWord (buildHt (List.replicate 15 0 ++ [1]) [0]) j <+: List.replicate 16 true)) ∧
    bitsAt (inBlock 0 [0xFF, 0xFF]) ⟨0, 0⟩ (List.replicate 16 true) ∧
    (∀ j, j < 1 → ¬(codeWord (buildHt (List.replicate 15 0 ++ [1]) [0]) j <+: List.replicate 15 false)) ∧
    (bitsAt (inBlock 0 [0x00, 0x00]) ⟨0, 1⟩ (List.replicate 15 false) ∧
      bitPos ⟨0, 1⟩ + (List.replicate 15 false).length = 8 * (inBlock 0 [0x00, 0x00]).entLen.toNat) :=
  ⟨by decide +kernel, ⟨by decide, by decide +kernel⟩, by decide +kernel, ⟨by decide, by decide +kernel⟩, by decide⟩

theorem witness_ReadBitsTakesBitsInOrder :
    bitsAt (inBlock 0 [0xA0]) ⟨0, 0⟩ [true, false, true, false, false, false, false, false] ∧
    8 * (inBlock 0 [0xA0]).entLen.toNat < bitPos ⟨0, 7⟩ + 2 := ⟨⟨by decide, by decide⟩, by decide⟩

theorem witness_ExtendLaw : ([false] : List Bool) ≠ [] ∧ (List.replicate 11 true) ≠ [] := by decide

/-- The working registers of `inBlock`. -/
theorem inBlock_open (k : Nat) (ent : List Byte) :
    (inBlock k ent).txn = .mcu ⟨⟨0, 0⟩, Vector.replicate 3 7, [⟨0, 0⟩], k, zeroBlock, []⟩ := rfl

theorem witness_DcSymbolUpdatesPredictor :
    (bitsAt (inBlock 0 [0xFF, 0xE0]) ⟨0, 0⟩ (List.replicate 11 true) ∧ (11 : Byte).toNat ≤ 11) ∧
    (8 * (inBlock 0 [0xFF]).entLen.toNat < bitPos ⟨0, 0⟩ + (11 : Byte).toNat) ∧ 12 ≤ (12 : Byte).toNat :=
  ⟨⟨⟨by decide, by decide +kernel⟩, by decide⟩, by decide, by decide⟩

theorem witness_CoefficientSymbolPlacesValue :
    (bitsAt (inBlock 1 [0xFF, 0xC0]) ⟨0, 0⟩ (List.replicate 10 true) ∧ 1 + (15 : BitVec 4).toNat < 63) ∧
    (bitsAt (inBlock 48 [0x00]) ⟨0, 0⟩ [false] ∧ 48 + (15 : BitVec 4).toNat = 63) ∧
    8 * (inBlock 1 []).entLen.toNat < bitPos ⟨0, 0⟩ + (1 : BitVec 4).toNat :=
  ⟨⟨⟨by decide, by decide +kernel⟩, by decide⟩, ⟨⟨by decide, by decide⟩, by decide⟩, by decide⟩

theorem witness_AcRunAndSizeErrors :
    ((0xF0 : Byte) ≠ 0 ∧ 63 < 48 + (if (0xF0 : Byte) = 0xF0 then 16 else (0xF0 : Byte).toNat / 16)) ∧
    ((0xF1 : Byte) ≠ 0 ∧ 63 < 49 + (if (0xF1 : Byte) = 0xF0 then 16 else (0xF1 : Byte).toNat / 16)) ∧
    (11 ≤ (11 : BitVec 4).toNat ∧ 48 + (15 : BitVec 4).toNat ≤ 63) ∧ 63 < 50 + (14 : BitVec 4).toNat ∧ 63 < 48 + 16 := by
  decide

theorem witness_SymbolOutsideBlockFaults :
    ∀ w slot rest, State.reset.txn = .mcu w → w.todo = slot :: rest → False := by
  intro w slot rest h
  cases h

/-! #### The later steps -/

/-- A gray frame past CHECK, `x` wide, its `n` MCUs decoded, at work index `k`. -/
def grayWork (ph : Phase) (x : Nat) (n k : Word) : State := { grayDecode ph x [] with mcuDone := n, work := k }

/-- The ENTROPY step of a one-MCU frame with its block decoded. -/
def grayDone : State :=
  { grayDecode .entropy 8 [0x12] with
    txn := .mcu ⟨⟨0, 7⟩, Vector.replicate 3 1, [], 0, zeroBlock, [(⟨0, 0⟩, zeroBlock.set 0 1)]⟩ }

theorem tb2_built : tableBuilt tb2 :=
  ⟨1 :: 2 :: List.replicate 14 0, [0x00, 0x01, 0x03], by decide, by decide, by decide, rfl⟩

theorem grayRows (ph : Phase) (bs : List Byte) (x : Nat) : (grayScan ph bs x).frame.mcuRows.toNat =
    ceilDiv (grayScan ph bs x).frame.height.toNat (8 * (grayScan ph bs x).frame.vmax.toNat) :=
  (by decide : (1#32).toNat = ceilDiv (8#16).toNat (8 * (1#3).toNat))

theorem grayCols (ph : Phase) (bs : List Byte) (x : Nat) (hx : x = 8 ∨ x = 16) :
    (grayScan ph bs x).frame.mcuCols.toNat =
      ceilDiv (grayScan ph bs x).frame.width.toNat (8 * (grayScan ph bs x).frame.hmax.toNat) := by
  rcases hx with rfl | rfl
  · exact (by decide : (1#32).toNat = ceilDiv (8#16).toNat (8 * (1#3).toNat))
  · exact (by decide : (2#32).toNat = ceilDiv (16#16).toNat (8 * (1#3).toNat))

theorem grayFrame (ph : Phase) (bs : List Byte) (x : Nat) (hx : x = 8 ∨ x = 16) : FrameOk (grayScan ph bs x) := by
  rcases hx with rfl | rfl <;>
  exact { count := .inl rfl, width := by simp [grayScan, framed, commitFrame]
          height := by simp [grayScan, framed, commitFrame]
          hmax := .inl rfl, vmax := .inl rfl, gray := fun _ => ⟨rfl, rfl, rfl⟩
          cols := grayCols _ _ _ (by decide), rows := grayRows _ _ _, total := rfl, blocks := rfl
          channels := fun h => absurd h (by simp [grayScan, framed, commitFrame])
          ids := fun h => absurd h (by simp [grayScan, framed, commitFrame])
          factors := fun h => absurd h (by simp [grayScan, framed, commitFrame]) }

theorem grayScan_scanOk (ph : Phase) (bs : List Byte) (x : Nat) : ScanOk (grayScan ph bs x) :=
  { seen := rfl, count := rfl
    live := fun i hi => (by decide : ∀ i ∈ ([0] : List (Fin 3)), i.val < 1) i hi
    distinct := (by decide : ([0] : List (Fin 3)).Nodup) }

theorem gray_tables (t : Fin 4) : (Vector.replicate 4 tb2)[t] = tb2 := by simp

theorem grayChecked (ph : Phase) (x : Nat) (hx : x = 8 ∨ x = 16) (ent : List Byte) : Checked (grayDecode ph x ent) := by
  rcases hx with rfl | rfl
  · exact { tables := ⟨rfl, rfl⟩
            store := (by decide : (1#32).toNat * (1#32).toNat ≤ 2 ^ 26 * 6)
            output := (by decide : 3 * (8#16).toNat * (8#16).toNat ≤ (0x1000#32).toNat) }
  · exact { tables := ⟨rfl, rfl⟩
            store := (by decide : (2#32).toNat * (1#32).toNat ≤ 2 ^ 26 * 6)
            output := (by decide : 3 * (16#16).toNat * (8#16).toNat ≤ (0x1000#32).toNat) }

theorem grayWork_inv (ph : Phase) (hph : ph = .dequant ∨ ph = .idct ∨ ph = .color) (x : Nat) (n k : Word)
    (h : (x = 8 ∧ n = 1 ∧ k = 0) ∨ (x = 16 ∧ n = 2 ∧ k = 0)) : Inv (grayWork ph x n k) := by
  have hx : x = 8 ∨ x = 16 := by omega
  have hf := grayFrame ph (List.replicate 8 0) x hx
  have hs := grayScan_scanOk ph (List.replicate 8 0) x
  have hc := grayChecked ph x hx []
  rcases hph with rfl | rfl | rfl <;> rcases h with ⟨rfl, rfl, rfl⟩ | ⟨rfl, rfl, rfl⟩ <;> exact
  { memory := by decide +kernel
    exclusive := nofun
    running := fun _ => by decide +kernel
    noError := nofun
    listed := .inl (by decide +kernel)
    coded := nofun
    reserved := by decide +kernel
    idle := fun _ => rfl
    parsing := nofun
    consumed := fun _ => by decide +kernel
    buffered := by decide +kernel
    extracted := fun _ => by decide +kernel
    noFrame := nofun
    frame := fun _ => ⟨hf.1, hf.2, hf.3, hf.4, hf.5, hf.6, hf.7, hf.8, hf.9, hf.10, hf.11, hf.12, hf.13⟩
    scan := fun _ => ⟨hs.1, hs.2, hs.3, hs.4⟩
    checked := fun _ => ⟨hc.1, hc.2, hc.3⟩
    decoding := nofun
    working := fun _ => by decide +kernel
    cursor := fun _ => by decide +kernel
    mcu := nofun
    dcTables := fun t _ => (gray_tables t).symm ▸ tb2_built
    acTables := fun t _ => (gray_tables t).symm ▸ tb2_built }

/-- A block past SOI whose cursor stands at the start of the input. -/
theorem reading_inv (bs : List Byte) (soi : Bool) (h : bs = [] ∨ bs = [0xFF, 0xFF]) :
    Inv { reading .parse bs with soiDone := soi } := by
  rcases h with rfl | rfl <;> cases soi <;> exact
  { memory := by decide +kernel
    exclusive := nofun
    running := fun _ => by decide +kernel
    noError := nofun
    listed := .inl (by decide +kernel)
    coded := nofun
    reserved := by decide +kernel
    idle := nofun
    parsing := nofun
    consumed := fun _ => by decide +kernel
    buffered := by decide +kernel
    extracted := fun _ => by decide +kernel
    noFrame := fun _ => rfl
    frame := nofun
    scan := fun h => absurd h (by decide +kernel)
    checked := fun h => absurd h (by decide +kernel)
    decoding := nofun
    working := fun h => absurd h (by decide +kernel)
    cursor := fun h => absurd h (by decide +kernel)
    mcu := nofun
    dcTables := fun t h => absurd h (by revert t; decide +kernel)
    acTables := fun t h => absurd h (by revert t; decide +kernel) }

theorem grayEntropy_inv : Inv (grayDecode .entropy 8 [0x12]) := by
  have hf := grayFrame .entropy (List.replicate 8 0) 8 (.inl rfl)
  have hs := grayScan_scanOk .entropy (List.replicate 8 0) 8
  have hc := grayChecked .entropy 8 (.inl rfl) [0x12]
  exact
  { memory := by decide +kernel
    exclusive := nofun
    running := fun _ => by decide +kernel
    noError := nofun
    listed := .inl (by decide +kernel)
    coded := nofun
    reserved := by decide +kernel
    idle := fun _ => rfl
    parsing := nofun
    consumed := fun _ => by decide +kernel
    buffered := by decide +kernel
    extracted := fun _ => by decide +kernel
    noFrame := nofun
    frame := fun _ => ⟨hf.1, hf.2, hf.3, hf.4, hf.5, hf.6, hf.7, hf.8, hf.9, hf.10, hf.11, hf.12, hf.13⟩
    scan := fun _ => ⟨hs.1, hs.2, hs.3, hs.4⟩
    checked := fun _ => ⟨hc.1, hc.2, hc.3⟩
    decoding := fun _ => by decide +kernel
    working := fun h => absurd h (by decide +kernel)
    cursor := fun _ => by decide +kernel
    mcu := nofun
    dcTables := fun t _ => (gray_tables t).symm ▸ tb2_built
    acTables := fun t _ => (gray_tables t).symm ▸ tb2_built }

/-- That frame inside its ENTROPY step, with the working registers `w`. -/
theorem grayMcu_inv {w : McuWork} (hw : McuOk (grayDecode .entropy 8 [0x12]) w) :
    Inv { grayDecode .entropy 8 [0x12] with txn := .mcu w } := by
  have h := grayEntropy_inv
  have hf := grayFrame .entropy (List.replicate 8 0) 8 (.inl rfl)
  have hs := grayScan_scanOk .entropy (List.replicate 8 0) 8
  have hc := grayChecked .entropy 8 (.inl rfl) [0x12]
  exact
  { memory := h.memory, exclusive := h.exclusive, running := h.running, noError := h.noError, listed := h.listed
    coded := h.coded, reserved := h.reserved, idle := nofun, parsing := nofun, consumed := h.consumed
    buffered := h.buffered, extracted := h.extracted, noFrame := h.noFrame
    frame := fun _ => ⟨hf.1, hf.2, hf.3, hf.4, hf.5, hf.6, hf.7, hf.8, hf.9, hf.10, hf.11, hf.12, hf.13⟩
    scan := fun _ => ⟨hs.1, hs.2, hs.3, hs.4⟩
    checked := fun _ => ⟨hc.1, hc.2, hc.3⟩
    decoding := h.decoding, working := h.working, cursor := h.cursor
    mcu := by rintro _ ⟨⟩; exact ⟨rfl, hw.1, hw.2, hw.3, hw.4, hw.5⟩
    dcTables := h.dcTables, acTables := h.acTables }

theorem grayDone_inv : Inv grayDone :=
  grayMcu_inv ⟨by decide +kernel, by decide, fun _ => rfl, by decide +kernel, fun j _ _ => by simp [zeroBlock]⟩

/-- The same step with its block's DC symbol done. -/
def grayOpen : State :=
  { grayDecode .entropy 8 [0x12] with
    txn := .mcu ⟨⟨0, 3⟩, Vector.replicate 3 1, [⟨0, 0⟩], 1, zeroBlock.set 0 1, []⟩ }

theorem grayOpen_inv : Inv grayOpen :=
  grayMcu_inv ⟨by decide +kernel, by decide, nofun, by decide +kernel, by decide +kernel⟩

/-- An open block of a state with the invariant, and a run to position 63 and one of 16 to it. -/
theorem witness_SymbolsWithoutMagnitudeBits :
    (Inv grayOpen ∧ ∃ w slot rest, grayOpen.txn = .mcu w ∧ w.todo = slot :: rest ∧ w.k ≤ 63) ∧
    47 + 16 ≤ 63 ∧ 49 + (14 : BitVec 4).toNat ≤ 63 :=
  ⟨⟨grayOpen_inv, _, _, _, rfl, rfl, by decide⟩, by decide, by decide⟩

/-- A restart interval of 2: MCU 2 is a boundary and MCU 1 is not, and interval 0 has none. -/
theorem witness_EntropyStepOpens :
    (blockTurn (grayDecode .entropy 8 []) = some (grayDecode .entropy 8 []) ∧
      (grayDecode .entropy 8 []).txn = .none ∧ (grayDecode .entropy 8 []).frame.restartInterval = 0) ∧
    (2#16 ≠ 0 ∧ (2#32).toNat % (2#16).toNat = 0) ∧ (1#32).toNat % (2#16).toNat ≠ 0 :=
  ⟨⟨turn_of _ rfl rfl, rfl, rfl⟩, by decide, by decide⟩

theorem witness_EntropyStepCommits :
    Inv grayDone ∧ blockTurn grayDone = some grayDone ∧ ∃ w, grayDone.txn = .mcu w ∧ w.todo = [] :=
  ⟨grayDone_inv, rfl, _, rfl, rfl⟩

/-- A quantization table missing, a Huffman table missing, a store of 0 blocks, and output buffers of 191 and 192 bytes. -/
theorem witness_CheckStepInOrder :
    (blockTurn (grayScan .check [] 8) = some (grayScan .check [] 8) ∧
      ¬∀ i : Fin 3, i.val < (grayScan .check [] 8).frame.nf.toNat →
        (grayScan .check [] 8).qt[(grayScan .check [] 8).comp[i].tq].populated = true) ∧
    ((∀ i : Fin 3, i.val < (grayDecode .check 8 []).frame.nf.toNat →
        (grayDecode .check 8 []).qt[(grayDecode .check 8 []).comp[i].tq].populated = true) ∧
      State.reset.dcHt[(grayDecode .check 8 []).comp[0].td].populated = false ∧
      ∀ j : Fin 3, j.val < (grayDecode .check 8 []).ns.toNat →
        (grayDecode .check 8 []).dcHt[(grayDecode .check 8 []).comp[(grayDecode .check 8 []).scan[j]].td].populated = true ∧
        (grayDecode .check 8 []).acHt[(grayDecode .check 8 []).comp[(grayDecode .check 8 []).scan[j]].ta].populated = true) ∧
    (0 < (grayDecode .check 8 []).frame.mcuTotal.toNat * (grayDecode .check 8 []).frame.blocksPerMcu.toNat ∧
      (grayDecode .check 8 []).frame.mcuTotal.toNat * (grayDecode .check 8 []).frame.blocksPerMcu.toNat ≤ 1) ∧
    191 < 3 * (grayDecode .check 8 []).frame.width.toNat * (grayDecode .check 8 []).frame.height.toNat ∧
    3 * (grayDecode .check 8 []).frame.width.toNat * (grayDecode .check 8 []).frame.height.toNat ≤ 192 :=
  ⟨⟨turn_of _ rfl rfl, by decide +kernel⟩, by decide +kernel⟩

/-- The last MCU of a frame, and one before it. -/
theorem witness_DequantStepScalesMcu :
    (Inv (grayWork .dequant 8 1 0) ∧ blockTurn (grayWork .dequant 8 1 0) = some (grayWork .dequant 8 1 0) ∧
      (grayWork .dequant 8 1 0).phase = .dequant) ∧
    Inv (grayWork .dequant 16 2 0) ∧ blockTurn (grayWork .dequant 16 2 0) = some (grayWork .dequant 16 2 0) :=
  ⟨⟨grayWork_inv _ (by decide) _ _ _ (by decide), turn_of _ rfl rfl, rfl⟩, grayWork_inv _ (by decide) _ _ _ (by decide),
    turn_of _ rfl rfl⟩

theorem witness_IdctStepTransformsMcu :
    (Inv (grayWork .idct 8 1 0) ∧ blockTurn (grayWork .idct 8 1 0) = some (grayWork .idct 8 1 0) ∧
      (grayWork .idct 8 1 0).phase = .idct) ∧
    Inv (grayWork .idct 16 2 0) ∧ blockTurn (grayWork .idct 16 2 0) = some (grayWork .idct 16 2 0) :=
  ⟨⟨grayWork_inv _ (by decide) _ _ _ (by decide), turn_of _ rfl rfl, rfl⟩, grayWork_inv _ (by decide) _ _ _ (by decide),
    turn_of _ rfl rfl⟩

theorem witness_ColorStepWritesMcuPixels :
    (Inv (grayWork .color 8 1 0) ∧ blockTurn (grayWork .color 8 1 0) = some (grayWork .color 8 1 0) ∧
      (grayWork .color 8 1 0).phase = .color) ∧
    Inv (grayWork .color 16 2 0) ∧ blockTurn (grayWork .color 16 2 0) = some (grayWork .color 16 2 0) :=
  ⟨⟨grayWork_inv _ (by decide) _ _ _ (by decide), turn_of _ rfl rfl, rfl⟩, grayWork_inv _ (by decide) _ _ _ (by decide),
    turn_of _ rfl rfl⟩

/-- Pixels of that step: one inside the image and its last byte, and an address past the raster. -/
theorem witness_ColorStepWritesMcuPixels_pixels :
    (7 < (grayWork .color 8 1 0).frame.width.toNat ∧ 7 < (grayWork .color 8 1 0).frame.height.toNat ∧
      7 / (8 * (grayWork .color 8 1 0).frame.vmax.toNat) * (grayWork .color 8 1 0).frame.mcuCols.toNat +
        7 / (8 * (grayWork .color 8 1 0).frame.hmax.toNat) = (grayWork .color 8 1 0).work.toNat) ∧
    ∀ x < 8, ∀ y < 8, ∀ k < 3, 0x80C0 % 2 ^ 32 ≠ (0x8000 + 3 * (y * 8 + x) + k) % 2 ^ 32 := by decide +kernel

/-- The all-zero block has the ideal value 0. -/
theorem idealSample_zero (i : Fin 64) : idealSample zeroBlock i = 0 := by
  have h : ∀ u v : Fin 8, blockAt zeroBlock (8 * v.val + u.val) = 0 := by decide
  simp [idealSample, h]

theorem witness_ColourAndUpsamplingLaws :
    (framed State.reset 16 16 p3Entries).frame.hmax = 2 ∧ (framed State.reset 16 16 p3Entries).frame.vmax = 2 ∧ 7 < 8 ∧
      1 < 2 := by decide

theorem witness_OnlyRasterBytesAreWritten :
    (∃ t, step { State.reset with inputs := [.memWrite 5 1] } = .next t ∧
      memRead t 5 ≠ memRead { State.reset with inputs := [.memWrite 5 1] } 5) ∧
    ∃ t, step (grayWork .color 8 1 0) = .next t ∧ memRead t 0x80BF ≠ memRead (grayWork .color 8 1 0) 0x80BF :=
  ⟨⟨_, rfl, by decide⟩, _, rfl, by decide +kernel⟩

theorem witness_InstructionsKeepHostSide :
    (∃ t, exec .tem (reading .parse []) = .next t) ∧ (∃ t, exec (.selectTableEntry 1) State.reset = .next t) ∧
      ∃ t, exec (.writeConfig .inBase 1) State.reset = .next t :=
  ⟨⟨_, rfl⟩, ⟨_, rfl⟩, _, rfl⟩

theorem witness_ErrorEntryKeepsEverythingElse :
    (Inv (reading .parse []) ∧ (reading .parse []).err = false ∧ ∃ t, step (reading .parse []) = .next t ∧ t.err = true) ∧
    ∃ t, step (asking (reading .parse []) ⟨true, 4, 4, 6⟩) = .next t ∧ t.err = true ∧ t.irqEn = true :=
  ⟨⟨reading_inv [] true (.inl rfl), rfl, _, rfl, rfl⟩,
    abortDecode { reading .parse [] with irqEn := true }, by rfl, by decide, by decide⟩

theorem witness_OpenBlockStepCommitsNothing :
    Inv (reading .parse [0xFF, 0xFF]) ∧ ∃ t, step (reading .parse [0xFF, 0xFF]) = .next t ∧ t.txn ≠ .none :=
  ⟨reading_inv [0xFF, 0xFF] true (.inr rfl), moveTo 1 (reading .parse [0xFF, 0xFF]), by rfl, by decide⟩

theorem witness_OnlyStartLeavesIdle :
    (blockTurn State.reset = some State.reset ∧ State.reset.phase = .idle) ∧
    ∃ t, step (asking State.reset ⟨true, 4, 4, 1⟩) = .next t ∧ (asking State.reset ⟨true, 4, 4, 1⟩).phase = .idle ∧
      t.phase ≠ .idle :=
  ⟨⟨rfl, rfl⟩, startDecode { State.reset with irqEn := false }, by rfl, rfl, by decide⟩

theorem witness_DoneOnlyAfterLastMcu :
    (grayWork .color 8 1 0).done = false ∧ ∃ t, step (grayWork .color 8 1 0) = .next t ∧ t.done = true :=
  ⟨rfl, _, rfl, by decide +kernel⟩

theorem witness_ResetInputRestoresResetState :
    hostTurn { reading .color [] with inputs := [.reset] } = some (.reset, reading .color []) := rfl

theorem witness_StepKeepsInvariant :
    Inv grayDone ∧ ∃ t, step grayDone = .next t := ⟨grayDone_inv, _, rfl⟩

theorem witness_DecodeEndsWithinBound :
    Inv { reading .parse [] with soiDone := false } ∧ { reading .parse [] with soiDone := false }.phase = .parse ∧
      { reading .parse [] with soiDone := false }.frame.seen = false := ⟨reading_inv [] false (.inl rfl), rfl, rfl⟩

theorem witness_BlockStepsNeverStop : blockTurn (reading .parse []) = some (reading .parse []) := turn_of _ rfl rfl

/-- A block whose only value is F[0] = −8 has the ideal value −1. -/
theorem idealSample_dc (i : Fin 64) : idealSample (zeroBlock.set 0 (-8)) i = -1 := by
  have h0 : blockAt (zeroBlock.set 0 (-8)) 0 = -8 := by decide
  have h : ∀ u v : Fin 8, ¬(u = 0 ∧ v = 0) → blockAt (zeroBlock.set 0 (-8)) (8 * v.val + u.val) = 0 := by decide
  have hs := Real.mul_self_sqrt (show (0 : ℝ) ≤ 2 by norm_num)
  unfold idealSample
  rw [Finset.sum_eq_single (0 : Fin 8) _ (by simp), Finset.sum_eq_single (0 : Fin 8) _ (by simp)]
  · have : ((-8 : S32).toInt : ℝ) = -8 := by norm_num [show (-8 : S32).toInt = -8 by decide]
    simp only [Fin.val_zero, Nat.mul_zero, Nat.add_zero, h0, this, idealScale]
    simp only [if_true, Nat.cast_zero, mul_zero, zero_mul, zero_div, Real.cos_zero, mul_one]
    field_simp
    nlinarith
  · intro v _ hv
    rw [h 0 v (by simp [hv])]; simp
  · intro u _ hu
    apply Finset.sum_eq_zero
    intro v _
    rw [h u v (by simp [hu])]; simp

theorem witness_DefaultIdctRoundsToNearest :
    0 ≤ idealSample zeroBlock 0 ∧ idealSample (zeroBlock.set 0 (-8)) 63 < 0 := by
  rw [idealSample_zero, idealSample_dc]; norm_num

end Sys2Proof.Tests
end

/-! SUPPORT. The Huffman table port (10_state.md rules R44 to R46): which table and position HT_SEL selects, what HT_CODE and
HT_SYM show as numbers, and the statement about both. -/

namespace Sys2Proof.Machine

variable {s : State}

/-! ### The fields of HT_SEL (rule R44) -/

theorem selectedIndex_eq (s : State) : selectedIndex s = s.htSel.toNat / 256 % 256 := by
  rw [selectedIndex, BitVec.extractLsb'_toNat, Nat.shiftRight_eq_div_pow]

/-- CLASS picks the AC or the DC tables, and ID the table among them. -/
theorem selectedHt_eq {id : Fin 4} (hid : id.val = s.htSel.toNat / 16 % 4) :
    selectedHt s = if s.htSel.toNat % 2 = 1 then s.acHt[id] else s.dcHt[id] := by
  have hfield : (s.htSel.extractLsb' 4 2).toFin = id := by
    apply Fin.ext
    rw [hid, BitVec.val_toFin, BitVec.extractLsb'_toNat, Nat.shiftRight_eq_div_pow]
  have hclass : s.htSel.getLsbD 0 = decide (s.htSel.toNat % 2 = 1) := Nat.testBit_zero _
  simp only [selectedHt, hfield, hclass, decide_eq_true_eq]

theorem selectedValid_iff :
    selectedValid s = true ↔ (selectedHt s).populated = true ∧ selectedIndex s < offsetAt (selectedHt s) 16 := by
  simp [selectedValid]

/-! ### HT_CODE (rule R45) -/

theorem htCodeWord_valid (h : selectedValid s = true) :
    (htCodeWord s).toNat = 2 ^ 31 + ((selectedHt s).len.getD (selectedIndex s) 0).toNat * 2 ^ 24 +
      ((selectedHt s).code.getD (selectedIndex s) 0).toNat := by
  simp only [htCodeWord, if_pos h, append_toNat, BitVec.toNat_ofNat]
  omega

theorem htCodeWord_invalid (h : ¬selectedValid s = true) : htCodeWord s = 0 := if_neg h

/-! ### HT_SYM (rule R46) -/

/-- POPULATED and TOTAL of a populated table, over the SYMBOL field. -/
theorem htSymWord_populated (h : (selectedHt s).populated = true) :
    (htSymWord s).toNat = 2 ^ 31 + offsetAt (selectedHt s) 16 * 2 ^ 16 +
      (if selectedValid s then (selectedHt s).symbols.getD (selectedIndex s) 0 else 0#8).toNat := by
  have hcount : offsetAt (selectedHt s) 16 < 256 := BitVec.isLt _
  simp only [htSymWord, h, bit, if_true, append_toNat, BitVec.toNat_ofNat, BitVec.toNat_ofBool, Bool.toNat_true,
    Nat.mod_eq_of_lt hcount]
  omega

theorem htSymWord_unpopulated (h : (selectedHt s).populated = false) : htSymWord s = 0 := by
  simp [htSymWord, selectedValid_iff, h, bit]

/-- Settles O8: the two words are `htCodeWord` and `htSymWord`, and the position is valid, past the count, or in an
unpopulated slot. -/
theorem tablePortShowsSelectedEntry : Obligations.TablePortShowsSelectedEntry := by
  intro s t j ht hj
  obtain rfl : t = selectedHt s :=
    have hid : s.htSel.toNat / 16 % 4 < 4 := Nat.mod_lt _ (by decide)
    (ht ⟨_, hid⟩ rfl).trans (selectedHt_eq (id := ⟨_, hid⟩) rfl).symm
  obtain rfl : j = selectedIndex s := hj.trans (selectedIndex_eq s).symm
  refine ⟨htCodeWord s, htSymWord s, rfl, rfl, fun hp hlt => ?valid, fun hp hle => ?pastCount, fun hp => ?unpopulated⟩
  case valid =>
    have hv : selectedValid s = true := selectedValid_iff.mpr ⟨hp, hlt⟩
    refine ⟨htCodeWord_valid hv, ?_⟩
    rw [htSymWord_populated hp, if_pos hv, offsetAt]
  case pastCount =>
    have hv : ¬selectedValid s = true := fun h => Nat.not_lt.mpr hle (selectedValid_iff.mp h).2
    refine ⟨htCodeWord_invalid hv, ?_⟩
    rw [htSymWord_populated hp, if_neg hv, offsetAt]
    rfl
  case unpopulated =>
    have hv : ¬selectedValid s = true := by simp [selectedValid_iff, hp]
    exact ⟨htCodeWord_invalid hv, htSymWord_unpopulated hp⟩

end Sys2Proof.Machine


/-! SUPPORT. Who writes host memory (20_memory.md rule R72): the block's move in COLOR alone, and there only the pixels of
the image; of the outside world's inputs the host's write alone. -/

namespace Sys2Proof.Machine

variable {s t u : State} {a : Nat}

theorem memRead_congr (h : t.mem = s.mem) : memRead t a = memRead s a := by
  rw [memRead, h, memRead]

/-- Host memory after a move of the block (what each phase answers is `BlockResult`). -/
theorem BlockResult.mem_eq_or_color (h : BlockResult u t) : t.mem = u.mem ∨ u.phase = .color ∧ t = colorStep u := by
  cases h with
  | raised d h => exact .inl (h ▸ raiseError_mem d u)
  | inside h => exact .inl (by rw [h])
  | committed _ _ _ hmem => exact .inl hmem
  | color hphase h => exact .inr ⟨hphase, h⟩

/-- `a` is the address, mod 2^32, of a byte of a pixel of the image (rule R261). -/
def IsRasterByte (u : State) (a : Nat) : Prop :=
  ∃ x y k, x < u.frame.width.toNat ∧ y < u.frame.height.toNat ∧ k < 3 ∧ a % 2 ^ 32 = (pixelAddr u x y + k) % 2 ^ 32

/-- COLOR keeps every byte outside the raster. -/
theorem memRead_colorStep_other (h : ¬IsRasterByte u a) : memRead (colorStep u) a = memRead u a :=
  foldl_convertPixel_other u u.work.toNat (a % 2 ^ 32) (mcuPixels u) u.mem
    fun _ _ hx hy k hk ha => h ⟨_, _, k, hx, hy, hk, ha⟩

/-- A move of the block changes only bytes of the raster, and those in COLOR. -/
theorem fetchBlock_changes_rasterByte (h : runFetched (fetchBlock u) = .next t) (hne : memRead t a ≠ memRead u a) :
    u.phase = .color ∧ IsRasterByte u a := by
  obtain hmem | ⟨hphase, rfl⟩ := (fetchBlock_result h).mem_eq_or_color
  · exact absurd (memRead_congr hmem) hne
  · exact ⟨hphase, not_not.mp fun hout => hne (memRead_colorStep_other hout)⟩

/-- An input of the outside world changes a byte only as the host's write to its address. -/
theorem fetchExternal_changes_writtenByte {e : Input} (hu : u.txn = .none) (he : e ≠ .turn)
    (h : runFetched (fetchExternal e u) = .next t) (hne : memRead t a ≠ memRead u a) :
    ∃ addr b, e = .memWrite addr b ∧ a % 2 ^ 32 = addr.toNat := by
  obtain ⟨-, -, ⟨addr, b, rfl, hmem⟩ | hmem, -⟩ := fetchExternal_next hu he h
  · refine ⟨addr, b, rfl, by_contra fun ha => hne ?_⟩
    have ha : a % 2 ^ 32 ≠ addr.toNat % 2 ^ 32 := by rwa [Nat.mod_eq_of_lt addr.isLt]
    rw [memRead, hmem, read_memWrite_other _ _ ha, memRead]
  · exact absurd (memRead_congr hmem) hne

/-- Settles O49: the step is the block's turn or the outside world's, and each finds the memory of `s`. -/
theorem onlyRasterBytesAreWritten : Obligations.OnlyRasterBytesAreWritten := by
  intro s t a hstep hne
  rcases step_turn s with ⟨u, hturn, hs⟩ | ⟨e, u, hturn, hs⟩
  · have hmem : u.mem = s.mem := by rw [blockTurn_eq hturn]
    rw [← memRead_congr hmem] at hne
    obtain ⟨hphase, x, y, k, hraster⟩ := fetchBlock_changes_rasterByte (hs ▸ hstep) hne
    exact .inr ⟨u, x, y, k, hturn, hphase, hraster⟩
  · obtain ⟨hu, htxn⟩ := hostTurn_eq hturn
    have hmem : u.mem = s.mem := by rw [hu]
    have htxn : u.txn = .none := by rw [hu, htxn]
    rw [← memRead_congr hmem] at hne
    obtain ⟨addr, b, rfl, ha⟩ := fetchExternal_changes_writtenByte htxn (hostTurn_ne hturn) (hs ▸ hstep) hne
    exact .inl ⟨addr, b, u, hturn, ha⟩

end Sys2Proof.Machine


/-! SUPPORT. The decoder and the encoder of single instructions are inverse (30_encoding.md): what the decoder answers on
the words of each context, which word each constructor is read from, and that what is read is the encoding; and the input
that ends inside a word. -/

namespace Sys2Proof.Machine

variable {c : Ctx} {i : Instr} {k n : Nat} {busy : Bool} {v : Word} {w : BitVec 6}

/-! ### What the decoder answers on the words of each context -/

theorem decodeHeader_marker {code : Byte} (h : code ≠ 0xFF) (rest : List Byte) :
    decodeHeader (0xFF :: code :: rest) = .ok (decodeMarkerCode code) 2 := by
  rw [decodeHeader, if_pos rfl]
  exact if_neg h

theorem decodeHeader_notMarker {b : Byte} (h : b ≠ 0xFF) (rest : List Byte) :
    decodeHeader (b :: rest) = .ok (.notMarker b) 1 :=
  if_neg h

theorem decodeEcs_marker {code : Byte} (h : code ≠ 0xFF) (rest : List Byte) :
    decodeEcs (0xFF :: code :: rest) = .ok (decodeEcsCode code) 2 := by
  rw [decodeEcs, if_pos rfl]
  exact if_neg h

theorem decodeEcs_data {b : Byte} (h : b ≠ 0xFF) (rest : List Byte) : decodeEcs (b :: rest) = .ok (.ecsData b) 1 :=
  if_neg h

/-- An aligned 32-bit access of any word number is decoded by its direction. -/
theorem decodeHost_word (busy write : Bool) (w : BitVec 6) (v : Word) :
    decodeHost busy ⟨write, 4 * w.toNat, 4, v⟩ =
      .ok (if write then decodeRegWrite busy w v else decodeRegRead w) 0 := by
  have hw := w.isLt
  have hoff : ¬256 ≤ 4 * w.toNat := by omega
  cases write <;> simp [decodeHost, hoff]

/-- The accesses that are decoded are those, and no other. -/
theorem decodeHost_ok {a : RegAccess} (h : decodeHost busy a = .ok i n) :
    ∃ w : BitVec 6, a = ⟨a.write, 4 * w.toNat, 4, a.value⟩ := by
  obtain ⟨write, off, width, value⟩ := a
  unfold decodeHost at h
  split at h
  · cases h
  split at h
  · cases h
  split at h
  · cases h
  next hoff hwidth halign =>
    refine ⟨BitVec.ofNat 6 (off / 4), ?_⟩
    have hword : 4 * (BitVec.ofNat 6 (off / 4)).toNat = off := by
      simp only [BitVec.toNat_ofNat] at *
      omega
    rw [hword, ← not_not.mp hwidth]

/-! ### AC symbol bytes -/

theorem rsByte_nibbles : ∀ b : Byte, rsByte (hiNibble b) (loNibble b) = b := by decide +kernel

theorem rsByte_eq_iff {r s r' s' : BitVec 4} : rsByte r s = rsByte r' s' ↔ r = r' ∧ s = s' := by
  refine ⟨fun h => ?_, fun ⟨hr, hs⟩ => by rw [hr, hs]⟩
  obtain ⟨hr, hs⟩ := nibbles_rsByte r s
  obtain ⟨hr', hs'⟩ := nibbles_rsByte r' s'
  rw [h] at hr hs
  exact ⟨hr.symm.trans hr', hs.symm.trans hs'⟩

theorem rsByte_eq_zero_iff {r s : BitVec 4} : rsByte r s = 0x00 ↔ r = 0 ∧ s = 0 :=
  rsByte_eq_iff (r' := 0) (s' := 0)

theorem rsByte_eq_zrl_iff {r s : BitVec 4} : rsByte r s = 0xF0 ↔ r = 15 ∧ s = 0 :=
  rsByte_eq_iff (r' := 15) (s' := 0)

/-- An AC symbol byte other than EOB and ZRL, with its run inside the block, is decoded by its size (rule R104). -/
theorem decodeAc_rsByte {r s : BitVec 4} (heob : ¬(r = 0 ∧ s = 0)) (hzrl : ¬(r = 15 ∧ s = 0))
    (hk : k + r.toNat ≤ 63) :
    decodeAc k (rsByte r s) = if s = 0 then .acRun r else if s.toNat ≤ 10 then .acCoef r s else .acBad r s := by
  obtain ⟨hr, hs⟩ := nibbles_rsByte r s
  have hrun : ¬63 < k + runOf (rsByte r s) := by
    rw [runOf, if_neg (rsByte_eq_zrl_iff.not.mpr hzrl), hr]
    omega
  rw [decodeAc, if_neg (rsByte_eq_zero_iff.not.mpr heob), if_neg hrun, if_neg (rsByte_eq_zrl_iff.not.mpr hzrl), hr, hs]

/-! ### Decoding the words of an instruction -/

/-- Decoding the words of `i` in context `c` gives it back, whatever bytes follow. -/
def DecodesBack (c : Ctx) (i : Instr) : Prop :=
  (∀ bs rest, encode i = .bytes bs → decode c (.bytes (bs ++ rest)) = .ok i (instrLen i)) ∧
  (∀ a, encode i = .access a → decode c (.access a) = .ok i 0)

theorem decodesBack_of_bytes {ws : List Byte} (hwords : encode i = .bytes ws)
    (hdec : ∀ rest, decode c (.bytes (ws ++ rest)) = .ok i (instrLen i)) : DecodesBack c i := by
  refine ⟨fun bs rest h => ?_, fun a h => ?_⟩
  · obtain rfl : ws = bs := Code.bytes.inj (hwords.symm.trans h)
    exact hdec rest
  · exact absurd (hwords.symm.trans h) Code.noConfusion

theorem decodesBack_of_access {a : RegAccess} (hwords : encode i = .access a)
    (hdec : decode c (.access a) = .ok i 0) : DecodesBack c i := by
  refine ⟨fun bs rest h => ?_, fun a' h => ?_⟩
  · exact absurd (hwords.symm.trans h) Code.noConfusion
  · obtain rfl : a = a' := Code.access.inj (hwords.symm.trans h)
    exact hdec

theorem decodesBack_marker {code : Byte} (hne : code ≠ 0xFF) (hwords : encode i = markerBytes code)
    (hdec : decodeMarkerCode code = i) (hlen : instrLen i = 2) : DecodesBack .header i :=
  decodesBack_of_bytes hwords fun rest => by rw [hlen, ← hdec]; exact decodeHeader_marker hne rest

theorem decodesBack_ecsMarker {code : Byte} (hne : code ≠ 0xFF) (hwords : encode i = markerBytes code)
    (hdec : decodeEcsCode code = i) (hlen : instrLen i = 2) : DecodesBack .ecs i :=
  decodesBack_of_bytes hwords fun rest => by rw [hlen, ← hdec]; exact decodeEcs_marker hne rest

theorem decodesBack_dcSymbol {s : Byte} (hwords : encode i = .bytes [s]) (hdec : decodeDc s = i)
    (hlen : instrLen i = 1) : DecodesBack .dc i :=
  decodesBack_of_bytes hwords fun rest => by rw [hlen, ← hdec]; rfl

theorem decodesBack_acSymbol {rs : Byte} (hwords : encode i = .bytes [rs]) (hdec : decodeAc k rs = i)
    (hlen : instrLen i = 1) : DecodesBack (.ac k) i :=
  decodesBack_of_bytes hwords fun rest => by rw [hlen, ← hdec]; rfl

theorem decodesBack_write (hwords : encode i = writeAccess w v) (hdec : decodeRegWrite busy w v = i) :
    DecodesBack (.host busy) i :=
  decodesBack_of_access hwords (hdec ▸ decodeHost_word busy true w v)

theorem decodesBack_read (hwords : encode i = readAccess w) (hdec : decodeRegRead w = i) : DecodesBack (.host busy) i :=
  decodesBack_of_access hwords (hdec ▸ decodeHost_word busy false w 0)

/-! ### The word each constructor with operands is read from -/

theorem decodeMarkerCode_res {code : Byte} (h : wellFormed (.res code) = true) : decodeMarkerCode code = .res code := by
  simp only [wellFormed, Bool.and_eq_true, decide_eq_true_eq] at h
  rw [decodeMarkerCode, if_neg (by omega), if_neg (by omega), if_pos h.2]

theorem decodeMarkerCode_rstn :
    ∀ n : BitVec 3, (0b11010#5 ++ n : Byte) ≠ 0xFF ∧ decodeMarkerCode (0b11010#5 ++ n) = .rstnHeader n := by decide

theorem decodeMarkerCode_appn :
    ∀ n : BitVec 4, (0xE#4 ++ n : Byte) ≠ 0xFF ∧ decodeMarkerCode (0xE#4 ++ n) = .appn n := by decide

theorem decodeMarkerCode_jpgn :
    ∀ n : BitVec 4, wellFormed (.jpgn n) = true →
      (0xF#4 ++ n : Byte) ≠ 0xFF ∧ decodeMarkerCode (0xF#4 ++ n) = .jpgn n := by decide

theorem decodeEcsCode_rstn :
    ∀ n : BitVec 3, (0b11010#5 ++ n : Byte) ≠ 0xFF ∧ decodeEcsCode (0b11010#5 ++ n) = .ecsRstn n := by decide

theorem decodeEcsCode_bad {code : Byte} (h : wellFormed (.ecsBadMarker code) = true) :
    code ≠ 0xFF ∧ decodeEcsCode code = .ecsBadMarker code := by
  simp only [wellFormed, Bool.and_eq_true, bne_iff_ne, Bool.not_eq_true', Bool.and_eq_false_iff,
    decide_eq_false_iff_not] at h
  obtain ⟨⟨⟨hstuffed, heoi⟩, hfill⟩, hrst⟩ := h
  exact ⟨hfill, by rw [decodeEcsCode, if_neg hstuffed, if_neg (by omega), if_neg heoi]⟩

theorem decodeDc_cat {s : Byte} (h : wellFormed (.dcCat s) = true) : decodeDc s = .dcCat s := by
  simp only [wellFormed, Bool.and_eq_true, decide_eq_true_eq] at h
  have h0 : s ≠ 0 := by rintro rfl; exact absurd h.1 (by decide)
  rw [decodeDc, if_neg h0, if_pos h.2]

theorem decodeDc_bad {s : Byte} (h : wellFormed (.dcBad s) = true) : decodeDc s = .dcBad s := by
  have h12 : 12 ≤ s.toNat := by simpa [wellFormed] using h
  have h0 : s ≠ 0 := by rintro rfl; exact absurd h12 (by decide)
  rw [decodeDc, if_neg h0, if_neg (by omega)]

theorem decodeAc_zrl (hk : k + 16 ≤ 63) : decodeAc k 0xF0 = .acZrl := by
  have hrun : ¬63 < k + runOf 0xF0 := by
    rw [runOf, if_pos rfl]
    omega
  rw [decodeAc, if_neg (by decide), if_neg hrun, if_pos rfl]

theorem decodeAc_run {r : BitVec 4} (h : wellFormed (.acRun r) = true) (hk : k + r.toNat ≤ 63) :
    decodeAc k (rsByte r 0) = .acRun r := by
  simp only [wellFormed, Bool.and_eq_true, decide_eq_true_eq] at h
  have heob : r ≠ 0 := by rintro rfl; exact absurd h.1 (by decide)
  have hzrl : r ≠ 15 := by rintro rfl; exact absurd h.2 (by decide)
  rw [decodeAc_rsByte (fun h => heob h.1) (fun h => hzrl h.1) hk, if_pos rfl]

theorem decodeAc_coef {r s : BitVec 4} (h : wellFormed (.acCoef r s) = true) (hk : k + r.toNat ≤ 63) :
    decodeAc k (rsByte r s) = .acCoef r s := by
  simp only [wellFormed, Bool.and_eq_true, decide_eq_true_eq] at h
  have hs : s ≠ 0 := by rintro rfl; exact absurd h.1 (by decide)
  rw [decodeAc_rsByte (fun h => hs h.2) (fun h => hs h.2) hk, if_neg hs, if_pos h.2]

theorem decodeAc_bad {r s : BitVec 4} (h : wellFormed (.acBad r s) = true) (hk : k + r.toNat ≤ 63) :
    decodeAc k (rsByte r s) = .acBad r s := by
  have h11 : 11 ≤ s.toNat := by simpa [wellFormed] using h
  have hs : s ≠ 0 := by rintro rfl; exact absurd h11 (by decide)
  rw [decodeAc_rsByte (fun h => hs h.2) (fun h => hs h.2) hk, if_neg hs, if_neg (by omega)]

theorem decodeAc_runOverflow {rs : Byte} (h : wellFormed (.acRunOverflow rs) = true) (hk : 63 < k + runOf rs) :
    decodeAc k rs = .acRunOverflow rs := by
  rw [decodeAc, if_neg (bne_iff_ne.mp h), if_pos hk]

theorem decodeCtrlWrite_abort (h : wellFormed (.abort v) = true) : decodeCtrlWrite true v = .abort v :=
  if_pos ⟨rfl, h⟩

theorem decodeCtrlWrite_start (h : wellFormed (.start v) = true) : decodeCtrlWrite false v = .start v := by
  rw [decodeCtrlWrite, if_neg (by simp), if_pos ⟨rfl, h⟩]

theorem decodeCtrlWrite_setIrqEn (h : wellFormed (.setIrqEn v) = true) : decodeCtrlWrite busy v = .setIrqEn v := by
  obtain ⟨h0, h1⟩ : v.getLsbD 0 = false ∧ v.getLsbD 1 = false := by
    simpa only [wellFormed, Bool.and_eq_true, Bool.not_eq_true'] using h
  simp only [decodeCtrlWrite, h0, h1, Bool.false_eq_true, and_false, if_false, and_self, if_true]

/-- The bit a CTRL write that nothing takes has set is the one the block ignores: START while BUSY, ABORT while idle. -/
theorem decodeCtrlWrite_writeCtrl (h : wellFormed (.writeCtrl v) = true) :
    decodeCtrlWrite (v.getLsbD 0) v = .writeCtrl v := by
  have hbits : v.getLsbD 0 ≠ v.getLsbD 1 := bne_iff_ne.mp h
  have hboth : ¬(v.getLsbD 0 = true ∧ v.getLsbD 1 = true) := fun ⟨h0, h1⟩ => hbits (h0.trans h1.symm)
  have hnone : ¬(v.getLsbD 0 = false ∧ v.getLsbD 1 = false) := fun ⟨h0, h1⟩ => hbits (h0.trans h1.symm)
  rw [decodeCtrlWrite, if_neg hboth, if_neg fun ⟨h0, h1⟩ => Bool.noConfusion (h0.symm.trans h1), if_neg hnone]

theorem decodeRegWrite_config (r : ConfigReg) : decodeRegWrite busy (configWord r) v = .writeConfig r v := by
  cases r <;> rfl

theorem decodeRegWrite_readOnly (h : wellFormed (.writeReadOnly w v) = true) :
    decodeRegWrite busy w v = .writeReadOnly w v := by
  simp only [wellFormed, Bool.or_eq_true, Bool.and_eq_true, beq_iff_eq, decide_eq_true_eq, ← BitVec.toNat_inj,
    BitVec.ofNat_eq_ofNat, BitVec.toNat_ofNat] at h
  rw [decodeRegWrite, if_neg (by omega), if_neg (by omega), if_neg (by omega), if_neg (by omega), if_neg (by omega),
    if_neg (by omega), if_neg (by omega)]

theorem decodeRegRead_read (h : wellFormed (.read w) = true) : decodeRegRead w = .read w := by
  simp only [wellFormed, Bool.and_eq_true, bne_iff_ne, ne_eq, ← BitVec.toNat_inj] at h
  exact (if_neg h.1).trans (if_neg h.2)

theorem decodeRegRead_port (p : TablePort) : decodeRegRead (portWord p) = .readTableEntry p := by cases p <;> rfl

/-! ### Every instruction is read back, context by context -/

theorem decodesBack_start (hf : fits .start i = true) : DecodesBack .start i := by
  cases i with
  | soi => exact decodesBack_of_bytes rfl fun _ => rfl
  | _ => cases hf

theorem decodesBack_header (hw : wellFormed i = true) (hf : fits .header i = true) : DecodesBack .header i := by
  cases i with
  | nulMarker | tem | sof0 | sof1 | sof2 | sof3 | sof5 | sof6 | sof7 | jpg | sof9 | sof10 | sof11 | sof13 | sof14 | sof15
  | dht | dac | soiEmbedded | eoiHeader | sos | dqt | dnl | dri | dhp | exp | com =>
    exact decodesBack_marker (by decide) rfl rfl rfl
  | res code =>
    have hne : code ≠ 0xFF := by rintro rfl; exact absurd hw (by decide)
    exact decodesBack_marker hne rfl (decodeMarkerCode_res hw) rfl
  | rstnHeader n => exact decodesBack_marker (decodeMarkerCode_rstn n).1 rfl (decodeMarkerCode_rstn n).2 rfl
  | appn n => exact decodesBack_marker (decodeMarkerCode_appn n).1 rfl (decodeMarkerCode_appn n).2 rfl
  | jpgn n => exact decodesBack_marker (decodeMarkerCode_jpgn n hw).1 rfl (decodeMarkerCode_jpgn n hw).2 rfl
  | fill => exact decodesBack_of_bytes rfl fun _ => rfl
  | notMarker b => exact decodesBack_of_bytes rfl (decodeHeader_notMarker (bne_iff_ne.mp hw))
  | _ => cases hf

theorem decodesBack_ecs (hw : wellFormed i = true) (hf : fits .ecs i = true) : DecodesBack .ecs i := by
  cases i with
  | ecsData b => exact decodesBack_of_bytes rfl (decodeEcs_data (bne_iff_ne.mp hw))
  | ecsStuffedFf | ecsEoi => exact decodesBack_ecsMarker (by decide) rfl rfl rfl
  | ecsRstn n => exact decodesBack_ecsMarker (decodeEcsCode_rstn n).1 rfl (decodeEcsCode_rstn n).2 rfl
  | ecsFill => exact decodesBack_of_bytes rfl fun _ => rfl
  | ecsBadMarker code => exact decodesBack_ecsMarker (decodeEcsCode_bad hw).1 rfl (decodeEcsCode_bad hw).2 rfl
  | _ => cases hf

theorem decodesBack_dc (hw : wellFormed i = true) (hf : fits .dc i = true) : DecodesBack .dc i := by
  cases i with
  | dcCat0 => exact decodesBack_dcSymbol rfl rfl rfl
  | dcCat s => exact decodesBack_dcSymbol rfl (decodeDc_cat hw) rfl
  | dcBad s => exact decodesBack_dcSymbol rfl (decodeDc_bad hw) rfl
  | _ => cases hf

theorem decodesBack_ac (hw : wellFormed i = true) (hf : fits (.ac k) i = true) : DecodesBack (.ac k) i := by
  cases i with
  | acEob => exact decodesBack_acSymbol rfl rfl rfl
  | acZrl => exact decodesBack_acSymbol rfl (decodeAc_zrl (of_decide_eq_true hf)) rfl
  | acRun r => exact decodesBack_acSymbol rfl (decodeAc_run hw (of_decide_eq_true hf)) rfl
  | acCoef r s => exact decodesBack_acSymbol rfl (decodeAc_coef hw (of_decide_eq_true hf)) rfl
  | acBad r s => exact decodesBack_acSymbol rfl (decodeAc_bad hw (of_decide_eq_true hf)) rfl
  | acRunOverflow rs => exact decodesBack_acSymbol rfl (decodeAc_runOverflow hw (of_decide_eq_true hf)) rfl
  | _ => cases hf

theorem decodesBack_host (hw : wellFormed i = true) (hf : fits (.host busy) i = true) : DecodesBack (.host busy) i := by
  cases i with
  | read w => exact decodesBack_read rfl (decodeRegRead_read hw)
  | readTableEntry p => exact decodesBack_read rfl (decodeRegRead_port p)
  | writeCtrl v =>
    obtain rfl : busy = v.getLsbD 0 := by simpa [fits] using hf
    exact decodesBack_write rfl (decodeCtrlWrite_writeCtrl hw)
  | start v =>
    obtain rfl : busy = false := by simpa [fits] using hf
    exact decodesBack_write rfl (decodeCtrlWrite_start hw)
  | abort v =>
    obtain rfl : busy = true := by simpa [fits] using hf
    exact decodesBack_write rfl (decodeCtrlWrite_abort hw)
  | setIrqEn v => exact decodesBack_write rfl (decodeCtrlWrite_setIrqEn hw)
  | writeConfig r v => exact decodesBack_write rfl (decodeRegWrite_config r)
  | clearStatus v | selectTableEntry v => exact decodesBack_write rfl rfl
  | writeReadOnly w v => exact decodesBack_write rfl (decodeRegWrite_readOnly hw)
  | _ => cases hf

/-- Settles O1: in each context, one case for each constructor that fits it. -/
theorem decodeReadsEncodedInstruction : Obligations.DecodeReadsEncodedInstruction := by
  intro i c hw hf
  cases c with
  | start => exact decodesBack_start hf
  | header => exact decodesBack_header hw hf
  | ecs => exact decodesBack_ecs hw hf
  | dc => exact decodesBack_dc hw hf
  | ac k => exact decodesBack_ac hw hf
  | host busy => exact decodesBack_host hw hf

/-! ### What is read is the encoding -/

/-- In context `c` the words `ws` are those of the well-formed instruction `i`, whose fetch takes `n` bytes. -/
structure EncodedIn (c : Ctx) (ws : Code) (i : Instr) (n : Nat) : Prop where
  wf    : wellFormed i = true
  fits  : fits c i = true
  words : encode i = ws
  len   : n = instrLen i

/-- The bytes `bs` begin with words of context `c`. -/
def BeginsWith (c : Ctx) (bs : List Byte) (i : Instr) (n : Nat) : Prop :=
  ∃ ws rest, EncodedIn c (.bytes ws) i n ∧ bs = ws ++ rest

theorem markerCode_encodedIn {code : Byte} (h : code ≠ 0xFF) :
    EncodedIn .header (markerBytes code) (decodeMarkerCode code) 2 := by
  have hall : ∀ code : Byte, code ≠ 0xFF → wellFormed (decodeMarkerCode code) = true ∧
      encode (decodeMarkerCode code) = markerBytes code ∧ 2 = instrLen (decodeMarkerCode code) := by decide +kernel
  obtain ⟨hwf, hwords, hlen⟩ := hall code h
  exact ⟨hwf, markerCode_fits code h, hwords, hlen⟩

theorem ecsCode_encodedIn {code : Byte} (h : code ≠ 0xFF) :
    EncodedIn .ecs (markerBytes code) (decodeEcsCode code) 2 := by
  have hall : ∀ code : Byte, code ≠ 0xFF → wellFormed (decodeEcsCode code) = true ∧
      encode (decodeEcsCode code) = markerBytes code ∧ 2 = instrLen (decodeEcsCode code) := by decide +kernel
  obtain ⟨hwf, hwords, hlen⟩ := hall code h
  exact ⟨hwf, ecsCode_fits code, hwords, hlen⟩

theorem decodeStart_ok {bs : List Byte} (h : decodeStart bs = .ok i n) : BeginsWith .start bs i n := by
  unfold decodeStart at h
  split at h
  · split at h
    next hsoi =>
      cases h
      obtain ⟨rfl, rfl⟩ := hsoi
      exact ⟨_, _, ⟨rfl, rfl, rfl, rfl⟩, rfl⟩
    next => cases h
  · cases h

/-- The forms the stream can have at a marker or a byte form (rules R91 and R100). -/
inductive StreamForm : List Byte → Prop where
  | ended : StreamForm []
  | cut : StreamForm [0xFF]
  | plain {b : Byte} (h : b ≠ 0xFF) (rest : List Byte) : StreamForm (b :: rest)
  | fill (rest : List Byte) : StreamForm (0xFF :: 0xFF :: rest)
  | marker {code : Byte} (h : code ≠ 0xFF) (rest : List Byte) : StreamForm (0xFF :: code :: rest)

theorem streamForm : ∀ bs : List Byte, StreamForm bs
  | [] => .ended
  | b :: rest => by
    by_cases hb : b = 0xFF
    · subst hb
      match rest with
      | [] => exact .cut
      | code :: rest =>
        by_cases hcode : code = 0xFF
        · exact hcode ▸ .fill rest
        · exact .marker hcode rest
    · exact .plain hb rest

theorem decodeHeader_ok {bs : List Byte} (h : decodeHeader bs = .ok i n) : BeginsWith .header bs i n := by
  cases streamForm bs with
  | ended | cut => cases h
  | plain hb rest =>
    cases (decodeHeader_notMarker hb rest).symm.trans h
    exact ⟨[_], rest, ⟨bne_iff_ne.mpr hb, rfl, rfl, rfl⟩, rfl⟩
  | fill rest =>
    cases h
    exact ⟨[0xFF, 0xFF], rest, ⟨rfl, rfl, rfl, rfl⟩, rfl⟩
  | marker hcode rest =>
    cases (decodeHeader_marker hcode rest).symm.trans h
    exact ⟨[0xFF, _], rest, markerCode_encodedIn hcode, rfl⟩

theorem decodeEcs_ok {bs : List Byte} (h : decodeEcs bs = .ok i n) : BeginsWith .ecs bs i n := by
  cases streamForm bs with
  | ended | cut => cases h
  | plain hb rest =>
    cases (decodeEcs_data hb rest).symm.trans h
    exact ⟨[_], rest, ⟨bne_iff_ne.mpr hb, rfl, rfl, rfl⟩, rfl⟩
  | fill rest =>
    cases h
    exact ⟨[0xFF, 0xFF], rest, ⟨rfl, rfl, rfl, rfl⟩, rfl⟩
  | marker hcode rest =>
    cases (decodeEcs_marker hcode rest).symm.trans h
    exact ⟨[0xFF, _], rest, ecsCode_encodedIn hcode, rfl⟩

theorem decodeDc_encodedIn (s : Byte) : EncodedIn .dc (.bytes [s]) (decodeDc s) 1 := by
  unfold decodeDc
  split
  next h0 => exact ⟨rfl, rfl, by rw [h0]; rfl, rfl⟩
  next h0 =>
    have hpos : 1 ≤ s.toNat := Nat.pos_of_ne_zero fun h => h0 (BitVec.eq_of_toNat_eq h)
    split
    next hle => exact ⟨by simp [wellFormed, hpos, hle], rfl, rfl, rfl⟩
    next hgt => exact ⟨decide_eq_true (Nat.not_le.mp hgt), rfl, rfl, rfl⟩

/-- The size parts the symbol bytes other than EOB and ZRL, with the run inside the block, into their three rows. -/
theorem acSymbol_encodedIn {r s : BitVec 4} (heob : ¬(r = 0 ∧ s = 0)) (hzrl : ¬(r = 15 ∧ s = 0))
    (hk : k + r.toNat ≤ 63) :
    EncodedIn (.ac k) (.bytes [rsByte r s])
      (if s = 0 then .acRun r else if s.toNat ≤ 10 then .acCoef r s else .acBad r s) 1 := by
  split
  next hs =>
    subst hs
    have hwf : ∀ r : BitVec 4, ¬(r = 0 ∧ 0 = 0) → ¬(r = 15 ∧ 0 = 0) → wellFormed (.acRun r) = true := by decide
    exact ⟨hwf r (by simpa using heob) (by simpa using hzrl), decide_eq_true hk, rfl, rfl⟩
  next hs =>
    have hpos : 1 ≤ s.toNat := Nat.pos_of_ne_zero fun h => hs (BitVec.eq_of_toNat_eq h)
    split
    next hle => exact ⟨by simp [wellFormed, hpos, hle], decide_eq_true hk, rfl, rfl⟩
    next hgt => exact ⟨decide_eq_true (Nat.not_le.mp hgt), decide_eq_true hk, rfl, rfl⟩

theorem decodeAc_encodedIn (k : Nat) (rs : Byte) : EncodedIn (.ac k) (.bytes [rs]) (decodeAc k rs) 1 := by
  by_cases heob : rs = 0x00
  · subst heob
    exact ⟨rfl, rfl, rfl, rfl⟩
  by_cases hk : 63 < k + runOf rs
  · rw [decodeAc, if_neg heob, if_pos hk]
    exact ⟨bne_iff_ne.mpr heob, decide_eq_true hk, rfl, rfl⟩
  by_cases hzrl : rs = 0xF0
  · subst hzrl
    have hrun : k + 16 ≤ 63 := Nat.not_lt.mp hk
    rw [decodeAc_zrl hrun]
    exact ⟨rfl, decide_eq_true hrun, rfl, rfl⟩
  rw [runOf, if_neg hzrl, Nat.not_lt] at hk
  obtain ⟨r, s, rfl⟩ : ∃ r s, rs = rsByte r s := ⟨_, _, (rsByte_nibbles rs).symm⟩
  rw [(nibbles_rsByte r s).1] at hk
  have heob := rsByte_eq_zero_iff.not.mp heob
  have hzrl := rsByte_eq_zrl_iff.not.mp hzrl
  rw [decodeAc_rsByte heob hzrl hk]
  exact acSymbol_encodedIn heob hzrl hk

theorem decodeCtrlWrite_encodedIn (busy : Bool) (v : Word) :
    EncodedIn (.host busy) (writeAccess 1 v) (decodeCtrlWrite busy v) 0 := by
  unfold decodeCtrlWrite
  split
  next h => exact ⟨h.2, by simp [fits, h.1], rfl, rfl⟩
  split
  next h => exact ⟨h.2, by simp [fits, h.1], rfl, rfl⟩
  split
  next h => exact ⟨by simp only [wellFormed, h]; rfl, rfl, rfl, rfl⟩
  next habort hstart hset =>
    have hignored : ∀ busy b0 b1 : Bool, ¬(busy = true ∧ b1 = true) → ¬(busy = false ∧ b0 = true) →
        ¬(b0 = false ∧ b1 = false) → b0 ≠ b1 ∧ busy = b0 := by decide
    obtain ⟨hbits, hbusy⟩ := hignored _ _ _ habort hstart hset
    exact ⟨bne_iff_ne.mpr hbits, by simp [fits, hbusy], rfl, rfl⟩

theorem decodeRegWrite_encodedIn (busy : Bool) (w : BitVec 6) (v : Word) :
    EncodedIn (.host busy) (writeAccess w v) (decodeRegWrite busy w v) 0 := by
  have hw : ∀ m : BitVec 6, w.toNat = m.toNat → m = w := fun _ h => (BitVec.eq_of_toNat_eq h).symm
  unfold decodeRegWrite
  split
  next h => cases hw 1 h; exact decodeCtrlWrite_encodedIn busy v
  split
  next h => cases hw 2 h; exact ⟨rfl, rfl, rfl, rfl⟩
  split
  next h => cases hw 4 h; exact ⟨rfl, rfl, rfl, rfl⟩
  split
  next h => cases hw 5 h; exact ⟨rfl, rfl, rfl, rfl⟩
  split
  next h => cases hw 6 h; exact ⟨rfl, rfl, rfl, rfl⟩
  split
  next h => cases hw 7 h; exact ⟨rfl, rfl, rfl, rfl⟩
  split
  next h => cases hw 13 h; exact ⟨rfl, rfl, rfl, rfl⟩
  refine ⟨?_, rfl, rfl, rfl⟩
  simp only [wellFormed, Bool.or_eq_true, Bool.and_eq_true, beq_iff_eq, decide_eq_true_eq, ← BitVec.toNat_inj,
    BitVec.ofNat_eq_ofNat, BitVec.toNat_ofNat]
  omega

theorem decodeRegRead_encodedIn (busy : Bool) (w : BitVec 6) :
    EncodedIn (.host busy) (readAccess w) (decodeRegRead w) 0 := by
  have hw : ∀ m : BitVec 6, w.toNat = m.toNat → m = w := fun _ h => (BitVec.eq_of_toNat_eq h).symm
  unfold decodeRegRead
  split
  next h => cases hw 14 h; exact ⟨rfl, rfl, rfl, rfl⟩
  split
  next h => cases hw 15 h; exact ⟨rfl, rfl, rfl, rfl⟩
  next hcode hsym =>
    refine ⟨?_, rfl, rfl, rfl⟩
    simp only [wellFormed, Bool.and_eq_true, bne_iff_ne, ne_eq, ← BitVec.toNat_inj]
    exact ⟨hcode, hsym⟩

/-- Bytes the decoder accepts begin with words of their context. -/
theorem decode_bytes_ok {bs : List Byte} (h : decode c (.bytes bs) = .ok i n) : BeginsWith c bs i n := by
  cases c with
  | start => exact decodeStart_ok h
  | header => exact decodeHeader_ok h
  | ecs => exact decodeEcs_ok h
  | dc =>
    cases bs with
    | nil => cases h
    | cons s rest => cases h; exact ⟨[s], rest, decodeDc_encodedIn s, rfl⟩
  | ac k =>
    cases bs with
    | nil => cases h
    | cons rs rest => cases h; exact ⟨[rs], rest, decodeAc_encodedIn k rs, rfl⟩
  | host busy => cases h

/-- A register access the decoder accepts is the encoding of its instruction; a read carries no value. -/
theorem decode_access_ok {a : RegAccess} (h : decode c (.access a) = .ok i n) :
    EncodedIn c (.access { a with value := if a.write then a.value else 0 }) i n ∧ n = 0 := by
  cases c with
  | host busy =>
    obtain ⟨w, ha⟩ := decodeHost_ok h
    obtain ⟨write, off, width, v⟩ := a
    cases ha
    rw [decode, decodeHost_word] at h
    cases h
    cases write with
    | true => exact ⟨decodeRegWrite_encodedIn busy w v, rfl⟩
    | false => exact ⟨decodeRegRead_encodedIn busy w, rfl⟩
  | _ => cases h

/-- Settles O2: what each context's decoder answers is the encoding of the words it read. -/
theorem decodedInstructionReencodes : Obligations.DecodedInstructionReencodes := by
  refine ⟨fun c bs i n h => ?_, fun c a i n h => ?_⟩
  · obtain ⟨ws, rest, hi, hbs⟩ := decode_bytes_ok h
    exact ⟨hi.wf, hi.fits, hi.len, ws, rest, hi.words, hbs⟩
  · obtain ⟨hi, hn⟩ := decode_access_ok h
    exact ⟨hi.wf, hi.fits, hn, hi.words⟩

/-! ### Words written out -/

/-- Settles O3: each word is the encoding of its instruction, which is well-formed and fits its context; the code byte after
the fill byte is what follows it. -/
theorem specEncodingsDecode : Obligations.SpecEncodingsDecode := by
  have hbytes : ∀ i c ws rest, wellFormed i = true → fits c i = true → encode i = .bytes ws →
      decode c (.bytes (ws ++ rest)) = .ok i (instrLen i) :=
    fun i c ws rest hw hf h => (decodeReadsEncodedInstruction i c hw hf).1 ws rest h
  exact ⟨hbytes .soi .start _ [] rfl rfl rfl, hbytes .sof0 .header _ [] rfl rfl rfl, hbytes .dht .header _ [] rfl rfl rfl,
    hbytes .dqt .header _ [] rfl rfl rfl, hbytes (.appn 15) .header _ [] rfl rfl rfl,
    hbytes .fill .header _ [1] rfl rfl rfl,
    hbytes .ecsStuffedFf .ecs _ [] rfl rfl rfl, hbytes (.ecsRstn 7) .ecs _ [] rfl rfl rfl,
    hbytes (.dcCat 11) .dc _ [] rfl rfl rfl, hbytes .acZrl (.ac 1) _ [] rfl rfl rfl,
    hbytes (.acCoef 2 10) (.ac 1) _ [] rfl rfl rfl,
    (decodeReadsEncodedInstruction (.selectTableEntry 0x110) (.host false) rfl rfl).2 _ rfl⟩

/-! ### Input that ends inside a word (rules R91, R150 and R171) -/

/-- Where the input ends at `p`, or after one 0xFF there, the decoder sees no byte or that one. -/
theorem peekInput_truncated {s : State} {p : Nat}
    (h : s.inLen.toNat ≤ p ∨ (s.inLen.toNat = p + 1 ∧ inputAt s p [0xFF])) :
    peekInput s p = [] ∨ peekInput s p = [0xFF] :=
  h.imp peekInput_end fun ⟨hend, hff⟩ => peekInput_last hff hend

theorem fetchInput_truncated {s : State} (hc : c = .header ∨ c = .ecs)
    (h : peekInput s (inPos s) = [] ∨ peekInput s (inPos s) = [0xFF]) :
    fetchInput c s = .move (raiseError .sTruncated s) := by
  have hdec : decode c (.bytes (peekInput s (inPos s))) = .reject .truncated := by
    rcases h with h | h <;> rw [h]
    · rcases hc with rfl | rfl <;> rfl
    · rcases hc with rfl | rfl <;> rfl
  rw [fetchInput, hdec]

/-- In the header and in the entropy-coded segment the block reads its input in that context. -/
theorem fetchBlock_input {u : State} (h : (u.phase = .parse ∧ u.soiDone = true) ∨ u.phase = .extract) :
    ∃ c, (c = .header ∨ c = .ecs) ∧ fetchBlock u = fetchInput c u := by
  rcases h with ⟨hphase, hsoi⟩ | hphase
  · exact ⟨.header, .inl rfl, by rw [fetchBlock, hphase, hsoi]; rfl⟩
  · exact ⟨.ecs, .inr rfl, by rw [fetchBlock, hphase]⟩

/-- Settles O15: the decoder rejects what is left of the input as truncated, and `stopped` writes out that error entry. -/
theorem truncatedInputStopsDecode : Obligations.TruncatedInputStopsDecode := by
  intro s u hturn hphase hend
  obtain ⟨c, hc, hfetch⟩ := fetchBlock_input hphase
  rw [step_of_blockTurn hturn, hfetch, fetchInput_truncated hc (peekInput_truncated hend)]
  rfl

end Sys2Proof.Machine


/-! SUPPORT. The host's register accesses (40_host_interface.md rules R130 to R138): what each register reads as, and what
a write does, idle and BUSY. -/

namespace Sys2Proof.Machine

variable {s : State} {v x : Word} {w : BitVec 6} {n : Nat}

/-! ### BUSY and the words of the registers (10_state.md section 2) -/

theorem busy_idle (h : s.phase = .idle) : busy s = false := by rw [busy, h]; rfl

theorem busy_eq_decide (s : State) : busy s = decide (s.phase ≠ .idle) := by
  simp [busy, bne, beq_eq_decide]

theorem ctrlWord_eq (s : State) : ctrlWord s = if s.irqEn then 4 else 0 := by
  rw [ctrlWord, bit]
  cases s.irqEn <;> rfl

/-- The flags of STATUS, from bit 0 up (rule R33). -/
theorem statusWord_flags (s : State) :
    (statusWord s).getLsbD 0 = busy s ∧ (statusWord s).getLsbD 1 = s.done ∧ (statusWord s).getLsbD 2 = s.err ∧
      (statusWord s).getLsbD 3 = irq s := by
  simp only [statusWord, BitVec.getLsbD_append]
  simp [bit]

theorem statusWord_toNat (s : State) :
    (statusWord s).toNat = (phaseCode s.phase).toNat * 16 + (irq s).toNat * 8 + s.err.toNat * 4 + s.done.toNat * 2 +
      (busy s).toNat := by
  simp only [statusWord, bit, append_toNat, BitVec.toNat_ofNat, BitVec.toNat_ofBool]
  omega

/-- PHASE stands above the four flags, and nothing above it. -/
theorem statusWord_phase (s : State) :
    (statusWord s).extractLsb' 4 3 = phaseCode s.phase ∧ (statusWord s).toNat < 128 := by
  have hphase := (phaseCode s.phase).isLt
  have hirq := (irq s).toNat_lt
  have herr := s.err.toNat_lt
  have hdone := s.done.toNat_lt
  have hbusy := (busy s).toNat_lt
  refine ⟨BitVec.eq_of_toNat_eq ?_, ?_⟩
  · rw [BitVec.extractLsb'_toNat, Nat.shiftRight_eq_div_pow, statusWord_toNat]
    omega
  · rw [statusWord_toNat]
    omega

theorem imgSizeWord_toNat (s : State) :
    (imgSizeWord s).toNat = s.frame.height.toNat * 65536 + s.frame.width.toNat :=
  append_toNat _ _

theorem imgInfoWord_toNat (s : State) :
    (imgInfoWord s).toNat = s.frame.restartInterval.toNat * 65536 + s.frame.vmax.toNat * 256 + s.frame.hmax.toNat * 16 +
      s.frame.zeroBased.toNat * 8 + s.frame.seen.toNat * 4 + s.frame.nf.toNat := by
  simp only [imgInfoWord, bit, append_toNat, BitVec.toNat_ofNat, BitVec.toNat_ofBool]
  omega

/-! ### Reads (rule R130) -/

/-- A word number with value `n` reads as word `n`, where the register is then found by evaluation. -/
theorem regRead_of_toNat (hx : regRead s (BitVec.ofNat 6 n) = x) (hw : w.toNat = n) : regRead s w = x := by
  rwa [← hw, BitVec.ofNat_toNat, BitVec.setWidth_eq] at hx

theorem regRead_reserved (h : 16 ≤ w.toNat) : regRead s w = 0 := by
  simp (disch := omega) only [regRead, if_neg]

/-- The table port reads through the same register map (rule R139). -/
theorem exec_readTableEntry (port : TablePort) (h : w.toNat = (portWord port).toNat) :
    exec (.readTableEntry port) s = .next { s with rdata := regRead s w } := by
  obtain rfl := BitVec.eq_of_toNat_eq h
  cases port <;> rfl

/-- Settles O7: the value is `regRead`, register by register. -/
theorem registerReadsReturnTheirRules : Obligations.RegisterReadsReturnTheirRules := by
  intro s w
  refine ⟨regRead s w, fun _ _ => rfl, exec_readTableEntry .code, exec_readTableEntry .sym, regRead_of_toNat rfl,
    regRead_of_toNat (ctrlWord_eq s), fun hw => ?status, fun hw => ?errcode, regRead_of_toNat rfl, regRead_of_toNat rfl,
    regRead_of_toNat rfl, regRead_of_toNat rfl, fun hw => ?imgSize, fun hw => ?imgInfo, regRead_of_toNat rfl,
    regRead_of_toNat rfl, regRead_of_toNat rfl, regRead_of_toNat rfl, regRead_reserved⟩
  case status =>
    obtain ⟨hbusy, hdone, herr, hirq⟩ := statusWord_flags s
    rw [regRead_of_toNat (x := statusWord s) rfl hw]
    exact ⟨hbusy.trans (busy_eq_decide s), hdone, herr, hirq, statusWord_phase s⟩
  case errcode => rw [regRead_of_toNat (x := errcodeWord s) rfl hw, errcode_toNat]
  case imgSize => rw [regRead_of_toNat (x := imgSizeWord s) rfl hw, imgSizeWord_toNat]
  case imgInfo => rw [regRead_of_toNat (x := imgInfoWord s) rfl hw, imgInfoWord_toNat]

/-! ### Writes of CTRL (rules R131, R134 and R135) -/

/-- The four encodings of a CTRL write are one write. -/
theorem exec_ctrlWrite {i : Instr} (h : i = .start v ∨ i = .abort v ∨ i = .setIrqEn v ∨ i = .writeCtrl v) :
    exec i s = ctrlWrite v s := by
  rcases h with rfl | rfl | rfl | rfl <;> rfl

theorem ctrlWrite_abort (hbusy : busy s = true) (habort : v.getLsbD 1 = true) :
    ctrlWrite v s = .next (abortDecode { s with irqEn := v.getLsbD 2 }) := by
  rw [ctrlWrite, if_pos hbusy, if_pos habort]

theorem ctrlWrite_busy (hbusy : busy s = true) (habort : v.getLsbD 1 = false) :
    ctrlWrite v s = .next { s with irqEn := v.getLsbD 2 } := by
  simp only [ctrlWrite, hbusy, habort, Bool.false_eq_true, if_true, if_false]

theorem ctrlWrite_idle (hidle : busy s = false) (hstart : v.getLsbD 0 = false) :
    ctrlWrite v s = .next { s with irqEn := v.getLsbD 2 } := by
  simp only [ctrlWrite, hidle, hstart, Bool.false_eq_true, if_false]

/-- Settles O9: a CTRL write by BUSY and the bit it takes then. -/
theorem ctrlWriteFollowsItsBits : Obligations.CtrlWriteFollowsItsBits := by
  intro s v i hi
  rw [exec_ctrlWrite hi]
  exact ⟨fun hrun => ctrlWrite_busy (busy_true hrun), fun hidle => ctrlWrite_idle (busy_idle hidle),
    fun hrun => ctrlWrite_abort (busy_true hrun)⟩

/-! ### Other writes (rules R132 and R136 to R138) -/

/-- A buffer register is locked while BUSY. -/
theorem exec_writeConfig_busy (h : busy s = true) (r : ConfigReg) : exec (.writeConfig r v) s = .next s :=
  if_pos h

/-- While idle each buffer register takes the written value. -/
theorem exec_writeConfig_idle (h : busy s = false) :
    exec (.writeConfig .inBase v) s = .next { s with inBase := v } ∧
    exec (.writeConfig .inLen v) s = .next { s with inLen := v } ∧
    exec (.writeConfig .outBase v) s = .next { s with outBase := v } ∧
    exec (.writeConfig .outCap v) s = .next { s with outCap := v } := by
  have hopen : ¬busy s = true := Bool.eq_false_iff.mp h
  exact ⟨if_neg hopen, if_neg hopen, if_neg hopen, if_neg hopen⟩

/-- A bit written 1 clears its flag. -/
theorem and_not_eq_ite (flag clear : Bool) : (flag && !clear) = if clear then false else flag := by
  cases clear <;> simp

theorem exec_clearStatus (v : Word) (s : State) :
    exec (.clearStatus v) s = .next { s with
      done := if v.getLsbD 1 then false else s.done, err := if v.getLsbD 2 then false else s.err } := by
  rw [← and_not_eq_ite, ← and_not_eq_ite]
  rfl

/-- Settles O11: the lock of the buffer registers goes by BUSY, and each other write is its rule written out. -/
theorem registerWritesFollowTheirRules : Obligations.RegisterWritesFollowTheirRules := by
  intro s v w
  exact ⟨fun hidle => exec_writeConfig_idle (busy_idle hidle), fun hrun => exec_writeConfig_busy (busy_true hrun),
    exec_clearStatus v s, rfl, rfl⟩

end Sys2Proof.Machine


/-! SUPPORT. The parser's markers that carry no table or frame (41_segment_parser.md rules R151, R152 and R166 to R172):
the start of the image, the markers that end the decode, skipped segments, DRI, and the bytes of the entropy-coded
segment; and CHECK (rules R173 and R210). -/

namespace Sys2Proof.Machine

variable {s u : State} {i : Instr} {d : Detail} {p len n : Nat} {b : Byte}

/-! ### A parser's chain of reads and checks -/

theorem ok_bind {α β : Type} (a : α) (f : α → Except Detail β) : (Except.ok a >>= f) = f a := rfl

theorem error_bind {α β : Type} (d : Detail) (f : α → Except Detail β) : (Except.error d >>= f) = .error d := rfl

/-- A check raises where its condition holds; else the chain goes on. -/
theorem raiseIf_bind {β : Type} (c : Bool) (d : Detail) (f : Unit → Except Detail β) :
    (raiseIf c d >>= f) = if c = true then .error d else f () := by
  cases c <;> rfl

/-- A parser that raises `d` leaves what `stopped` writes out for its class and code. -/
theorem commitOrRaise_stopped {r : Except Detail State} (h : r = .error d) :
    commitOrRaise s r = .next (stopped (detailClass d) (detailCode d) s) := by
  rw [h, commitOrRaise_error, raiseError_stopped]

theorem commitOrRaise_commits {r : Except Detail State} (h : r = .ok u) : commitOrRaise s r = .next u := by
  rw [h, commitOrRaise_ok]

/-! ### Markers with one fixed effect -/

/-- Settles O12: each meaning is its error entry. -/
theorem rejectedMarkersStopDecode : Obligations.RejectedMarkersStopDecode := by
  intro s
  refine ⟨rfl, fun _ => rfl, fun _ => rfl, rfl, rfl, fun _ => rfl, rfl, fun i hi => ?_⟩
  rcases hi with rfl | rfl | rfl | rfl | rfl | rfl | rfl | rfl | rfl | rfl | rfl | rfl | rfl <;> rfl

/-- Settles O13: each meaning is its rule written out. -/
theorem markersWithoutPayload : Obligations.MarkersWithoutPayload := fun _ => ⟨rfl, rfl, rfl⟩

/-- Settles O28: each meaning is its rule written out. -/
theorem scanMarkers : Obligations.ScanMarkers := fun _ => ⟨fun _ => rfl, rfl, rfl, fun _ => rfl⟩

/-! ### The start of the image (rule R151) -/

theorem inPos_start (htxn : u.txn = .none) (hpos : u.ipos = 0) : inPos u = 0 := by
  rw [inPos, htxn, hpos]
  rfl

theorem fetchStart_short (h : u.inLen.toNat < 2) : fetchStart u = .move (raiseError .sNoSoi u) := if_pos h

/-- With two bytes at the cursor the check is the decoder's. -/
theorem fetchStart_two {b0 b1 : Byte} (h : inputAt u (inPos u) [b0, b1]) :
    fetchStart u =
      if b0 = 0xFF ∧ b1 = 0xD8 then .instr .soi (moveTo (inPos u + 2) u) else .move (raiseError .sNoSoi u) := by
  have hlen : inPos u + 2 ≤ u.inLen.toNat := inputAt_length h
  rw [fetchStart, if_neg (by omega), peekInput_two h, decode]
  by_cases hsoi : b0 = 0xFF ∧ b1 = 0xD8
  · rw [if_pos hsoi, decodeStart, if_pos hsoi]
  · rw [if_neg hsoi, decodeStart, if_neg hsoi]

/-- SOI after a fetch that read up to offset `p`. -/
theorem exec_soi_moveTo (p : Nat) (s : State) :
    exec .soi (moveTo p s) = .next { s with soiDone := true, ipos := BitVec.ofNat 32 p, txn := .none } := by
  have hpos : inPos (moveTo p s) = (BitVec.ofNat 32 p).toNat := rfl
  have hcursor : BitVec.ofNat 32 (inPos (moveTo p s)) = BitVec.ofNat 32 p := by
    rw [hpos, BitVec.ofNat_toNat, BitVec.setWidth_eq]
  rw [← hcursor]
  rfl

/-- Settles O14: the block's turn is `fetchStart`, by the length of the input and by its first two bytes. -/
theorem startOfImageCheck : Obligations.StartOfImageCheck := by
  intro s u hturn hphase hsoi htxn hipos
  have hpos : inPos u = 0 := inPos_start htxn hipos
  have hstep : step s = runFetched (fetchStart u) := by
    rw [step_of_blockTurn hturn, fetchBlock, hphase, hsoi]
    rfl
  rw [hstep]
  refine ⟨fun hshort => ?short, fun hin => ?soi, fun b0 b1 hin hother => ?other⟩
  case short => rw [fetchStart_short hshort]; rfl
  case soi =>
    rw [fetchStart_two (hpos.symm ▸ hin), if_pos ⟨rfl, rfl⟩, runFetched, exec_soi_moveTo, hpos, ← htxn]
    rfl
  case other => rw [fetchStart_two (hpos.symm ▸ hin), if_neg hother]; rfl

/-! ### Skipped segments (rule R166) -/

theorem exec_skipped (h : i = .dnl ∨ i = .dhp ∨ i = .exp ∨ i = .com ∨ (∃ n, i = .appn n) ∨ ∃ n, i = .jpgn n) :
    exec i s = skipSegment s := by
  rcases h with rfl | rfl | rfl | rfl | ⟨n, rfl⟩ | ⟨n, rfl⟩ <;> rfl

/-- With the length field in the input, a skipped segment is bad, ends past the input or is skipped. -/
theorem skipSegment_at (hlen : len < 65536) (h : inputAt s (inPos s) (be16 len)) :
    skipSegment s =
      if len < 2 then .next (raiseError .sBadLength s)
      else if s.inLen.toNat < inPos s + len then .next (raiseError .sTruncated s)
      else .next (commitPos (inPos s + len) s) := by
  have hfield : inPos s + 2 ≤ s.inLen.toNat := inputAt_length h
  simp only [skipSegment, inU16_at hlen h, ok_bind, raiseIf_bind, decide_eq_true_eq]
  split
  next => rfl
  next hlegal =>
    have hend : inPos s + 2 + (len - 2) = inPos s + len := by omega
    rw [skipBytesAt, hend]
    split
    next hinside => rw [if_neg (by omega)]; rfl
    next houtside => rw [if_pos (by omega)]; rfl

theorem skipSegment_end (h : s.inLen.toNat < inPos s + 2) : skipSegment s = .next (raiseError .sTruncated s) := by
  rw [skipSegment, inU16_end h]
  rfl

/-- Settles O16: the six forms are one segment, by its length field. -/
theorem skippedSegmentMovesOnlyCursor : Obligations.SkippedSegmentMovesOnlyCursor := by
  intro s i len hi hlen
  rw [exec_skipped hi]
  refine ⟨fun hin hlegal hinside => ?skip, fun hin hbad => ?badLength, fun hin hend hlegal => ?truncated,
    fun hend => skipSegment_end hend⟩
  case skip => rw [skipSegment_at hlen hin, if_neg (by omega), if_neg (by omega)]; rfl
  case badLength => rw [skipSegment_at hlen hin, if_pos hbad]; rfl
  case truncated => rw [skipSegment_at hlen hin, if_neg (by omega), if_pos hend]; rfl

/-! ### DRI (rule R162) -/

theorem parseDri_at (hn : n < 65536) (h : inputAt s p (be16 4 ++ be16 n)) :
    parseDri s p =
      .ok (commitPos (p + 4) { s with frame := { s.frame with restartInterval := BitVec.ofNat 16 n } }) := by
  obtain ⟨hlen, hvalue⟩ := inputAt_append.mp h
  rw [be16_length] at hvalue
  simp only [parseDri, inU16_at (by decide : 4 < 65536) hlen, inU16_at hn hvalue, ok_bind, raiseIf_bind]
  rfl

theorem parseDri_badLength (hlen : len < 65536) (h : inputAt s p (be16 len)) (hne : len ≠ 4) :
    parseDri s p = .error .sBadLength := by
  simp only [parseDri, inU16_at hlen h, ok_bind, raiseIf_bind, if_pos (bne_iff_ne.mpr hne)]

theorem parseDri_noLength (h : s.inLen.toNat < p + 2) : parseDri s p = .error .sTruncated := by
  rw [parseDri, inU16_end h]
  rfl

theorem parseDri_noValue (hin : inputAt s p (be16 4)) (h : s.inLen.toNat < p + 4) :
    parseDri s p = .error .sTruncated := by
  simp only [parseDri, inU16_at (by decide : 4 < 65536) hin, inU16_end (p := p + 2) h, ok_bind, error_bind,
    raiseIf_bind]
  rfl

/-- The restart interval stands in the upper half of IMG_INFO. -/
theorem imgInfoWord_upper (s : State) : (imgInfoWord s).toNat / 65536 = s.frame.restartInterval.toNat := by
  have hv := s.frame.vmax.isLt
  have hh := s.frame.hmax.isLt
  have hz := s.frame.zeroBased.toNat_lt
  have hs := s.frame.seen.toNat_lt
  have hn := s.frame.nf.isLt
  rw [imgInfoWord_toNat]
  omega

/-- Settles O17: the four inputs at the cursor, and the field of IMG_INFO. -/
theorem driSetsRestartInterval : Obligations.DriSetsRestartInterval := by
  intro s n hn
  refine ⟨fun hin => commitOrRaise_commits (parseDri_at hn hin),
    fun hin hne => commitOrRaise_stopped (parseDri_badLength hn hin hne),
    fun hend => commitOrRaise_stopped (parseDri_noLength hend),
    fun hin hend => commitOrRaise_stopped (parseDri_noValue hin hend), ?_⟩
  rw [imgInfoWord_upper]
  exact Nat.mod_eq_of_lt hn

/-! ### The entropy buffer (rules R171 and R172) -/

theorem exec_dataByte (h : i = .ecsData b ∨ (i = .ecsStuffedFf ∧ b = 0xFF)) : exec i s = appendEnt b s := by
  rcases h with rfl | ⟨rfl, rfl⟩ <;> rfl

theorem appendEnt_full (h : s.entLen.toNat = s.params.entropyCap) :
    appendEnt b s = .next (raiseError .aEntropyBuf s) := by
  rw [appendEnt, beq_iff_eq.mpr h]
  rfl

theorem appendEnt_room (h : s.entLen.toNat ≠ s.params.entropyCap) :
    appendEnt b s =
      .next (commitPos (inPos s) { s with ent := putEnt s.ent s.entLen.toNat b, entLen := s.entLen + 1 }) := by
  rw [appendEnt, beq_eq_false_iff_ne.mpr h]
  rfl

theorem putEnt_getD_same {ent : List Byte} (h : n ≤ ent.length) : (putEnt ent n b).getD n 0 = b := by
  rw [putEnt, List.getD_append_right _ _ _ _ (by simp), List.length_take_of_le h, Nat.sub_self, List.getD_cons_zero]

theorem putEnt_getD_other {ent : List Byte} {m : Nat} (h : n ≤ ent.length) (hne : m ≠ n) :
    (putEnt ent n b).getD m 0 = ent.getD m 0 := by
  rw [putEnt]
  rcases Nat.lt_or_gt_of_ne hne with hlt | hgt
  · rw [List.getD_append _ _ _ _ (by rw [List.length_take_of_le h]; exact hlt), List.getD_eq_getElem?_getD,
      List.getElem?_take_of_lt hlt, ← List.getD_eq_getElem?_getD]
  · obtain ⟨k, rfl⟩ := Nat.exists_eq_add_of_lt hgt
    rw [List.getD_append_right _ _ _ _ (by rw [List.length_take_of_le h]; omega), List.length_take_of_le h,
      show n + k + 1 - n = k + 1 by omega, List.getD_cons_succ, List.getD_eq_getElem?_getD, List.getElem?_drop,
      ← List.getD_eq_getElem?_getD, show n + 1 + k = n + k + 1 by omega]

/-- Settles O27: both byte forms append, where the buffer has room. -/
theorem dataByteAppends : Obligations.DataByteAppends := by
  intro s i b hi
  rw [exec_dataByte hi]
  exact ⟨fun hroom hbuf => ⟨putEnt s.ent s.entLen.toNat b, appendEnt_room hroom, putEnt_getD_same hbuf,
    fun n hn => putEnt_getD_other hbuf hn⟩, appendEnt_full⟩

/-! ### CHECK (rules R173 and R210) -/

/-- All of the first `n` entries, by position. -/
theorem all_take_iff {α : Type} {v : Vector α 3} {f : α → Bool} :
    (v.toList.take n).all f = true ↔ ∀ i : Fin 3, i.val < n → f v[i] = true := by
  simp only [List.all_eq_true, List.mem_take_iff_getElem]
  constructor
  · intro h i hi
    exact h v[i] ⟨i.val, by simp; omega, by simp⟩
  · rintro h x ⟨j, hj, rfl⟩
    have hj' : j < n ∧ j < 3 := by simpa using hj
    simpa using h ⟨j, hj'.2⟩ hj'.1

theorem qtReady_iff :
    qtReady u = true ↔ ∀ i : Fin 3, i.val < u.frame.nf.toNat → u.qt[u.comp[i].tq].populated = true :=
  all_take_iff

theorem htReady_iff :
    htReady u = true ↔ ∀ j : Fin 3, j.val < u.ns.toNat →
      u.dcHt[u.comp[u.scan[j]].td].populated = true ∧ u.acHt[u.comp[u.scan[j]].ta].populated = true := by
  rw [htReady, all_take_iff]
  simp only [Bool.and_eq_true]

/-- CHECK as its checks in order. -/
theorem checkStep_eq (u : State) :
    checkStep u =
      if qtReady u = false then .error .rQtUnpopulated
      else if htReady u = false then .error .rHtUnpopulated
      else if u.params.maxBlocks < u.frame.mcuTotal.toNat * u.frame.blocksPerMcu.toNat then .error .aCoefStore
      else if u.outCap.toNat < 3 * u.frame.width.toNat * u.frame.height.toNat then .error .aOutput
      else .ok { u with cur := ⟨0, 0⟩, pred := Vector.replicate 3 0, mcuDone := 0, phase := .entropy } := by
  simp only [checkStep, raiseIf_bind, Bool.not_eq_true', decide_eq_true_eq]

/-- Settles O42: the block's turn is `checkStep`, by the first check that fails. -/
theorem checkStepInOrder : Obligations.CheckStepInOrder := by
  intro s u hturn hphase _ qtOk htOk hqt hht
  rw [← qtReady_iff] at hqt
  rw [← htReady_iff] at hht
  have hstep : step s = runFetched (moveOrRaise u (checkStep u)) := by
    rw [step_of_blockTurn hturn, fetchBlock, hphase]
  rw [hstep, checkStep_eq, hqt, hht]
  simp only [Bool.not_eq_true]
  refine ⟨fun hq => ?noQt, fun hq hh => ?noHt, fun hq hh hmany => ?store, fun hq hh hfits hlong => ?output,
    fun hq hh hfits hroom => ?entropy⟩
  case noQt => rw [if_pos hq]; rfl
  case noHt => rw [if_neg (ne_false_of_eq_true hq), if_pos hh]; rfl
  case store => rw [if_neg (ne_false_of_eq_true hq), if_neg (ne_false_of_eq_true hh), if_pos hmany]; rfl
  case output =>
    rw [if_neg (ne_false_of_eq_true hq), if_neg (ne_false_of_eq_true hh), if_neg hfits.not_gt, if_pos hlong]
    rfl
  case entropy =>
    rw [if_neg (ne_false_of_eq_true hq), if_neg (ne_false_of_eq_true hh), if_neg hfits.not_gt, if_neg hroom.not_gt]
    rfl

end Sys2Proof.Machine


/-! SUPPORT. DQT and DHT segments (41_segment_parser.md rules R160 and R161): the segment after any number of legal
entries, the entries that stop it, and the input that ends inside it. -/

namespace Sys2Proof.Machine

variable {s : State} {d : Detail} {p len fuel c k : Nat} {b : Byte}

/-! ### Bytes and lists of entries -/

theorem loNibble_toNat (b : Byte) : (loNibble b).toNat = b.toNat % 16 := by
  rw [loNibble, BitVec.extractLsb'_toNat, Nat.shiftRight_zero]

theorem hiNibble_toNat (b : Byte) : (hiNibble b).toNat = b.toNat / 16 := by
  have hb : b.toNat < 256 := b.isLt
  rw [hiNibble, BitVec.extractLsb'_toNat, Nat.shiftRight_eq_div_pow]
  omega

section
variable {α : Type} {f : α → List Byte} {l l' : List α} (hf : ∀ a, f a ≠ [])
include hf

theorem length_le_flatMap (l : List α) : l.length ≤ (l.flatMap f).length := by
  induction l with
  | nil => exact Nat.le_refl 0
  | cons a l ih =>
    have ha : 0 < (f a).length := List.length_pos_iff.mpr (hf a)
    rw [List.flatMap_cons, List.length_append, List.length_cons]
    omega

theorem flatMap_length_lt (h : l' <+: l) (hlt : l'.length < l.length) :
    (l'.flatMap f).length < (l.flatMap f).length := by
  obtain ⟨r, rfl⟩ := h
  have hr := length_le_flatMap hf r
  rw [List.flatMap_append, List.length_append]
  rw [List.length_append] at hlt
  omega

/-- A length that goes past each entry's start counts at least as many bytes as there are entries. -/
theorem length_le_of_starts (h : ∀ l', l'.length < l.length → l' <+: l → c + (l'.flatMap f).length < len) :
    l.length ≤ len := by
  rcases List.eq_nil_or_concat l with rfl | ⟨l', a, rfl⟩
  · exact Nat.zero_le _
  · have hpre := h l' (by simp) (by simp)
    have hle := length_le_flatMap hf l'
    rw [List.length_concat]
    omega

end

/-! ### DQT after legal entries -/

section
variable {es : List QtEntry} {qt : Vector QTable 4}

theorem qtEntryBytes_ne_nil (e : QtEntry) : qtEntryBytes e ≠ [] := List.cons_ne_nil _ _

theorem dqtBytes_length (es : List QtEntry) : (dqtBytes es).length = 2 + (es.flatMap qtEntryBytes).length := by
  rw [dqtBytes, List.length_append, be16_length]

theorem dqtBytes_lt {es' : List QtEntry} (hlt : es'.length < es.length) (h : es' <+: es) :
    (dqtBytes es').length < (dqtBytes es).length := by
  have := flatMap_length_lt qtEntryBytes_ne_nil h hlt
  rw [dqtBytes_length, dqtBytes_length]
  omega

/-- With the length field in the input, DQT is its entry loop and the check that the loop ended at the length. -/
theorem parseDqt_at (hlen : len < 65536) (h : inputAt s p (be16 len)) :
    parseDqt s p = dqtLoop s len len 2 s.qt (p + 2) >>= fun r =>
      if r.1 = len then .ok (commitPos r.2.2 { s with qt := r.2.1 }) else .error .sBadLength := by
  simp only [parseDqt, inU16_at hlen h, ok_bind, raiseIf_bind, bne_iff_ne, ne_eq, ite_not]

theorem dqtLoop_badId (hc : c < len) (hfuel : 0 < fuel) (h : inputAt s p [b]) (hid : 3 < b.toNat % 16) :
    dqtLoop s len fuel c qt p = .error .rQtId := by
  obtain ⟨n, rfl⟩ := Nat.exists_eq_succ_of_ne_zero hfuel.ne'
  rw [dqtLoop, if_neg (Nat.not_le.mpr hc)]
  simp only [inByte_at h, ok_bind, raiseIf_bind, loNibble_toNat, decide_eq_true_eq, if_pos hid]

theorem dqtLoop_badClass (hc : c < len) (hfuel : 0 < fuel) (h : inputAt s p [b]) (hid : b.toNat % 16 ≤ 3)
    (hcls : 1 < b.toNat / 16) : dqtLoop s len fuel c qt p = .error .sBadTableClass := by
  obtain ⟨n, rfl⟩ := Nat.exists_eq_succ_of_ne_zero hfuel.ne'
  rw [dqtLoop, if_neg (Nat.not_le.mpr hc)]
  simp only [inByte_at h, ok_bind, raiseIf_bind, loNibble_toNat, hiNibble_toNat, decide_eq_true_eq,
    if_neg (Nat.not_lt.mpr hid), if_pos hcls]

/-- The segment past its legal entries, while the length goes past each one's start. -/
theorem parseDqt_entries (hlegal : ∀ e ∈ es, qtEntryLegal e) (hlen : len < 65536)
    (hpre : ∀ es', es'.length < es.length → es' <+: es → (dqtBytes es').length < len)
    (h : inputAt s p (be16 len ++ es.flatMap qtEntryBytes)) :
    parseDqt s p =
      dqtLoop s len (len - es.length) (dqtBytes es).length (es.foldl setQt s.qt) (p + (dqtBytes es).length) >>= fun r =>
        if r.1 = len then .ok (commitPos r.2.2 { s with qt := r.2.1 }) else .error .sBadLength := by
  simp only [dqtBytes_length] at hpre ⊢
  obtain ⟨hfield, hes⟩ := inputAt_append.mp h
  rw [be16_length] at hes
  have hfuel : es.length + (len - es.length) = len :=
    Nat.add_sub_of_le (length_le_of_starts qtEntryBytes_ne_nil hpre)
  rw [parseDqt_at hlen hfield, ← Nat.add_assoc, ← dqtLoop_entries hlegal hpre hes, hfuel]

/-- Entries that end at the length field's end or past it end the loop. -/
theorem parseDqt_ends (hlegal : ∀ e ∈ es, qtEntryLegal e) (hlen : len < 65536)
    (hpre : ∀ es', es'.length < es.length → es' <+: es → (dqtBytes es').length < len)
    (h : inputAt s p (be16 len ++ es.flatMap qtEntryBytes)) (hend : len ≤ (dqtBytes es).length) :
    parseDqt s p =
      if (dqtBytes es).length = len then .ok (commitPos (p + (dqtBytes es).length) { s with qt := es.foldl setQt s.qt })
      else .error .sBadLength := by
  rw [parseDqt_entries hlegal hlen hpre h, dqtLoop_end hend, ok_bind]

/-- An entry byte the loop stops at, after legal entries the length goes past. -/
theorem parseDqt_stops (hlegal : ∀ e ∈ es, qtEntryLegal e) (hlen : len < 65536) (hmore : (dqtBytes es).length < len)
    (h : inputAt s p (be16 len ++ es.flatMap qtEntryBytes ++ [b]))
    (hstop : ∀ fuel, 0 < fuel → ∀ q, inputAt s q [b] → ∀ qt,
      dqtLoop s len fuel (dqtBytes es).length qt q = .error d) :
    parseDqt s p = .error d := by
  obtain ⟨hes, hb⟩ := inputAt_append.mp h
  have hfuel : 0 < len - es.length := by
    have := length_le_flatMap qtEntryBytes_ne_nil es
    rw [dqtBytes_length] at hmore
    omega
  have hat : p + (be16 len ++ es.flatMap qtEntryBytes).length = p + (dqtBytes es).length := by
    rw [dqtBytes_length, List.length_append, be16_length]
  rw [parseDqt_entries hlegal hlen (fun es' hlt hpre => (dqtBytes_lt hlt hpre).trans hmore) hes,
    hstop _ hfuel _ (hat ▸ hb), error_bind]

/-- Where the input ends inside the length field or inside entries the length asks for. -/
theorem parseDqt_short {e : QtEntry} (hlegal : ∀ e' ∈ es ++ [e], qtEntryLegal e') (hlen : len < 65536)
    (hmore : (dqtBytes es).length < len)
    (h : inputEndsIn s p (be16 len ++ es.flatMap qtEntryBytes ++ qtEntryBytes e) k) :
    parseDqt s p = .error .sTruncated := by
  rw [dqtBytes_length] at hmore
  rw [List.append_assoc] at h
  rcases inputEndsIn_append h with hfield | ⟨hfield, hentries⟩
  · rw [parseDqt, inU16_short hfield, error_bind]
  · have hfuel : es.length < len := by
      have := length_le_flatMap qtEntryBytes_ne_nil es
      omega
    rw [be16_length] at hentries
    rw [parseDqt_at hlen hfield, dqtLoop_short hlegal hmore hfuel hentries, error_bind]

end

/-- A loaded table holds the values of its entry at their natural positions. -/
theorem placeZigzag_toNat {e : QtEntry} (h : qtEntryLegal e) (n : Fin 64) :
    ((placeZigzag e.vals)[zz n.val]).toNat = e.vals.getD n.val 0 := by
  obtain ⟨-, hcount, hvals⟩ := h
  have hn : n.val < e.vals.length := by omega
  have hval : e.vals[n.val] < 65536 :=
    (hvals _ (List.getElem_mem hn)).trans_le (by cases e.wide <;> decide)
  rw [placeZigzag_zz, ← List.getElem_eq_getD (h := hn) 0, BitVec.toNat_ofNat, Nat.mod_eq_of_lt hval]

/-- Settles O18: the loop ends at the length, and each table is the last entry's with its id. -/
theorem dqtLoadsTables : Obligations.DqtLoadsTables := by
  intro s es hlegal hlen hin
  have hcount := dqtBytes_length es
  have hparse := parseDqt_ends hlegal (hcount ▸ hlen) (fun es' hlt hpre => hcount ▸ dqtBytes_lt hlt hpre) hin
    hcount.ge
  rw [if_pos hcount] at hparse
  refine ⟨es.foldl setQt s.qt, commitOrRaise_commits hparse, fun t => ?_⟩
  rw [foldl_setQt es s.qt (fun e he => (hlegal e he).1) t]
  cases hfind : es.reverse.find? (fun e => e.id.toNat == t.val) with
  | none => rfl
  | some e =>
    have he : e ∈ es := List.mem_reverse.mp (List.mem_of_find?_eq_some hfind)
    exact ⟨rfl, placeZigzag_toNat (hlegal e he)⟩

/-- Settles O19: the entry byte the loop stops at, or the loop's end past the length. -/
theorem dqtErrorsInOrder : Obligations.DqtErrorsInOrder := by
  intro s es len pt hlegal hlen
  refine ⟨fun hin hmore hid => ?badId, fun hin hmore hid hcls => ?badClass, fun hin hpre hpast => ?badLength⟩
  case badId =>
    exact commitOrRaise_stopped (parseDqt_stops hlegal hlen hmore hin
      fun _ hfuel _ hb _ => dqtLoop_badId hmore hfuel hb hid)
  case badClass =>
    exact commitOrRaise_stopped (parseDqt_stops hlegal hlen hmore hin
      fun _ hfuel _ hb _ => dqtLoop_badClass hmore hfuel hb hid hcls)
  case badLength =>
    have hparse := parseDqt_ends hlegal hlen hpre hin hpast.le
    rw [if_neg hpast.ne'] at hparse
    exact commitOrRaise_stopped hparse

/-! ### DHT after legal entries -/

section
variable {es : List HtEntry} {dc ac : Vector HTable 4}

theorem htEntryBytes_ne_nil (e : HtEntry) : htEntryBytes e ≠ [] := List.cons_ne_nil _ _

theorem dhtBytes_length (es : List HtEntry) : (dhtBytes es).length = 2 + (es.flatMap htEntryBytes).length := by
  rw [dhtBytes, List.length_append, be16_length]

theorem dhtBytes_lt {es' : List HtEntry} (hlt : es'.length < es.length) (h : es' <+: es) :
    (dhtBytes es').length < (dhtBytes es).length := by
  have := flatMap_length_lt htEntryBytes_ne_nil h hlt
  rw [dhtBytes_length, dhtBytes_length]
  omega

/-- With the length field in the input, DHT is its entry loop and the check that the loop ended at the length. -/
theorem parseDht_at (hlen : len < 65536) (h : inputAt s p (be16 len)) :
    parseDht s p = dhtLoop s len len 2 s.dcHt s.acHt (p + 2) >>= fun r =>
      if r.1 = len then .ok (commitPos r.2.2.2 { s with dcHt := r.2.1, acHt := r.2.2.1 }) else .error .sBadLength := by
  simp only [parseDht, inU16_at hlen h, ok_bind, raiseIf_bind, bne_iff_ne, ne_eq, ite_not]

theorem dhtLoop_badId (hc : c < len) (hfuel : 0 < fuel) (h : inputAt s p [b]) (hid : 3 < b.toNat % 16) :
    dhtLoop s len fuel c dc ac p = .error .rHtId := by
  obtain ⟨n, rfl⟩ := Nat.exists_eq_succ_of_ne_zero hfuel.ne'
  rw [dhtLoop, if_neg (Nat.not_le.mpr hc)]
  simp only [inByte_at h, ok_bind, raiseIf_bind, loNibble_toNat, decide_eq_true_eq, if_pos hid]

theorem dhtLoop_badClass (hc : c < len) (hfuel : 0 < fuel) (h : inputAt s p [b]) (hid : b.toNat % 16 ≤ 3)
    (hcls : 1 < b.toNat / 16) : dhtLoop s len fuel c dc ac p = .error .sBadTableClass := by
  obtain ⟨n, rfl⟩ := Nat.exists_eq_succ_of_ne_zero hfuel.ne'
  rw [dhtLoop, if_neg (Nat.not_le.mpr hc)]
  simp only [inByte_at h, ok_bind, raiseIf_bind, loNibble_toNat, hiNibble_toNat, decide_eq_true_eq,
    if_neg (Nat.not_lt.mpr hid), if_pos hcls]

theorem dhtLoop_tooMany {counts : List Byte} (hc : c < len) (hfuel : 0 < fuel) (h : inputAt s p (b :: counts))
    (hid : b.toNat % 16 ≤ 3) (hcls : b.toNat / 16 ≤ 1) (hcount : counts.length = 16)
    (hsum : 162 < (counts.map BitVec.toNat).sum) : dhtLoop s len fuel c dc ac p = .error .rHtTooMany := by
  obtain ⟨n, rfl⟩ := Nat.exists_eq_succ_of_ne_zero hfuel.ne'
  have hcounts := inBytes_at (inputAt_cons h).2
  rw [hcount] at hcounts
  rw [dhtLoop, if_neg (Nat.not_le.mpr hc)]
  simp only [inByte_at h, hcounts, ok_bind, raiseIf_bind, loNibble_toNat, hiNibble_toNat, decide_eq_true_eq,
    if_neg (Nat.not_lt.mpr hid), if_neg (Nat.not_lt.mpr hcls), if_pos hsum]

/-- The segment past its legal entries, while the length goes past each one's start. -/
theorem parseDht_entries (hlegal : ∀ e ∈ es, htEntryLegal e) (hlen : len < 65536)
    (hpre : ∀ es', es'.length < es.length → es' <+: es → (dhtBytes es').length < len)
    (h : inputAt s p (be16 len ++ es.flatMap htEntryBytes)) :
    parseDht s p =
      dhtLoop s len (len - es.length) (dhtBytes es).length (es.foldl (setHt 0) s.dcHt) (es.foldl (setHt 1) s.acHt)
        (p + (dhtBytes es).length) >>= fun r =>
        if r.1 = len then .ok (commitPos r.2.2.2 { s with dcHt := r.2.1, acHt := r.2.2.1 })
        else .error .sBadLength := by
  simp only [dhtBytes_length] at hpre ⊢
  obtain ⟨hfield, hes⟩ := inputAt_append.mp h
  rw [be16_length] at hes
  have hfuel : es.length + (len - es.length) = len :=
    Nat.add_sub_of_le (length_le_of_starts htEntryBytes_ne_nil hpre)
  rw [parseDht_at hlen hfield, ← Nat.add_assoc, ← dhtLoop_entries hlegal hpre hes, hfuel]

/-- Entries that end at the length field's end or past it end the loop. -/
theorem parseDht_ends (hlegal : ∀ e ∈ es, htEntryLegal e) (hlen : len < 65536)
    (hpre : ∀ es', es'.length < es.length → es' <+: es → (dhtBytes es').length < len)
    (h : inputAt s p (be16 len ++ es.flatMap htEntryBytes)) (hend : len ≤ (dhtBytes es).length) :
    parseDht s p =
      if (dhtBytes es).length = len then
        .ok (commitPos (p + (dhtBytes es).length)
          { s with dcHt := es.foldl (setHt 0) s.dcHt, acHt := es.foldl (setHt 1) s.acHt })
      else .error .sBadLength := by
  rw [parseDht_entries hlegal hlen hpre h, dhtLoop_end hend, ok_bind]

/-- Entry bytes the loop stops at, after legal entries the length goes past. -/
theorem parseDht_stops {bs : List Byte} (hlegal : ∀ e ∈ es, htEntryLegal e) (hlen : len < 65536)
    (hmore : (dhtBytes es).length < len) (h : inputAt s p (be16 len ++ es.flatMap htEntryBytes ++ bs))
    (hstop : ∀ fuel, 0 < fuel → ∀ q, inputAt s q bs → ∀ dc ac,
      dhtLoop s len fuel (dhtBytes es).length dc ac q = .error d) :
    parseDht s p = .error d := by
  obtain ⟨hes, hbs⟩ := inputAt_append.mp h
  have hfuel : 0 < len - es.length := by
    have := length_le_flatMap htEntryBytes_ne_nil es
    rw [dhtBytes_length] at hmore
    omega
  have hat : p + (be16 len ++ es.flatMap htEntryBytes).length = p + (dhtBytes es).length := by
    rw [dhtBytes_length, List.length_append, be16_length]
  rw [parseDht_entries hlegal hlen (fun es' hlt hpre => (dhtBytes_lt hlt hpre).trans hmore) hes,
    hstop _ hfuel _ (hat ▸ hbs), error_bind]

/-- Where the input ends inside the length field or inside entries the length asks for. -/
theorem parseDht_short {e : HtEntry} (hlegal : ∀ e' ∈ es ++ [e], htEntryLegal e') (hlen : len < 65536)
    (hmore : (dhtBytes es).length < len)
    (h : inputEndsIn s p (be16 len ++ es.flatMap htEntryBytes ++ htEntryBytes e) k) :
    parseDht s p = .error .sTruncated := by
  rw [dhtBytes_length] at hmore
  rw [List.append_assoc] at h
  rcases inputEndsIn_append h with hfield | ⟨hfield, hentries⟩
  · rw [parseDht, inU16_short hfield, error_bind]
  · have hfuel : es.length < len := by
      have := length_le_flatMap htEntryBytes_ne_nil es
      omega
    rw [be16_length] at hentries
    rw [parseDht_at hlen hfield, dhtLoop_short hlegal hmore hfuel hentries, error_bind]

end

/-- Settles O20: the loop ends at the length, and each table is the last entry's with its class and id. -/
theorem dhtLoadsTables : Obligations.DhtLoadsTables := by
  intro s es hlegal hlen hin
  have hcount := dhtBytes_length es
  have hparse := parseDht_ends hlegal (hcount ▸ hlen) (fun es' hlt hpre => hcount ▸ dhtBytes_lt hlt hpre) hin
    hcount.ge
  rw [if_pos hcount] at hparse
  have hids : ∀ e ∈ es, e.id.toNat ≤ 3 := fun e he => (hlegal e he).2.1
  refine ⟨es.foldl (setHt 0) s.dcHt, es.foldl (setHt 1) s.acHt, commitOrRaise_commits hparse, fun t => ⟨?dc, ?ac⟩⟩
  case dc =>
    rw [foldl_setHt 0 es s.dcHt hids t]
    cases es.reverse.find? (fun e => e.cls.toNat == 0 && e.id.toNat == t.val) <;> rfl
  case ac =>
    rw [foldl_setHt 1 es s.acHt hids t]
    cases es.reverse.find? (fun e => e.cls.toNat == 1 && e.id.toNat == t.val) <;> rfl

/-- Settles O21: the entry bytes the loop stops at, or the loop's end past the length. -/
theorem dhtErrorsInOrder : Obligations.DhtErrorsInOrder := by
  intro s es len t counts hlegal hlen
  refine ⟨fun hin hmore hid => ?badId, fun hin hmore hid hcls => ?badClass,
    fun hin hmore hid hcls hcount hsum => ?tooMany, fun hin hpre hpast => ?badLength⟩
  case badId =>
    exact commitOrRaise_stopped (parseDht_stops hlegal hlen hmore hin
      fun _ hfuel _ hb _ _ => dhtLoop_badId hmore hfuel hb hid)
  case badClass =>
    exact commitOrRaise_stopped (parseDht_stops hlegal hlen hmore hin
      fun _ hfuel _ hb _ _ => dhtLoop_badClass hmore hfuel hb hid hcls)
  case tooMany =>
    exact commitOrRaise_stopped (parseDht_stops hlegal hlen hmore hin
      fun _ hfuel _ hb _ _ => dhtLoop_tooMany hmore hfuel hb hid hcls hcount hsum)
  case badLength =>
    have hparse := parseDht_ends hlegal hlen hpre hin hpast.le
    rw [if_neg hpast.ne'] at hparse
    exact commitOrRaise_stopped hparse

end Sys2Proof.Machine


/-! SUPPORT. The frame header (41_segment_parser.md rules R154 to R159): its fixed fields, the entry that stops it after
entries that pass, the descriptors it commits, and the input that ends inside it. -/

namespace Sys2Proof.Machine

variable {s : State} {d : Detail} {p len y x n k : Nat} {b prec nf : Byte}

/-! ### The fixed fields (rule R154) -/

/-- Where the fixed fields before the component count stand. -/
theorem inputAt_sofFields :
    inputAt s p (be16 len ++ [prec] ++ be16 y ++ be16 x) ↔
      inputAt s p (be16 len) ∧ inputAt s (p + 2) [prec] ∧ inputAt s (p + 3) (be16 y) ∧ inputAt s (p + 5) (be16 x) := by
  simp only [inputAt_append, List.length_append, be16_length, List.length_singleton, and_assoc, Nat.reduceAdd]

theorem sofHeader_length (len y x : Nat) (prec nf : Byte) :
    (be16 len ++ [prec] ++ be16 y ++ be16 x ++ [nf]).length = 8 := rfl

theorem parseSof0_seen (h : s.frame.seen = true) : parseSof0 s p = .error .sDupSof := by
  rw [parseSof0, h]
  rfl

section
variable (hseen : s.frame.seen = false) (hlen : len < 65536) (hy : y < 65536) (hx : x < 65536)
include hseen hlen

theorem parseSof0_precision (h : inputAt s p (be16 len ++ [prec])) (hprec : prec ≠ 8) :
    parseSof0 s p = .error .uPrecision := by
  obtain ⟨hfield, hp⟩ := inputAt_append.mp h
  rw [be16_length] at hp
  simp only [parseSof0, hseen, inU16_at hlen hfield, inByte_at hp, ok_bind, raiseIf_bind, Bool.false_eq_true, if_false,
    if_pos (bne_iff_ne.mpr hprec)]

include hy hx

theorem parseSof0_dimension (h : inputAt s p (be16 len ++ [8] ++ be16 y ++ be16 x)) (hzero : x = 0 ∨ y = 0) :
    parseSof0 s p = .error .sZeroDimension := by
  obtain ⟨hfield, hprec, hheight, hwidth⟩ := inputAt_sofFields.mp h
  simp only [parseSof0, hseen, inU16_at hlen hfield, inByte_at hprec, inU16_at hy hheight, inU16_at hx hwidth, ok_bind,
    raiseIf_bind, Nat.add_assoc, Nat.reduceAdd]
  simp [hzero]

/-- With non-zero dimensions, the component count decides: an error, or the length check and the component entries. -/
theorem parseSof0_count (h : inputAt s p (be16 len ++ [8] ++ be16 y ++ be16 x ++ [nf])) (hx0 : x ≠ 0) (hy0 : y ≠ 0) :
    parseSof0 s p =
      if nf = 4 then .error .uCmyk
      else if nf ≠ 1 ∧ nf ≠ 3 then .error .sBadComponentCount
      else if len ≠ 8 + 3 * nf.toNat then .error .sBadLength
      else frameEntries s nf.toNat nf.toNat true false [] (p + 8) >>= fun r =>
        if nf = 3 ∧ profileLegal r.1 = false then .error .uSampling
        else .ok (commitPos r.2.2 (commitFrame s y x nf.toNat r.2.1 r.1)) := by
  obtain ⟨hfields, hcount⟩ := inputAt_append.mp h
  obtain ⟨hfield, hprec, hheight, hwidth⟩ := inputAt_sofFields.mp hfields
  simp only [List.length_append, be16_length, List.length_singleton, Nat.reduceAdd] at hcount
  simp only [parseSof0, hseen, inU16_at hlen hfield, inByte_at hprec, inU16_at hy hheight, inU16_at hx hwidth,
    inByte_at hcount, ok_bind, raiseIf_bind, Nat.add_assoc, Nat.reduceAdd]
  simp [hx0, hy0]

end

/-- A header of 1 or 3 components with legal fixed fields is its component entries, and for 3 the sampling profile. -/
theorem parseSof0_entries (hseen : s.frame.seen = false) (hy : y < 65536) (hx : x < 65536) (hx0 : 0 < x) (hy0 : 0 < y)
    (hn : n = 1 ∨ n = 3) (h : inputAt s p (be16 (8 + 3 * n) ++ [8] ++ be16 y ++ be16 x ++ [BitVec.ofNat 8 n])) :
    parseSof0 s p =
      frameEntries s n n true false [] (p + 8) >>= fun r =>
        if n = 3 ∧ profileLegal r.1 = false then .error .uSampling
        else .ok (commitPos r.2.2 (commitFrame s y x n r.2.1 r.1)) := by
  have hlen : 8 + 3 * n < 65536 := by omega
  rw [parseSof0_count hseen hlen hy hx h hx0.ne' hy0.ne']
  rcases hn with rfl | rfl
  · rfl
  · simp

/-- Settles O23: each field's check, in the order the fields are read. -/
theorem sof0HeaderErrorsInOrder : Obligations.Sof0HeaderErrorsInOrder := by
  intro s len y x prec nf hlen hy hx
  refine ⟨fun hseen => commitOrRaise_stopped (parseSof0_seen hseen),
    fun hseen hin hprec => commitOrRaise_stopped (parseSof0_precision hseen hlen hin hprec),
    fun hseen hin hzero => commitOrRaise_stopped (parseSof0_dimension hseen hlen hy hx hin hzero),
    fun hseen hin hx0 hy0 => ?_⟩
  have hcount := parseSof0_count hseen hlen hy hx hin hx0 hy0
  refine ⟨fun h4 => ?cmyk, fun h1 h3 h4 => ?badCount, fun h13 hbad => ?badLength⟩
  case cmyk => exact commitOrRaise_stopped (hcount.trans (if_pos h4))
  case badCount => exact commitOrRaise_stopped (hcount.trans ((if_neg h4).trans (if_pos ⟨h1, h3⟩)))
  case badLength =>
    have h4 : nf ≠ 4 := by rcases h13 with rfl | rfl <;> decide
    have hlegal : ¬(nf ≠ 1 ∧ nf ≠ 3) := fun ⟨h1, h3⟩ => h13.elim h1 h3
    exact commitOrRaise_stopped (hcount.trans ((if_neg h4).trans ((if_neg hlegal).trans (if_pos hbad))))

/-! ### One component entry that fails (rules R155 and R157) -/

/-- An id within 1 to 3, or of a frame of one component, passes both checks of rule R155. -/
theorem idChecks_pass {id : Nat} (hid : n = 3 → 1 ≤ id ∧ id ≤ 3) :
    ¬(n == 3 && (id == 4 || id == 5)) = true ∧ ¬(n == 3 && !(id == 1 || id == 2 || id == 3)) = true := by
  simp only [Bool.and_eq_true, Bool.or_eq_true, Bool.not_eq_true', Bool.or_eq_false_iff, beq_iff_eq,
    beq_eq_false_iff_ne]
  omega

section
variable {e : SofEntry} {first zb z : Bool} {seen : List Nat} (hz : (zb || (first && e.id == 0)) = z)
include hz

theorem frameEntry_yiq (h : inputAt s p [e.id]) (hid : frameId z e = 4 ∨ frameId z e = 5) :
    frameEntry s 3 first zb seen p = .error .uYiq := by
  unfold frameId at hid
  simp only [frameEntry, inByte_at h, ok_bind, raiseIf_bind, hz]
  simp [hid]

theorem frameEntry_badId (h : inputAt s p [e.id]) (hid : frameId z e = 0 ∨ 5 < frameId z e) :
    frameEntry s 3 first zb seen p = .error .sBadComponentId := by
  unfold frameId at hid
  simp only [frameEntry, inByte_at h, ok_bind, raiseIf_bind, hz]
  rw [if_neg (by simp; omega), if_pos (by simp; omega)]

theorem frameEntry_duplicate (h : inputAt s p [e.id]) (hid : n = 3 → 1 ≤ frameId z e ∧ frameId z e ≤ 3)
    (hmem : frameId z e ∈ seen) : frameEntry s n first zb seen p = .error .sDupComponent := by
  unfold frameId at hid hmem
  obtain ⟨hyiq, hbad⟩ := idChecks_pass hid
  simp only [frameEntry, inByte_at h, ok_bind, raiseIf_bind, hz, if_neg hyiq, if_neg hbad,
    if_pos (List.contains_iff_mem.mpr hmem)]

/-- An entry whose id passes: its factors' check, its table id's check, its descriptor. -/
theorem frameEntry_fields (h : inputAt s p (sofEntryBytes e)) (hid : idPasses n seen (frameId z e)) :
    frameEntry s n first zb seen p =
      if ¬(1 ≤ e.h.toNat ∧ e.h.toNat ≤ 4 ∧ 1 ≤ e.v.toNat ∧ e.v.toNat ≤ 4) then .error .sBadSampling
      else if 3 < e.tq.toNat then .error .rQtId
      else .ok (compOf n z e, z, p + 3) := by
  obtain ⟨hrange, hnew⟩ := hid
  unfold frameId at hrange hnew
  obtain ⟨hyiq, hbad⟩ := idChecks_pass hrange
  have hhv := inputAt_cons h
  have htq := inputAt_cons hhv.2
  obtain ⟨hhi, hlo⟩ := nibbles_rsByte e.h e.v
  have hfactors : (!(factorLegal e.h && factorLegal e.v)) = true ↔
      ¬(1 ≤ e.h.toNat ∧ e.h.toNat ≤ 4 ∧ 1 ≤ e.v.toNat ∧ e.v.toNat ≤ 4) := by
    rw [Bool.not_eq_true', ← Bool.not_eq_true, Bool.and_eq_true, factorLegal_iff, factorLegal_iff, and_assoc]
  have hwidth : ∀ f : BitVec 4, f.setWidth 3 = BitVec.ofNat 3 f.toNat := fun f => by
    rw [BitVec.ofNat_toNat]
  simp only [frameEntry, inByte_at h, inByte_at hhv.2, inByte_at htq.2, ok_bind, raiseIf_bind, hz, if_neg hyiq,
    if_neg hbad, List.contains_iff_mem, if_neg hnew, hhi, hlo, hfactors, decide_eq_true_eq, hwidth]
  rfl

end

/-! ### The component entries after entries that pass -/

section
variable {es : List SofEntry} {bad : SofEntry}

/-- The zero-based-id flag after one more entry: the first entry alone sets it. -/
theorem zeroBasedIds_concat (es : List SofEntry) (bad : SofEntry) :
    (zeroBasedIds es || (es.isEmpty && bad.id == 0)) = zeroBasedIds (es ++ [bad]) := by
  cases es with
  | nil => rfl
  | cons e es => simp [zeroBasedIds]

theorem zeroBasedIds_append (hne : es ≠ []) (l : List SofEntry) : zeroBasedIds (es ++ l) = zeroBasedIds es := by
  cases es with
  | nil => exact absurd rfl hne
  | cons e es => rfl

/-- The entry loop past entries that pass, from the frame's first. -/
theorem frameEntries_after {left : Nat} (hp : sofEntriesPass n es) (h : inputAt s p (es.flatMap sofEntryBytes))
    (hleft : left = es.length + k) :
    frameEntries s n left true false [] p =
      (frameEntries s n k es.isEmpty (zeroBasedIds es) (es.map (frameId (zeroBasedIds es))).reverse
        (p + 3 * es.length)).map fun r => (es.map (compOf n (zeroBasedIds es)) ++ r.1, r.2) := by
  subst hleft
  cases es with
  | nil =>
    rw [List.length_nil, Nat.zero_add]
    change _ = (frameEntries s n k true false [] p).map fun r => ([] ++ r.1, r.2)
    cases frameEntries s n k true false [] p <;> rfl
  | cons e es => exact frameEntries_pass (List.cons_ne_nil _ _) hp h

theorem flatMap_length_of_const {α : Type} {f : α → List Byte} (hf : ∀ a, (f a).length = n) (l : List α) :
    (l.flatMap f).length = n * l.length := by
  simp [List.length_flatMap, hf, Nat.mul_comm]

/-- An entry that passes after entries that pass. -/
theorem sofEntriesPass_concat (hp : sofEntriesPass n es) (hne : es ≠ []) (hf : sofFieldsLegal bad)
    (hid : n = 3 → 1 ≤ frameId (zeroBasedIds es) bad ∧ frameId (zeroBasedIds es) bad ≤ 3)
    (hnew : frameId (zeroBasedIds es) bad ∉ es.map (frameId (zeroBasedIds es))) : sofEntriesPass n (es ++ [bad]) := by
  obtain ⟨hfields, hnodup, hids⟩ := hp
  rw [sofEntriesPass, zeroBasedIds_append hne, List.map_append]
  refine ⟨List.forall_mem_append.mpr ⟨hfields, List.forall_mem_singleton.mpr hf⟩, ?_,
    fun hn => List.forall_mem_append.mpr ⟨hids hn, List.forall_mem_singleton.mpr (hid hn)⟩⟩
  exact List.concat_eq_append ▸ hnodup.concat hnew

/-- The channel of an id within 1 to 3 is the luma channel where the id is 1. -/
theorem channel_eq_zero_iff {id : Nat} (hid : 1 ≤ id ∧ id ≤ 3) : Fin.ofNat 3 (id - 1) = 0 ↔ id = 1 := by
  obtain rfl | rfl | rfl : id = 1 ∨ id = 2 ∨ id = 3 := by omega
  all_goals decide

/-- A factor in the 3 bits of its descriptor. -/
theorem factor_eq_iff {f : BitVec 4} (hf : f.toNat ≤ 4) :
    (BitVec.ofNat 3 f.toNat = 1 ↔ f = 1) ∧ (BitVec.ofNat 3 f.toNat = 2 ↔ f = 2) := by
  revert f
  decide

/-- The profile's check of the descriptors is the profile of the entries. -/
theorem profileLegal_iff (hp : sofEntriesPass 3 es) :
    profileLegal (es.map (compOf 3 (zeroBasedIds es))) = true ↔ profileOf es := by
  obtain ⟨hfields, -, hids⟩ := hp
  rw [profileLegal, List.all_map, List.all_eq_true, profileOf]
  refine forall₂_congr fun e he => ?_
  obtain ⟨-, hh, -, hv, -⟩ := hfields e he
  have hch : (compOf 3 (zeroBasedIds es) e).ch = 0 ↔ frameId (zeroBasedIds es) e = 1 :=
    channel_eq_zero_iff (hids rfl e he)
  obtain ⟨hh1, hh2⟩ := factor_eq_iff hh
  obtain ⟨hv1, hv2⟩ := factor_eq_iff hv
  by_cases h1 : frameId (zeroBasedIds es) e = 1
  · rw [Function.comp_apply, if_pos (hch.mpr h1), if_pos h1]
    simp only [compOf, Bool.and_eq_true, Bool.or_eq_true, beq_iff_eq, hh1, hh2, hv1, hv2]
  · rw [Function.comp_apply, if_neg (mt hch.mp h1), if_neg h1]
    simp only [compOf, Bool.and_eq_true, beq_iff_eq, hh1, hv1]

variable (hseen : s.frame.seen = false) (hy : y < 65536) (hx : x < 65536) (hx0 : 0 < x) (hy0 : 0 < y)
  (hn : n = 1 ∨ n = 3)
include hseen hy hx hx0 hy0 hn

/-- An entry the loop stops at, after entries that pass. -/
theorem parseSof0_stops {bs : List Byte} (hp : sofEntriesPass n es) (hlt : es.length < n)
    (h : inputAt s p
      (be16 (8 + 3 * n) ++ [8] ++ be16 y ++ be16 x ++ [BitVec.ofNat 8 n] ++ es.flatMap sofEntryBytes ++ bs))
    (hstop : ∀ q, inputAt s q bs →
      frameEntry s n es.isEmpty (zeroBasedIds es) (es.map (frameId (zeroBasedIds es))).reverse q = .error d) :
    parseSof0 s p = .error d := by
  obtain ⟨hentries, hbad⟩ := inputAt_append.mp h
  obtain ⟨hfields, hes⟩ := inputAt_append.mp hentries
  rw [List.length_append, sofHeader_length, flatMap_length_of_const sofEntryBytes_length, ← Nat.add_assoc] at hbad
  rw [sofHeader_length] at hes
  have hleft : n = es.length + (n - es.length - 1 + 1) := by omega
  rw [parseSof0_entries hseen hy hx hx0 hy0 hn hfields, frameEntries_after hp hes hleft, frameEntries, hstop _ hbad]
  rfl

/-- A whole frame of entries that pass, by the sampling profile. -/
theorem parseSof0_all (hne : es ≠ []) (hlength : es.length = n) (hp : sofEntriesPass n es)
    (h : inputAt s p
      (be16 (8 + 3 * n) ++ [8] ++ be16 y ++ be16 x ++ [BitVec.ofNat 8 n] ++ es.flatMap sofEntryBytes)) :
    parseSof0 s p =
      if n = 3 ∧ profileLegal (es.map (compOf n (zeroBasedIds es))) = false then .error .uSampling
      else .ok (commitPos (p + 8 + 3 * n)
        (commitFrame s y x n (zeroBasedIds es) (es.map (compOf n (zeroBasedIds es))))) := by
  subst hlength
  obtain ⟨hfields, hes⟩ := inputAt_append.mp h
  rw [sofHeader_length] at hes
  rw [parseSof0_entries hseen hy hx hx0 hy0 hn hfields, frameEntries_all hne hp hes, ok_bind]

end

/-- Settles O24: the entry the loop stops at, by the check that fails, and the profile of a whole frame. -/
theorem sof0ComponentErrorsInOrder : Obligations.Sof0ComponentErrorsInOrder := by
  intro s y x n es bad id hseen hy0 hy hx0 hx hn hp hid hlt
  subst hid
  have hz := zeroBasedIds_concat es bad
  refine ⟨fun hin => ⟨fun hn3 h45 => ?yiq, fun hn3 hbad => ?badId, fun hmem => ?duplicate⟩,
    fun hin hrange hnew => ⟨fun hbad => ?badFactors, fun h1 h2 h3 h4 htq => ?badTable,
      fun hf hn3 hlast hprofile => ?profile⟩⟩
  case yiq =>
    subst hn3
    exact commitOrRaise_stopped (parseSof0_stops hseen hy hx hx0 hy0 hn hp hlt hin
      fun _ hb => frameEntry_yiq hz hb h45)
  case badId =>
    subst hn3
    exact commitOrRaise_stopped (parseSof0_stops hseen hy hx hx0 hy0 hn hp hlt hin
      fun _ hb => frameEntry_badId hz hb hbad)
  case duplicate =>
    obtain ⟨e, he, heq⟩ := List.mem_map.mp hmem
    exact commitOrRaise_stopped (parseSof0_stops hseen hy hx hx0 hy0 hn hp hlt hin
      fun _ hb => frameEntry_duplicate hz hb (fun hn3 => heq ▸ hp.2.2 hn3 e he) (List.mem_reverse.mpr hmem))
  case badFactors =>
    exact commitOrRaise_stopped (parseSof0_stops hseen hy hx hx0 hy0 hn hp hlt hin fun _ hb =>
      (frameEntry_fields hz hb ⟨hrange, mt List.mem_reverse.mp hnew⟩).trans (if_pos hbad))
  case badTable =>
    exact commitOrRaise_stopped (parseSof0_stops hseen hy hx hx0 hy0 hn hp hlt hin fun _ hb =>
      (frameEntry_fields hz hb ⟨hrange, mt List.mem_reverse.mp hnew⟩).trans
        ((if_neg (not_not.mpr ⟨h1, h2, h3, h4⟩)).trans (if_pos htq)))
  case profile =>
    subst hn3
    have hne : es ≠ [] := List.ne_nil_of_length_eq_add_one hlast
    rw [zeroBasedIds_append hne] at hrange hnew
    have hall := sofEntriesPass_concat hp hne hf hrange hnew
    have hillegal : profileLegal ((es ++ [bad]).map (compOf 3 (zeroBasedIds (es ++ [bad])))) = false :=
      Bool.eq_false_iff.mpr (mt (profileLegal_iff hall).mp hprofile)
    rw [List.append_assoc _ (es.flatMap sofEntryBytes), ← List.flatMap_singleton sofEntryBytes bad,
      ← List.flatMap_append] at hin
    have hparse := parseSof0_all hseen hy hx hx0 hy0 hn (by simp) (by simp [hlast]) hall hin
    exact commitOrRaise_stopped (hparse.trans (if_pos ⟨rfl, hillegal⟩))

/-! ### The frame committed (rules R156, R158 and R159) -/

section
variable {es : List SofEntry}

/-- The MCU's factors fit their registers. -/
theorem mcuSampling_lt (hf : ∀ e ∈ es, sofFieldsLegal e) : (mcuSampling es).1 < 8 ∧ (mcuSampling es).2 < 8 := by
  rw [mcuSampling]
  split
  · cases hfind : es.find? (fun e => frameId (zeroBasedIds es) e == 1) with
    | none => decide
    | some e =>
      obtain ⟨-, hh, -, hv, -⟩ := hf e (List.mem_of_find?_eq_some hfind)
      exact ⟨hh.trans_lt (by decide), hv.trans_lt (by decide)⟩
  · decide

/-- The factors of the luma descriptor are those of the entry with id 1. -/
theorem mcuFactors_eq (hp : sofEntriesPass es.length es) :
    mcuFactors es.length (es.map (compOf es.length (zeroBasedIds es))) =
      (BitVec.ofNat 3 (mcuSampling es).1, BitVec.ofNat 3 (mcuSampling es).2) := by
  by_cases h3 : es.length = 3
  · have hluma : ∀ e ∈ es, ((fun c : Comp => c.ch == 0) ∘ compOf es.length (zeroBasedIds es)) e =
        (frameId (zeroBasedIds es) e == 1) := fun e he => by
      have hch : (compOf es.length (zeroBasedIds es) e).ch = Fin.ofNat 3 (frameId (zeroBasedIds es) e - 1) :=
        if_neg (by omega)
      rw [Function.comp_apply, hch, Bool.eq_iff_iff, beq_iff_eq, beq_iff_eq, channel_eq_zero_iff (hp.2.2 h3 e he)]
    rw [mcuFactors, mcuSampling, if_pos h3, if_pos h3, List.find?_map, List.find?_congr hluma]
    cases es.find? (fun e => frameId (zeroBasedIds es) e == 1) <;> rfl
  · rw [mcuFactors, mcuSampling, if_neg h3, if_neg h3]
    rfl

theorem setComps_getElem {α : Type} (old : Vector Comp 3) (es : List α) (f : α → Comp) (i : Fin 3) :
    (setComps old (es.map f))[i] = (es[i.val]?.map f).getD old[i] := by
  rw [setComps, Fin.getElem_fin, Vector.getElem_ofFn, List.getD_eq_getElem?_getD, List.getElem?_map]

end

/-- Settles O22: the entries pass, and the descriptors are the entries', with the MCU grid of the luma factors. -/
theorem sof0CommitsLegalFrame : Obligations.Sof0CommitsLegalFrame := by
  intro s y x es hseen hy0 hy hx0 hx hn hp hprofile hin
  have hne : es ≠ [] := List.ne_nil_of_length_pos (by omega)
  have hlegal : ¬(es.length = 3 ∧ profileLegal (es.map (compOf es.length (zeroBasedIds es))) = false) := by
    rintro ⟨h3, hbad⟩
    rw [h3] at hp hbad
    exact Bool.false_ne_true (hbad.symm.trans ((profileLegal_iff hp).mpr (hprofile h3)))
  have hparse := parseSof0_all hseen hy hx hx0 hy0 hn hne rfl hp hin
  rw [if_neg hlegal] at hparse
  obtain ⟨hh, hv⟩ := mcuSampling_lt hp.1
  refine ⟨setComps s.comp (es.map (compOf es.length (zeroBasedIds es))), (commitOrRaise_commits hparse).trans ?state,
    fun i => ?comps⟩
  case state =>
    simp only [commitFrame, mcuFactors_eq hp, BitVec.toNat_ofNat, Nat.mod_eq_of_lt hh, Nat.mod_eq_of_lt hv,
      apply_ite (BitVec.ofNat 32)]
    rfl
  case comps =>
    rw [setComps_getElem]
    cases es[i.val]? <;> rfl

/-! ### Inputs that end inside the header (rule R150) -/

theorem inByte_short (h : inputEndsIn s p [b] k) : inByte s p = .error .sTruncated :=
  inByte_end (Nat.le_of_lt_succ (inputEndsIn_lt h))

section
variable (hseen : s.frame.seen = false) (hy : y < 65536) (hx : x < 65536)
include hseen hy hx

/-- In the fixed fields: an input that holds both dimensions ends before the count only where they are not zero. -/
theorem parseSof0_shortFields (hlen : len < 65536) (hdim : k < 7 ∨ (0 < x ∧ 0 < y))
    (h : inputEndsIn s p (be16 len ++ [8] ++ be16 y ++ be16 x ++ [nf]) k) : parseSof0 s p = .error .sTruncated := by
  have hend : s.inLen.toNat = p + k := h.2.2
  simp only [List.append_assoc] at h
  rcases inputEndsIn_append h with h | ⟨hfield, h⟩
  · simp only [parseSof0, hseen, raiseIf_bind, Bool.false_eq_true, if_false, inU16_short h, error_bind]
  rcases inputEndsIn_append h with h | ⟨hprec, h⟩
  · simp only [parseSof0, hseen, raiseIf_bind, Bool.false_eq_true, if_false, inU16_at hlen hfield, ok_bind,
      inByte_short (p := p + 2) h, error_bind]
  rcases inputEndsIn_append h with h | ⟨hheight, h⟩
  · simp only [parseSof0, hseen, raiseIf_bind, Bool.false_eq_true, if_false, inU16_at hlen hfield, ok_bind,
      inByte_at (p := p + 2) hprec, bne_self_eq_false, inU16_short (p := p + 2 + 1) h, error_bind]
  rcases inputEndsIn_append h with h | ⟨hwidth, h⟩
  · simp only [parseSof0, hseen, raiseIf_bind, Bool.false_eq_true, if_false, inU16_at hlen hfield, ok_bind,
      inByte_at (p := p + 2) hprec, bne_self_eq_false, inU16_at (p := p + 2 + 1) hy hheight,
      inU16_short (p := p + 2 + 1 + 2) h, error_bind]
  have hlast : p + 7 ≤ s.inLen.toNat := inputAt_length hwidth
  have hzero : ¬(x == 0 || y == 0) = true := by simp; omega
  simp only [parseSof0, hseen, raiseIf_bind, Bool.false_eq_true, if_false, inU16_at hlen hfield, ok_bind,
    inByte_at (p := p + 2) hprec, bne_self_eq_false, inU16_at (p := p + 2 + 1) hy hheight,
    inU16_at (p := p + 2 + 1 + 2) hx hwidth, if_neg hzero, inByte_short (p := p + 2 + 1 + 2 + 2) h, error_bind]

/-- In the fixed fields or in entries that pass. -/
theorem parseSof0_short {es : List SofEntry} (hx0 : 0 < x) (hy0 : 0 < y) (hn : es.length = 1 ∨ es.length = 3)
    (hp : sofEntriesPass es.length es) (h : inputEndsIn s p (sof0Bytes 8 y x es) k) :
    parseSof0 s p = .error .sTruncated := by
  rcases inputEndsIn_append h with h | ⟨hfields, hes⟩
  · exact parseSof0_shortFields hseen hy hx (by omega) (.inr ⟨hx0, hy0⟩) h
  · rw [sofHeader_length] at hes
    rw [parseSof0_entries hseen hy hx hx0 hy0 hn hfields, frameEntries_short hp hes, error_bind]

end

end Sys2Proof.Machine


/-! SUPPORT. The scan header (41_segment_parser.md rules R163 to R165): its fixed fields, the entry that stops it after
entries that pass, the table ids and scan order it commits, and the input that ends inside it. -/

namespace Sys2Proof.Machine

variable {s : State} {d : Detail} {p len k left : Nat} {ns ss se a : Byte}

/-! ### The fixed fields (rule R163) -/

/-- The end of the scan header (rules R164 and R165): the three spectral fields, and the commit. -/
def finishScan (s : State) (n : Nat) (r : List (Fin 3) × Vector Comp 3 × Nat) : Except Detail State := do
  let ss ← inByte s r.2.2
  let se ← inByte s ss.2
  let a ← inByte s se.2
  raiseIf (ss.1 != 0 || se.1 != 63 || a.1 != 0) .uProgressive
  .ok (commitPos a.2
    { s with comp := r.2.1, scan := setScan s.scan r.1, ns := BitVec.ofNat 2 n, phase := .extract })

theorem parseSos_noFrame (h : s.frame.seen = false) : parseSos s p = .error .sSosBeforeSof := by
  rw [parseSos, h]
  rfl

/-- With the length and the count in the input, SOS is their checks, the component entries and the header's end. -/
theorem parseSos_at (hseen : s.frame.seen = true) (hlen : len < 65536) (h : inputAt s p (be16 len ++ [ns])) :
    parseSos s p =
      if ns = 0 ∨ s.frame.nf.toNat < ns.toNat then .error .sBadScanCount
      else if ns.toNat < s.frame.nf.toNat then .error .uPartialScan
      else if len ≠ 6 + 2 * ns.toNat then .error .sBadLength
      else scanEntries s ns.toNat [] s.comp (p + 3) >>= finishScan s ns.toNat := by
  obtain ⟨hfield, hcount⟩ := inputAt_append.mp h
  simp only [parseSos, hseen, inU16_at hlen hfield, inByte_at (p := p + 2) hcount, ok_bind]
  rw [raiseIf_bind, raiseIf_bind, raiseIf_bind, raiseIf_bind]
  simp only [Bool.not_true, Bool.false_eq_true, if_false, Bool.or_eq_true, beq_iff_eq, decide_eq_true_eq, bne_iff_ne]
  rfl

/-- A header whose count and length pass is its component entries and its end. -/
theorem parseSos_entries (hseen : s.frame.seen = true) (hlen : len < 65536) (h : inputAt s p (be16 len ++ [ns]))
    (h0 : ns ≠ 0) (hns : ns.toNat = s.frame.nf.toNat) (hlength : len = 6 + 2 * ns.toNat) :
    parseSos s p = scanEntries s ns.toNat [] s.comp (p + 3) >>= finishScan s ns.toNat := by
  have hcount : ¬(ns = 0 ∨ s.frame.nf.toNat < ns.toNat) := not_or.mpr ⟨h0, hns.le.not_gt⟩
  rw [parseSos_at hseen hlen h, if_neg hcount, if_neg hns.ge.not_gt, if_neg (not_not.mpr hlength)]

/-- The fixed fields of a scan of all of the frame's `n` components. -/
theorem parseSos_wholeScan {n : Nat} (hseen : s.frame.seen = true) (hpos : 0 < n) (hn : n = s.frame.nf.toNat)
    (h : inputAt s p (be16 (6 + 2 * n) ++ [BitVec.ofNat 8 n])) :
    parseSos s p = scanEntries s n [] s.comp (p + 3) >>= finishScan s n := by
  have hlt : n < 4 := hn ▸ s.frame.nf.isLt
  have hns : (BitVec.ofNat 8 n).toNat = n := Nat.mod_eq_of_lt (by omega)
  have h0 : BitVec.ofNat 8 n ≠ 0 := fun h => hpos.ne' (hns.symm.trans (congrArg BitVec.toNat h))
  rw [parseSos_entries hseen (by omega) h h0 (hns.trans hn) (by rw [hns]), hns]

theorem finishScan_at {r : List (Fin 3) × Vector Comp 3 × Nat} {n : Nat} (h : inputAt s r.2.2 [ss, se, a]) :
    finishScan s n r =
      if ss = 0 ∧ se = 63 ∧ a = 0 then
        .ok (commitPos (r.2.2 + 3)
          { s with comp := r.2.1, scan := setScan s.scan r.1, ns := BitVec.ofNat 2 n, phase := .extract })
      else .error .uProgressive := by
  have hse := (inputAt_cons h).2
  have ha := (inputAt_cons hse).2
  have hfields : ((ss ≠ 0 ∨ se ≠ 63) ∨ a ≠ 0) ↔ ¬(ss = 0 ∧ se = 63 ∧ a = 0) := by
    rw [not_and_or, not_and_or, or_assoc]
  simp only [finishScan, inByte_at h, inByte_at hse, inByte_at ha, ok_bind, raiseIf_bind, Bool.or_eq_true, bne_iff_ne,
    hfields, ite_not]

theorem finishScan_short {r : List (Fin 3) × Vector Comp 3 × Nat} {n : Nat} (h : inputEndsIn s r.2.2 [ss, se, a] k) :
    finishScan s n r = .error .sTruncated := by
  rcases inputEndsIn_cons h with hend | ⟨hss, h⟩
  · rw [finishScan, inByte_end hend, error_bind]
  rcases inputEndsIn_cons h with hend | ⟨hse, h⟩
  · rw [finishScan, inByte_at hss, ok_bind, inByte_end hend, error_bind]
  · rw [finishScan, inByte_at hss, ok_bind, inByte_at hse, ok_bind, inByte_short h, error_bind]

/-! ### One component entry that fails (rule R164) -/

section
variable {bad : SosEntry} {seen : List Nat} {comp : Vector Comp 3} (hc : ∀ i : Fin 3, comp[i].id = s.comp[i].id)
include hc

theorem scanEntries_unknown (h : inputAt s p [bad.id]) (hid : ¬scanIdInFrame s bad) :
    scanEntries s (left + 1) seen comp p = .error .sBadComponentId := by
  have hfind : findComp s comp (scanId s bad) = none := by
    rw [findComp_ids hc]
    exact findComp_none fun i hi heq => hid ⟨i, hi, heq⟩
  unfold scanId at hfind
  simp only [scanEntries, inByte_at h, ok_bind, hfind]

theorem scanEntries_duplicate (h : inputAt s p [bad.id]) (hid : scanIdInFrame s bad) (hmem : scanId s bad ∈ seen) :
    scanEntries s (left + 1) seen comp p = .error .sDupComponent := by
  obtain ⟨i, hfind⟩ := findComp_isSome hc hid
  unfold scanId at hfind hmem
  simp only [scanEntries, inByte_at h, ok_bind, hfind, raiseIf_bind, if_pos (List.contains_iff_mem.mpr hmem)]

theorem scanEntries_badTable (h : inputAt s p (sosEntryBytes bad)) (hid : scanIdInFrame s bad)
    (hnew : scanId s bad ∉ seen) (htable : 3 < bad.td.toNat ∨ 3 < bad.ta.toNat) : scanEntries s (left + 1) seen comp p = .error .rHtId := by
  obtain ⟨i, hfind⟩ := findComp_isSome hc hid
  obtain ⟨htd, hta⟩ := nibbles_rsByte bad.td bad.ta
  unfold scanId at hfind hnew
  simp only [scanEntries, inByte_at h, inByte_at (inputAt_cons h).2, ok_bind, hfind, raiseIf_bind,
    List.contains_iff_mem, if_neg hnew, htd, hta, Bool.or_eq_true, decide_eq_true_eq, if_pos htable]

end

/-! ### The component entries after entries that pass -/

section
variable {es : List SosEntry}

theorem sosEntryBytes_length (e : SosEntry) : (sosEntryBytes e).length = 2 := rfl

theorem sosHeader_length (len : Nat) (ns : Byte) : (be16 len ++ [ns]).length = 3 := rfl

/-- Where the input past the entries stands. -/
theorem sosEntries_length (len : Nat) (ns : Byte) (es : List SosEntry) :
    p + (be16 len ++ [ns] ++ es.flatMap sosEntryBytes).length = p + 3 + 2 * es.length := by
  rw [List.length_append, sosHeader_length, flatMap_length_of_const sosEntryBytes_length, Nat.add_assoc]

/-- An entry the loop stops at, after entries that pass. -/
theorem parseSos_stops {bs : List Byte} (hseen : s.frame.seen = true) (hlen : len < 65536) (h0 : ns ≠ 0)
    (hns : ns.toNat = s.frame.nf.toNat) (hlength : len = 6 + 2 * ns.toNat) (hp : sosEntriesPass s es)
    (hlt : es.length < ns.toNat) (h : inputAt s p (be16 len ++ [ns] ++ es.flatMap sosEntryBytes ++ bs))
    (hstop : ∀ left comp q, (∀ i : Fin 3, comp[i].id = s.comp[i].id) → inputAt s q bs →
      scanEntries s (left + 1) (es.map (scanId s)).reverse comp q = .error d) :
    parseSos s p = .error d := by
  obtain ⟨hentries, hbad⟩ := inputAt_append.mp h
  obtain ⟨hfields, hes⟩ := inputAt_append.mp hentries
  obtain ⟨is, comp, hc, hrest⟩ := scanEntries_rest (left := ns.toNat - es.length - 1 + 1) (p := p + 3) (seen := [])
    (fun _ => rfl) hp (fun _ _ => List.not_mem_nil) hes
  have hleft : es.length + (ns.toNat - es.length - 1 + 1) = ns.toNat := by omega
  rw [sosEntries_length] at hbad
  rw [parseSos_entries hseen hlen hfields h0 hns hlength, ← hleft, hrest, List.append_nil, hstop _ _ _ hc hbad]
  rfl

end

/-- Settles O26: each field's check, in the order the fields are read, and the entry the loop stops at. -/
theorem sosErrorsInOrder : Obligations.SosErrorsInOrder := by
  intro s len ns es bad hlen
  refine ⟨fun hseen => commitOrRaise_stopped (parseSos_noFrame hseen), fun hseen hin => ?_⟩
  have hat := parseSos_at hseen hlen hin
  refine ⟨fun hbad => ?badCount, fun h0 hless => ?partialScan, fun h0 hns hbad => ?badLength,
    fun h0 hns hlength hp hlt => ⟨fun hin => ⟨fun hid => ?unknown, fun hmem => ?duplicate⟩,
      fun hin hid hnew htable => ?badTable⟩⟩
  case badCount => exact commitOrRaise_stopped (hat.trans (if_pos hbad))
  case partialScan =>
    exact commitOrRaise_stopped (hat.trans ((if_neg (not_or.mpr ⟨h0, hless.le.not_gt⟩)).trans (if_pos hless)))
  case badLength =>
    exact commitOrRaise_stopped (hat.trans ((if_neg (not_or.mpr ⟨h0, hns.le.not_gt⟩)).trans
      ((if_neg hns.ge.not_gt).trans (if_pos hbad))))
  case unknown =>
    exact commitOrRaise_stopped (parseSos_stops hseen hlen h0 hns hlength hp hlt hin
      fun _ _ _ hc hb => scanEntries_unknown hc hb hid)
  case duplicate =>
    obtain ⟨e, he, heq⟩ := List.mem_map.mp hmem
    have hid : scanIdInFrame s bad := by
      have he := (hp.1 e he).1
      rwa [scanIdInFrame, heq] at he
    exact commitOrRaise_stopped (parseSos_stops hseen hlen h0 hns hlength hp hlt hin
      fun _ _ _ hc hb => scanEntries_duplicate hc hb hid (List.mem_reverse.mpr hmem))
  case badTable =>
    exact commitOrRaise_stopped (parseSos_stops hseen hlen h0 hns hlength hp hlt hin
      fun _ _ _ hc hb => scanEntries_badTable hc hb hid (mt List.mem_reverse.mp hnew) htable)

/-! ### The scan committed (rules R164 and R165) -/

section
variable {comp : Vector Comp 3} {e : SosEntry} {i j : Fin 3}

/-- In a legal frame one live position alone has an id. -/
theorem frameIds_inj (hf : FrameOk s) (hi : i.val < s.frame.nf.toNat) (hj : j.val < s.frame.nf.toNat)
    (h : s.comp[i].id.toNat = s.comp[j].id.toNat) : i = j := by
  rcases hf.count with h1 | h3
  · rw [h1] at hi hj
    have hi0 : i.val < 1 := hi
    have hj0 : j.val < 1 := hj
    omega
  · have hch := (hf.ids h3 i).symm.trans (h.trans (hf.ids h3 j))
    exact hf.channels h3 i j (Fin.ext (Nat.succ.inj hch))

theorem setScanComp_same (comp : Vector Comp 3) (i : Fin 3) (e : SosEntry) :
    (setScanComp comp i e)[i] =
      { comp[i] with td := Fin.ofNat 4 e.td.toNat, ta := Fin.ofNat 4 e.ta.toNat } := by
  simp [setScanComp]

theorem setScanComp_other (comp : Vector Comp 3) (e : SosEntry) (h : j ≠ i) : (setScanComp comp i e)[j] = comp[j] := by
  rw [setScanComp, Fin.getElem_fin, Vector.getElem_set_ne _ _ (fun hij => h (Fin.ext hij.symm)), Fin.getElem_fin]

/-- The references loaded, in scan order. -/
def loadScan (comp : Vector Comp 3) (l : List (SosEntry × Fin 3)) : Vector Comp 3 :=
  l.foldl (fun c x => setScanComp c x.2 x.1) comp

theorem loadScan_other : ∀ {l : List (SosEntry × Fin 3)} {comp : Vector Comp 3}, i ∉ l.map Prod.snd →
    (loadScan comp l)[i] = comp[i]
  | [], _, _ => rfl
  | (e, j) :: l, comp, h => by
    rw [List.map_cons, List.mem_cons, not_or] at h
    exact (loadScan_other (l := l) (comp := setScanComp comp j e) h.2).trans (setScanComp_other comp e h.1)

theorem loadScan_mem : ∀ {l : List (SosEntry × Fin 3)} {comp : Vector Comp 3}, (l.map Prod.snd).Nodup → (e, i) ∈ l →
    (loadScan comp l)[i] = { comp[i] with td := Fin.ofNat 4 e.td.toNat, ta := Fin.ofNat 4 e.ta.toNat }
  | (e', j) :: l, comp, hn, h => by
    rw [List.map_cons, List.nodup_cons] at hn
    rcases List.mem_cons.mp h with heq | hmem
    · obtain ⟨rfl, rfl⟩ := Prod.mk.inj heq
      exact (loadScan_other (l := l) hn.1).trans (setScanComp_same comp i e)
    · have hne : i ≠ j := fun hij => hn.1 (List.mem_map.mpr ⟨(e, i), hmem, hij⟩)
      have hrest := loadScan_mem (comp := setScanComp comp j e') hn.2 hmem
      rw [setScanComp_other comp e' hne] at hrest
      exact hrest

theorem setScan_getElem (old : Vector (Fin 3) 3) (pos : List (Fin 3)) (j : Fin 3) :
    (setScan old pos)[j] = if j.val < pos.length then pos.getD j.val 0 else old[j] := by
  rw [setScan, Fin.getElem_fin, Vector.getElem_ofFn]
  split
  next h => rw [List.getD_eq_getElem _ _ h, List.getD_eq_getElem _ _ h]
  next h => exact List.getD_eq_default _ _ (Nat.not_lt.mp h)

/-- An entry of the scan header and the live frame position it names, with legal table ids. -/
def NamesPosition (s : State) (x : SosEntry × Fin 3) : Prop :=
  x.2.val < s.frame.nf.toNat ∧ s.comp[x.2].id.toNat = scanId s x.1 ∧ x.1.td.toNat ≤ 3 ∧ x.1.ta.toNat ≤ 3

/-- Entries that name distinct positions of a legal frame load those positions. -/
theorem scanEntries_named {l : List (SosEntry × Fin 3)} (hf : FrameOk s) (hnamed : ∀ x ∈ l, NamesPosition s x)
    (hn : (l.map Prod.snd).Nodup) (h : inputAt s p ((l.map Prod.fst).flatMap sosEntryBytes)) :
    scanEntries s l.length [] s.comp p = .ok (l.map Prod.snd, loadScan s.comp l, p + 2 * l.length) := by
  have hids : l.map (fun x => x.1.id.toNat + s.frame.zeroBased.toNat) =
      (l.map Prod.snd).map fun i => s.comp[i].id.toNat := by
    rw [List.map_map]
    exact List.map_congr_left fun x hx => (hnamed x hx).2.1.symm
  have hinj : ∀ i ∈ l.map Prod.snd, ∀ j ∈ l.map Prod.snd, s.comp[i].id.toNat = s.comp[j].id.toNat → i = j := by
    intro i hi j hj heq
    obtain ⟨x, hx, rfl⟩ := List.mem_map.mp hi
    obtain ⟨y, hy, rfl⟩ := List.mem_map.mp hj
    exact frameIds_inj hf (hnamed x hx).1 (hnamed y hy).1 heq
  rw [List.flatMap_map] at h
  refine scanEntries_pass (fun x hx => ?_) (hids ▸ hn.map_on hinj) (fun _ _ => List.not_mem_nil)
    (fun x hx => (hnamed x hx).2.2) h
  obtain ⟨hlive, hid, -⟩ := hnamed x hx
  exact findComp_eq hlive hid fun j hj heq => frameIds_inj hf hj hlive (heq.trans hid.symm)

/-- A whole scan header that names positions of a legal frame, by its spectral fields. -/
theorem parseSos_all {l : List (SosEntry × Fin 3)} (hseen : s.frame.seen = true) (hf : FrameOk s)
    (hlength : l.length = s.frame.nf.toNat) (hnamed : ∀ x ∈ l, NamesPosition s x) (hn : (l.map Prod.snd).Nodup)
    (h : inputAt s p (sosBytes (l.map Prod.fst) ss se a)) :
    parseSos s p =
      if ss = 0 ∧ se = 63 ∧ a = 0 then
        .ok (commitPos (p + 6 + 2 * l.length)
          { s with
            comp := loadScan s.comp l, scan := setScan s.scan (l.map Prod.snd), ns := s.frame.nf, phase := .extract })
      else .error .uProgressive := by
  obtain ⟨hentries, hspectral⟩ := inputAt_append.mp h
  obtain ⟨hfields, hes⟩ := inputAt_append.mp hentries
  rw [sosEntries_length, List.length_map] at hspectral
  rw [List.length_map] at hfields
  rw [sosHeader_length] at hes
  have hpos : 0 < l.length := by
    rcases hf.count with h1 | h3
    · rw [hlength, h1]; decide
    · rw [hlength, h3]; decide
  have hreg : BitVec.ofNat 2 l.length = s.frame.nf := by
    rw [hlength, BitVec.ofNat_toNat, BitVec.setWidth_eq]
  rw [parseSos_wholeScan hseen hpos hlength hfields, scanEntries_named hf hnamed hn hes, ok_bind,
    finishScan_at hspectral, hreg, show p + 3 + 2 * l.length + 3 = p + 6 + 2 * l.length by omega]

end

/-- Settles O25: the entries paired with the positions they name, by the spectral fields. -/
theorem sosBeginsScan : Obligations.SosBeginsScan := by
  intro s es pos ss se a hseen hf hcount hpos hnodup hnames hin
  have hfst : (es.zip pos).map Prod.fst = es := List.map_fst_zip hpos.ge
  have hsnd : (es.zip pos).map Prod.snd = pos := List.map_snd_zip hpos.le
  have hlength : (es.zip pos).length = es.length := by rw [List.length_zip, hpos, Nat.min_self]
  have hpair : ∀ j (hj : j < es.length), (es.zip pos)[j]'(hlength ▸ hj) = (es.getD j ⟨0, 0, 0⟩, pos.getD j 0) := by
    intro j hj
    rw [List.getElem_zip, List.getElem_eq_getD, List.getElem_eq_getD]
  have hnamed : ∀ x ∈ es.zip pos, NamesPosition s x := by
    intro x hx
    obtain ⟨j, hj, rfl⟩ := List.mem_iff_getElem.mp hx
    rw [hpair j (hlength ▸ hj)]
    exact hnames j (hlength ▸ hj)
  have hparse := parseSos_all hseen hf (hlength.trans hcount) hnamed (hsnd.symm ▸ hnodup) (hfst.symm ▸ hin)
  rw [hsnd, hlength] at hparse
  refine ⟨fun hother => commitOrRaise_stopped (hparse.trans (if_neg hother)), fun hbaseline =>
    ⟨loadScan s.comp (es.zip pos), setScan s.scan pos, commitOrRaise_commits (hparse.trans (if_pos hbaseline)),
      fun j => hpos ▸ setScan_getElem s.scan pos j, fun j hj => ?_, fun i hi => loadScan_other (hsnd.symm ▸ hi)⟩⟩
  exact loadScan_mem (hsnd.symm ▸ hnodup) (hpair j hj ▸ List.getElem_mem _)

/-! ### Inputs that end inside the header (rule R150) -/

theorem parseSos_shortFields (hseen : s.frame.seen = true) (hlen : len < 65536)
    (h : inputEndsIn s p (be16 len ++ [ns]) k) : parseSos s p = .error .sTruncated := by
  rcases inputEndsIn_append h with h | ⟨hfield, h⟩
  · rw [parseSos, hseen, inU16_short h]
    rfl
  · simp only [parseSos, hseen, inU16_at hlen hfield, inByte_short (p := p + 2) h, ok_bind, error_bind]
    rfl

/-- In the fixed fields, in entries that pass, or in the spectral fields. -/
theorem parseSos_short {es : List SosEntry} (hseen : s.frame.seen = true) (hne : es ≠ [])
    (hcount : es.length = s.frame.nf.toNat) (hp : sosEntriesPass s es) (h : inputEndsIn s p (sosBytes es ss se a) k) :
    parseSos s p = .error .sTruncated := by
  have hpos : 0 < es.length := List.length_pos_iff.mpr hne
  have hnf : s.frame.nf.toNat < 4 := s.frame.nf.isLt
  have hunseen : ∀ e ∈ es, scanId s e ∉ [] := fun _ _ => List.not_mem_nil
  rcases inputEndsIn_append h with h | ⟨hentries, hspectral⟩
  · rcases inputEndsIn_append h with h | ⟨hfields, hes⟩
    · exact parseSos_shortFields hseen (by omega) h
    · rw [sosHeader_length] at hes
      rw [parseSos_wholeScan hseen hpos hcount hfields, scanEntries_short (fun _ => rfl) hp hunseen hes, error_bind]
  · obtain ⟨hfields, hes⟩ := inputAt_append.mp hentries
    rw [sosHeader_length] at hes
    rw [sosEntries_length] at hspectral
    obtain ⟨is, comp, -, hrest⟩ := scanEntries_rest (left := 0) (fun _ => rfl) hp hunseen hes
    rw [parseSos_wholeScan hseen hpos hcount hfields, ← Nat.add_zero es.length, hrest]
    exact finishScan_short hspectral

/-- Settles O60: each segment's input that ends inside it. -/
theorem truncatedSegmentsStopDecode : Obligations.TruncatedSegmentsStopDecode := by
  intro s len k y x ss se a hlen hy hx
  exact ⟨fun _ _ hlegal hmore h => commitOrRaise_stopped (parseDqt_short hlegal hlen hmore h),
    fun _ _ hlegal hmore h => commitOrRaise_stopped (parseDht_short hlegal hlen hmore h),
    fun hseen hdim h => commitOrRaise_stopped (parseSof0_shortFields hseen hy hx hlen hdim h),
    fun _ hseen hx0 hy0 hn hp h => commitOrRaise_stopped (parseSof0_short hseen hy hx hx0 hy0 hn hp h),
    fun hseen h => commitOrRaise_stopped (parseSos_shortFields hseen hlen h),
    fun _ hseen hne hcount hp h => commitOrRaise_stopped (parseSos_short hseen hne hcount hp h)⟩

end Sys2Proof.Machine

/-! SUPPORT. The table builder (42_table_builder.md rules R200 and R201): what each field of a built table holds. -/

namespace Sys2Proof.Machine

section
variable {counts syms : List Byte}

@[simp] theorem buildHt_populated : (buildHt counts syms).populated = true := rfl

@[simp] theorem buildHt_symbols : (buildHt counts syms).symbols = syms := rfl

theorem buildHt_count (i : Fin 16) : (buildHt counts syms).count[i] = counts.getD i.val 0 := by
  simp [buildHt]

theorem offsetAt_val (t : HTable) (k : Fin 17) : offsetAt t k.val = t.offset[k].toNat := by
  simp [offsetAt, List.getD_eq_getElem?_getD]

/-- Codes are made one for each symbol. -/
theorem buildHt_code_length (hs : (counts.map BitVec.toNat).sum = syms.length) :
    (buildHt counts syms).code.length = syms.length := by
  rw [← hs, ← codesFrom_length (counts.map BitVec.toNat) 1 0]
  exact List.length_map ..

theorem buildHt_len_length (hs : (counts.map BitVec.toNat).sum = syms.length) :
    (buildHt counts syms).len.length = syms.length := by
  rw [← hs, ← codesFrom_length (counts.map BitVec.toNat) 1 0]
  exact List.length_map ..

end

/-- Settles O29: each field of the built table by its own lemma. -/
theorem builtTableFollowsCounts : Obligations.BuiltTableFollowsCounts := by
  intro counts syms hc hs hn
  have hoffset (k : Fin 17) : (buildHt counts syms).offset[k].toNat = codesUpTo counts k.val := by
    rw [← offsetAt_val, buildHt_offsetAt hc hs hn (Nat.le_of_lt_succ k.isLt)]
  exact ⟨buildHt_populated, buildHt_symbols, buildHt_count, hoffset, buildHt_code_length hs, buildHt_len_length hs,
    fun _ _ hL hlow hhigh => buildHt_entry hc hs hn hL hlow hhigh⟩

end Sys2Proof.Machine

/-! SUPPORT. Bits and code words of the entropy buffer (43_entropy_decoder.md rules R211 to R215): the value of magnitude
bits, and which symbol position matches the bits the search has read. -/

namespace Sys2Proof.Machine

variable {bits : List Bool} {v n : Nat}

/-! ### Magnitude bits (rules R212 and R215) -/

/-- Settles O33: the bits the buffer holds are read in order, and a read past its end fails. -/
theorem readBitsTakesBitsInOrder : Obligations.ReadBitsTakesBitsInOrder :=
  fun _ _ _ _ => ⟨readBits_at, fun hend hpos => readBits_end hpos hend⟩

theorem extend_true (bits : List Bool) :
    extend (bitsValue (true :: bits)) (bits.length + 1) = bitsValue (true :: bits) := by
  have htop : ¬bitsValue (true :: bits) < 2 ^ bits.length := by simp [bitsValue_cons]
  simp [extend, htop]

theorem extend_false (bits : List Bool) :
    extend (bitsValue (false :: bits)) (bits.length + 1) = bitsValue bits - (2 ^ (bits.length + 1) - 1) := by
  have hvalue : bitsValue (false :: bits) = bitsValue bits := by simp [bitsValue_cons]
  simp [extend, hvalue, bitsValue_lt bits]

theorem extend_bitsValue : ∀ bits : List Bool, extend (bitsValue bits) bits.length = magnitude bits
  | [] => rfl
  | true :: bits => extend_true bits
  | false :: bits => extend_false bits

/-- Settles O34: the first bit decides between the value and the value less `2^n - 1`, and the other bits' value bounds
both. -/
theorem extendLaw : Obligations.ExtendLaw := by
  refine fun bits => ⟨extend_bitsValue bits, fun hne => ?_⟩
  match bits with
  | true :: bits =>
    have hlt : (bitsValue bits : Int) < 2 ^ bits.length := by exact_mod_cast bitsValue_lt bits
    right
    simp only [magnitude, bitsValue_cons, List.length_cons, Nat.add_sub_cancel, pow_succ, Bool.toNat_true, one_mul]
    push_cast
    omega
  | false :: bits =>
    have hlt : (bitsValue bits : Int) < 2 ^ bits.length := by exact_mod_cast bitsValue_lt bits
    left
    simp only [magnitude, List.length_cons, Nat.add_sub_cancel, pow_succ]
    omega

/-! ### Which position matches the bits read (rule R214) -/

/-- The first bits of a code word are the upper bits of its value. -/
theorem bitsValue_take_codeBits {m : Nat} (hv : v < 2 ^ n) (hm : m ≤ n) :
    bitsValue ((codeBits v n).take m) = v / 2 ^ (n - m) := by
  have hupper : v / 2 ^ (n - m) < 2 ^ m := by
    rw [Nat.div_lt_iff_lt_mul (Nat.two_pow_pos _), ← pow_add, Nat.add_sub_cancel' hm]
    exact hv
  rw [codeBits_take hm, bitsValue_codeBits hupper]

section
variable {counts syms : List Byte} {L j : Nat} (hc : counts.length = 16)
  (hs : (counts.map BitVec.toNat).sum = syms.length) (hn : syms.length ≤ 162)
include hc hs hn

/-- In a built table the positions of one length hold the running codes of that length. -/
theorem matchCode_buildHt_eq_none (hL : L < 16)
    (h : ∀ j, codesUpTo counts L ≤ j → j < codesUpTo counts (L + 1) → firstCode counts L + (j - codesUpTo counts L) ≠ v) :
    matchCode (buildHt counts syms) (L + 1) v = none := by
  refine matchCode_none fun j hlow hhigh => ?_
  rw [Nat.add_sub_cancel, buildHt_offsetAt hc hs hn hL.le] at hlow
  rw [buildHt_offsetAt hc hs hn hL] at hhigh
  rw [(buildHt_entry hc hs hn hL hlow hhigh).2]
  exact h j hlow hhigh

/-- Codes of one length are distinct, so a position's code matches that position. -/
theorem matchCode_buildHt_code (hL : L < 16) (hlow : codesUpTo counts L ≤ j) (hhigh : j < codesUpTo counts (L + 1)) :
    matchCode (buildHt counts syms) (L + 1) ((buildHt counts syms).code.getD j 0).toNat = some j := by
  have hoff : offsetAt (buildHt counts syms) (L + 1 - 1) = codesUpTo counts L := buildHt_offsetAt hc hs hn hL.le
  refine matchCode_eq (hoff ▸ hlow) (buildHt_offsetAt hc hs hn hL ▸ hhigh) rfl fun j' hlow' hhigh' heq => ?_
  rw [hoff] at hlow'
  rw [buildHt_offsetAt hc hs hn hL] at hhigh'
  rw [(buildHt_entry hc hs hn hL hlow hhigh).2, (buildHt_entry hc hs hn hL hlow' hhigh').2] at heq
  omega

/-- The upper bits of a code lie above every shorter code, so they match no position. -/
theorem matchCode_buildHt_upperBits (hL : L < 16) (hlow : codesUpTo counts L ≤ j)
    (hhigh : j < codesUpTo counts (L + 1)) {l : Nat} (hl : l < L) :
    matchCode (buildHt counts syms) (l + 1) (((buildHt counts syms).code.getD j 0).toNat / 2 ^ (L - l)) = none := by
  refine matchCode_buildHt_eq_none hc hs hn (hl.trans hL) fun i hi hi' => ne_of_lt ?_
  have habove := firstCode_above counts l (L - l - 1)
  rw [show L - l - 1 + 1 = L - l by omega, show l + (L - l - 1) + 1 = L by omega] at habove
  rw [codesUpTo_succ] at hi'
  calc firstCode counts l + (i - codesUpTo counts l)
      < firstCode counts l + (counts.getD l 0).toNat := by omega
    _ ≤ firstCode counts L / 2 ^ (L - l) := by
      rwa [Nat.le_div_iff_mul_le (Nat.two_pow_pos _), Nat.mul_comm]
    _ ≤ _ := Nat.div_le_div_right (by rw [(buildHt_entry hc hs hn hL hlow hhigh).2]; omega)

/-- Bits that are no position's code word match no position. -/
theorem matchCode_buildHt_noCodeWord (hL : L < 16) (hlength : bits.length = L + 1)
    (hno : ∀ j, j < syms.length →
      ((buildHt counts syms).code.getD j 0).toNat < 2 ^ ((buildHt counts syms).len.getD j 0).toNat →
      codeWord (buildHt counts syms) j ≠ bits) :
    matchCode (buildHt counts syms) (L + 1) (bitsValue bits) = none := by
  refine matchCode_buildHt_eq_none hc hs hn hL fun j hlow hhigh heq => ?_
  obtain ⟨hlen, hcode⟩ := buildHt_entry hc hs hn hL hlow hhigh
  rw [heq] at hcode
  have hj : j < syms.length := by
    rw [← hs, ← codesUpTo_all hc]
    exact hhigh.trans_le (codesUpTo_mono counts hL)
  refine hno j hj ?_ ?_
  · rw [hcode, hlen, ← hlength]
    exact bitsValue_lt bits
  · rw [codeWord, hcode, hlen, ← hlength, codeBits_bitsValue]

end

/-- Settles O31: the position's length is the first at which the bits read match a code, and there they match that
position alone. -/
theorem symbolSearchFindsCodeWord : Obligations.SymbolSearchFindsCodeWord := by
  intro s c counts syms j hc hs hn hk hj hbits
  obtain ⟨L, hL, hlow, hhigh⟩ := position_length counts (n := 16) (by rwa [codesUpTo_all hc, hs])
  obtain ⟨hlen, hcode⟩ := buildHt_entry hc hs hn hL hlow hhigh
  have hfits : ((buildHt counts syms).code.getD j 0).toNat < 2 ^ (L + 1) := by
    have hall := code_lt hc hk hL
    rw [codesUpTo_succ] at hhigh
    omega
  have hword : codeWord (buildHt counts syms) j = codeBits ((buildHt counts syms).code.getD j 0).toNat (L + 1) := by
    rw [codeWord, hlen]
  have hlength : (codeWord (buildHt counts syms) j).length = L + 1 := by rw [hword, codeBits_length]
  refine decodeSymbolFrom_at (List.ne_nil_of_length_eq_add_one hlength) (by omega) (le_refl _) hbits
    (fun n hpos hlt => ?shorter) ?whole
  case shorter =>
    obtain ⟨l, rfl⟩ : ∃ l, n = l + 1 := ⟨n - 1, by omega⟩
    have hvalue := bitsValue_take_codeBits hfits (show l + 1 ≤ L + 1 by omega)
    rw [Nat.add_sub_add_right, ← hword] at hvalue
    rw [Nat.sub_self, Nat.zero_add, ← bitsValue, hvalue]
    exact matchCode_buildHt_upperBits hc hs hn hL hlow hhigh (by omega)
  case whole =>
    rw [hlength, hword, Nat.sub_self, Nat.zero_add, ← bitsValue, bitsValue_codeBits hfits]
    exact matchCode_buildHt_code hc hs hn hL hlow hhigh

/-- Settles O32: no part of the window is a code word, so the search reads it to its end. -/
theorem symbolSearchFailures : Obligations.SymbolSearchFailures := by
  intro s c counts syms window hc hs hn hno hbits
  have hfails (h16 : window.length ≤ 16) := decodeSymbolFrom_fails (code := 0) h16 (le_refl 16) hbits fun n hpos hle => by
    obtain ⟨L, rfl⟩ : ∃ L, n = L + 1 := ⟨n - 1, by omega⟩
    rw [Nat.sub_self, Nat.zero_add]
    exact matchCode_buildHt_noCodeWord hc hs hn (by omega) (List.length_take_of_le hle)
      fun j hj hfits heq => hno j hj hfits (heq ▸ List.take_prefix _ _)
  exact ⟨fun h => (hfails h.le).1 h, fun h => (hfails h.le).2 h⟩

end Sys2Proof.Machine

/-! SUPPORT. The entropy symbols (43_entropy_decoder.md rules R216 to R223): what a DC symbol and one pass of the AC loop do
to the working registers, check by check, and what each symbol answers in an open block. -/

namespace Sys2Proof.Machine

variable {s : State} {w w' : McuWork} {slot : Slot} {rest : List Slot} {bits : List Bool} {n r : Nat} {d : Detail}

theorem vector_set_getElem_fin {α : Type} {m : Nat} (a : Vector α m) (i j : Fin m) (x : α) :
    (a.set i.val x i.isLt)[j] = if j = i then x else a[j] := by
  simp only [Fin.getElem_fin, Vector.getElem_set, Fin.ext_iff, eq_comm]

/-! ### The effect of a DC symbol (rule R216) -/

theorem dcEffect_tooLong (h : 11 < n) : dcEffect s n w slot = .error .eDcLength := by
  rw [dcEffect, decide_eq_true h]
  rfl

theorem dcEffect_short (hpos : 0 < n) (h : n ≤ 11) (hend : 8 * s.entLen.toNat < bitPos w.cur + n) :
    dcEffect s n w slot = .error .eEndOfData := by
  rw [dcEffect, decide_eq_false (Nat.not_lt.mpr h), readBits_end hpos hend]
  rfl

theorem dcEffect_bits (h : bits.length ≤ 11) (hbits : bitsAt s w.cur bits) :
    dcEffect s bits.length w slot =
      .ok { w with
        cur := cursorAt (bitPos w.cur + bits.length)
        pred := w.pred.set s.comp[slot.pos].ch.val (wrap32 (w.pred[s.comp[slot.pos].ch].toInt + magnitude bits))
          s.comp[slot.pos].ch.isLt
        k := 1
        blk := zeroBlock.set 0 (wrap32 (w.pred[s.comp[slot.pos].ch].toInt + magnitude bits)) } := by
  rw [dcEffect, decide_eq_false (Nat.not_lt.mpr h), readBits_at hbits, ← extend_bitsValue]
  rfl

/-! ### The effect of an AC symbol other than EOB (rules R217 and R219 to R223) -/

theorem closeIfFull_of_le (h : w.k ≤ 63) : closeIfFull w = w := if_neg (Nat.not_lt.mpr h)

theorem closeIfFull_of_gt (h : 63 < w.k) : closeIfFull w = endBlock w := if_pos h

theorem acEffect_overflow (h : 63 < w.k + r) : acEffect s r n w slot = .error .eZeroRun := by
  rw [acEffect, decide_eq_true h]
  rfl

theorem acEffect_tooLong (hr : w.k + r ≤ 63) (hn : 10 < n) : acEffect s r n w slot = .error .eAcLength := by
  rw [acEffect, decide_eq_false (Nat.not_lt.mpr hr), decide_eq_true hn]
  rfl

theorem acEffect_run (hr : w.k + r ≤ 63) : acEffect s r 0 w slot = .ok { w with k := w.k + r } := by
  rw [acEffect, decide_eq_false (Nat.not_lt.mpr hr)]
  exact congrArg Except.ok (closeIfFull_of_le hr)

theorem acEffect_short (hr : w.k + r ≤ 63) (hpos : 0 < n) (hn : n ≤ 10)
    (hend : 8 * s.entLen.toNat < bitPos w.cur + n) : acEffect s r n w slot = .error .eEndOfData := by
  rw [acEffect, decide_eq_false (Nat.not_lt.mpr hr), decide_eq_false (Nat.not_lt.mpr hn), if_neg hpos.ne',
    readBits_end hpos hend]
  rfl

/-- A block with the value of `bits` placed at zigzag position `k`. -/
def placeCoef (blk : Block) (k : Nat) (bits : List Bool) : Block :=
  blk.set (zz k).val (wrap32 (magnitude bits)) (zz k).isLt

theorem placeCoef_getElem (blk : Block) (k : Nat) (bits : List Bool) (j : Fin 64) :
    (placeCoef blk k bits)[j] = if j = zz k then BitVec.ofInt 32 (magnitude bits) else blk[j] :=
  vector_set_getElem_fin blk (zz k) j _

theorem acEffect_bits (hr : w.k + r ≤ 63) (hpos : 0 < bits.length) (hn : bits.length ≤ 10)
    (hbits : bitsAt s w.cur bits) :
    acEffect s r bits.length w slot =
      .ok (closeIfFull { w with
        cur := cursorAt (bitPos w.cur + bits.length), k := w.k + r + 1, blk := placeCoef w.blk (w.k + r) bits }) := by
  rw [acEffect, decide_eq_false (Nat.not_lt.mpr hr), decide_eq_false (Nat.not_lt.mpr hn), if_neg hpos.ne',
    readBits_at hbits, placeCoef, ← extend_bitsValue]
  rfl

/-- The run of a symbol byte as its rule writes it: 16 for ZRL, else the upper nibble (rule R222). -/
theorem runOf_eq (rs : Byte) : runOf rs = if rs = 0xF0 then 16 else rs.toNat / 16 := by
  have hnibble : (hiNibble rs).toNat = rs.toNat / 16 := by
    rw [hiNibble, BitVec.extractLsb'_toNat, Nat.shiftRight_eq_div_pow]
    omega
  rw [runOf, hnibble]

/-! ### Symbols in an open block -/

section
variable {f : McuWork → Slot → Except Detail McuWork} (htxn : s.txn = .mcu w) (htodo : w.todo = slot :: rest)
include htxn htodo

theorem runSymbol_ok (hf : f w slot = .ok w') : runSymbol f s = .next { s with txn := .mcu w' } := by
  simp only [runSymbol_open htxn htodo, hf]

theorem runSymbol_error (hf : f w slot = .error d) :
    runSymbol f s = .next (stopped (detailClass d) (detailCode d) s) := by
  simp only [runSymbol_open htxn htodo, hf, raiseError_stopped]

end

/-- Settles O35: the category's check, its bits, and the sum at the channel of the block's component. -/
theorem dcSymbolUpdatesPredictor : Obligations.DcSymbolUpdatesPredictor := by
  intro s w slot rest bits n i htxn htodo hi
  have hexec : exec i s = runSymbol (dcEffect s n.toNat) s := by
    rcases hi with rfl | ⟨rfl, rfl⟩ <;> rfl
  rw [hexec]
  refine ⟨fun hle hlength hbits => ?read, fun hpos hle hend => ?short, fun b hb => ?tooLong⟩
  case read =>
    rw [← hlength] at hle ⊢
    refine ⟨_, runSymbol_ok htxn htodo (dcEffect_bits hle hbits), fun ch => ?_⟩
    rw [vector_set_getElem_fin]
    exact if_ctx_congr Iff.rfl (fun hch => by rw [hch]) fun _ => rfl
  case short => exact runSymbol_error htxn htodo (dcEffect_short hpos hle hend)
  case tooLong => exact runSymbol_error htxn htodo (dcEffect_tooLong hb)

/-- Settles O36: EOB ends the block, and a run with no size moves the position alone. -/
theorem symbolsWithoutMagnitudeBits : Obligations.SymbolsWithoutMagnitudeBits := by
  intro s w slot rest htxn htodo
  refine ⟨?eob, fun hinv => (hinv.mcu w htxn).2.zeros, fun r i hi hk => ?run⟩
  case eob =>
    rw [← endBlock_cons htodo]
    exact runSymbol_ok htxn htodo (f := fun w _ => .ok (endBlock w)) rfl
  case run =>
    have hexec : exec i s = runSymbol (acEffect s r 0) s := by
      rcases hi with ⟨rfl, rfl⟩ | ⟨n, rfl, rfl⟩ <;> rfl
    rw [hexec]
    exact runSymbol_ok htxn htodo (acEffect_run hk)

/-- Settles O37: the value is placed at `k + r`, and the block ends where that is position 63. -/
theorem coefficientSymbolPlacesValue : Obligations.CoefficientSymbolPlacesValue := by
  intro s w slot rest r n bits htxn htodo hpos hn hk
  refine ⟨fun hlength hbits => ?read, fun hend => runSymbol_error htxn htodo (acEffect_short hk hpos hn hend)⟩
  case read =>
    have hexec : exec (.acCoef r n) s = runSymbol (acEffect s r.toNat bits.length) s := by rw [hlength]; rfl
    rw [← hlength] at hpos hn
    have heffect := acEffect_bits (slot := slot) hk hpos hn hbits
    rw [hexec, ← hlength]
    refine ⟨placeCoef w.blk (w.k + r.toNat) bits, placeCoef_getElem _ _ _, fun hlt => ?inside, fun hlast => ?last⟩
    case inside =>
      rw [closeIfFull_of_le (by exact hlt)] at heffect
      exact runSymbol_ok htxn htodo heffect
    case last =>
      rw [closeIfFull_of_gt (by exact Nat.lt_succ_of_le hlast.ge), endBlock_cons (by exact htodo)] at heffect
      exact runSymbol_ok htxn htodo heffect

/-- Settles O38: the run's check comes before the size's, and both before any bit is read. -/
theorem acRunAndSizeErrors : Obligations.AcRunAndSizeErrors := by
  intro s w slot rest htxn htodo
  have hrun (r n : Nat) (h : 63 < w.k + r) : runSymbol (acEffect s r n) s = .next (stopped 4 0x42 s) :=
    runSymbol_error htxn htodo (acEffect_overflow h)
  refine ⟨fun rs _ h => hrun _ _ (runOf_eq rs ▸ h), fun r n hn hk => ?size, fun r n i hi h => ?run, hrun 16 0⟩
  case size => exact runSymbol_error htxn htodo (acEffect_tooLong hk hn)
  case run =>
    rcases hi with rfl | rfl | ⟨rfl, rfl⟩
    all_goals exact hrun _ _ h

end Sys2Proof.Machine

/-! SUPPORT. The ENTROPY step around the symbols (43_entropy_decoder.md rules R224 to R227; log entry 1): the block's turn
opens the step, runs the symbol at the cursor, or commits. -/

namespace Sys2Proof.Machine

variable {s u : State} {w : McuWork} {slot : Slot} {rest : List Slot}

/-! ### The block's turn in the phase ENTROPY -/

theorem step_entropy (hturn : blockTurn s = some u) (hphase : u.phase = .entropy) :
    step s = runFetched (fetchEntropy u) := by
  rw [step_of_blockTurn hturn, fetchBlock, hphase]

theorem fetchEntropy_opens (htxn : u.txn = .none) : fetchEntropy u = .move (openMcu u) := by
  rw [fetchEntropy, htxn]

theorem fetchEntropy_symbol (htxn : u.txn = .mcu w) (htodo : w.todo = slot :: rest) :
    fetchEntropy u = fetchSymbol u w slot := by
  simp only [fetchEntropy, htxn, htodo]

theorem fetchEntropy_commits (htxn : u.txn = .mcu w) (htodo : w.todo = []) :
    fetchEntropy u = .move (commitMcu w u) := by
  simp only [fetchEntropy, htxn, htodo]

/-! ### Symbol by symbol (rule R214) -/

theorem fetchSymbol_decodes {sym : Byte} {c : Cursor} {i : Instr} {n : Nat}
    (hsearch : decodeSymbol u (symbolTable u w slot) w.cur = .ok (sym, c))
    (hdecode : decode (symbolCtx w) (.bytes [sym]) = .ok i n) :
    fetchSymbol u w slot = .instr i { u with txn := .mcu { w with cur := c } } := by
  simp only [fetchSymbol, hsearch, hdecode]

theorem fetchSymbol_fails {d : Detail} (hsearch : decodeSymbol u (symbolTable u w slot) w.cur = .error d) :
    fetchSymbol u w slot = .move (raiseError d u) := by
  simp only [fetchSymbol, hsearch]

/-- Settles O5: the turn is `fetchSymbol`, by the answer of the symbol search. -/
theorem stepRunsEntropySymbol : Obligations.StepRunsEntropySymbol := by
  intro s u w slot rest table hturn hphase htxn htodo htable
  obtain rfl : table = symbolTable u w slot := htable
  rw [step_entropy hturn hphase, fetchEntropy_symbol htxn htodo]
  refine ⟨fun sym c i n hsearch hdecode => ?found, fun d hsearch => ?failed⟩
  case found => rw [fetchSymbol_decodes hsearch hdecode]; rfl
  case failed =>
    rw [fetchSymbol_fails hsearch]
    obtain rfl | rfl := decodeSymbolFrom_error hsearch
    · exact .inl ⟨rfl, rfl⟩
    · exact .inr ⟨rfl, rfl⟩

/-! ### Opening (rules R224 to R226) -/

theorem atRestart_iff {m : Nat} :
    atRestart u m = true ↔ u.frame.restartInterval ≠ 0 ∧ m % u.frame.restartInterval.toNat = 0 := by
  simp [atRestart]

/-- Settles O40: the turn is `openMcu`, by whether MCU_DONE is at a restart boundary. -/
theorem entropyStepOpens : Obligations.EntropyStepOpens := by
  intro s u hturn hphase htxn
  rw [step_entropy hturn hphase, fetchEntropy_opens htxn]
  refine ⟨_, rfl, rfl, rfl, rfl, rfl, fun hrestart => ?boundary, fun hgoesOn => ?inside⟩
  case boundary =>
    have hrestart := atRestart_iff.mpr hrestart
    exact ⟨fun ch => by simp [hrestart], (if_pos hrestart).trans (align_cursor _)⟩
  case inside =>
    have hgoesOn : ¬atRestart u u.mcuDone.toNat = true := by
      rw [atRestart_iff]; tauto
    exact ⟨if_neg hgoesOn, if_neg hgoesOn⟩

/-! ### Committing (rules R225 and R227) -/

/-- In the phase ENTROPY the blocks of an MCU have distinct places in the coefficient store. -/
theorem Inv.slotKeys_nodup (hinv : Inv u) (hphase : u.phase = .entropy) : ((mcuSlots u).map (slotKey u)).Nodup := by
  have hscan : ScanOk u := hinv.scan (by rw [hphase]; decide)
  exact Machine.slotKeys_nodup (hinv.frame hscan.seen) hscan

/-- Settles O41: the blocks done are those of the MCU, and storing them leaves every other block. -/
theorem entropyStepCommits : Obligations.EntropyStepCommits := by
  intro s u w hinv hturn htxn htodo
  obtain ⟨hphase, hmcu⟩ := hinv.mcu w htxn
  have hdone : w.done.map Prod.fst = mcuSlots u := by rw [← hmcu.slots, htodo, List.append_nil]
  obtain ⟨hstored, hkept⟩ := storeBlocks_spec u u.mcuDone.toNat w.done u.coef (hdone ▸ hinv.slotKeys_nodup hphase)
  rw [hdone] at hkept
  refine ⟨_, ?_, hstored, hkept⟩
  rw [step_entropy hturn hphase, fetchEntropy_commits htxn htodo, runFetched, commitMcu, hphase]

end Sys2Proof.Machine

/-! SUPPORT. The DEQUANT step (44_dequantizer.md rules R240 to R242): the product on one coefficient, and the blocks of MCU
`work` in the phases after the scan header. -/

namespace Sys2Proof.Machine

variable {s u : State}

/-- Rule R241 at one natural index. -/
theorem dequantBlock_getElem (q : Vector Half 64) (b : Block) (n : Fin 64) :
    (dequantBlock q b)[n] = sat32 (b[n].toInt * (q[n].toNat : Int)) :=
  Vector.getElem_ofFn n.isLt

theorem lastWork_iff : lastWork s = true ↔ s.work.toNat + 1 = s.frame.mcuTotal.toNat := by
  simp [lastWork]

/-- From the scan header on, mapping the blocks of an MCU maps each of them once and leaves every other block. -/
theorem Inv.mapBlocks_mcuSlots (hinv : Inv u) (hphase : 2 ≤ (phaseCode u.phase).toNat) (f : Comp → Block → Block)
    (m : Nat) :
    (∀ slot ∈ mcuSlots u,
      coefRead (mapBlocks u.comp f m (mcuSlots u) u.coef) m u.comp[slot.pos].ch slot.idx =
        f u.comp[slot.pos] (coefRead u.coef m u.comp[slot.pos].ch slot.idx)) ∧
    (∀ m' ch b, (m' ≠ m ∨ ∀ slot ∈ mcuSlots u, ¬(u.comp[slot.pos].ch = ch ∧ slot.idx = b)) →
      coefRead (mapBlocks u.comp f m (mcuSlots u) u.coef) m' ch b = coefRead u.coef m' ch b) :=
  have hscan : ScanOk u := hinv.scan hphase
  mapBlocks_spec u f m _ _ (Machine.slotKeys_nodup (hinv.frame hscan.seen) hscan)

theorem step_dequant (hturn : blockTurn s = some u) (hphase : u.phase = .dequant) : step s = .next (dequantStep u) := by
  rw [step_of_blockTurn hturn, fetchBlock, hphase, runFetched]

/-- Settles O43: the turn is `dequantStep`, which maps the blocks of MCU `work` and no other. -/
theorem dequantStepScalesMcu : Obligations.DequantStepScalesMcu := by
  intro s u hinv hturn hphase
  obtain ⟨hscaled, hkept⟩ := hinv.mapBlocks_mcuSlots (by rw [hphase]; decide)
    (fun c b => dequantBlock u.qt[c.tq].q b) u.work.toNat
  refine ⟨_, ?step, fun slot hslot n => ?coefficient, hkept⟩
  case step => simp only [step_dequant hturn hphase, dequantStep, lastWork_iff, hphase]
  case coefficient => rw [hscaled slot hslot, dequantBlock_getElem]

end Sys2Proof.Machine

/-! SUPPORT. The IDCT step (45_idct.md rule R249). -/

namespace Sys2Proof.Machine

variable {s u : State}

theorem step_idct (hturn : blockTurn s = some u) (hphase : u.phase = .idct) : step s = .next (idctStep u) := by
  rw [step_of_blockTurn hturn, fetchBlock, hphase, runFetched]

/-- Settles O44: the turn is `idctStep`, which maps the blocks of MCU `work` and no other. -/
theorem idctStepTransformsMcu : Obligations.IdctStepTransformsMcu := by
  intro s u hinv hturn hphase
  obtain ⟨htransformed, hkept⟩ := hinv.mapBlocks_mcuSlots (by rw [hphase]; decide)
    (fun _ b => idctBlock u.params.idct b) u.work.toNat
  refine ⟨_, ?step, htransformed, hkept⟩
  case step => simp only [step_idct hturn hphase, idctStep, lastWork_iff, hphase]

end Sys2Proof.Machine

/-! SUPPORT. The sums of cosines of Machine/Idct.lean as real numbers: `idealSum` is sixteen times the ideal value of
45_idct.md rule R245. -/

namespace Sys2Proof.Machine

/-! ### `T k = 2·cos(kπ/16)` -/

/-- The real number `T k`. -/
noncomputable def cosUnit (k : Nat) : ℝ := 2 * Real.cos (k * Real.pi / 16)

theorem cosUnit_zero : cosUnit 0 = 2 := by simp [cosUnit]

theorem cosUnit_four : cosUnit 4 = √2 := by
  have hangle : ((4 : ℕ) : ℝ) * Real.pi / 16 = Real.pi / 4 := by push_cast; ring
  rw [cosUnit, hangle, Real.cos_pi_div_four]
  ring

theorem cosUnit_eight : cosUnit 8 = 0 := by
  have hangle : ((8 : ℕ) : ℝ) * Real.pi / 16 = Real.pi / 2 := by push_cast; ring
  rw [cosUnit, hangle, Real.cos_pi_div_two, mul_zero]

theorem cosUnit_pos {k : Nat} (hk : k < 8) : 0 < cosUnit k := by
  have hlt : (k : ℝ) < 8 := by exact_mod_cast hk
  have hpi := Real.pi_pos
  refine mul_pos two_pos (Real.cos_pos_of_mem_Ioo ⟨?lower, ?upper⟩)
  case lower => have := mul_nonneg (Nat.cast_nonneg (α := ℝ) k) hpi.le; linarith
  case upper => nlinarith

theorem abs_cosUnit_le (k : Nat) : |cosUnit k| ≤ 2 := by
  rw [cosUnit, abs_mul, abs_two]
  linarith [Real.abs_cos_le_one (k * Real.pi / 16)]

/-- `T a · T b = T (a + b) + T |a - b|`. -/
theorem cosUnit_mul (p q : Nat) : cosUnit p * cosUnit q = cosUnit (p + q) + cosUnit (max p q - min p q) := by
  wlog hqp : q ≤ p generalizing p q
  · rw [mul_comm, this q p (by omega), add_comm q, max_comm, min_comm]
  have hangle : ∀ x y : ℝ, 2 * Real.cos x * (2 * Real.cos y) = 2 * Real.cos (x + y) + 2 * Real.cos (x - y) := by
    intro x y
    linarith [Real.two_mul_cos_mul_cos x y]
  rw [max_eq_left hqp, min_eq_right hqp]
  simp only [cosUnit, Nat.cast_sub hqp, Nat.cast_add, hangle]
  ring_nf

theorem cosUnit_mod (k : Nat) : cosUnit (k % 32) = cosUnit k := by
  have hangle : (k : ℝ) * Real.pi / 16 = (k % 32 : ℕ) * Real.pi / 16 + (k / 32 : ℕ) * (2 * Real.pi) := by
    have hk : (k : ℝ) = (k % 32 : ℕ) + 32 * (k / 32 : ℕ) := by exact_mod_cast (Nat.mod_add_div k 32).symm
    rw [hk]; ring
  rw [cosUnit, cosUnit, hangle, Real.cos_add_nat_mul_two_pi]

theorem cosUnit_thirtyTwo_sub {k : Nat} (hk : k ≤ 32) : cosUnit (32 - k) = cosUnit k := by
  have hangle : ((32 - k : ℕ) : ℝ) * Real.pi / 16 = 2 * Real.pi - k * Real.pi / 16 := by
    rw [Nat.cast_sub hk]; push_cast; ring
  rw [cosUnit, cosUnit, hangle, Real.cos_two_pi_sub]

theorem cosUnit_sixteen_sub {k : Nat} (hk : k ≤ 16) : cosUnit (16 - k) = -cosUnit k := by
  have hangle : ((16 - k : ℕ) : ℝ) * Real.pi / 16 = Real.pi - k * Real.pi / 16 := by
    rw [Nat.cast_sub hk]; push_cast; ring
  rw [cosUnit, cosUnit, hangle, Real.cos_pi_sub, mul_neg]

/-! ### The value of a sum -/

/-- The real number a `CosSum` stands for. -/
noncomputable def CosSum.eval (a : CosSum) : ℝ :=
  a.n0 + a.n1 * cosUnit 1 + a.n2 * cosUnit 2 + a.n3 * cosUnit 3 + a.n4 * cosUnit 4 + a.n5 * cosUnit 5
    + a.n6 * cosUnit 6 + a.n7 * cosUnit 7

theorem eval_addUnit (a : CosSum) {j : Nat} (hj : j ≤ 8) (c : Int) :
    (addUnit a j c).eval = a.eval + c * cosUnit j := by
  interval_cases j <;> simp only [addUnit, CosSum.eval, cosUnit_zero, cosUnit_eight] <;> push_cast <;> ring

/-- `addCos` reduces the angle to one of `T 0 .. T 16`. -/
theorem cosUnit_reduced (k : Nat) : cosUnit (if k % 32 ≤ 16 then k % 32 else 32 - k % 32) = cosUnit k := by
  split
  · exact cosUnit_mod k
  · rw [cosUnit_thirtyTwo_sub (by omega), cosUnit_mod]

theorem eval_addCos (a : CosSum) (k : Nat) (c : Int) : (addCos a k c).eval = a.eval + c * cosUnit k := by
  have hle : (if k % 32 ≤ 16 then k % 32 else 32 - k % 32) ≤ 16 := by split <;> omega
  rw [← cosUnit_reduced k, addCos]
  generalize (if k % 32 ≤ 16 then k % 32 else 32 - k % 32) = r at hle ⊢
  split
  · exact eval_addUnit a ‹_› c
  · rw [eval_addUnit a (by omega), cosUnit_sixteen_sub hle]
    push_cast; ring

/-- The term of the coefficient at natural index `n` in sixteen times the ideal value at `(x, y)`. -/
noncomputable def idealTerm (F : Block) (x y : Nat) (n : Fin 64) : ℝ :=
  F[n].toInt * (cosUnit (basisAngle x (n.val % 8)) * cosUnit (basisAngle y (n.val / 8)))

theorem eval_addTerm (F : Block) (x y : Nat) (a : CosSum) (n : Fin 64) :
    (addTerm F x y a n).eval = a.eval + idealTerm F x y n := by
  rw [addTerm, eval_addCos, eval_addCos, idealTerm, cosUnit_mul]
  ring

theorem eval_foldl_addTerm (F : Block) (x y : Nat) (a : CosSum) (ns : List (Fin 64)) :
    (ns.foldl (addTerm F x y) a).eval = a.eval + (ns.map (idealTerm F x y)).sum := by
  induction ns generalizing a with
  | nil => simp
  | cons n ns ih => rw [List.foldl_cons, ih, eval_addTerm, List.map_cons, List.sum_cons, add_assoc]

theorem eval_idealSum (F : Block) (i : Fin 64) :
    (idealSum F i).eval = ∑ n, idealTerm F (i.val % 8) (i.val / 8) n := by
  rw [idealSum, eval_foldl_addTerm, Fin.sum_univ_def]
  simp [CosSum.eval]

theorem abs_idealTerm_le (F : Block) (x y : Nat) (n : Fin 64) : |idealTerm F x y n| ≤ 2 ^ 33 := by
  have hcoef : |(F[n].toInt : ℝ)| ≤ 2 ^ 31 := by
    have hint : |F[n].toInt| ≤ 2 ^ 31 := by
      have := BitVec.le_toInt F[n]
      have := BitVec.toInt_lt (x := F[n])
      rw [abs_le]; omega
    exact_mod_cast hint
  calc |idealTerm F x y n| ≤ 2 ^ 31 * (2 * 2) := by
        rw [idealTerm, abs_mul, abs_mul]
        gcongr <;> exact abs_cosUnit_le _
    _ = 2 ^ 33 := by norm_num

theorem abs_eval_idealSum_le (F : Block) (i : Fin 64) : |(idealSum F i).eval| ≤ 2 ^ 39 := by
  rw [eval_idealSum]
  calc _ ≤ ∑ n, |idealTerm F (i.val % 8) (i.val / 8) n| := Finset.abs_sum_le_sum_abs _ _
    _ ≤ ∑ _n : Fin 64, (2 : ℝ) ^ 33 := Finset.sum_le_sum fun n _ => abs_idealTerm_le F _ _ n
    _ = 2 ^ 39 := by norm_num

/-- `A(x, u)` is twice the factor of rule R245, its scale `C(u)` included. -/
theorem cosUnit_basisAngle (x u : Nat) :
    cosUnit (basisAngle x u) = 2 * (idealScale u * Real.cos ((2 * x + 1) * u * Real.pi / 16)) := by
  by_cases hu : u = 0
  · simp [hu, basisAngle, idealScale, cosUnit_four, ← div_eq_mul_inv]
  · simp [hu, basisAngle, idealScale, cosUnit]

theorem blockAt_eq_getElem (F : Block) (n : Fin 64) : blockAt F n.val = F[n] := by
  simp [blockAt]

/-- Rule R245: the model's sum of cosines is sixteen times the ideal value. -/
theorem idealSample_eq (F : Block) (i : Fin 64) : idealSample F i = (idealSum F i).eval / 16 := by
  have hindex : ∀ v u : Fin 8, (8 * v.val + u.val) % 8 = u.val ∧ (8 * v.val + u.val) / 8 = v.val := by omega
  rw [eval_idealSum, ← (finProdFinEquiv (m := 8) (n := 8)).sum_comp, Fintype.sum_prod_type, Finset.sum_comm,
    idealSample, Finset.sum_div, Finset.mul_sum]
  refine Finset.sum_congr rfl fun u _ => ?_
  rw [Finset.sum_div, Finset.mul_sum]
  refine Finset.sum_congr rfl fun v _ => ?_
  have hval : (finProdFinEquiv (v, u)).val = 8 * v.val + u.val := add_comm _ _
  rw [idealTerm, ← blockAt_eq_getElem]
  rw [hval, (hindex v u).1, (hindex v u).2, cosUnit_basisAngle, cosUnit_basisAngle]
  ring

end Sys2Proof.Machine

/-! SUPPORT. The sign of a sum of cosines, as decided in the tower of fields of Machine/Idct.lean, is the sign of its
value; hence its floor, its rounding to nearest, and the two rules of 45_idct.md about `P_IDCT` (R247 and R248). -/

namespace Sys2Proof.Machine

open SignType (sign)

/-! ### Signs -/

theorem int_sign_eq (n : Int) : n.sign = (sign (n : ℝ) : Int) := by
  rw [Int.sign_eq_sign, sign_intCast]

theorem signType_coe_inj {a b : SignType} : (a : Int) = b ↔ a = b := by decide +revert

theorem signType_coe_eq_zero_iff {a : SignType} : (a : Int) = 0 ↔ a = 0 := by decide +revert

theorem signType_coe_nonneg_iff {a : SignType} : 0 ≤ (a : Int) ↔ 0 ≤ a := by decide +revert

theorem sign_add_of_sign_eq {x y : ℝ} (h : sign x = sign y) : sign (x + y) = sign x := by
  rcases lt_trichotomy x 0 with hx | rfl | hx
  · have hy : y < 0 := by rwa [sign_neg hx, eq_comm, sign_eq_neg_one_iff] at h
    rw [sign_neg hx, sign_neg (add_neg hx hy)]
  · rw [zero_add, h]
  · have hy : 0 < y := by rwa [sign_pos hx, eq_comm, sign_eq_one_iff] at h
    rw [sign_pos hx, sign_pos (add_pos hx hy)]

/-- The key to every sign test: where `x` and `y` have opposite signs, `x - y` has the sign of `x` and
`x² - y² = (x + y)·(x - y)`. -/
theorem signPair_sign (x y : ℝ) : signPair (sign x) (sign y) (sign (x * x - y * y)) = (sign (x + y) : Int) := by
  have hopposite : ∀ a b : SignType, a ≠ b → a ≠ 0 → b ≠ 0 → a = -b ∧ a * a = 1 := by decide
  simp only [signPair, signType_coe_inj, signType_coe_eq_zero_iff]
  split_ifs with hsame hx hy
  · rw [sign_add_of_sign_eq hsame]
  · rw [sign_eq_zero_iff.mp hx, zero_add]
  · rw [sign_eq_zero_iff.mp hy, add_zero]
  · obtain ⟨hneg, hunit⟩ := hopposite _ _ hsame hx hy
    have hsub : sign (x - y) = sign x := by
      rw [sub_eq_add_neg, sign_add_of_sign_eq (by rw [Left.sign_neg, hneg])]
    rw [mul_self_sub_mul_self, sign_mul, hsub, ← SignType.coe_mul, mul_left_comm, hunit, mul_one]

/-- `signPair` decides the sign of `x + y·r` for a positive `r` from that of `x² - r²·y²`. -/
theorem signPair_eq {x y r d : ℝ} (hr : 0 < r) (hd : d = x * x - r * r * (y * y)) :
    signPair (sign x) (sign y) (sign d) = (sign (x + y * r) : Int) := by
  have hy : sign y = sign (y * r) := by rw [sign_mul, sign_pos hr, mul_one]
  rw [hd, hy, ← signPair_sign]
  ring_nf

/-! ### The tower of fields -/

/-- Each generator `T 4`, `T 2`, `T 1` of the tower is the root of 2 more than the one before it. -/
theorem cosUnit_mul_self (k : Nat) : cosUnit k * cosUnit k = 2 + cosUnit (2 * k) := by
  rw [cosUnit_mul, max_self, min_self, Nat.sub_self, cosUnit_zero]
  ring_nf

theorem cosUnit_four_mul_self : cosUnit 4 * cosUnit 4 = 2 := by
  rw [cosUnit_mul_self, cosUnit_eight, add_zero]

/-- The real number `a + b·√2`. -/
noncomputable def Quad.eval (x : Quad) : ℝ := x.a + x.b * cosUnit 4

@[simp] theorem eval_quadAdd (x y : Quad) : (quadAdd x y).eval = x.eval + y.eval := by
  simp only [quadAdd, Quad.eval]; push_cast; ring

@[simp] theorem eval_quadSub (x y : Quad) : (quadSub x y).eval = x.eval - y.eval := by
  simp only [quadSub, Quad.eval]; push_cast; ring

@[simp] theorem eval_quadMul (x y : Quad) : (quadMul x y).eval = x.eval * y.eval := by
  simp only [quadMul, Quad.eval]; push_cast
  linear_combination (-(x.b * y.b : ℝ)) * cosUnit_four_mul_self

theorem quadSign_eq (x : Quad) : quadSign x = (sign x.eval : Int) := by
  rw [quadSign, int_sign_eq, int_sign_eq, int_sign_eq, Quad.eval]
  refine signPair_eq (cosUnit_pos (by omega)) ?_
  rw [cosUnit_four_mul_self]; push_cast; ring

/-- The square of `√(2+√2)`. -/
theorem eval_two_one : (⟨2, 1⟩ : Quad).eval = cosUnit 2 * cosUnit 2 := by
  simp [Quad.eval, cosUnit_mul_self]

/-- The real number `x + y·√(2+√2)`. -/
noncomputable def Oct.eval (z : Oct) : ℝ := z.x.eval + z.y.eval * cosUnit 2

@[simp] theorem eval_octSub (z w : Oct) : (octSub z w).eval = z.eval - w.eval := by
  simp only [octSub, Oct.eval, eval_quadSub]; ring

@[simp] theorem eval_octMul (z w : Oct) : (octMul z w).eval = z.eval * w.eval := by
  simp only [octMul, Oct.eval, eval_quadAdd, eval_quadMul, eval_two_one]; ring

theorem octSign_eq (z : Oct) : octSign z = (sign z.eval : Int) := by
  rw [octSign, quadSign_eq, quadSign_eq, quadSign_eq, Oct.eval]
  refine signPair_eq (cosUnit_pos (by omega)) ?_
  simp only [eval_quadSub, eval_quadMul, eval_two_one]

/-- The square of `√(2+√(2+√2))`. -/
theorem eval_two_zero_one : (⟨⟨2, 0⟩, ⟨1, 0⟩⟩ : Oct).eval = cosUnit 1 * cosUnit 1 := by
  simp [Oct.eval, Quad.eval, cosUnit_mul_self]

/-- `T 6 = T 2·(T 4 - 1)`. -/
theorem cosUnit_four_mul_two : cosUnit 4 * cosUnit 2 = cosUnit 6 + cosUnit 2 := cosUnit_mul 4 2

theorem eval_evenPart (a : CosSum) :
    (evenPart a).eval = a.n0 + a.n2 * cosUnit 2 + a.n4 * cosUnit 4 + a.n6 * cosUnit 6 := by
  simp only [evenPart, Oct.eval, Quad.eval]; push_cast
  linear_combination (a.n6 : ℝ) * cosUnit_four_mul_two

theorem eval_oddPart_mul (a : CosSum) :
    (oddPart a).eval * cosUnit 1 = a.n1 * cosUnit 1 + a.n3 * cosUnit 3 + a.n5 * cosUnit 5 + a.n7 * cosUnit 7 := by
  have h3 : cosUnit 2 * cosUnit 1 = cosUnit 3 + cosUnit 1 := cosUnit_mul 2 1
  have h5 : cosUnit 4 * cosUnit 1 = cosUnit 5 + cosUnit 3 := cosUnit_mul 4 1
  have h7 : cosUnit 6 * cosUnit 1 = cosUnit 7 + cosUnit 5 := cosUnit_mul 6 1
  simp only [oddPart, Oct.eval, Quad.eval]; push_cast
  linear_combination (a.n3 - a.n5 + a.n7 : ℝ) * h3 + (a.n5 - a.n7 : ℝ) * h5
    + (a.n7 : ℝ) * (h7 + cosUnit 1 * cosUnit_four_mul_two)

theorem eval_eq_evenPart_add_oddPart (a : CosSum) : a.eval = (evenPart a).eval + (oddPart a).eval * cosUnit 1 := by
  rw [eval_evenPart, eval_oddPart_mul, CosSum.eval]; ring

theorem cosSign_eq (a : CosSum) : cosSign a = (sign a.eval : Int) := by
  rw [cosSign, octSign_eq, octSign_eq, octSign_eq, eval_eq_evenPart_add_oddPart]
  refine signPair_eq (cosUnit_pos (by omega)) ?_
  simp only [eval_octSub, eval_octMul, eval_two_zero_one]

theorem cosSign_nonneg_iff (a : CosSum) : 0 ≤ cosSign a ↔ 0 ≤ a.eval := by
  rw [cosSign_eq, signType_coe_nonneg_iff, sign_nonneg_iff]

theorem cosSign_eq_zero_iff (a : CosSum) : cosSign a = 0 ↔ a.eval = 0 := by
  rw [cosSign_eq, signType_coe_eq_zero_iff, sign_eq_zero_iff]

/-! ### Floor and rounding -/

theorem eval_minusSixteen (a : CosSum) (m : Int) : (minusSixteen a m).eval = a.eval - 16 * m := by
  simp only [minusSixteen, CosSum.eval]; push_cast; ring

theorem atLeast_iff (a : CosSum) (m : Int) : atLeast a m = true ↔ m ≤ ⌊a.eval / 16⌋ := by
  rw [atLeast, decide_eq_true_iff, cosSign_nonneg_iff, eval_minusSixteen, sub_nonneg, Int.le_floor,
    le_div_iff₀ (by norm_num), mul_comm]

theorem floorSearch_eq (a : CosSum) (bits : Nat) (lo : Int) (hlo : lo ≤ ⌊a.eval / 16⌋)
    (hhi : ⌊a.eval / 16⌋ < lo + 2 ^ bits) : floorSearch a bits lo = ⌊a.eval / 16⌋ := by
  induction bits generalizing lo with
  | zero => rw [pow_zero] at hhi; rw [floorSearch]; omega
  | succ bits ih =>
    rw [pow_succ] at hhi
    rw [floorSearch]
    split_ifs with hmid <;> rw [atLeast_iff] at hmid
    · exact ih _ hmid (by omega)
    · exact ih _ hlo (by omega)

/-- The guess is taken only where it is the floor, and the search's range covers every sum in the bound. -/
theorem floorSixteenth_eq {a : CosSum} (hbound : |a.eval| ≤ 2 ^ 40) : floorSixteenth a = ⌊a.eval / 16⌋ := by
  obtain ⟨hlo, hhi⟩ := abs_le.mp hbound
  rw [floorSixteenth]
  split
  case isTrue hguess =>
    simp only [Bool.and_eq_true, Bool.not_eq_true', ← Bool.not_eq_true, atLeast_iff] at hguess
    omega
  case isFalse =>
    refine floorSearch_eq a 40 _ (Int.le_floor.mpr ?_) (Int.floor_lt.mpr ?_) <;> push_cast <;> linarith

theorem eval_add_eight (a : CosSum) : ({ a with n0 := a.n0 + 8 } : CosSum).eval = a.eval + 8 := by
  simp only [CosSum.eval]; push_cast; ring

theorem eval_negSum (a : CosSum) : (negSum a).eval = -a.eval := by
  simp only [negSum, CosSum.eval]; push_cast; ring

theorem floorSixteenth_add_eight {a : CosSum} (hbound : |a.eval| ≤ 2 ^ 39) :
    floorSixteenth { a with n0 := a.n0 + 8 } = ⌊a.eval / 16 + 1 / 2⌋ := by
  have hbound8 : |({ a with n0 := a.n0 + 8 } : CosSum).eval| ≤ 2 ^ 40 := by
    rw [eval_add_eight]
    linarith [abs_add_le a.eval 8, abs_of_pos (show (0 : ℝ) < 8 by norm_num)]
  rw [floorSixteenth_eq hbound8, eval_add_eight]
  ring_nf

theorem nearestSixteenth_of_nonneg {a : CosSum} (hbound : |a.eval| ≤ 2 ^ 39) (ha : 0 ≤ a.eval) :
    nearestSixteenth a = ⌊a.eval / 16 + 1 / 2⌋ := by
  rw [nearestSixteenth, if_pos ((cosSign_nonneg_iff a).mpr ha), floorSixteenth_add_eight hbound]

theorem nearestSixteenth_of_neg {a : CosSum} (hbound : |a.eval| ≤ 2 ^ 39) (ha : a.eval < 0) :
    nearestSixteenth a = -⌊-(a.eval / 16) + 1 / 2⌋ := by
  have hneg : |(negSum a).eval| ≤ 2 ^ 39 := by rwa [eval_negSum, abs_neg]
  have hfloor := floorSixteenth_add_eight hneg
  rw [eval_negSum, neg_div] at hfloor
  rw [nearestSixteenth, if_neg (by rw [cosSign_nonneg_iff]; exact not_le.mpr ha), ← hfloor]
  rfl

/-! ### The transform -/

theorem floorSixteenth_idealSum (F : Block) (i : Fin 64) : floorSixteenth (idealSum F i) = ⌊idealSample F i⌋ := by
  rw [idealSample_eq, floorSixteenth_eq ((abs_eval_idealSum_le F i).trans (by norm_num))]

theorem isExact_idealSum_iff (F : Block) (i : Fin 64) :
    isExact (idealSum F i) = true ↔ idealSample F i = ⌊idealSample F i⌋ := by
  rw [isExact, beq_iff_eq, cosSign_eq_zero_iff, eval_minusSixteen, floorSixteenth_idealSum, sub_eq_zero,
    idealSample_eq, div_eq_iff (by norm_num), mul_comm (16 : ℝ)]

theorem ceil_idealSample {F : Block} {i : Fin 64} (hexact : ¬isExact (idealSum F i) = true) :
    ⌈idealSample F i⌉ = ⌊idealSample F i⌋ + 1 := by
  rw [Int.ceil_eq_floor_add_one_iff_notMem]
  rintro ⟨m, hm⟩
  rw [isExact_idealSum_iff, ← hm, Int.floor_intCast] at hexact
  exact hexact rfl

theorem nearestSixteenth_idealSum_of_nonneg {F : Block} {i : Fin 64} (h : 0 ≤ idealSample F i) :
    nearestSixteenth (idealSum F i) = ⌊idealSample F i + 1 / 2⌋ := by
  rw [idealSample_eq] at h ⊢
  exact nearestSixteenth_of_nonneg (abs_eval_idealSum_le F i) (by linarith)

theorem nearestSixteenth_idealSum_of_neg {F : Block} {i : Fin 64} (h : idealSample F i < 0) :
    nearestSixteenth (idealSum F i) = -⌊-idealSample F i + 1 / 2⌋ := by
  rw [idealSample_eq] at h ⊢
  exact nearestSixteenth_of_neg (abs_eval_idealSum_le F i) (by linarith)

theorem idctSample_nearest (F : Block) (i : Fin 64) :
    idctSample .nearest F i = sat32 (nearestSixteenth (idealSum F i)) := rfl

theorem idctSample_other (n : Nat) (F : Block) (i : Fin 64) :
    idctSample (.other n) F i =
      if isExact (idealSum F i) then sat32 (floorSixteenth (idealSum F i))
      else if Config.idctRoundsUp n F i then sat32 (floorSixteenth (idealSum F i) + 1)
      else sat32 (floorSixteenth (idealSum F i)) := rfl

theorem idctBlock_getElem (kind : IdctKind) (F : Block) (i : Fin 64) : (idctBlock kind F)[i] = idctSample kind F i :=
  Vector.getElem_ofFn i.isLt

/-- `⌊x + 1/2⌋` is the floor or the ceiling of `x`. -/
theorem floor_add_half_eq_floor_or_ceil (x : ℝ) : ⌊x + 1 / 2⌋ = ⌊x⌋ ∨ ⌊x + 1 / 2⌋ = ⌈x⌉ := by
  have hfloor : ⌊x⌋ ≤ ⌊x + 1 / 2⌋ := Int.floor_mono (by norm_num)
  have hceil : ⌊x + 1 / 2⌋ ≤ ⌈x⌉ := by
    have : ⌊x + 1 / 2⌋ < ⌈x⌉ + 1 := Int.floor_lt.mpr (by push_cast; linarith [Int.le_ceil x])
    omega
  have := Int.ceil_le_floor_add_one x
  omega

/-- Rounding to nearest gives the floor or the ceiling, on either side of 0. -/
theorem nearestSixteenth_idealSum_eq_floor_or_ceil (F : Block) (i : Fin 64) :
    nearestSixteenth (idealSum F i) = ⌊idealSample F i⌋ ∨ nearestSixteenth (idealSum F i) = ⌈idealSample F i⌉ := by
  rcases le_or_gt 0 (idealSample F i) with hsign | hsign
  · rw [nearestSixteenth_idealSum_of_nonneg hsign]
    exact floor_add_half_eq_floor_or_ceil _
  · rw [nearestSixteenth_idealSum_of_neg hsign]
    have := floor_add_half_eq_floor_or_ceil (-idealSample F i)
    rw [Int.floor_neg, Int.ceil_neg] at this
    omega

/-- Settles O45: the default transform rounds to the floor or the ceiling, and another one to whichever of the two the
free value chooses. -/
theorem idctConformsToIdealTransform : Obligations.IdctConformsToIdealTransform := by
  intro kind F i
  rw [idctBlock_getElem]
  cases kind with
  | nearest => exact ⟨_, nearestSixteenth_idealSum_eq_floor_or_ceil F i, idctSample_nearest F i⟩
  | other n =>
    rw [idctSample_other, floorSixteenth_idealSum]
    split_ifs with hexact hup
    · exact ⟨_, .inl rfl, rfl⟩
    · exact ⟨_, .inr (ceil_idealSample hexact).symm, rfl⟩
    · exact ⟨_, .inl rfl, rfl⟩

/-- Settles O46: the model rounds the magnitude and puts the sign back, on each side of 0. -/
theorem defaultIdctRoundsToNearest : Obligations.DefaultIdctRoundsToNearest := by
  intro F i
  rw [idctBlock_getElem, idctSample_nearest]
  exact ⟨fun hsign => by rw [nearestSixteenth_idealSum_of_nonneg hsign],
    fun hsign => by rw [nearestSixteenth_idealSum_of_neg hsign]⟩

end Sys2Proof.Machine

/-! SUPPORT. The colour of one pixel (46_color.md rules R257 to R260 and R264): the model's integer quotients are floors of
the exact rational sums, and what the nearest-neighbour chroma index is where both luma factors are 2. -/

namespace Sys2Proof.Machine

variable {s : State}

/-- A rational that is the integer `n` over `d` has the floor `n / d`. -/
theorem floor_eq_ediv {q : ℚ} {n : Int} {d : Nat} (h : q = n / d) : ⌊q⌋ = n / d := by
  rw [h, Rat.floor_intCast_div_natCast]

/-- Rule R259: each quotient of the model is the floor of the sum the rule writes. -/
theorem rgbOf_eq_floors (y cb cr : Int) :
    rgbOf y cb cr =
      (clamp255 ⌊(y : ℚ) + 1402 / 1000 * cr + 128⌋,
       clamp255 ⌊(y : ℚ) - 344136 / 1000000 * cb - 714136 / 1000000 * cr + 128⌋,
       clamp255 ⌊(y : ℚ) + 1772 / 1000 * cb + 128⌋) := by
  have hred : ⌊(y : ℚ) + 1402 / 1000 * cr + 128⌋ = (1000 * y + 1402 * cr + 128000) / (1000 : Nat) :=
    floor_eq_ediv (by push_cast; ring)
  have hgreen : ⌊(y : ℚ) - 344136 / 1000000 * cb - 714136 / 1000000 * cr + 128⌋ =
      (1000000 * y - 344136 * cb - 714136 * cr + 128000000) / (1000000 : Nat) :=
    floor_eq_ediv (by push_cast; ring)
  have hblue : ⌊(y : ℚ) + 1772 / 1000 * cb + 128⌋ = (1000 * y + 1772 * cb + 128000) / (1000 : Nat) :=
    floor_eq_ediv (by push_cast; ring)
  rw [hred, hgreen, hblue]
  rfl

/-- Clamping keeps the values of a byte: the narrowing to 8 bits loses nothing. -/
theorem clamp255_toNat (x : Int) : ((clamp255 x).toNat : Int) = min (max x 0) 255 := by
  rw [clamp255, BitVec.toNat_ofNat, Nat.mod_eq_of_lt (by omega)]
  omega

/-- Rule R264: with both factors 2 a chroma sample serves two columns and two rows. -/
theorem chromaSample_two_by_two (hhmax : s.frame.hmax = 2) (hvmax : s.frame.vmax = 2) (ch : Fin 3) (m i j : Nat) {dx dy : Nat}
    (hdx : dx < 2) (hdy : dy < 2) :
    chromaSample s ch m (2 * i + dx) (2 * j + dy) = (blockAt (coefRead s.coef m ch 0) (8 * j + i)).toInt := by
  have hindex : (2 * j + dy) / (2 : BitVec 3).toNat * 8 + (2 * i + dx) / (2 : BitVec 3).toNat = 8 * j + i := by
    rw [show (2 : BitVec 3).toNat = 2 from rfl]; omega
  rw [chromaSample, hhmax, hvmax, hindex]

/-- Settles O47: the model's quotients are the floors, and the chroma index of a 2 by 2 group is one. -/
theorem colourAndUpsamplingLaws : Obligations.ColourAndUpsamplingLaws :=
  ⟨fun y cb cr => ⟨rgbOf_eq_floors y cb cr, rfl, clamp255_toNat⟩,
    fun _ ch m i j _ _ hhmax hvmax _ _ hdx hdy => chromaSample_two_by_two hhmax hvmax ch m i j hdx hdy⟩

end Sys2Proof.Machine

/-! SUPPORT. The COLOR step (46_color.md rules R255 and R261 to R263): which pixels of the image an MCU holds, what the step
leaves in host memory, and when it sets DONE. -/

namespace Sys2Proof.Machine

variable {s t u : State} {n x y : Nat} {p : Nat × Nat}

/-! ### The pixels of the image in one MCU (rule R255) -/

/-- The MCU that holds the pixel `(x, y)` of the image, its MCUs counted row by row. -/
def mcuOfPixel (u : State) (x y : Nat) : Nat :=
  y / (8 * u.frame.vmax.toNat) * u.frame.mcuCols.toNat + x / (8 * u.frame.hmax.toNat)

theorem div_lt_ceilDiv {a b c : Nat} (h : a < b) (hc : 0 < c) : a / c < ceilDiv b c := by
  rw [ceilDiv, Nat.lt_iff_add_one_le, ← Nat.add_div_right a hc]
  exact Nat.div_le_div_right (by omega)

theorem FrameOk.hmax_pos (hframe : FrameOk u) : 0 < u.frame.hmax.toNat := by
  rcases hframe.hmax with h | h <;> rw [h] <;> decide

theorem FrameOk.vmax_pos (hframe : FrameOk u) : 0 < u.frame.vmax.toNat := by
  rcases hframe.vmax with h | h <;> rw [h] <;> decide

/-- A pixel inside the image lies in MCU `n` where its MCU column and row are those of `n`. -/
theorem FrameOk.mcuOfPixel_eq_iff (hframe : FrameOk u) (hx : x < u.frame.width.toNat) :
    mcuOfPixel u x y = n ↔
      x / (8 * u.frame.hmax.toNat) = n % u.frame.mcuCols.toNat ∧ y / (8 * u.frame.vmax.toNat) = n / u.frame.mcuCols.toNat := by
  have hcolumn : x / (8 * u.frame.hmax.toNat) < u.frame.mcuCols.toNat := by
    rw [hframe.cols]
    exact div_lt_ceilDiv hx (Nat.mul_pos (by decide) hframe.hmax_pos)
  have hunique := Nat.div_mod_unique (a := n) (c := x / (8 * u.frame.hmax.toNat)) (d := y / (8 * u.frame.vmax.toNat))
    (Nat.zero_lt_of_lt hcolumn)
  rw [mcuOfPixel, Nat.mul_comm, Nat.add_comm, eq_comm (b := n % _), eq_comm (b := n / _)]
  tauto

/-- The MCU-relative coordinates of MCU `n` that lie at `(x, y)` of the image. -/
theorem FrameOk.imageXY_eq_iff (hframe : FrameOk u) :
    (p ∈ mcuPixels u ∧ imageXY u n p.1 p.2 = (x, y)) ↔
      (x / (8 * u.frame.hmax.toNat) = n % u.frame.mcuCols.toNat ∧ y / (8 * u.frame.vmax.toNat) = n / u.frame.mcuCols.toNat) ∧
        p = (x % (8 * u.frame.hmax.toNat), y % (8 * u.frame.vmax.toNat)) := by
  have hcolumn := mcuCoordinate_iff (a := n % u.frame.mcuCols.toNat) (x := x) (px := p.1) hframe.hmax_pos
  have hrow := mcuCoordinate_iff (a := n / u.frame.mcuCols.toNat) (x := y) (px := p.2) hframe.vmax_pos
  rw [mem_mcuPixels, imageXY, Prod.mk.injEq, Prod.ext_iff, eq_comm (b := x % _), eq_comm (b := y % _)]
  tauto

/-- Every pixel of MCU `n` inside the image is one whose MCU is `n`. -/
theorem FrameOk.mcuOfPixel_imageXY (hframe : FrameOk u) (hp : p ∈ mcuPixels u)
    (hx : (imageXY u n p.1 p.2).1 < u.frame.width.toNat) :
    mcuOfPixel u (imageXY u n p.1 p.2).1 (imageXY u n p.1 p.2).2 = n :=
  (hframe.mcuOfPixel_eq_iff hx).mpr (hframe.imageXY_eq_iff.mp ⟨hp, rfl⟩).1

/-! ### Host memory after COLOR (rules R261 and R262) -/

/-- The three bytes of each pixel of the image in MCU `work` are its colour. -/
theorem FrameOk.memRead_colorStep_pixel (hframe : FrameOk u) (hmem : Memory.wf u.mem = true)
    (hcap : 3 * u.frame.width.toNat * u.frame.height.toNat < 2 ^ 32)
    (hx : x < u.frame.width.toNat) (hy : y < u.frame.height.toNat) (hmcu : mcuOfPixel u x y = u.work.toNat) :
    (memRead (colorStep u) (pixelAddr u x y), memRead (colorStep u) (pixelAddr u x y + 1),
      memRead (colorStep u) (pixelAddr u x y + 2)) =
      pixelAt u u.work.toNat (x % (8 * u.frame.hmax.toNat)) (y % (8 * u.frame.vmax.toNat)) := by
  have hplace := (hframe.mcuOfPixel_eq_iff hx).mp hmcu
  obtain ⟨hp, hxy⟩ := hframe.imageXY_eq_iff.mpr ⟨hplace, rfl⟩
  have honly : ∀ q ∈ mcuPixels u, imageXY u u.work.toNat q.1 q.2 = (x, y) →
      q = (x % (8 * u.frame.hmax.toNat), y % (8 * u.frame.vmax.toNat)) :=
    fun q hq hqxy => (hframe.imageXY_eq_iff.mp ⟨hq, hqxy⟩).2
  have hsame := foldl_convertPixel_same u u.work.toNat (x % (8 * u.frame.hmax.toNat), y % (8 * u.frame.vmax.toNat))
  simp only [hxy] at hsame
  exact hsame ⟨hx, hy⟩ hcap (mcuPixels u) u.mem hmem hp honly

/-- Every byte that belongs to no pixel of the image in MCU `work` stays. -/
theorem FrameOk.memRead_colorStep_outsideMcu (hframe : FrameOk u) {a : Nat}
    (ha : ∀ x y k, x < u.frame.width.toNat → y < u.frame.height.toNat → mcuOfPixel u x y = u.work.toNat → k < 3 →
      a % 2 ^ 32 ≠ (pixelAddr u x y + k) % 2 ^ 32) :
    memRead (colorStep u) a = memRead u a :=
  foldl_convertPixel_other u u.work.toNat (a % 2 ^ 32) (mcuPixels u) u.mem fun _ hp hx hy k hk =>
    ha _ _ k hx hy (hframe.mcuOfPixel_imageXY hp hx) hk

/-! ### The step -/

theorem step_color (hturn : blockTurn s = some u) (hphase : u.phase = .color) : step s = .next (colorStep u) := by
  rw [step_of_blockTurn hturn, fetchBlock, hphase, runFetched]

/-- Settles O48: the turn is `colorStep`, whose pixels are those of the image in MCU `work`. -/
theorem colorStepWritesMcuPixels : Obligations.ColorStepWritesMcuPixels := by
  intro s u hinv hturn hphase
  have hscan : ScanOk u := hinv.scan (by rw [hphase]; decide)
  have hframe : FrameOk u := hinv.frame hscan.seen
  have hchecked : Checked u := hinv.checked (by rw [hphase]; decide)
  have hcap : 3 * u.frame.width.toNat * u.frame.height.toNat < 2 ^ 32 := hchecked.output.trans_lt u.outCap.isLt
  refine ⟨(colorStep u).mem, ?step, fun x y hx hy hmcu => ?pixel, fun a ha => ?other⟩
  case step => rw [step_color hturn hphase, colorStep, hphase]
  case pixel => exact hframe.memRead_colorStep_pixel hinv.memory hcap hx hy hmcu
  case other => exact hframe.memRead_colorStep_outsideMcu ha

/-! ### DONE (rule R263) -/

/-- COLOR sets DONE after the frame's last MCU alone, and goes idle with it. -/
theorem colorStep_sets_done (hbefore : s.done = false) (hafter : (colorStep s).done = true) :
    s.work.toNat + 1 = s.frame.mcuTotal.toNat ∧ (colorStep s).phase = .idle := by
  by_cases hlast : s.work.toNat + 1 = s.frame.mcuTotal.toNat
  · exact ⟨hlast, if_pos hlast⟩
  · rw [show (colorStep s).done = s.done from if_neg hlast, hbefore] at hafter
    cases hafter

/-- DONE after a move of the block (what each phase answers is `BlockResult`). -/
theorem BlockResult.done_eq_or_color (h : BlockResult u t) : t.done = u.done ∨ u.phase = .color ∧ t = colorStep u := by
  cases h with
  | raised d h => exact .inl (h ▸ raiseError_done d u)
  | inside h => exact .inl (by rw [h])
  | committed _ _ hdone _ => exact .inl hdone
  | color hphase h => exact .inr ⟨hphase, h⟩

/-- Settles O54: no input of the outside world sets DONE, and of the block's moves only COLOR does. -/
theorem doneOnlyAfterLastMcu : Obligations.DoneOnlyAfterLastMcu := by
  intro s t hstep hbefore hafter
  rcases step_turn s with ⟨u, hturn, hs⟩ | ⟨e, u, hturn, hs⟩
  · have hu : u.done = false := by rw [blockTurn_eq hturn, hbefore]
    obtain hkept | ⟨hphase, rfl⟩ := (fetchBlock_result (hs ▸ hstep)).done_eq_or_color
    · rw [hkept, hu] at hafter; cases hafter
    · exact ⟨u, hturn, hphase, colorStep_sets_done hu hafter⟩
  · obtain ⟨hinputs, htxn⟩ := hostTurn_eq hturn
    have hu : u.done = false := by rw [hinputs, hbefore]
    have hutxn : u.txn = .none := by rw [hinputs, htxn]
    obtain ⟨-, hdone, -, -⟩ := fetchExternal_next hutxn (hostTurn_ne hturn) (hs ▸ hstep)
    rw [hdone hafter] at hu; cases hu

end Sys2Proof.Machine

/-! SUPPORT. The error entry and the way back from it (60_exceptions.md rules R272, R278 and R285): which moves set ERR, and
which one leaves IDLE. -/

namespace Sys2Proof.Machine

variable {s t u : State} {i : Instr} {a : RegAccess} {e : Input} {v : Word}

/-! ### The error entry (rules R272 and R134) -/

/-- ERR after a move of the block (what each phase answers is `BlockResult`). -/
theorem BlockResult.err_eq_or_raised (h : BlockResult u t) : t.err = u.err ∨ ∃ d, t = raiseError d u := by
  cases h with
  | raised d h => exact .inr ⟨d, h⟩
  | inside h => exact .inl (by rw [h])
  | committed _ herr _ _ => exact .inl herr
  | color _ h => exact .inl (h ▸ colorStep_err u)

theorem abortDecode_stopped (s : State) : abortDecode s = stopped 6 0x60 s := rfl

/-- Settles O51: the block sets ERR by `raiseError` alone, whose code is a listed one, and the host by an abort alone. -/
theorem errorEntryKeepsEverythingElse : Obligations.ErrorEntryKeepsEverythingElse := by
  intro s t _ hstep hbefore hafter
  rcases step_turn s with ⟨u, hturn, hs⟩ | ⟨e, u, hturn, hs⟩
  · left
    have hu : u.err = false := by rw [blockTurn_eq hturn, hbefore]
    obtain hkept | ⟨d, rfl⟩ := (fetchBlock_result (hs ▸ hstep)).err_eq_or_raised
    · rw [hkept, hu] at hafter; cases hafter
    · exact ⟨u, _, _, hturn, raiseError_stopped d u, detail_errcode d⟩
  · right
    obtain ⟨hinputs, htxn⟩ := hostTurn_eq hturn
    have hu : u.err = false := by rw [hinputs, hbefore]
    have hutxn : u.txn = .none := by rw [hinputs, htxn]
    obtain ⟨-, -, -, hkept | ⟨v, rfl, hrun, habort, rfl⟩⟩ := fetchExternal_next hutxn (hostTurn_ne hturn) (hs ▸ hstep)
    · rw [hkept hafter] at hu; cases hu
    · exact ⟨u, v, hturn, hrun, habort, abortDecode_stopped _⟩

/-! ### Leaving IDLE (rules R133 and R285) -/

/-- An idle block takes no step of its own. -/
theorem step_idle (hturn : blockTurn s = some u) (hphase : u.phase = .idle) : step s = .next u := by
  rw [step_of_blockTurn hturn, fetchBlock, hphase, runFetched]

theorem exec_writeConfig_phase {r : ConfigReg} (h : exec (.writeConfig r v) s = .next t) : t.phase = s.phase := by
  cases hbusy : busy s with
  | true =>
    rw [exec_writeConfig_busy hbusy] at h
    cases h; rfl
  | false =>
    obtain ⟨hinBase, hinLen, houtBase, houtCap⟩ := exec_writeConfig_idle (v := v) hbusy
    cases r with
    | inBase => rw [hinBase] at h; cases h; rfl
    | inLen => rw [hinLen] at h; cases h; rfl
    | outBase => rw [houtBase] at h; cases h; rfl
    | outCap => rw [houtCap] at h; cases h; rfl

/-- A register access keeps the phase, unless it is one of the four encodings of a CTRL write. -/
theorem exec_hostAccess_phase (hi : isHostAccess i = true) (h : exec i s = .next t) :
    t.phase = s.phase ∨ ∃ v, i = .start v ∨ i = .abort v ∨ i = .setIrqEn v ∨ i = .writeCtrl v := by
  cases i with
  | start v => exact .inr ⟨v, .inl rfl⟩
  | abort v => exact .inr ⟨v, .inr (.inl rfl)⟩
  | setIrqEn v => exact .inr ⟨v, .inr (.inr (.inl rfl))⟩
  | writeCtrl v => exact .inr ⟨v, .inr (.inr (.inr rfl))⟩
  | writeConfig r v => exact .inl (exec_writeConfig_phase h)
  | read _ | clearStatus _ | selectTableEntry _ | writeReadOnly _ _ | readTableEntry _ => cases h; exact .inl rfl
  | _ => cases hi

/-- Of what a CTRL write can do (`ctrlWrite_next`) only START leaves IDLE. -/
theorem ctrlWrite_leaves_idle (h : ctrlWrite v s = .next t) (hbefore : s.phase = .idle) (hafter : t.phase ≠ .idle) :
    v.getLsbD 0 = true ∧ t.phase = .parse := by
  obtain ⟨hbusy, -, -⟩ | ⟨-, hstart, rfl⟩ | rfl := ctrlWrite_next h
  · rw [busy_idle hbefore] at hbusy; cases hbusy
  · exact ⟨hstart, startDecode_phase _⟩
  · exact absurd hbefore hafter

theorem fetchAccess_leaves_idle (h : runFetched (fetchAccess a s) = .next t) (hbefore : s.phase = .idle)
    (hafter : t.phase ≠ .idle) : ∃ v, a = ⟨true, 4, 4, v⟩ ∧ v.getLsbD 0 = true ∧ t.phase = .parse := by
  unfold fetchAccess at h
  split at h
  case h_1 i n hdecode =>
    obtain hkept | ⟨v, hctrl⟩ := exec_hostAccess_phase (decodeHost_isHostAccess hdecode) h
    · exact absurd (hkept.trans hbefore) hafter
    · have hwrite : ctrlWrite v s = .next t := exec_ctrlWrite hctrl ▸ h
      exact ⟨v, decodeHost_ctrl hdecode hctrl, ctrlWrite_leaves_idle hwrite hbefore hafter⟩
  all_goals cases h

/-- Of the outside world's inputs only a register access leaves IDLE. -/
theorem fetchExternal_leaves_idle (he : e ≠ .turn) (h : runFetched (fetchExternal e s) = .next t)
    (hbefore : s.phase = .idle) (hafter : t.phase ≠ .idle) :
    ∃ v, e = .access ⟨true, 4, 4, v⟩ ∧ v.getLsbD 0 = true ∧ t.phase = .parse := by
  cases e with
  | turn => exact absurd rfl he
  | access a =>
    obtain ⟨v, rfl, hstart⟩ := fetchAccess_leaves_idle h hbefore hafter
    exact ⟨v, rfl, hstart⟩
  | poll w mask val => cases h; exact absurd ((pollRegister_phase w mask val s).trans hbefore) hafter
  | memWrite addr b => cases h; exact absurd hbefore hafter
  | memRead addr => cases h; exact absurd hbefore hafter
  | reset => cases h; exact absurd rfl hafter

/-- Settles O53: the block's turn is `step_idle`, and of the host's inputs only the START write leaves IDLE. -/
theorem onlyStartLeavesIdle : Obligations.OnlyStartLeavesIdle := by
  refine ⟨fun _ _ => step_idle, fun s t hstep hbefore hafter => ?_⟩
  rcases step_turn s with ⟨u, hturn, -⟩ | ⟨e, u, hturn, hs⟩
  · have hu : u.phase = .idle := by rw [blockTurn_eq hturn, hbefore]
    cases (step_idle hturn hu).symm.trans hstep
    exact absurd hu hafter
  · have hu : u.phase = .idle := by rw [(hostTurn_eq hturn).1, hbefore]
    obtain ⟨v, rfl, hstart⟩ := fetchExternal_leaves_idle (hostTurn_ne hturn) (hs ▸ hstep) hu hafter
    exact ⟨u, v, hturn, hstart⟩

end Sys2Proof.Machine


/-! SUPPORT. The invariant in parts: what each part reads of the state, and when a state has it. -/

namespace Sys2Proof.Machine

variable {s t u : State}

/-! ### The parts -/

/-- The part of the invariant about STATUS and ERRCODE. -/
structure StatusOk (s : State) : Prop where
  exclusive : ¬(s.done = true ∧ s.err = true)
  running   : busy s = true → s.done = false ∧ s.err = false ∧ errcodeWord s = 0
  noError   : s.done = true → errcodeWord s = 0
  listed    : errcodeWord s = 0 ∨ (errcodeWord s).toNat ∈ errcodes
  coded     : s.err = true → errcodeWord s ≠ 0

/-- The part about the input cursor, the step in progress and the size of the entropy buffer. -/
structure CursorsOk (s : State) : Prop where
  idle      : s.phase = .idle → s.txn = .none
  parsing   : ∀ p, s.txn = .marker p →
    (s.phase = .parse ∨ s.phase = .extract) ∧ s.ipos.toNat < p.toNat ∧ p.toNat ≤ s.inLen.toNat
  consumed  : busy s = true → s.ipos.toNat ≤ s.inLen.toNat
  buffered  : s.entLen.toNat ≤ s.ent.length ∧ s.entLen.toNat ≤ s.params.entropyCap
  extracted : busy s = true → s.entLen.toNat ≤ s.ipos.toNat

/-- The part about the headers read and the result of CHECK. -/
structure HeadersOk (s : State) : Prop where
  noFrame : s.frame.seen = false → s.frame = { noFrame with restartInterval := s.frame.restartInterval }
  frame   : s.frame.seen = true → FrameOk s
  scan    : 2 ≤ (phaseCode s.phase).toNat → ScanOk s
  checked : 4 ≤ (phaseCode s.phase).toNat → Checked s

/-- The part about the phases after CHECK. -/
structure ProgressOk (s : State) : Prop where
  decoding : s.phase = .entropy → s.mcuDone.toNat < s.frame.mcuTotal.toNat
  working  : 5 ≤ (phaseCode s.phase).toNat →
    s.mcuDone = s.frame.mcuTotal ∧ s.work.toNat < s.frame.mcuTotal.toNat
  cursor   : 4 ≤ (phaseCode s.phase).toNat → bitPos s.cur ≤ 8 * s.entLen.toNat
  mcu      : ∀ w, s.txn = .mcu w → s.phase = .entropy ∧ McuOk s w

theorem Inv.ofParts (memory : Memory.wf s.mem = true) (status : StatusOk s) (reserved : s.htSel &&& 0xFFFF00CE = 0)
    (cursors : CursorsOk s) (headers : HeadersOk s) (progress : ProgressOk s) (dcTables : allBuilt s.dcHt)
    (acTables : allBuilt s.acHt) : Inv s :=
  { memory, reserved, dcTables, acTables
    exclusive := status.exclusive, running := status.running, noError := status.noError, listed := status.listed
    coded := status.coded
    idle := cursors.idle, parsing := cursors.parsing, consumed := cursors.consumed, buffered := cursors.buffered
    extracted := cursors.extracted
    noFrame := headers.noFrame, frame := headers.frame, scan := headers.scan, checked := headers.checked
    decoding := progress.decoding, working := progress.working, cursor := progress.cursor, mcu := progress.mcu }

theorem Inv.status (h : Inv s) : StatusOk s := ⟨h.exclusive, h.running, h.noError, h.listed, h.coded⟩

theorem Inv.cursors (h : Inv s) : CursorsOk s := ⟨h.idle, h.parsing, h.consumed, h.buffered, h.extracted⟩

theorem Inv.headers (h : Inv s) : HeadersOk s := ⟨h.noFrame, h.frame, h.scan, h.checked⟩

theorem Inv.progress (h : Inv s) : ProgressOk s := ⟨h.decoding, h.working, h.cursor, h.mcu⟩

/-! ### What each part reads -/

theorem StatusOk.congr (h : StatusOk s) (hphase : t.phase = s.phase := by rfl) (hdone : t.done = s.done := by rfl)
    (herr : t.err = s.err := by rfl) (hcode : errcodeWord t = errcodeWord s := by rfl) : StatusOk t := by
  obtain ⟨hexclusive, hrunning, hnoError, hlisted, hcoded⟩ := h
  rw [busy] at hrunning
  constructor <;> simpa only [busy, hphase, hdone, herr, hcode]

theorem CursorsOk.congr (h : CursorsOk s) (hphase : t.phase = s.phase := by rfl) (htxn : t.txn = s.txn := by rfl)
    (hipos : t.ipos = s.ipos := by rfl) (hinLen : t.inLen = s.inLen := by rfl) (hent : t.ent = s.ent := by rfl)
    (hentLen : t.entLen = s.entLen := by rfl) (hparams : t.params = s.params := by rfl) : CursorsOk t := by
  obtain ⟨hidle, hparsing, hconsumed, hbuffered, hextracted⟩ := h
  rw [busy] at hconsumed hextracted
  constructor <;> simpa only [busy, hphase, htxn, hipos, hinLen, hent, hentLen, hparams]

/-- The headers stay legal in every phase that asks for no more of them. -/
theorem HeadersOk.congr (h : HeadersOk s)
    (hscan : 2 ≤ (phaseCode t.phase).toNat → 2 ≤ (phaseCode s.phase).toNat := by exact id)
    (hchecked : 4 ≤ (phaseCode t.phase).toNat → 4 ≤ (phaseCode s.phase).toNat := by exact id)
    (hframe : t.frame = s.frame := by rfl) (hcomp : t.comp = s.comp := by rfl) (hns : t.ns = s.ns := by rfl)
    (hpos : t.scan = s.scan := by rfl) (hqt : t.qt = s.qt := by rfl) (hdc : t.dcHt = s.dcHt := by rfl)
    (hac : t.acHt = s.acHt := by rfl) (hparams : t.params = s.params := by rfl)
    (houtCap : t.outCap = s.outCap := by rfl) : HeadersOk t where
  noFrame := by rw [hframe]; exact h.noFrame
  frame hseen := frameOk_of (h.frame (hframe ▸ hseen)) hframe hcomp
  scan hphase := scanOk_of (h.scan (hscan hphase)) hframe hns hpos
  checked hphase := checked_of (h.checked (hchecked hphase)) hframe hcomp hns hpos hqt hdc hac hparams houtCap

theorem mcuSlots_congr (hframe : t.frame = s.frame := by rfl) (hcomp : t.comp = s.comp := by rfl)
    (hns : t.ns = s.ns := by rfl) (hpos : t.scan = s.scan := by rfl) : mcuSlots t = mcuSlots s := by
  rw [mcuSlots, hframe, hcomp, hns, hpos, mcuSlots]

theorem McuOk.congr {w : McuWork} (h : McuOk s w) (hframe : t.frame = s.frame := by rfl)
    (hcomp : t.comp = s.comp := by rfl) (hns : t.ns = s.ns := by rfl) (hpos : t.scan = s.scan := by rfl)
    (hentLen : t.entLen = s.entLen := by rfl) : McuOk t w :=
  mcuOk_of h (mcuSlots_congr hframe hcomp hns hpos) hentLen

theorem ProgressOk.congr (h : ProgressOk s) (hphase : t.phase = s.phase := by rfl)
    (hmcuDone : t.mcuDone = s.mcuDone := by rfl) (hwork : t.work = s.work := by rfl)
    (hcur : t.cur = s.cur := by rfl) (htxn : t.txn = s.txn := by rfl) (hframe : t.frame = s.frame := by rfl)
    (hcomp : t.comp = s.comp := by rfl) (hns : t.ns = s.ns := by rfl) (hpos : t.scan = s.scan := by rfl)
    (hentLen : t.entLen = s.entLen := by rfl) : ProgressOk t where
  decoding := by rw [hphase, hmcuDone, hframe]; exact h.decoding
  working := by rw [hphase, hmcuDone, hwork, hframe]; exact h.working
  cursor := by rw [hphase, hcur, hentLen]; exact h.cursor
  mcu w hw :=
    have ⟨hentropy, hmcu⟩ := h.mcu w (htxn ▸ hw)
    ⟨hphase.trans hentropy, hmcu.congr hframe hcomp hns hpos hentLen⟩

/-- No part reads IRQ_EN, IN_BASE, OUT_BASE, the SOI flag, the predictors, the coefficient store, the outside world's
inputs or the last read value. -/
theorem Inv.unread (h : Inv s) (irqEn soiDone : Bool) (inBase outBase rdata : Word) (pred : Vector S32 3)
    (coef : List CoefEntry) (inputs : List Input) :
    Inv { s with irqEn, soiDone, inBase, outBase, rdata, pred, coef, inputs } :=
  .ofParts h.memory h.status.congr h.reserved h.cursors.congr h.headers.congr h.progress.congr h.dcTables h.acTables

/-! ### States that have a part -/

/-- With the flags and ERRCODE 0 the phase is free. -/
theorem StatusOk.clear (hdone : s.done = false) (herr : s.err = false) (hcode : errcodeWord s = 0) : StatusOk s where
  exclusive h := by rw [hdone] at h; cases h.1
  running _ := ⟨hdone, herr, hcode⟩
  noError _ := hcode
  listed := .inl hcode
  coded h := by rw [herr] at h; cases h

/-- A step of a running block that sets no flag may change the phase. -/
theorem StatusOk.runs (h : StatusOk s) (hbusy : busy s = true) (hdone : t.done = s.done := by rfl)
    (herr : t.err = s.err := by rfl) (hcode : errcodeWord t = errcodeWord s := by rfl) : StatusOk t :=
  have ⟨hdone', herr', hcode'⟩ := h.running hbusy
  .clear (hdone.trans hdone') (herr.trans herr') (hcode.trans hcode')

theorem zero_not_mem_errcodes : 0 ∉ errcodes := by decide

theorem errcodeWord_raiseError (d : Detail) (s : State) : (errcodeWord (raiseError d s)).toNat ∈ errcodes := by
  rw [errcode_toNat]
  exact detail_errcode d

theorem StatusOk.raised (hdone : s.done = false) (d : Detail) : StatusOk (raiseError d s) where
  exclusive h := by rw [raiseError_done, hdone] at h; cases h.1
  running := nofun
  noError h := by rw [raiseError_done, hdone] at h; cases h
  listed := .inr (errcodeWord_raiseError d s)
  coded _ h := zero_not_mem_errcodes (by have := errcodeWord_raiseError d s; rwa [h] at this)

/-- A step of a running block that moves no input cursor, in whatever phase it ends. -/
theorem CursorsOk.runs (h : CursorsOk s) (hbusy : busy s = true) (hidle : t.phase = .idle → t.txn = .none)
    (htxn : ∀ p, t.txn ≠ .marker p) (hipos : t.ipos = s.ipos := by rfl) (hinLen : t.inLen = s.inLen := by rfl)
    (hent : t.ent = s.ent := by rfl) (hentLen : t.entLen = s.entLen := by rfl)
    (hparams : t.params = s.params := by rfl) : CursorsOk t where
  idle := hidle
  parsing p hp := absurd hp (htxn p)
  consumed _ := by rw [hipos, hinLen]; exact h.consumed hbusy
  buffered := by rw [hent, hentLen, hparams]; exact h.buffered
  extracted _ := by rw [hipos, hentLen]; exact h.extracted hbusy

/-- Before the ENTROPY phase the last part asks nothing. -/
theorem ProgressOk.early (hphase : (phaseCode s.phase).toNat < 4) (htxn : ∀ w, s.txn ≠ .mcu w) : ProgressOk s where
  decoding h := by rw [h] at hphase; exact absurd hphase (by decide)
  working h := by omega
  cursor h := by omega
  mcu w hw := absurd hw (htxn w)

/-- Only inside a parser's or an MCU's step is a step open. -/
theorem Inv.txn_none (h : Inv s) (hparse : s.phase ≠ .parse) (hextract : s.phase ≠ .extract)
    (hentropy : s.phase ≠ .entropy) : s.txn = .none := by
  cases htxn : s.txn with
  | none => rfl
  | marker p => exact absurd (h.parsing p htxn).1 (by simp [hparse, hextract])
  | mcu w => exact absurd (h.mcu w htxn).1 hentropy

end Sys2Proof.Machine


/-! SUPPORT. Everything an instruction of the stream can do, with the updates it commits: the markers of the header, the
byte forms of the entropy-coded segment, and the entropy symbols; and that in the block's turn it answers a next state. -/

namespace Sys2Proof.Machine

variable {s t v w : State} {i : Instr} {p q n : Nat}

/-! ### What a parser instruction commits (41_segment_parser.md) -/

/-- What a marker of the header changes besides the cursor. -/
inductive HeaderUpdate (w : State) : State → Prop where
  | unchanged : HeaderUpdate w w
  | soi : HeaderUpdate w { w with soiDone := true }
  | quantTables (qt : Vector QTable 4) : HeaderUpdate w { w with qt := qt }
  | huffTables (dc ac : Vector HTable 4) (hdc : allBuilt w.dcHt → allBuilt dc) (hac : allBuilt w.acHt → allBuilt ac) :
    HeaderUpdate w { w with dcHt := dc, acHt := ac }
  | restartInterval (ri : Half) : HeaderUpdate w { w with frame := { w.frame with restartInterval := ri } }
  | frameHeader (y x nf : Nat) (zb : Bool) (cs : List Comp) (hread : FrameRead w y x nf cs) :
    HeaderUpdate w (commitFrame w y x nf zb cs)
  | scanHeader (pos : List (Fin 3)) (comp : Vector Comp 3) (hseen : w.frame.seen = true)
    (hlength : pos.length = w.frame.nf.toNat) (hlive : ∀ i ∈ pos, i.val < w.frame.nf.toNat) (hnodup : pos.Nodup)
    (hcomp : ∀ i : Fin 3, ∃ td ta, comp[i] = { w.comp[i] with td := td, ta := ta }) :
    HeaderUpdate w { w with comp := comp, scan := setScan w.scan pos, ns := w.frame.nf, phase := .extract }

/-- What a byte form of the entropy-coded segment changes besides the cursor. -/
inductive SegmentUpdate (w : State) : State → Prop where
  | unchanged : SegmentUpdate w w
  | append (b : Byte) (hroom : w.entLen.toNat ≠ w.params.entropyCap) :
    SegmentUpdate w { w with ent := putEnt w.ent w.entLen.toNat b, entLen := w.entLen + 1 }
  | endOfImage : SegmentUpdate w { w with phase := .check }

/-- What a parser instruction answers in `v`: its error, the step still open (a fill byte), or the cursor at `q` and an
update of the kind `R`. -/
inductive ParserResult (R : State → State → Prop) (v t : State) : Prop where
  | raised (d : Detail) (h : t = raiseError d v)
  | goesOn (h : t = v)
  | commits (q : Nat) (hlow : inPos v ≤ q) (hhigh : inPos v ≤ v.inLen.toNat → q ≤ v.inLen.toNat)
    (hupdate : R (commitPos q v) t)

/-- A segment's parser commits or raises. -/
theorem commitOrRaise_result {R : State → State → Prop} {r : Except Detail State} (h : commitOrRaise v r = .next t)
    (hok : r = .ok t → ParserResult R v t) : ParserResult R v t := by
  obtain hr | ⟨d, -, rfl⟩ := commitOrRaise_next h
  · exact hok hr
  · exact .raised d rfl

theorem skipSegment_result (h : skipSegment v = .next t) : ParserResult HeaderUpdate v t := by
  obtain ⟨d, rfl⟩ | ⟨q, rfl, hlow, hhigh⟩ := skipSegment_next h
  · exact .raised d rfl
  · exact .commits q hlow.le (fun _ => hhigh) .unchanged

theorem execSof0_result (h : execSof0 v = .next t) : ParserResult HeaderUpdate v t :=
  commitOrRaise_result h fun hok => by
    obtain ⟨y, x, nf, zb, cs, q, rfl, hlow, hhigh, hread⟩ := parseSof0_ok hok
    exact .commits q hlow.le (fun _ => hhigh) (.frameHeader y x nf zb cs { hread with })

theorem execDqt_result (h : execDqt v = .next t) : ParserResult HeaderUpdate v t :=
  commitOrRaise_result h fun hok => by
    obtain ⟨qt, q, rfl, hlow, hhigh⟩ := parseDqt_ok hok
    exact .commits q hlow.le (fun _ => hhigh) (.quantTables qt)

theorem execDht_result (h : execDht v = .next t) : ParserResult HeaderUpdate v t :=
  commitOrRaise_result h fun hok => by
    obtain ⟨dc, ac, q, rfl, hlow, hhigh, hdc, hac⟩ := parseDht_ok hok
    exact .commits q hlow.le (fun _ => hhigh) (.huffTables dc ac hdc hac)

theorem execDri_result (h : execDri v = .next t) : ParserResult HeaderUpdate v t :=
  commitOrRaise_result h fun hok => by
    obtain ⟨ri, q, rfl, hlow, hhigh⟩ := parseDri_ok hok
    exact .commits q hlow.le (fun _ => hhigh) (.restartInterval _)

theorem execSos_result (h : execSos v = .next t) : ParserResult HeaderUpdate v t :=
  commitOrRaise_result h fun hok => by
    obtain ⟨pos, comp, q, rfl, hlow, hhigh, hseen, hlength, hlive, hnodup, hcomp⟩ := parseSos_ok hok
    exact .commits q hlow.le (fun _ => hhigh) (.scanHeader pos comp hseen hlength hlive hnodup hcomp)

theorem appendEnt_result {b : Byte} (h : appendEnt b v = .next t) : ParserResult SegmentUpdate v t := by
  obtain ⟨d, rfl⟩ | ⟨hroom, rfl⟩ := appendEnt_next h
  · exact .raised d rfl
  · exact .commits (inPos v) le_rfl id (.append b hroom)

/-- All that a marker of the header can do. -/
theorem exec_header_result (hi : fits .header i = true ∨ i = .soi) (h : exec i v = .next t) :
    ParserResult HeaderUpdate v t := by
  cases i with
  | soi => cases h; exact .commits (inPos v) le_rfl id .soi
  | tem => cases h; exact .commits (inPos v) le_rfl id .unchanged
  | fill => cases h; exact .goesOn rfl
  | sof0 => exact execSof0_result h
  | dqt => exact execDqt_result h
  | dht => exact execDht_result h
  | dri => exact execDri_result h
  | sos => exact execSos_result h
  | dnl | dhp | exp | com | appn _ | jpgn _ => exact skipSegment_result h
  | nulMarker | res _ | soiEmbedded | eoiHeader | rstnHeader _ | dac | notMarker _ | sof1 | sof2 | sof3 | sof5 | sof6
  | sof7 | jpg | sof9 | sof10 | sof11 | sof13 | sof14 | sof15 => cases h; exact .raised _ rfl
  | _ => simp [fits] at hi

/-- All that a byte form of the entropy-coded segment can do. -/
theorem exec_segment_result (hi : fits .ecs i = true) (h : exec i v = .next t) : ParserResult SegmentUpdate v t := by
  cases i with
  | ecsData b => exact appendEnt_result h
  | ecsStuffedFf => exact appendEnt_result h
  | ecsRstn _ => cases h; exact .commits (inPos v) le_rfl id .unchanged
  | ecsEoi => cases h; exact .commits (inPos v) le_rfl id .endOfImage
  | ecsFill => cases h; exact .goesOn rfl
  | ecsBadMarker _ => cases h; exact .raised _ rfl
  | _ => simp [fits] at hi

/-- An instruction of the stream's parser is never stopped. -/
theorem exec_parser_isNext (hi : fits .header i = true ∨ i = .soi ∨ fits .ecs i = true) (s : State) :
    ∃ t, exec i s = .next t := by
  cases i with
  | sof0 | dqt | dht | dri | sos | dnl | dhp | exp | com | appn _ | jpgn _ | ecsData _ | ecsStuffedFf =>
    exact commitOrRaise_isNext s _
  | nulMarker | tem | res _ | sof1 | sof2 | sof3 | sof5 | sof6 | sof7 | jpg | sof9 | sof10 | sof11 | sof13 | sof14
  | sof15 | dac | rstnHeader _ | soi | soiEmbedded | eoiHeader | fill | notMarker _ | ecsRstn _ | ecsEoi | ecsFill
  | ecsBadMarker _ => exact ⟨_, rfl⟩
  | _ => simp [fits] at hi

/-! ### The parser's fetch -/

theorem decodeStart_soi {bs : List Byte} (h : decodeStart bs = .ok i n) : i = .soi := by
  unfold decodeStart at h
  split at h
  · split at h <;> cases h
    rfl
  · cases h

/-- The parser's fetch raises, or runs an instruction with the cursor past its bytes. -/
theorem fetchInput_cases (c : Ctx) (u : State) :
    fetchInput c u = .move (raiseError .sTruncated u) ∨
      ∃ i n, decode c (.bytes (peekInput u (inPos u))) = .ok i n ∧ fetchInput c u = .instr i (moveTo (inPos u + n) u) := by
  unfold fetchInput
  split
  next i n hdecode => exact .inr ⟨i, n, hdecode, rfl⟩
  next => exact .inl rfl

/-- So does the check of the image's start. -/
theorem fetchStart_cases (u : State) :
    (∃ d, fetchStart u = .move (raiseError d u)) ∨
      ∃ n, decode .start (.bytes (peekInput u (inPos u))) = .ok .soi n ∧
        fetchStart u = .instr .soi (moveTo (inPos u + n) u) := by
  unfold fetchStart
  split
  · exact .inl ⟨_, rfl⟩
  · split
    next i n hdecode =>
      obtain rfl := decodeStart_soi hdecode
      exact .inr ⟨n, hdecode, rfl⟩
    next => exact .inl ⟨_, rfl⟩
    next => exact .inl ⟨_, rfl⟩

/-- What a fetch of the parser leads to in `u`: its error, or an instruction's result after at least one byte of the
input. -/
inductive ParserTurn (R : State → State → Prop) (u t : State) : Prop where
  | raised (d : Detail) (h : t = raiseError d u)
  | ran (p : Nat) (hlow : inPos u < p) (hhigh : p ≤ u.inLen.toNat) (h : ParserResult R (moveTo p u) t)

theorem fetchHeader_turn {u : State} (h : runFetched (fetchInput .header u) = .next t) :
    ParserTurn HeaderUpdate u t := by
  obtain hfetch | ⟨i, n, hdecode, hfetch⟩ := fetchInput_cases .header u
  · rw [hfetch] at h; cases h
    exact .raised _ rfl
  · rw [hfetch] at h
    obtain ⟨hpos, hhigh⟩ := decode_peek_len (by decide) hdecode
    exact .ran _ (by omega) hhigh (exec_header_result (.inl (decodeHeader_fits hdecode)) h)

theorem fetchStart_turn {u : State} (h : runFetched (fetchStart u) = .next t) : ParserTurn HeaderUpdate u t := by
  obtain ⟨d, hfetch⟩ | ⟨n, hdecode, hfetch⟩ := fetchStart_cases u
  · rw [hfetch] at h; cases h
    exact .raised d rfl
  · rw [hfetch] at h
    obtain ⟨hpos, hhigh⟩ := decode_peek_len (by decide) hdecode
    exact .ran _ (by omega) hhigh (exec_header_result (.inr rfl) h)

theorem fetchSegment_turn {u : State} (h : runFetched (fetchInput .ecs u) = .next t) :
    ParserTurn SegmentUpdate u t := by
  obtain hfetch | ⟨i, n, hdecode, hfetch⟩ := fetchInput_cases .ecs u
  · rw [hfetch] at h; cases h
    exact .raised _ rfl
  · rw [hfetch] at h
    obtain ⟨hpos, hhigh⟩ := decode_peek_len (by decide) hdecode
    exact .ran _ (by omega) hhigh (exec_segment_result (decodeEcs_fits hdecode) h)

/-! ### Entropy symbols -/

/-- A decoded DC symbol runs the DC rule with its category (43_entropy_decoder.md rule R216). -/
theorem exec_decodeDc (b : Byte) : ∃ n, ∀ s, exec (decodeDc b) s = runSymbol (dcEffect s n) s := by
  unfold decodeDc
  split
  · exact ⟨0, fun _ => rfl⟩
  · split <;> exact ⟨b.toNat, fun _ => rfl⟩

/-- The two nibbles of a symbol byte other than 0 are not both 0. -/
theorem runOf_add_loNibble_pos {rs : Byte} (h : rs ≠ 0) : 0 < runOf rs + (loNibble rs).toNat := by
  have hne : rs.toNat ≠ 0 := fun h0 => h (BitVec.eq_of_toNat_eq h0)
  rw [runOf_eq, loNibble_toNat]
  split <;> omega

/-- A decoded AC symbol is EOB, or a pass of the AC loop that moves on by at least one position (rules R217 to R223). -/
theorem exec_decodeAc (k : Nat) (rs : Byte) :
    (∀ s, exec (decodeAc k rs) s = runSymbol (fun w _ => .ok (endBlock w)) s) ∨
      ∃ r n, 0 < r + n ∧ ∀ s, exec (decodeAc k rs) s = runSymbol (acEffect s r n) s := by
  unfold decodeAc
  by_cases h0 : rs = 0x00
  · rw [if_pos h0]
    exact .inl fun _ => rfl
  · right
    have hpos := runOf_add_loNibble_pos h0
    rw [if_neg h0]
    split
    · exact ⟨_, _, hpos, fun _ => rfl⟩
    · split
      · exact ⟨16, 0, by decide, fun _ => rfl⟩
      next hzrl =>
        rw [runOf, if_neg hzrl] at hpos
        split
        next hlo =>
          rw [hlo] at hpos
          exact ⟨_, 0, hpos, fun _ => rfl⟩
        next => split <;> exact ⟨_, _, hpos, fun _ => rfl⟩

/-- A symbol that runs in an open block answers a next state. -/
theorem runSymbol_isNext {x : McuWork} {slot : Slot} {rest : List Slot} (htxn : s.txn = .mcu x)
    (htodo : x.todo = slot :: rest) (f : McuWork → Slot → Except Detail McuWork) : ∃ t, runSymbol f s = .next t := by
  rw [runSymbol_open htxn htodo]
  split <;> exact ⟨_, rfl⟩

end Sys2Proof.Machine


/-! SUPPORT. Every step keeps the invariant: the host's accesses, the error entry, each parser step, CHECK, the ENTROPY
step symbol by symbol, and the three steps after it. -/

namespace Sys2Proof.Machine

variable {s t u v : State} {w : McuWork} {slot : Slot} {rest : List Slot} {p q : Nat}

/-! ### Reset, START and the error entry -/

theorem clearHt_allBuilt (ht : Vector HTable 4) : allBuilt (clearHt ht) := fun t h => by
  simp [clearHt] at h

/-- In an idle block with no frame the parts about the decode ask nothing. -/
theorem HeadersOk.unread (hframe : s.frame = Machine.noFrame) (hphase : (phaseCode s.phase).toNat < 2) :
    HeadersOk s where
  noFrame _ := by rw [hframe]
  frame h := by rw [hframe] at h; cases h
  scan h := by omega
  checked h := by omega

theorem phaseCode_lt {ph : Phase} {n : Nat} (h : s.phase = ph) (hlt : (phaseCode ph).toNat < n) :
    (phaseCode s.phase).toNat < n := h ▸ hlt

theorem busy_of_phase {ph : Phase} (h : s.phase = ph) (hne : ph ≠ .idle) : busy s = true := busy_true (h ▸ hne)

theorem errcodeWord_eq_zero (hclass : s.errClass = 0) (hdetail : s.errDetail = 0) : errcodeWord s = 0 := by
  rw [errcodeWord, hclass, hdetail]; rfl

theorem resetTables_allBuilt :
    allBuilt (Vector.replicate 4 ⟨false, Vector.replicate 16 0, Vector.replicate 17 0, [], [], []⟩) := fun t h => by
  simp at h

/-- After reset the invariant holds whatever reset keeps. -/
theorem inv_resetWith (params : Params) {mem : List Host.Cell} (hmem : Memory.wf mem = true) (inputs : List Input)
    (rdata : Word) : Inv { State.resetWith params with mem, inputs, rdata } :=
  .ofParts hmem (.clear rfl rfl (errcodeWord_eq_zero rfl rfl)) BitVec.zero_and
    ⟨fun _ => rfl, nofun, nofun, ⟨Nat.zero_le _, Nat.zero_le _⟩, nofun⟩
    (.unread rfl (phaseCode_lt (ph := .idle) rfl (by decide))) (.early (phaseCode_lt (ph := .idle) rfl (by decide)) nofun)
    resetTables_allBuilt resetTables_allBuilt

theorem Inv.startDecode (h : Inv s) : Inv (startDecode s) :=
  .ofParts h.memory (.clear rfl rfl (errcodeWord_eq_zero rfl rfl)) h.reserved
    ⟨nofun, nofun, fun _ => Nat.zero_le _, ⟨Nat.zero_le _, Nat.zero_le _⟩, fun _ => Nat.zero_le _⟩
    (.unread rfl (phaseCode_lt (startDecode_phase s) (by decide)))
    (.early (phaseCode_lt (startDecode_phase s) (by decide)) nofun) (clearHt_allBuilt _) (clearHt_allBuilt _)

theorem Inv.raiseError (h : Inv u) (hbusy : busy u = true) (d : Detail) : Inv (raiseError d u) :=
  .ofParts h.memory (.raised (h.running hbusy).1 d) h.reserved (h.cursors.runs hbusy (fun _ => rfl) nofun)
    (h.headers.congr nofun nofun) (.early (phaseCode_lt (raiseError_phase d u) (by decide)) nofun) h.dcTables h.acTables

/-! ### The outside world -/

theorem Inv.ctrlWrite {x : Word} (h : Inv u) (hnext : ctrlWrite x u = .next t) : Inv t := by
  have hirq : Inv { u with irqEn := x.getLsbD 2 } := h.unread ..
  obtain ⟨hbusy, -, rfl⟩ | ⟨-, -, rfl⟩ | rfl := ctrlWrite_next hnext
  · exact hirq.raiseError hbusy _
  · exact hirq.startDecode
  · exact hirq

/-- A write of a buffer register while idle: nothing but a running block reads it. -/
theorem Inv.writeConfig {r : ConfigReg} {x : Word} (h : Inv u) (hnext : exec (.writeConfig r x) u = .next t) : Inv t := by
  cases hbusy : busy u with
  | true =>
    rw [exec_writeConfig_busy hbusy] at hnext
    cases hnext; exact h
  | false =>
    have hphase : u.phase = .idle := busy_false hbusy
    have htxn : u.txn = .none := h.idle hphase
    have hcursors (x : Word) : CursorsOk { u with inLen := x } :=
      { idle := h.idle, buffered := h.buffered
        parsing := fun p hp => by cases htxn.symm.trans hp
        consumed := fun hb => by cases hbusy.symm.trans hb
        extracted := fun hb => by cases hbusy.symm.trans hb }
    have hheaders (x : Word) : HeadersOk { u with outCap := x } :=
      { noFrame := h.noFrame
        frame := fun hseen => frameOk_of (h.frame hseen) rfl rfl
        scan := fun hp => by rw [hphase] at hp; cases hp
        checked := fun hp => by rw [hphase] at hp; cases hp }
    obtain ⟨hinBase, hinLen, houtBase, houtCap⟩ := exec_writeConfig_idle (v := x) hbusy
    cases r with
    | inBase => rw [hinBase] at hnext; cases hnext; exact h.unread ..
    | inLen =>
      rw [hinLen] at hnext; cases hnext
      exact .ofParts h.memory h.status.congr h.reserved (hcursors x) h.headers.congr h.progress.congr h.dcTables h.acTables
    | outBase => rw [houtBase] at hnext; cases hnext; exact h.unread ..
    | outCap =>
      rw [houtCap] at hnext; cases hnext
      exact .ofParts h.memory h.status.congr h.reserved h.cursors.congr (hheaders x) h.progress.congr h.dcTables h.acTables

/-- Clearing DONE or ERR keeps ERRCODE. -/
theorem StatusOk.cleared (h : StatusOk u) (a b : Bool) : StatusOk { u with done := u.done && a, err := u.err && b } where
  exclusive hboth := h.exclusive ⟨(Bool.and_eq_true_iff.mp hboth.1).1, (Bool.and_eq_true_iff.mp hboth.2).1⟩
  running hbusy :=
    have ⟨hdone, herr, hcode⟩ := h.running hbusy
    ⟨by rw [hdone]; rfl, by rw [herr]; rfl, hcode⟩
  noError hdone := h.noError (Bool.and_eq_true_iff.mp hdone).1
  listed := h.listed
  coded herr := h.coded (Bool.and_eq_true_iff.mp herr).1

/-- HT_SEL takes its defined bits alone (10_state.md rule R44). -/
theorem htSel_reserved (x : Word) : (x &&& 0x0000FF31) &&& 0xFFFF00CE = 0 := by
  rw [BitVec.and_assoc, show (0x0000FF31 : Word) &&& 0xFFFF00CE = 0 by decide]
  exact BitVec.and_zero

theorem Inv.hostAccess {i : Instr} (h : Inv u) (hi : isHostAccess i = true) (hnext : exec i u = .next t) : Inv t := by
  cases i with
  | start x | abort x | setIrqEn x | writeCtrl x => exact h.ctrlWrite hnext
  | writeConfig r x => exact h.writeConfig hnext
  | read _ | readTableEntry _ => cases hnext; exact h.unread ..
  | writeReadOnly _ _ => cases hnext; exact h
  | clearStatus x =>
    cases hnext
    exact .ofParts h.memory (h.status.cleared _ _) h.reserved h.cursors.congr h.headers.congr h.progress.congr h.dcTables
      h.acTables
  | selectTableEntry x =>
    cases hnext
    exact .ofParts h.memory h.status.congr (htSel_reserved x) h.cursors.congr h.headers.congr h.progress.congr h.dcTables
      h.acTables
  | _ => cases hi

theorem Inv.pollRegister (h : Inv u) (n : BitVec 6) (mask val : Word) : Inv (pollRegister n mask val u) := by
  unfold Machine.pollRegister
  split <;> exact h.unread ..

theorem Inv.fetchAccess {a : RegAccess} (h : Inv u) (hnext : runFetched (fetchAccess a u) = .next t) : Inv t := by
  unfold Machine.fetchAccess at hnext
  split at hnext
  case h_1 i n hdecode => exact h.hostAccess (decodeHost_isHostAccess hdecode) hnext
  all_goals cases hnext

theorem Inv.fetchExternal {e : Input} (h : Inv u) (he : e ≠ .turn) (hnext : runFetched (fetchExternal e u) = .next t) :
    Inv t := by
  cases e with
  | turn => exact absurd rfl he
  | access a => exact h.fetchAccess hnext
  | poll n mask val => cases hnext; exact h.pollRegister n mask val
  | memWrite addr b =>
    cases hnext
    exact .ofParts (memWrite_wf h.memory _ _) h.status.congr h.reserved h.cursors.congr h.headers.congr h.progress.congr
      h.dcTables h.acTables
  | memRead _ => cases hnext; exact h.unread ..
  | reset => cases hnext; exact inv_resetWith u.params h.memory u.inputs u.rdata

/-! ### The parser (41_segment_parser.md) -/

/-- The parser reads on in these two phases. -/
def Reading (s : State) : Prop := s.phase = .parse ∨ s.phase = .extract

theorem Reading.busy (h : Reading s) : busy s = true :=
  busy_true (by rcases h with h | h <;> rw [h] <;> decide)

theorem Reading.phaseCode_lt (h : Reading s) : (phaseCode s.phase).toNat < 4 := by
  rcases h with h | h <;> rw [h] <;> decide

theorem Inv.reading_txn (h : Inv s) (hphase : Reading s) (w : McuWork) : s.txn ≠ .mcu w := fun htxn => by
  have hentropy := (h.mcu w htxn).1
  rcases hphase with hp | hp <;> cases hp.symm.trans hentropy

/-- Where the parser reads next lies past its last committed cursor and in the input. -/
theorem Inv.inPos_bounds (h : Inv s) (hphase : Reading s) : s.ipos.toNat ≤ inPos s ∧ inPos s ≤ s.inLen.toNat := by
  unfold inPos
  split
  next p htxn =>
    obtain ⟨-, hlow, hhigh⟩ := h.parsing p htxn
    exact ⟨hlow.le, hhigh⟩
  next => exact ⟨le_rfl, h.consumed hphase.busy⟩
  next => exact ⟨le_rfl, h.consumed hphase.busy⟩

theorem toNat_ofNat_of_le {x : Word} (h : p ≤ x.toNat) : (BitVec.ofNat 32 p).toNat = p := by
  rw [BitVec.toNat_ofNat, Nat.mod_eq_of_lt (h.trans_lt x.isLt)]

theorem inPos_moveTo (h : p ≤ u.inLen.toNat) : inPos (moveTo p u) = p := toNat_ofNat_of_le h

/-- A parser's step still open after bytes of the input. -/
theorem Inv.moveTo (h : Inv u) (hphase : Reading u) (hlow : inPos u < p) (hhigh : p ≤ u.inLen.toNat) : Inv (moveTo p u) := by
  have hp : (BitVec.ofNat 32 p).toNat = p := toNat_ofNat_of_le hhigh
  have hipos := (h.inPos_bounds hphase).1
  refine .ofParts h.memory h.status.congr h.reserved ⟨fun hidle => ?_, ?_, h.consumed, h.buffered, h.extracted⟩
    h.headers.congr (.early hphase.phaseCode_lt nofun) h.dcTables h.acTables
  · exact absurd hphase.busy (Bool.eq_false_iff.mp (busy_idle hidle))
  · rintro _ ⟨⟩
    rw [hp]
    exact ⟨hphase, hipos.trans_lt hlow, hhigh⟩

/-- A parser's step that commits its cursor. -/
theorem Inv.commitPos (h : Inv v) (hphase : Reading v) (hlow : v.ipos.toNat ≤ q) (hhigh : q ≤ v.inLen.toNat) :
    Inv (commitPos q v) := by
  have hq : (BitVec.ofNat 32 q).toNat = q := toNat_ofNat_of_le hhigh
  refine .ofParts h.memory h.status.congr h.reserved ⟨fun _ => rfl, nofun, fun _ => ?_, h.buffered, fun _ => ?_⟩
    h.headers.congr (.early hphase.phaseCode_lt nofun) h.dcTables h.acTables
  · rw [commitPos_ipos, hq]; exact hhigh
  · rw [commitPos_ipos, hq]; exact (h.extracted hphase.busy).trans hlow

/-- While no scan has begun a legal header update leaves legal headers. -/
theorem HeadersOk.parsing (hphase : s.phase = .parse)
    (hnoFrame : s.frame.seen = false → s.frame = { Machine.noFrame with restartInterval := s.frame.restartInterval })
    (hframe : s.frame.seen = true → FrameOk s) : HeadersOk s where
  noFrame := hnoFrame
  frame := hframe
  scan h := by rw [hphase] at h; exact absurd h (by decide)
  checked h := by rw [hphase] at h; exact absurd h (by decide)

/-- A frame stays legal where only table ids of its components change. -/
theorem FrameOk.setTables (h : FrameOk u) (hframe : t.frame = u.frame)
    (hcomp : ∀ i : Fin 3, ∃ td ta, t.comp[i] = { u.comp[i] with td := td, ta := ta }) : FrameOk t := by
  have hid (i : Fin 3) : t.comp[i].id = u.comp[i].id := by obtain ⟨td, ta, hi⟩ := hcomp i; rw [hi]
  have hch (i : Fin 3) : t.comp[i].ch = u.comp[i].ch := by obtain ⟨td, ta, hi⟩ := hcomp i; rw [hi]
  have hh (i : Fin 3) : t.comp[i].h = u.comp[i].h := by obtain ⟨td, ta, hi⟩ := hcomp i; rw [hi]
  have hv (i : Fin 3) : t.comp[i].v = u.comp[i].v := by obtain ⟨td, ta, hi⟩ := hcomp i; rw [hi]
  obtain ⟨hcount, hwidth, hheight, hhmax, hvmax, hgray, hcols, hrows, htotal, hblocks, hchannels, hids, hfactors⟩ := h
  constructor <;> simpa only [hframe, hid, hch, hh, hv]

/-- The first positions of a new scan are those of its header (rule R164). -/
theorem setScan_take (old : Vector (Fin 3) 3) {pos : List (Fin 3)} (hlength : pos.length ≤ 3) :
    (setScan old pos).toList.take pos.length = pos := by
  apply List.ext_getElem
  · simp [hlength]
  · intro j hj hj'
    simp [setScan, hj']

theorem HeadersOk.scanHeader {pos : List (Fin 3)} {comp : Vector Comp 3} (h : HeadersOk u) (hseen : u.frame.seen = true)
    (hlength : pos.length = u.frame.nf.toNat) (hlive : ∀ i ∈ pos, i.val < u.frame.nf.toNat) (hnodup : pos.Nodup)
    (hcomp : ∀ i : Fin 3, ∃ td ta, comp[i] = { u.comp[i] with td := td, ta := ta }) :
    HeadersOk { u with comp := comp, scan := setScan u.scan pos, ns := u.frame.nf, phase := .extract } := by
  have hpos : (setScan u.scan pos).toList.take u.frame.nf.toNat = pos := by
    rw [← hlength]
    exact setScan_take _ (by have := u.frame.nf.isLt; omega)
  exact
    { noFrame := h.noFrame
      frame := fun _ => (h.frame hseen).setTables rfl hcomp
      scan := fun _ =>
        { seen := hseen, count := rfl
          live := fun i hi => hlive i (hpos ▸ hi)
          distinct := hpos.symm ▸ hnodup }
      checked := fun hphase => absurd hphase (Nat.not_le.mpr (phaseCode_lt (ph := .extract) rfl (by decide))) }

theorem Inv.headerUpdate (h : Inv v) (hphase : v.phase = .parse) (htxn : v.txn = .none) (hupdate : HeaderUpdate v t) :
    Inv t := by
  have hreading : Reading v := .inl hphase
  cases hupdate with
  | unchanged => exact h
  | soi => exact h.unread ..
  | quantTables qt =>
    exact .ofParts h.memory h.status.congr h.reserved h.cursors.congr (.parsing hphase h.noFrame
      fun hseen => frameOk_of (h.frame hseen) rfl rfl) h.progress.congr h.dcTables h.acTables
  | huffTables dc ac hdc hac =>
    exact .ofParts h.memory h.status.congr h.reserved h.cursors.congr (.parsing hphase h.noFrame
      fun hseen => frameOk_of (h.frame hseen) rfl rfl) h.progress.congr (hdc h.dcTables) (hac h.acTables)
  | restartInterval ri =>
    refine .ofParts h.memory h.status.congr h.reserved h.cursors.congr (.parsing hphase (fun hseen => ?_) fun hseen => ?_)
      (.early hreading.phaseCode_lt fun w => h.reading_txn hreading w) h.dcTables h.acTables
    · rw [h.noFrame hseen]
    · obtain ⟨hcount, hwidth, hheight, hhmax, hvmax, hgray, hcols, hrows, htotal, hblocks, hchannels, hids, hfactors⟩ :=
        h.frame hseen
      constructor <;> assumption
  | frameHeader y x nf zb cs hread =>
    exact .ofParts h.memory h.status.congr h.reserved h.cursors.congr
      (.parsing hphase nofun fun _ => frameOk_commit hread)
      (.early hreading.phaseCode_lt fun w => h.reading_txn hreading w) h.dcTables h.acTables
  | scanHeader pos comp hseen hlength hlive hnodup hcomp =>
    exact .ofParts h.memory (h.status.runs hreading.busy) h.reserved
      (h.cursors.runs hreading.busy nofun fun p hp => by cases htxn.symm.trans hp)
      (h.headers.scanHeader hseen hlength hlive hnodup hcomp)
      (.early (phaseCode_lt (ph := .extract) rfl (by decide)) fun w hw => by cases htxn.symm.trans hw) h.dcTables h.acTables

theorem putEnt_length (ent : List Byte) {n : Nat} (b : Byte) (h : n ≤ ent.length) : n + 1 ≤ (putEnt ent n b).length := by
  rw [putEnt, List.length_append, List.length_take_of_le h, List.length_cons]
  omega

/-- A byte appended has been read from the input, so ENT_LEN stays behind the cursor. -/
theorem CursorsOk.append (h : CursorsOk v) (hroom : v.entLen.toNat ≠ v.params.entropyCap)
    (hread : v.entLen.toNat < v.ipos.toNat) (b : Byte) :
    CursorsOk { v with ent := putEnt v.ent v.entLen.toNat b, entLen := v.entLen + 1 } := by
  have hlen : (v.entLen + 1).toNat = v.entLen.toNat + 1 := by
    have := v.ipos.isLt
    rw [BitVec.toNat_add, show (1 : Word).toNat = 1 from rfl, Nat.mod_eq_of_lt (by omega)]
  obtain ⟨hstored, hcap⟩ := h.buffered
  refine ⟨h.idle, h.parsing, h.consumed, ?_, fun _ => ?_⟩
  · rw [hlen]
    exact ⟨putEnt_length _ b hstored, by show v.entLen.toNat + 1 ≤ v.params.entropyCap; omega⟩
  · rw [hlen]; exact hread

theorem Inv.segmentUpdate (h : Inv v) (hphase : v.phase = .extract) (htxn : v.txn = .none)
    (hread : v.entLen.toNat < v.ipos.toNat) (hupdate : SegmentUpdate v t) : Inv t := by
  have hreading : Reading v := .inr hphase
  cases hupdate with
  | unchanged => exact h
  | append b hroom =>
    exact .ofParts h.memory h.status.congr h.reserved (h.cursors.append hroom hread b) h.headers.congr
      (.early hreading.phaseCode_lt fun w => h.reading_txn hreading w) h.dcTables h.acTables
  | endOfImage =>
    have hlate : 2 ≤ (phaseCode v.phase).toNat := by rw [hphase]; decide
    exact .ofParts h.memory (h.status.runs hreading.busy) h.reserved
      (h.cursors.runs hreading.busy nofun fun p hp => by cases htxn.symm.trans hp)
      (h.headers.congr (fun _ => hlate) fun hp => absurd hp (Nat.not_le.mpr (phaseCode_lt (ph := .check) rfl (by decide))))
      (.early (phaseCode_lt (ph := .check) rfl (by decide)) fun w hw => by cases htxn.symm.trans hw) h.dcTables h.acTables

/-- A parser instruction keeps the invariant where the updates it commits do. -/
theorem ParserResult.inv {R : State → State → Prop} (h : ParserResult R v t) (hv : Inv v) (hphase : Reading v)
    (hupdate : ∀ q, inPos v ≤ q → Inv (commitPos q v) → q ≤ v.inLen.toNat → R (commitPos q v) t → Inv t) : Inv t := by
  obtain ⟨hlow, hhigh⟩ := hv.inPos_bounds hphase
  cases h with
  | raised d h => exact h ▸ hv.raiseError hphase.busy d
  | goesOn h => exact h ▸ hv
  | commits q hq hend hR =>
    exact hupdate q hq (hv.commitPos hphase (hlow.trans hq) (hend hhigh)) (hend hhigh) hR

theorem Inv.headerTurn (h : Inv u) (hphase : u.phase = .parse) (hturn : ParserTurn HeaderUpdate u t) : Inv t := by
  cases hturn with
  | raised d ht => exact ht ▸ h.raiseError (Reading.busy (.inl hphase)) d
  | ran p hlow hhigh hresult =>
    exact hresult.inv (h.moveTo (.inl hphase) hlow hhigh) (.inl hphase)
      fun q _ hinv _ hR => hinv.headerUpdate hphase rfl hR

theorem Inv.segmentTurn (h : Inv u) (hphase : u.phase = .extract) (hturn : ParserTurn SegmentUpdate u t) : Inv t := by
  cases hturn with
  | raised d ht => exact ht ▸ h.raiseError (Reading.busy (.inr hphase)) d
  | ran p hlow hhigh hresult =>
    refine hresult.inv (h.moveTo (.inr hphase) hlow hhigh) (.inr hphase)
      fun q hq hinv hend hR => hinv.segmentUpdate hphase rfl ?_ hR
    have hextracted := h.extracted (Reading.busy (.inr hphase))
    have hipos := (h.inPos_bounds (.inr hphase)).1
    rw [inPos_moveTo hhigh] at hq
    rw [commitPos_ipos, toNat_ofNat_of_le hend]
    show u.entLen.toNat < q
    omega

/-! ### CHECK -/

theorem Inv.checkStep (h : Inv u) (hphase : u.phase = .check) (hok : checkStep u = .ok t) : Inv t := by
  obtain ⟨rfl, hchecked⟩ := checkStep_ok hok
  have hbusy : busy u = true := busy_of_phase hphase nofun
  have hscan : ScanOk u := h.scan (by rw [hphase]; decide)
  have htxn : u.txn = .none := h.txn_none (by simp [hphase]) (by simp [hphase]) (by simp [hphase])
  exact .ofParts h.memory (h.status.runs hbusy) h.reserved
    (h.cursors.runs hbusy nofun fun p hp => by cases htxn.symm.trans hp)
    { noFrame := h.noFrame
      frame := fun hseen => frameOk_of (h.frame hseen) rfl rfl
      scan := fun _ => scanOk_of hscan rfl rfl rfl
      checked := fun _ => checked_of hchecked rfl rfl rfl rfl rfl rfl rfl rfl rfl }
    { decoding := fun _ => mcuTotal_pos (s := u) (h.frame hscan.seen)
      working := fun hp => absurd hp (Nat.not_le.mpr (phaseCode_lt (ph := .entropy) rfl (by decide)))
      cursor := fun _ => Nat.zero_le _
      mcu := fun w hw => by cases htxn.symm.trans hw }
    h.dcTables h.acTables

/-! ### The ENTROPY step (43_entropy_decoder.md section 4) -/

section
variable (h : Inv u) (hphase : u.phase = .entropy)
include h hphase

/-- Inside an MCU only the working registers change. -/
theorem Inv.setMcu (hmcu : McuOk u w) : Inv { u with txn := .mcu w } :=
  .ofParts h.memory h.status.congr h.reserved
    (h.cursors.runs (busy_of_phase hphase nofun) (fun hidle => by cases hphase.symm.trans hidle) nofun)
    h.headers.congr
    { decoding := h.decoding, working := h.working, cursor := h.cursor
      mcu := by rintro _ ⟨⟩; exact ⟨hphase, hmcu.congr⟩ }
    h.dcTables h.acTables

theorem Inv.openMcu : Inv (openMcu u) := by
  have hcursor : bitPos u.cur ≤ 8 * u.entLen.toNat := h.cursor (by rw [hphase]; decide)
  refine h.setMcu hphase
    { slots := rfl, index := Nat.zero_le _, closed := fun _ => rfl, cursor := ?_, zeros := fun j _ _ => by simp [zeroBlock] }
  show bitPos (if atRestart u u.mcuDone.toNat = true then align u.cur else u.cur) ≤ _
  split
  · exact align_inBuffer hcursor
  · exact hcursor

theorem Inv.commitMcu (htxn : u.txn = .mcu w) : Inv (commitMcu w u) := by
  have hbusy : busy u = true := busy_of_phase hphase nofun
  have hmcu : McuOk u w := (h.mcu w htxn).2
  have hdecoding := h.decoding hphase
  have hlate : 4 ≤ (phaseCode u.phase).toNat := by rw [hphase]; decide
  have hnext : (u.mcuDone + 1).toNat = u.mcuDone.toNat + 1 := by
    have := u.frame.mcuTotal.isLt
    rw [BitVec.toNat_add, show (1 : Word).toNat = 1 from rfl, Nat.mod_eq_of_lt (by omega)]
  have hphase' : (Machine.commitMcu w u).phase =
      if u.mcuDone.toNat + 1 = u.frame.mcuTotal.toNat then .dequant else .entropy := by
    rw [Machine.commitMcu, hphase]
  refine .ofParts h.memory (h.status.runs hbusy) h.reserved (h.cursors.runs hbusy (fun _ => rfl) nofun)
    (h.headers.congr (fun _ => (by decide : 2 ≤ 4).trans hlate) fun _ => hlate)
    { decoding := fun hp => ?_, working := fun hp => ?_, cursor := fun _ => hmcu.cursor, mcu := nofun }
    h.dcTables h.acTables
  · rw [hphase'] at hp
    split at hp
    · cases hp
    · rw [commitMcu_mcuDone, commitMcu_frame, hnext]
      omega
  · rw [hphase'] at hp
    split at hp
    next hlast =>
      refine ⟨BitVec.eq_of_toNat_eq ?_, ?_⟩
      · rw [commitMcu_mcuDone, commitMcu_frame, hnext, hlast]
      · show (if u.mcuDone.toNat + 1 = u.frame.mcuTotal.toNat then 0 else u.work).toNat < _
        rw [if_pos hlast]
        exact Nat.zero_lt_of_lt hdecoding
    next => exact absurd hp (by decide)

end

/-! ### Symbol by symbol -/

/-- At most this many symbols are left of an MCU: one for each zigzag position of its blocks not reached. -/
def symbolsLeft (w : McuWork) : Nat := 64 * w.todo.length - w.k

/-- From position `k` of a block the effect `f` keeps the working registers consistent and leaves fewer symbols. -/
def MovesOn (f : State → McuWork → Slot → Except Detail McuWork) (k : Nat) : Prop :=
  ∀ s w w' slot rest, McuOk s w → w.todo = slot :: rest → w.k = k → f s w slot = .ok w' →
    McuOk s w' ∧ symbolsLeft w' < symbolsLeft w

theorem symbolsLeft_cons (htodo : w.todo = slot :: rest) : symbolsLeft w = 64 * (rest.length + 1) - w.k := by
  rw [symbolsLeft, htodo, List.length_cons]

theorem symbolsLeft_endBlock (htodo : w.todo = slot :: rest) : symbolsLeft (endBlock w) = 64 * rest.length := by
  rw [endBlock_cons htodo]; rfl

theorem symbolsLeft_closeIfFull {w' : McuWork} (htodo : w.todo = slot :: rest) (htodo' : w'.todo = w.todo)
    (hk : w.k ≤ 63) (hlt : w.k < w'.k) : symbolsLeft (closeIfFull w') < symbolsLeft w := by
  rw [htodo] at htodo'
  rw [symbolsLeft_cons htodo]
  unfold closeIfFull
  split
  · rw [symbolsLeft_endBlock htodo']; omega
  · rw [symbolsLeft_cons htodo']; omega

/-- EOB ends the block. -/
theorem movesOn_eob (k : Nat) : MovesOn (fun _ w _ => .ok (endBlock w)) k := by
  rintro s w _ slot rest hmcu htodo - ⟨⟩
  refine ⟨mcuOk_end hmcu htodo, ?_⟩
  have hk := hmcu.index
  rw [symbolsLeft_endBlock htodo, symbolsLeft_cons htodo]
  omega

/-- A DC symbol leaves position 1. -/
theorem movesOn_dc (n : Nat) : MovesOn (fun s => dcEffect s n) 0 := by
  intro s w w' slot rest hmcu htodo hk hok
  refine ⟨mcuOk_dc hmcu htodo hok, ?_⟩
  unfold dcEffect at hok
  obtain ⟨-, -, hok⟩ := bind_ok hok
  obtain ⟨⟨x, c⟩, -, hok⟩ := bind_ok hok
  cases hok
  rw [symbolsLeft_cons htodo, hk, symbolsLeft_cons (rest := rest) (by exact htodo)]
  show 64 * (rest.length + 1) - 1 < _
  omega

/-- An AC symbol with a run or a coefficient moves on by as many positions. -/
theorem movesOn_ac {r n : Nat} (hpos : 0 < r + n) (k : Nat) : MovesOn (fun s => acEffect s r n) k := by
  intro s w w' slot rest hmcu htodo _ hok
  refine ⟨mcuOk_ac hmcu htodo hok, ?_⟩
  unfold acEffect at hok
  obtain ⟨-, -, hok⟩ := bind_ok hok
  obtain ⟨-, -, hok⟩ := bind_ok hok
  split at hok
  · cases hok
    exact symbolsLeft_closeIfFull htodo rfl hmcu.index (by show w.k < w.k + r; omega)
  · obtain ⟨⟨x, c⟩, -, hok⟩ := bind_ok hok
    cases hok
    exact symbolsLeft_closeIfFull htodo rfl hmcu.index (by show w.k < w.k + r + 1; omega)

/-- The instruction of the symbol `sym` at the block's position. -/
def symbolInstr (w : McuWork) (sym : Byte) : Instr := if w.k = 0 then decodeDc sym else decodeAc w.k sym

theorem decode_symbolCtx (w : McuWork) (sym : Byte) :
    decode (symbolCtx w) (.bytes [sym]) = .ok (symbolInstr w sym) 1 := by
  unfold symbolCtx symbolInstr
  split <;> rfl

/-- Each symbol runs one effect, which moves on. -/
theorem exec_symbolInstr (w : McuWork) (sym : Byte) :
    ∃ f, MovesOn f w.k ∧ ∀ s, exec (symbolInstr w sym) s = runSymbol (f s) s := by
  unfold symbolInstr
  split
  next hk =>
    obtain ⟨n, hexec⟩ := exec_decodeDc sym
    exact ⟨_, hk ▸ movesOn_dc n, hexec⟩
  next =>
    obtain hexec | ⟨r, n, hpos, hexec⟩ := exec_decodeAc w.k sym
    · exact ⟨_, movesOn_eob _, hexec⟩
    · exact ⟨_, movesOn_ac hpos _, hexec⟩

/-- The symbol's fetch raises, or runs the symbol with the cursor past its code word. -/
theorem fetchSymbol_cases (u : State) (w : McuWork) (slot : Slot) :
    (∃ d, fetchSymbol u w slot = .move (raiseError d u)) ∨
      ∃ sym c, bitPos c ≤ 8 * u.entLen.toNat ∧
        fetchSymbol u w slot = .instr (symbolInstr w sym) { u with txn := .mcu { w with cur := c } } := by
  cases hsearch : decodeSymbol u (symbolTable u w slot) w.cur with
  | error d => exact .inl ⟨d, fetchSymbol_fails hsearch⟩
  | ok r =>
    obtain ⟨sym, c⟩ := r
    exact .inr ⟨sym, c, decodeSymbolFrom_inBuffer hsearch, fetchSymbol_decodes hsearch (decode_symbolCtx w sym)⟩

/-- What the next symbol answers in an open block: its error, or the working registers with fewer symbols left. -/
inductive SymbolResult (u : State) (w : McuWork) (t : State) : Prop where
  | raised (d : Detail) (h : t = raiseError d u)
  | goesOn (w' : McuWork) (hmcu : McuOk u w') (hless : symbolsLeft w' < symbolsLeft w) (h : t = { u with txn := .mcu w' })

theorem fetchSymbol_result (hmcu : McuOk u w) (hnext : runFetched (fetchSymbol u w slot) = .next t) : SymbolResult u w t := by
  obtain ⟨d, hfetch⟩ | ⟨sym, c, hcursor, hfetch⟩ := fetchSymbol_cases u w slot
  · rw [hfetch] at hnext; cases hnext
    exact .raised d rfl
  · obtain ⟨f, hmoves, hexec⟩ := exec_symbolInstr w sym
    have hmcu' : McuOk { u with txn := .mcu { w with cur := c } } { w with cur := c } :=
      { slots := hmcu.slots, index := hmcu.index, closed := hmcu.closed, cursor := hcursor, zeros := hmcu.zeros }
    rw [hfetch, runFetched, hexec] at hnext
    obtain ⟨_, slot', rest', ⟨⟩, htodo', ⟨w', hok, rfl⟩ | ⟨d, -, rfl⟩⟩ := runSymbol_next hnext
    · obtain ⟨hok', hless⟩ := hmoves _ _ _ _ _ hmcu' htodo' rfl hok
      exact .goesOn w' hok'.congr hless rfl
    · exact .raised d rfl

theorem Inv.symbol (h : Inv u) (htxn : u.txn = .mcu w) (hnext : runFetched (fetchSymbol u w slot) = .next t) : Inv t := by
  obtain ⟨hphase, hmcu⟩ := h.mcu w htxn
  cases fetchSymbol_result hmcu hnext with
  | raised d ht => exact ht ▸ h.raiseError (busy_of_phase hphase nofun) d
  | goesOn w' hmcu' _ ht => exact ht ▸ h.setMcu hphase hmcu'

theorem Inv.fetchEntropy (h : Inv u) (hphase : u.phase = .entropy) (hnext : runFetched (fetchEntropy u) = .next t) :
    Inv t := by
  cases htxn : u.txn with
  | none =>
    rw [fetchEntropy_opens htxn] at hnext; cases hnext
    exact h.openMcu hphase
  | marker p => exact absurd (h.parsing p htxn).1 (by simp [hphase])
  | mcu w =>
    cases htodo : w.todo with
    | nil =>
      rw [fetchEntropy_commits htxn htodo] at hnext; cases hnext
      exact h.commitMcu hphase htxn
    | cons slot rest =>
      rw [fetchEntropy_symbol htxn htodo] at hnext
      exact h.symbol htxn hnext

/-! ### DEQUANT, IDCT and COLOR -/

section
variable (h : Inv u) (hphase : 5 ≤ (phaseCode u.phase).toNat)
include h hphase

theorem Inv.late_txn : u.txn = .none :=
  h.txn_none (fun hp => by rw [hp] at hphase; exact absurd hphase (by decide))
    (fun hp => by rw [hp] at hphase; exact absurd hphase (by decide))
    (fun hp => by rw [hp] at hphase; exact absurd hphase (by decide))

omit h in
theorem busy_late : busy u = true := busy_true fun hp => by rw [hp] at hphase; exact absurd hphase (by decide)

/-- A step of these phases that leaves the work index below MCU_TOTAL. -/
theorem Inv.workStep {ph : Phase} {work : Word} {mem : List Host.Cell} (hph : 5 ≤ (phaseCode ph).toNat)
    (hwork : work.toNat < u.frame.mcuTotal.toNat) (hmem : Memory.wf mem = true) (coef : List CoefEntry) :
    Inv { u with coef := coef, work := work, phase := ph, mem := mem } := by
  have htxn := h.late_txn hphase
  exact .ofParts hmem (h.status.runs (busy_late hphase)) h.reserved
    (h.cursors.runs (busy_late hphase) (fun _ => htxn) fun p hp => by cases htxn.symm.trans hp)
    (h.headers.congr (fun _ => by omega) fun _ => by omega)
    { decoding := fun hp => by cases hp; exact absurd hph (by decide)
      working := fun _ => ⟨(h.working hphase).1, hwork⟩
      cursor := fun _ => h.cursor (by omega)
      mcu := fun w hw => by cases htxn.symm.trans hw }
    h.dcTables h.acTables

/-- The next work index, where the frame has one. -/
theorem Inv.nextWork (hlast : u.work.toNat + 1 ≠ u.frame.mcuTotal.toNat) :
    (u.work + 1).toNat = u.work.toNat + 1 ∧ (u.work + 1).toNat < u.frame.mcuTotal.toNat := by
  have hwork := (h.working hphase).2
  have := u.frame.mcuTotal.isLt
  rw [BitVec.toNat_add, show (1 : Word).toNat = 1 from rfl, Nat.mod_eq_of_lt (by omega)]
  omega

/-- The work index starts again in the next phase after the frame's last MCU, and goes on before. -/
theorem Inv.workOrNextPhase {ph : Phase} (hph : 5 ≤ (phaseCode ph).toNat) (coef : List CoefEntry) :
    Inv { u with
      coef := coef
      work := if lastWork u then 0 else u.work + 1
      phase := if lastWork u then ph else u.phase } := by
  split
  · exact h.workStep hphase hph (work := 0) (Nat.zero_lt_of_lt (h.working hphase).2) h.memory coef
  next hlast => exact h.workStep hphase hphase (h.nextWork hphase (mt lastWork_iff.mpr hlast)).2 h.memory coef

end

theorem Inv.colorStep (h : Inv u) (hphase : u.phase = .color) : Inv (colorStep u) := by
  have hlate : 5 ≤ (phaseCode u.phase).toNat := by rw [hphase]; decide
  have htxn := h.late_txn hlate
  have hmem := colorStep_wf h.memory
  by_cases hlast : u.work.toNat + 1 = u.frame.mcuTotal.toNat
  · have hidle : (Machine.colorStep u).phase = .idle := if_pos hlast
    have hstatus : StatusOk (Machine.colorStep u) := by
      obtain ⟨-, herr, hcode⟩ := h.running (busy_late hlate)
      refine ⟨fun hboth => ?_, fun hbusy => ?_, fun _ => hcode, .inl hcode, fun herr' => ?_⟩
      · cases herr.symm.trans hboth.2
      · cases (busy_idle hidle).symm.trans hbusy
      · cases herr.symm.trans herr'
    exact .ofParts hmem hstatus h.reserved
      (h.cursors.runs (busy_late hlate) (fun _ => htxn) fun p hp => by cases htxn.symm.trans hp)
      (h.headers.congr (fun _ => by omega) fun _ => by omega)
      (.early (phaseCode_lt hidle (by decide)) fun w hw => by cases htxn.symm.trans hw) h.dcTables h.acTables
  · have heq : Machine.colorStep u =
        { u with coef := u.coef, work := u.work + 1, phase := u.phase, mem := (Machine.colorStep u).mem } := by
      rw [Machine.colorStep, if_neg hlast, if_neg hlast]
    rw [heq]
    exact h.workStep hlate hlate (h.nextWork hlate hlast).2 hmem u.coef

/-! ### Every step -/

theorem Inv.fetchBlock (h : Inv u) (hnext : runFetched (fetchBlock u) = .next t) : Inv t := by
  unfold Machine.fetchBlock at hnext
  split at hnext
  next hphase => cases hnext; exact h
  next hphase =>
    split at hnext
    · exact h.headerTurn hphase (fetchHeader_turn hnext)
    · exact h.headerTurn hphase (fetchStart_turn hnext)
  next hphase => exact h.segmentTurn hphase (fetchSegment_turn hnext)
  next hphase =>
    unfold moveOrRaise at hnext
    split at hnext
    next hok => cases hnext; exact h.checkStep hphase hok
    next => cases hnext; exact h.raiseError (busy_of_phase hphase nofun) _
  next hphase => exact h.fetchEntropy hphase hnext
  next hphase =>
    cases hnext
    exact h.workOrNextPhase (by rw [hphase]; decide) (ph := .idct) (by decide) _
  next hphase =>
    cases hnext
    exact h.workOrNextPhase (by rw [hphase]; decide) (ph := .color) (by decide) _
  next hphase => cases hnext; exact h.colorStep hphase

/-- A turn takes an input and no more. -/
theorem Inv.setInputs (h : Inv s) (hturn : u = { s with inputs := u.inputs }) : Inv u := by
  rw [hturn]
  exact h.unread ..

/-- Settles O57: the step is the block's turn (by its phase) or the outside world's (by the input). -/
theorem stepKeepsInvariant : Obligations.StepKeepsInvariant := by
  intro s t hinv hstep
  rcases step_turn s with ⟨u, hturn, hs⟩ | ⟨e, u, hturn, hs⟩
  · exact (hinv.setInputs (blockTurn_eq hturn)).fetchBlock (hs ▸ hstep)
  · exact (hinv.setInputs (hostTurn_eq hturn).1).fetchExternal (hostTurn_ne hturn) (hs ▸ hstep)

/-- Settles O56. -/
theorem resetSatisfiesInvariant : Obligations.ResetSatisfiesInvariant := fun p => inv_resetWith p rfl [] 0

end Sys2Proof.Machine


/-! SUPPORT. What an instruction leaves of the host's side (10_state.md section 4, 20_memory.md section 2), and where an
entropy symbol stops. -/

namespace Sys2Proof.Machine

variable {s t v w : State} {i : Instr} {x : Word}

/-! ### The four kinds of instructions -/

theorem instr_kind (i : Instr) :
    (fits .header i = true ∨ i = .soi) ∨ fits .ecs i = true ∨ isEntropySymbol i = true ∨ isHostAccess i = true := by
  cases i <;> simp [fits, isEntropySymbol, isHostAccess]

/-- Each symbol runs one effect on the working registers (43_entropy_decoder.md rules R216 to R223). -/
theorem exec_symbol (hi : isEntropySymbol i = true) :
    ∃ f : State → McuWork → Slot → Except Detail McuWork, ∀ s, exec i s = runSymbol (f s) s := by
  cases i with
  | dcCat0 => exact ⟨fun s => dcEffect s 0, fun _ => rfl⟩
  | dcCat n | dcBad n => exact ⟨fun s => dcEffect s n.toNat, fun _ => rfl⟩
  | acEob => exact ⟨fun _ w _ => .ok (endBlock w), fun _ => rfl⟩
  | acZrl => exact ⟨fun s => acEffect s 16 0, fun _ => rfl⟩
  | acRun r => exact ⟨fun s => acEffect s r.toNat 0, fun _ => rfl⟩
  | acCoef r n | acBad r n => exact ⟨fun s => acEffect s r.toNat n.toNat, fun _ => rfl⟩
  | acRunOverflow rs => exact ⟨fun s => acEffect s (runOf rs) (loNibble rs).toNat, fun _ => rfl⟩
  | _ => cases hi

theorem openBlock_none (h : ∀ w slot rest, s.txn = .mcu w → w.todo = slot :: rest → False) : openBlock s = none := by
  cases hopen : openBlock s with
  | none => rfl
  | some x =>
    obtain ⟨htxn, rest, htodo⟩ := openBlock_some (w := x.1) (slot := x.2) hopen
    exact (h _ _ rest htxn htodo).elim

/-- Settles O39: each of the nine runs its effect by `runSymbol`, which finds no open block. -/
theorem symbolOutsideBlockFaults : Obligations.SymbolOutsideBlockFaults := by
  intro s i hclosed hi
  have hsymbol : isEntropySymbol i = true := by
    rcases hi with rfl | ⟨n, rfl⟩ | ⟨n, rfl⟩ | rfl | rfl | ⟨r, rfl⟩ | ⟨r, n, rfl⟩ | ⟨r, n, rfl⟩ | ⟨rs, rfl⟩ <;> rfl
  obtain ⟨f, hexec⟩ := exec_symbol hsymbol
  rw [hexec, runSymbol, openBlock_none hclosed]

/-! ### What the host's side is -/

/-- The host's side of `s` is that of `t`: host memory, the parameters, the pending inputs, the coefficient store and the
registers that the host alone writes. -/
structure SameHostSide (s t : State) : Prop where
  mem     : t.mem = s.mem
  params  : t.params = s.params
  inputs  : t.inputs = s.inputs
  coef    : t.coef = s.coef
  inBase  : t.inBase = s.inBase
  inLen   : t.inLen = s.inLen
  outBase : t.outBase = s.outBase
  outCap  : t.outCap = s.outCap
  htSel   : t.htSel = s.htSel
  irqEn   : t.irqEn = s.irqEn

theorem SameHostSide.refl (s : State) : SameHostSide s s := ⟨rfl, rfl, rfl, rfl, rfl, rfl, rfl, rfl, rfl, rfl⟩

theorem sameHostSide_raiseError (d : Detail) (s : State) : SameHostSide s (raiseError d s) :=
  ⟨rfl, rfl, rfl, rfl, rfl, rfl, rfl, rfl, rfl, rfl⟩

theorem HeaderUpdate.sameHostSide (h : HeaderUpdate w t) : SameHostSide w t := by
  cases h <;> exact ⟨rfl, rfl, rfl, rfl, rfl, rfl, rfl, rfl, rfl, rfl⟩

theorem SegmentUpdate.sameHostSide (h : SegmentUpdate w t) : SameHostSide w t := by
  cases h <;> exact ⟨rfl, rfl, rfl, rfl, rfl, rfl, rfl, rfl, rfl, rfl⟩

/-- A parser instruction keeps it where the updates it commits do. -/
theorem ParserResult.sameHostSide {R : State → State → Prop} (h : ParserResult R v t)
    (hupdate : ∀ w, R w t → SameHostSide w t) : SameHostSide v t := by
  cases h with
  | raised d h => exact h ▸ sameHostSide_raiseError d v
  | goesOn h => exact h ▸ .refl v
  | commits q _ _ hR => exact { hupdate _ hR with }

theorem runSymbol_sameHostSide {f : McuWork → Slot → Except Detail McuWork} (h : runSymbol f s = .next t) :
    SameHostSide s t := by
  obtain ⟨_, _, _, -, -, ⟨w', -, rfl⟩ | ⟨d, -, rfl⟩⟩ := runSymbol_next h
  · exact ⟨rfl, rfl, rfl, rfl, rfl, rfl, rfl, rfl, rfl, rfl⟩
  · exact sameHostSide_raiseError d s

/-- The instructions that write a register of the host's side. -/
def writesHostRegister : Instr → Bool
  | .start _ | .abort _ | .setIrqEn _ | .writeCtrl _ | .writeConfig _ _ | .selectTableEntry _ => true
  | _ => false

theorem exec_sameHostSide (hi : writesHostRegister i = false) (h : exec i s = .next t) : SameHostSide s t := by
  obtain hheader | hsegment | hsymbol | haccess := instr_kind i
  · exact (exec_header_result hheader h).sameHostSide fun _ => HeaderUpdate.sameHostSide
  · exact (exec_segment_result hsegment h).sameHostSide fun _ => SegmentUpdate.sameHostSide
  · obtain ⟨f, hexec⟩ := exec_symbol hsymbol
    exact runSymbol_sameHostSide (hexec s ▸ h)
  · cases i with
    | read _ | clearStatus _ | writeReadOnly _ _ | readTableEntry _ =>
      cases h; exact ⟨rfl, rfl, rfl, rfl, rfl, rfl, rfl, rfl, rfl, rfl⟩
    | start _ | abort _ | setIrqEn _ | writeCtrl _ | writeConfig _ _ | selectTableEntry _ => cases hi
    | _ => cases haccess

/-- A CTRL write changes IRQ_EN alone of it. -/
theorem ctrlWrite_sameHostSide (h : ctrlWrite x s = .next t) : SameHostSide { s with irqEn := x.getLsbD 2 } t := by
  obtain ⟨-, -, rfl⟩ | ⟨-, -, rfl⟩ | rfl := ctrlWrite_next h
  · exact sameHostSide_raiseError _ _
  · exact ⟨rfl, rfl, rfl, rfl, rfl, rfl, rfl, rfl, rfl, rfl⟩
  · exact .refl _

/-- A write of a buffer register changes that register alone, if anything. -/
theorem exec_writeConfig_cases {r : ConfigReg} (h : exec (.writeConfig r x) s = .next t) :
    t = s ∨ (r = .inBase ∧ t = { s with inBase := x }) ∨ (r = .inLen ∧ t = { s with inLen := x }) ∨
      (r = .outBase ∧ t = { s with outBase := x }) ∨ (r = .outCap ∧ t = { s with outCap := x }) := by
  cases hbusy : busy s with
  | true =>
    rw [exec_writeConfig_busy hbusy] at h
    cases h; exact .inl rfl
  | false =>
    obtain ⟨hinBase, hinLen, houtBase, houtCap⟩ := exec_writeConfig_idle (v := x) hbusy
    right
    cases r with
    | inBase => rw [hinBase] at h; cases h; exact .inl ⟨rfl, rfl⟩
    | inLen => rw [hinLen] at h; cases h; exact .inr (.inl ⟨rfl, rfl⟩)
    | outBase => rw [houtBase] at h; cases h; exact .inr (.inr (.inl ⟨rfl, rfl⟩))
    | outCap => rw [houtCap] at h; cases h; exact .inr (.inr (.inr ⟨rfl, rfl⟩))

/-- Settles O50: the four kinds of writes change their own register, and every other instruction keeps the host's side. -/
theorem instructionsKeepHostSide : Obligations.InstructionsKeepHostSide := by
  intro i s t h
  cases i with
  | start x | abort x | setIrqEn x | writeCtrl x =>
    have hs := ctrlWrite_sameHostSide h
    exact ⟨fun _ => memRead_congr hs.mem, hs.params, hs.inputs, hs.coef, fun _ => hs.inBase, fun _ => hs.inLen,
      fun _ => hs.outBase, fun _ => hs.outCap, fun _ => hs.htSel, fun hne => by simpa using hne x⟩
  | writeConfig r x =>
    rcases exec_writeConfig_cases h with rfl | ⟨rfl, rfl⟩ | ⟨rfl, rfl⟩ | ⟨rfl, rfl⟩ | ⟨rfl, rfl⟩
    all_goals
      refine ⟨fun _ => rfl, rfl, rfl, rfl, fun hne => ?_, fun hne => ?_, fun hne => ?_, fun hne => ?_, fun _ => rfl,
        fun _ => rfl⟩
    all_goals simp at hne ⊢
  | selectTableEntry x =>
    cases h
    exact ⟨fun _ => rfl, rfl, rfl, rfl, fun _ => rfl, fun _ => rfl, fun _ => rfl, fun _ => rfl,
      fun hne => absurd rfl (hne x), fun _ => rfl⟩
  | _ =>
    have hs := exec_sameHostSide rfl h
    exact ⟨fun _ => memRead_congr hs.mem, hs.params, hs.inputs, hs.coef, fun _ => hs.inBase, fun _ => hs.inLen,
      fun _ => hs.outBase, fun _ => hs.outCap, fun _ => hs.htSel, fun _ => hs.irqEn⟩

end Sys2Proof.Machine


/-! SUPPORT. START and reset (40_host_interface.md rule R133, 70_reset_and_hazards.md rule R300), the output buffer and the
register window (20_memory.md rule R85), and what the host's access runs. -/

namespace Sys2Proof.Machine

variable {s t u : State} {a : RegAccess} {x : Word}

/-! ### The output buffer and the register window -/

/-- Two ranges of addresses share one where one of the two starts lies in the other range, counted mod 2^32. -/
theorem rangesOverlap_iff {b n c m : Nat} (hb : b < 2 ^ 32) (hn : n < 2 ^ 32) (hc : c < 2 ^ 32) (hm : m < 2 ^ 32) :
    rangesOverlap b n c m = true ↔ ∃ i j, i < n ∧ j < m ∧ (b + i) % 2 ^ 32 = (c + j) % 2 ^ 32 := by
  simp only [rangesOverlap, Bool.and_eq_true, Bool.or_eq_true, decide_eq_true_eq]
  constructor
  · rintro ⟨⟨hn0, hm0⟩, hstart | hstart⟩
    · exact ⟨0, (b + 2 ^ 32 - c) % 2 ^ 32, hn0, hstart, by omega⟩
    · exact ⟨(c + 2 ^ 32 - b) % 2 ^ 32, 0, hstart, hm0, by omega⟩
  · rintro ⟨i, j, hi, hj, haddr⟩
    refine ⟨⟨by omega, by omega⟩, ?_⟩
    rcases Nat.le_total i j with hij | hij
    · left; omega
    · right; omega

theorem outputOverlapsWindow_iff (s : State) : outputOverlapsWindow s = true ↔ outputMeetsWindow s :=
  rangesOverlap_iff s.outBase.isLt s.outCap.isLt s.params.csrBase.isLt (by decide)

/-! ### START (40_host_interface.md rule R133) -/

theorem ctrlWrite_start (hidle : busy s = false) (hstart : x.getLsbD 0 = true) :
    ctrlWrite x s =
      if outputOverlapsWindow s = true then .refused .outputOverlapsWindow
      else .next (startDecode { s with irqEn := x.getLsbD 2 }) := by
  simp only [ctrlWrite, hidle, hstart, Bool.false_eq_true, if_true, if_false]

theorem clearQt_getElem (qt : Vector QTable 4) (i : Fin 4) : (clearQt qt)[i] = { qt[i] with populated := false } := by
  simp [clearQt]

theorem clearHt_getElem (ht : Vector HTable 4) (i : Fin 4) : (clearHt ht)[i] = { ht[i] with populated := false } := by
  simp [clearHt]

/-- Settles O10: the write is `startDecode` where the output buffer is clear of the register window. -/
theorem startBeginsFreshDecode : Obligations.StartBeginsFreshDecode := by
  intro s v hidle hstart
  have hwrite : exec (.start v) s = _ := ctrlWrite_start (busy_idle hidle) hstart
  rw [hwrite, ← outputOverlapsWindow_iff]
  refine ⟨fun hmeets => if_pos hmeets, fun hclear => ⟨clearQt s.qt, clearHt s.dcHt, clearHt s.acHt, ?_, fun i => ?_⟩⟩
  · rw [if_neg hclear]; rfl
  · exact ⟨clearQt_getElem _ i, clearHt_getElem _ i, clearHt_getElem _ i⟩

/-! ### Reset (10_state.md rule R60) -/

/-- Reset gives every register its value whatever the parameters, so one evaluation for each register says it. -/
theorem regRead_resetWith (p : Params) (w : BitVec 6) :
    regRead (State.resetWith p) w = if w = 0 then 0x4A504547 else 0 := by
  have heval : ∀ w, regRead (State.resetWith Config.params) w = if w = 0 then 0x4A504547 else 0 := by decide +kernel
  have hparams : regRead (State.resetWith p) w = regRead (State.resetWith Config.params) w := rfl
  rw [hparams, heval]

/-- Settles O55: the step is `resetBlock`. -/
theorem resetInputRestoresResetState : Obligations.ResetInputRestoresResetState := by
  intro s u hturn
  refine ⟨?_, regRead_resetWith u.params⟩
  rw [step_of_hostTurn hturn]
  rfl

/-! ### What a step runs -/

/-- Settles O4: the turn is the parser's fetch in the context of its phase. -/
theorem stepRunsParserInstruction : Obligations.StepRunsParserInstruction := by
  intro s u i n hturn
  rw [step_of_blockTurn hturn]
  refine ⟨fun hphase hsoi hlen hdecode => ?start, fun hphase hsoi hdecode => ?header, fun hphase hdecode => ?segment⟩
  case start => simp only [fetchBlock, hphase, hsoi, fetchStart, if_neg (Nat.not_lt.mpr hlen), hdecode]; rfl
  case header => simp only [fetchBlock, hphase, hsoi, fetchInput, hdecode]; rfl
  case segment => simp only [fetchBlock, hphase, fetchInput, hdecode]; rfl

theorem decodeHost_outsideWindow {b : Bool} (h : 256 ≤ a.off) : decodeHost b a = .reject .outsideWindow := if_pos h

theorem decodeHost_badWidth {b : Bool} (h : a.off < 256) (hwidth : a.width ≠ 4) : decodeHost b a = .reject .badWidth := by
  rw [decodeHost, if_neg (Nat.not_le.mpr h), if_pos hwidth]

theorem decodeHost_unaligned {b : Bool} (h : a.off < 256) (hwidth : a.width = 4) (halign : a.off % 4 ≠ 0) :
    decodeHost b a = .reject .unaligned := by
  rw [decodeHost, if_neg (Nat.not_le.mpr h), if_neg (not_not.mpr hwidth), if_pos halign]

/-- Settles O6: the access runs what it decodes to, and each rejection has its own stop. -/
theorem stepRunsHostAccess : Obligations.StepRunsHostAccess := by
  intro s u a hturn
  rw [step_of_hostTurn hturn, fetchExternal, fetchAccess]
  refine ⟨fun i n hdecode => ?_, fun hoff => ?_, fun hoff hwidth => ?_, fun hoff hwidth halign => ?_⟩
  · rw [hdecode]; rfl
  · rw [decode, decodeHost_outsideWindow hoff]; rfl
  · rw [decode, decodeHost_badWidth hoff hwidth]; rfl
  · rw [decode, decodeHost_unaligned hoff hwidth halign]; rfl

/-! ### A step that stays open (00_scope.md rules R10 and R13; log entry 1) -/

/-- Settles O52: of what the block can do (`BlockResult`) only its working registers leave a step open; the outside world's
turn opens none. -/
theorem openBlockStepCommitsNothing : Obligations.OpenBlockStepCommitsNothing := by
  intro s t hinv hstep hopen
  rcases step_turn s with ⟨u, hturn, hs⟩ | ⟨e, u, hturn, hs⟩
  · have hu : Inv u := hinv.setInputs (blockTurn_eq hturn)
    refine ⟨u, hturn, ?_⟩
    cases fetchBlock_result (hs ▸ hstep) with
    | raised d h => rw [h] at hopen; exact absurd rfl hopen
    | inside h => exact h
    | committed h =>
      obtain hclosed | ⟨hkept, hparse, hextract, hentropy⟩ := h
      · exact absurd hclosed hopen
      · exact absurd (hkept.trans (hu.txn_none hparse hextract hentropy)) hopen
    | color hphase h =>
      rw [h, colorStep_txn, hu.txn_none (by simp [hphase]) (by simp [hphase]) (by simp [hphase])] at hopen
      exact absurd rfl hopen
  · obtain ⟨hinputs, htxn⟩ := hostTurn_eq hturn
    have hutxn : u.txn = .none := by rw [hinputs, htxn]
    exact absurd (fetchExternal_next hutxn (hostTurn_ne hturn) (hs ▸ hstep)).1 hopen

/-! ### The block never stops (60_exceptions.md rule R270, 20_memory.md rule R79) -/

theorem fetchInput_isNext {c : Ctx} (hc : c = .header ∨ c = .ecs) (u : State) :
    ∃ t, runFetched (fetchInput c u) = .next t := by
  obtain hfetch | ⟨i, n, hdecode, hfetch⟩ := fetchInput_cases c u
  · exact ⟨_, by rw [hfetch]; rfl⟩
  · rw [hfetch]
    refine exec_parser_isNext ?_ _
    rcases hc with rfl | rfl
    · exact .inl (decodeHeader_fits hdecode)
    · exact .inr (.inr (decodeEcs_fits hdecode))

theorem fetchStart_isNext (u : State) : ∃ t, runFetched (fetchStart u) = .next t := by
  obtain ⟨d, hfetch⟩ | ⟨n, -, hfetch⟩ := fetchStart_cases u
  · exact ⟨_, by rw [hfetch]; rfl⟩
  · rw [hfetch]
    exact exec_parser_isNext (.inr (.inl rfl)) _

theorem fetchEntropy_isNext (u : State) : ∃ t, runFetched (fetchEntropy u) = .next t := by
  cases htxn : u.txn with
  | none => exact ⟨_, by rw [fetchEntropy_opens htxn]; rfl⟩
  | marker p => exact ⟨openMcu u, by simp only [fetchEntropy, htxn, runFetched]⟩
  | mcu w =>
    cases htodo : w.todo with
    | nil => exact ⟨_, by rw [fetchEntropy_commits htxn htodo]; rfl⟩
    | cons slot rest =>
      rw [fetchEntropy_symbol htxn htodo]
      obtain ⟨d, hfetch⟩ | ⟨sym, c, -, hfetch⟩ := fetchSymbol_cases u w slot
      · exact ⟨_, by rw [hfetch]; rfl⟩
      · obtain ⟨f, -, hexec⟩ := exec_symbolInstr w sym
        rw [hfetch, runFetched, hexec]
        exact runSymbol_isNext (x := { w with cur := c }) rfl htodo _

theorem fetchBlock_isNext (u : State) : ∃ t, runFetched (fetchBlock u) = .next t := by
  unfold fetchBlock
  split
  · exact ⟨_, rfl⟩
  · split
    · exact fetchInput_isNext (.inl rfl) u
    · exact fetchStart_isNext u
  · exact fetchInput_isNext (.inr rfl) u
  · unfold moveOrRaise
    split <;> exact ⟨_, rfl⟩
  · exact fetchEntropy_isNext u
  all_goals exact ⟨_, rfl⟩

/-- Settles O59. -/
theorem blockStepsNeverStop : Obligations.BlockStepsNeverStop := by
  intro s u hturn
  rw [step_of_blockTurn hturn]
  exact fetchBlock_isNext u

end Sys2Proof.Machine

/-! SUPPORT. Code words of a table whose counts fit the code space (42_table_builder.md rule R203). -/

namespace Sys2Proof.Machine

section
variable {counts syms : List Byte} {i j L M : Nat} (hc : counts.length = 16)
  (hs : (counts.map BitVec.toNat).sum = syms.length) (hn : syms.length ≤ 162)
include hc hs hn

/-- Where the counts fit the code space, the code at a position of length `L + 1` fits that length. -/
theorem buildHt_code_lt (hk : kraftSum counts ≤ 2 ^ 16) (hL : L < 16) (hlow : codesUpTo counts L ≤ j)
    (hhigh : j < codesUpTo counts (L + 1)) : ((buildHt counts syms).code.getD j 0).toNat < 2 ^ (L + 1) := by
  have hall := code_lt hc hk hL
  rw [(buildHt_entry hc hs hn hL hlow hhigh).2]
  rw [codesUpTo_succ] at hhigh
  omega

theorem codeWord_buildHt (hL : L < 16) (hlow : codesUpTo counts L ≤ j) (hhigh : j < codesUpTo counts (L + 1)) :
    codeWord (buildHt counts syms) j = codeBits ((buildHt counts syms).code.getD j 0).toNat (L + 1) := by
  rw [codeWord, (buildHt_entry hc hs hn hL hlow hhigh).1]

/-- Positions whose lengths are `L + 1` and `M + 1`, where the upper bits of the second code are the first code, are one
position. -/
theorem position_eq_of_upperBits (hL : L < 16) (hi : codesUpTo counts L ≤ i) (hi' : i < codesUpTo counts (L + 1))
    (hM : M < 16) (hj : codesUpTo counts M ≤ j) (hj' : j < codesUpTo counts (M + 1)) (hle : L ≤ M)
    (hcode : ((buildHt counts syms).code.getD i 0).toNat = ((buildHt counts syms).code.getD j 0).toNat / 2 ^ (M - L)) :
    i = j := by
  have hmatch := matchCode_buildHt_code hc hs hn hL hi hi'
  rcases Nat.lt_or_eq_of_le hle with hlt | rfl
  · rw [hcode, matchCode_buildHt_upperBits hc hs hn hM hj hj' hlt] at hmatch
    cases hmatch
  · rw [Nat.sub_self, pow_zero, Nat.div_one] at hcode
    rw [hcode, matchCode_buildHt_code hc hs hn hL hj hj'] at hmatch
    exact (Option.some.inj hmatch).symm

end

/-- Settles O30: a word that begins another is the upper bits of its code, and those match no second position. -/
theorem codesArePrefixFree : Obligations.CodesArePrefixFree := by
  intro counts syms hc hs hn hk i j hi hj hne hbegins
  have hposition {i : Nat} (hi : i < syms.length) := position_length counts (n := 16) (by rwa [codesUpTo_all hc, hs])
  obtain ⟨L, hL, hi, hi'⟩ := hposition hi
  obtain ⟨M, hM, hj, hj'⟩ := hposition hj
  have hlength := hbegins.length_le
  have htake := List.prefix_iff_eq_take.mp hbegins
  rw [codeWord_buildHt hc hs hn hL hi hi', codeWord_buildHt hc hs hn hM hj hj', codeBits_length] at htake
  rw [codeWord_buildHt hc hs hn hL hi hi', codeWord_buildHt hc hs hn hM hj hj', codeBits_length, codeBits_length] at hlength
  have hvalue := congrArg bitsValue htake
  rw [bitsValue_codeBits (buildHt_code_lt hc hs hn hk hL hi hi'),
    bitsValue_take_codeBits (buildHt_code_lt hc hs hn hk hM hj hj') hlength, Nat.add_sub_add_right] at hvalue
  exact hne (position_eq_of_upperBits hc hs hn hL hi hi' hM hj hj' (by omega) hvalue)

end Sys2Proof.Machine


/-! SUPPORT. A decode ends (70_reset_and_hazards.md rule R310): each whole block step ends within its budget of model steps,
a parser's step moves the input cursor on, and each later step finishes CHECK or one MCU of its phase. -/

namespace Sys2Proof.Machine

variable {s t u v : State} {w : McuWork} {n m : Nat}

/-! ### Whole block steps (00_scope.md rule R13; log entry 1) -/

theorem inBlockStep_iff : inBlockStep s = true ↔ s.txn ≠ .none := bne_iff_ne

/-- A step that is not open ends at once. -/
theorem finishBlockStep_closed (h : t.txn = .none) (n : Nat) : finishBlockStep n (.next t) = .next t := by
  have hclosed : ¬inBlockStep t = true := fun ho => inBlockStep_iff.mp ho h
  cases n with
  | zero => rfl
  | succ n => rw [finishBlockStep, if_neg hclosed]

/-- Where each open state of a family goes on to one of the family with less work left, `n` model steps end the block step
from a state with at most `n` left. -/
theorem finishBlockStep_ends {P : State → Prop} {work : State → Nat}
    (hstep : ∀ v v', P v → v.txn ≠ .none → runFetched (fetchBlock v) = .next v' → P v' ∧ work v' < work v) :
    ∀ n v, P v → work v ≤ n → ∃ t, finishBlockStep n (.next v) = .next t ∧ P t ∧ t.txn = .none
  | n, v, hv, hwork => by
    by_cases hclosed : v.txn = .none
    · exact ⟨v, finishBlockStep_closed hclosed n, hv, hclosed⟩
    · obtain ⟨v', hnext⟩ := fetchBlock_isNext v
      obtain ⟨hv', hless⟩ := hstep v v' hv hclosed hnext
      cases n with
      | zero => omega
      | succ n =>
        rw [finishBlockStep, if_pos (inBlockStep_iff.mpr hclosed), hnext]
        exact finishBlockStep_ends hstep n v' hv' (by omega)

/-- A block step whose first model step does not stay open is that step. -/
theorem wholeBlockStep_closed (hnext : runFetched (fetchBlock s) = .next t) (htxn : t.txn = .none) :
    wholeBlockStep s = .next t := by
  rw [wholeBlockStep, hnext, finishBlockStep_closed htxn]

/-- The model steps at most left of an open block step: the bytes of the input, or the symbols of the MCU. -/
def stepsLeft (v : State) : Nat :=
  match v.txn with
  | .none => 0
  | .marker p => v.inLen.toNat - p.toNat + 1
  | .mcu w => symbolsLeft w + 1

/-- What a decode's end is. -/
def Ended (s : State) : Prop := s.phase = .idle ∧ (s.done = true ∨ s.err = true)

/-! ### A parser's block step -/

/-- What is reached inside or after one block step of the parser from `s`: the step still open, the error entry, or a
committed cursor past the one before. -/
inductive ParserReach (s v : State) : Prop where
  | inside (p : Word) (h : v = { s with txn := .marker p })
  | raised (d : Detail) (h : v = raiseError d s)
  | committed (htxn : v.txn = .none) (hlow : s.ipos.toNat < v.ipos.toNat) (hinLen : v.inLen = s.inLen)
    (hphase : Reading v ∨ v.phase = .check)

theorem ParserReach.trans {p : Word} (hv : v = { s with txn := .marker p }) (h : ParserReach v t) : ParserReach s t := by
  subst hv
  cases h with
  | inside p h => exact .inside p h
  | raised d h => exact .raised d h
  | committed htxn hlow hinLen hphase => exact .committed htxn hlow hinLen hphase

/-- What an update leaves of the cursor, and the phases it can lead to. -/
def KeepsCursor (R : State → State → Prop) : Prop :=
  ∀ v t, R v t → Reading v → t.ipos = v.ipos ∧ t.inLen = v.inLen ∧ t.txn = v.txn ∧ (Reading t ∨ t.phase = .check)

theorem headerUpdate_keepsCursor : KeepsCursor HeaderUpdate := by
  intro v t h hv
  cases h with
  | scanHeader => exact ⟨rfl, rfl, rfl, .inl (.inr rfl)⟩
  | _ => exact ⟨rfl, rfl, rfl, .inl hv⟩

theorem segmentUpdate_keepsCursor : KeepsCursor SegmentUpdate := by
  intro v t h hv
  cases h with
  | endOfImage => exact ⟨rfl, rfl, rfl, .inr rfl⟩
  | _ => exact ⟨rfl, rfl, rfl, .inl hv⟩

/-- A turn of the parser reads at least one byte, ends the block step or leaves less of it. -/
theorem ParserTurn.progress {R : State → State → Prop} (hkeeps : KeepsCursor R) (hinv : Inv v) (hphase : Reading v)
    (hturn : ParserTurn R v t) : ParserReach v t ∧ (v.txn ≠ .none → stepsLeft t < stepsLeft v) := by
  obtain ⟨hipos, -⟩ := hinv.inPos_bounds hphase
  have hopen (hv : v.txn ≠ .none) : stepsLeft v = v.inLen.toNat - inPos v + 1 := by
    cases htxn : v.txn with
    | none => exact absurd htxn hv
    | marker p => rw [stepsLeft, inPos, htxn]
    | mcu w => exact absurd htxn (hinv.reading_txn hphase w)
  cases hturn with
  | raised d h => exact ⟨.raised d h, fun hv => by rw [h, hopen hv]; exact Nat.succ_pos _⟩
  | ran p hlow hhigh hresult =>
    cases hresult with
    | raised d h => exact ⟨.raised d h, fun hv => by rw [h, hopen hv]; exact Nat.succ_pos _⟩
    | goesOn h =>
      refine ⟨.inside _ h, fun hv => ?_⟩
      rw [h, hopen hv, stepsLeft, moveTo_txn]
      show v.inLen.toNat - (BitVec.ofNat 32 p).toNat + 1 < _
      rw [toNat_ofNat_of_le hhigh]
      omega
    | commits q hq hend hR =>
      have hpos : inPos (moveTo p v) = p := inPos_moveTo hhigh
      rw [hpos] at hq hend
      obtain ⟨hcursor, hinLen, htxn, hphase'⟩ := hkeeps _ _ hR hphase
      refine ⟨.committed htxn ?_ hinLen hphase', fun hv => ?_⟩
      · rw [hcursor, commitPos_ipos, toNat_ofNat_of_le (hend hhigh)]
        omega
      · rw [stepsLeft, htxn, hopen hv]
        exact Nat.succ_pos _

theorem fetchBlock_parse (h : v.phase = .parse) :
    fetchBlock v = if v.soiDone then fetchInput .header v else fetchStart v := by
  rw [fetchBlock, h]

theorem fetchBlock_entropy (h : v.phase = .entropy) : fetchBlock v = fetchEntropy v := by
  rw [fetchBlock, h]

theorem fetchBlock_extract (h : v.phase = .extract) : fetchBlock v = fetchInput .ecs v := by
  rw [fetchBlock, h]

theorem fetchBlock_reading (hinv : Inv v) (hphase : Reading v) (hnext : runFetched (fetchBlock v) = .next t) :
    ParserReach v t ∧ (v.txn ≠ .none → stepsLeft t < stepsLeft v) := by
  rcases hphase with hparse | hextract
  · rw [fetchBlock_parse hparse] at hnext
    have hturn : ParserTurn HeaderUpdate v t := by
      split at hnext
      · exact fetchHeader_turn hnext
      · exact fetchStart_turn hnext
    exact hturn.progress headerUpdate_keepsCursor hinv (.inl hparse)
  · rw [fetchBlock_extract hextract] at hnext
    exact (fetchSegment_turn hnext).progress segmentUpdate_keepsCursor hinv (.inr hextract)

/-- A whole block step of the parser ends: with the error entry, or past at least one byte of the input. -/
theorem parserBlockStep (hinv : Inv s) (hphase : Reading s) :
    ∃ t, wholeBlockStep s = .next t ∧ Inv t ∧ t.txn = .none ∧
      ((∃ d, t = raiseError d s) ∨
        (s.ipos.toNat < t.ipos.toNat ∧ t.inLen = s.inLen ∧ (Reading t ∨ t.phase = .check))) := by
  obtain ⟨v, hfirst⟩ := fetchBlock_isNext s
  have hreach : ParserReach s v := (fetchBlock_reading hinv hphase hfirst).1
  have hbudget : stepsLeft v ≤ stepBudget s := by
    rw [stepBudget]
    cases hreach with
    | inside p h => rw [h, stepsLeft]; show s.inLen.toNat - p.toNat + 1 ≤ _; omega
    | raised d h => rw [h]; exact Nat.zero_le _
    | committed htxn' => rw [stepsLeft, htxn']; exact Nat.zero_le _
  obtain ⟨t, hends, ⟨hinv', hreach'⟩, htxn'⟩ := finishBlockStep_ends (P := fun v => Inv v ∧ ParserReach s v)
    (work := stepsLeft) (fun v v' hv hopen hnext => by
      obtain ⟨hv, hreach⟩ := hv
      cases hreach with
      | inside p h =>
        obtain ⟨hnext', hless⟩ := fetchBlock_reading hv (show Reading v by rw [h]; exact hphase) hnext
        exact ⟨⟨hv.fetchBlock hnext, .trans h hnext'⟩, hless hopen⟩
      | raised d h => rw [h] at hopen; exact absurd rfl hopen
      | committed htxn' => exact absurd htxn' hopen) (stepBudget s) v ⟨hinv.fetchBlock hfirst, hreach⟩ hbudget
  refine ⟨t, by rw [wholeBlockStep, hfirst, hends], hinv', htxn', ?_⟩
  cases hreach' with
  | inside p h => rw [h] at htxn'; cases htxn'
  | raised d h => exact .inl ⟨d, h⟩
  | committed _ hlow hinLen hphase' => exact .inr ⟨hlow, hinLen, hphase'⟩

/-! ### An ENTROPY block step -/

/-- What is reached inside or after one ENTROPY step from `s`. -/
inductive EntropyReach (s v : State) : Prop where
  | inside (w : McuWork) (h : v = { s with txn := .mcu w })
  | raised (d : Detail) (h : v = raiseError d s)
  | committed (w : McuWork) (h : v = commitMcu w s)

/-- A component of a legal frame has at most 4 blocks in an MCU. -/
theorem FrameOk.blocks_le (hframe : FrameOk s) (i : Fin 3) :
    (if s.frame.nf = 1 then 1 else s.comp[i].h.toNat * s.comp[i].v.toNat) ≤ 4 := by
  have hmax : s.frame.hmax.toNat ≤ 2 := by rcases hframe.hmax with h | h <;> rw [h] <;> decide
  have hvmax : s.frame.vmax.toNat ≤ 2 := by rcases hframe.vmax with h | h <;> rw [h] <;> decide
  split
  next => decide
  next hcolour =>
    have hfactors := hframe.factors (hframe.count.resolve_left hcolour) i
    split at hfactors
    · rw [hfactors.1, hfactors.2]
      exact Nat.mul_le_mul hmax hvmax
    · rw [hfactors.1, hfactors.2]
      decide

/-- So an MCU has at most 12. -/
theorem FrameOk.mcuSlots_length (hframe : FrameOk s) : (mcuSlots s).length ≤ 12 := by
  rw [mcuSlots, List.length_flatMap]
  refine (List.sum_le_card_nsmul _ 4 ?_).trans ?_
  · simp only [List.mem_map, List.length_map, List.length_range]
    rintro _ ⟨i, -, rfl⟩
    exact hframe.blocks_le i
  · have hscan : (s.scan.toList.take s.ns.toNat).length ≤ 3 := by simp
    rw [List.length_map, smul_eq_mul]
    omega

theorem EntropyReach.step (hinv : Inv v) (hv : v = { s with txn := .mcu w }) (hphase : s.phase = .entropy)
    (hnext : runFetched (fetchBlock v) = .next t) : EntropyReach s t ∧ stepsLeft t < stepsLeft v := by
  have htxn : v.txn = .mcu w := by rw [hv]
  have hleft : stepsLeft v = symbolsLeft w + 1 := by rw [stepsLeft, htxn]
  rw [fetchBlock_entropy (by rw [hv]; exact hphase)] at hnext
  rw [hleft]
  cases htodo : w.todo with
  | nil =>
    rw [fetchEntropy_commits htxn htodo] at hnext; cases hnext
    exact ⟨.committed w (by rw [hv]; rfl), Nat.succ_pos _⟩
  | cons slot rest =>
    rw [fetchEntropy_symbol htxn htodo] at hnext
    cases fetchSymbol_result (hinv.mcu w htxn).2 hnext with
    | raised d h => exact ⟨.raised d (by rw [h, hv]; rfl), by rw [h]; exact Nat.succ_pos _⟩
    | goesOn w' _ hless h =>
      refine ⟨.inside w' (by rw [h, hv]), ?_⟩
      rw [h, stepsLeft]
      exact Nat.succ_lt_succ hless

/-- A whole ENTROPY step ends: with the error entry, or with one MCU committed. -/
theorem entropyBlockStep (hinv : Inv s) (htxn : s.txn = .none) (hphase : s.phase = .entropy) :
    ∃ t, wholeBlockStep s = .next t ∧ Inv t ∧ t.txn = .none ∧ ((∃ d, t = raiseError d s) ∨ ∃ w, t = commitMcu w s) := by
  have hfirst : runFetched (fetchBlock s) = .next (openMcu s) := by
    rw [fetchBlock_entropy hphase, fetchEntropy_opens htxn, runFetched]
  have hframe : FrameOk s := hinv.frame (hinv.scan (by rw [hphase]; decide)).seen
  have hbudget : stepsLeft (openMcu s) ≤ stepBudget s := by
    have hslots := hframe.mcuSlots_length
    show 64 * (mcuSlots s).length - 0 + 1 ≤ s.inLen.toNat + 4096
    omega
  obtain ⟨t, hends, ⟨hinv', hreach'⟩, htxn'⟩ := finishBlockStep_ends (P := fun v => Inv v ∧ EntropyReach s v)
    (work := stepsLeft) (fun v v' hv hopen hnext => by
      obtain ⟨hv, hreach⟩ := hv
      cases hreach with
      | inside w h =>
        obtain ⟨hreach', hless⟩ := EntropyReach.step hv h hphase hnext
        exact ⟨⟨hv.fetchBlock hnext, hreach'⟩, hless⟩
      | raised d h => rw [h] at hopen; exact absurd rfl hopen
      | committed w h => rw [h] at hopen; exact absurd rfl hopen) (stepBudget s) (openMcu s)
    ⟨hinv.openMcu hphase, .inside _ rfl⟩ hbudget
  refine ⟨t, by rw [wholeBlockStep, hfirst, hends], hinv', htxn', ?_⟩
  cases hreach' with
  | inside w h => rw [h] at htxn'; cases htxn'
  | raised d h => exact .inl ⟨d, h⟩
  | committed w h => exact .inr ⟨w, h⟩

/-! ### The block steps left of a decode (rule R310) -/

/-- How many of the phases DEQUANT, IDCT and COLOR come after this one. -/
def phasesAfter : Phase → Nat
  | .entropy => 3
  | .dequant => 2
  | .idct => 1
  | _ => 0

/-- From CHECK on, the block steps left at most: one for each MCU not done in each phase. -/
def blockStepsLeft (s : State) : Nat :=
  match s.phase with
  | .check => 1 + 4 * s.frame.mcuTotal.toNat
  | .entropy => s.frame.mcuTotal.toNat - s.mcuDone.toNat + 3 * s.frame.mcuTotal.toNat
  | .dequant | .idct | .color => s.frame.mcuTotal.toNat - s.work.toNat + phasesAfter s.phase * s.frame.mcuTotal.toNat
  | .idle | .parse | .extract => 0

theorem blockStepsLeft_check (h : s.phase = .check) : blockStepsLeft s = 1 + 4 * s.frame.mcuTotal.toNat := by
  rw [blockStepsLeft, h]

theorem blockStepsLeft_entropy (h : s.phase = .entropy) :
    blockStepsLeft s = s.frame.mcuTotal.toNat - s.mcuDone.toNat + 3 * s.frame.mcuTotal.toNat := by
  rw [blockStepsLeft, h]

theorem blockStepsLeft_working (h : 5 ≤ (phaseCode s.phase).toNat) :
    blockStepsLeft s = s.frame.mcuTotal.toNat - s.work.toNat + phasesAfter s.phase * s.frame.mcuTotal.toNat := by
  cases hphase : s.phase with
  | dequant | idct | color => rw [blockStepsLeft, hphase]
  | idle | parse | extract | check | entropy => rw [hphase] at h; exact absurd h (by decide)

/-- What one block step from CHECK on leads to: fewer block steps left, in a state where the decode has ended or goes on
with the same frame. -/
structure Advances (s t : State) : Prop where
  frame : t.frame = s.frame
  less  : blockStepsLeft t < blockStepsLeft s
  phase : Ended t ∨ 3 ≤ (phaseCode t.phase).toNat

theorem advances_raiseError (h : 0 < blockStepsLeft s) (d : Detail) : Advances s (raiseError d s) :=
  ⟨rfl, h, .inl ⟨rfl, .inr rfl⟩⟩

theorem checkStep_advances (hphase : s.phase = .check) (hok : checkStep s = .ok t) : Advances s t := by
  obtain ⟨rfl, -⟩ := checkStep_ok hok
  refine ⟨rfl, ?_, .inr (Nat.le_succ 3)⟩
  show s.frame.mcuTotal.toNat - 0 + 3 * s.frame.mcuTotal.toNat < blockStepsLeft s
  rw [blockStepsLeft_check hphase]
  omega

theorem commitMcu_advances (hinv : Inv s) (hphase : s.phase = .entropy) (w : McuWork) : Advances s (commitMcu w s) := by
  have hless := hinv.decoding hphase
  have hleft := blockStepsLeft_entropy hphase
  by_cases hlast : s.mcuDone.toNat + 1 = s.frame.mcuTotal.toNat
  · have hdequant : (commitMcu w s).phase = .dequant := if_pos hlast
    have hwork : (commitMcu w s).work = 0 := if_pos hlast
    refine ⟨rfl, ?_, .inr (by rw [hdequant]; decide)⟩
    rw [hleft, blockStepsLeft_working (by rw [hdequant]; decide), hdequant, hwork, commitMcu_frame]
    show s.frame.mcuTotal.toNat - 0 + 2 * s.frame.mcuTotal.toNat < _
    omega
  · have hentropy : (commitMcu w s).phase = .entropy := (if_neg hlast).trans hphase
    have hnext : (s.mcuDone + 1).toNat = s.mcuDone.toNat + 1 := by
      have := s.frame.mcuTotal.isLt
      rw [BitVec.toNat_add, show (1 : Word).toNat = 1 from rfl, Nat.mod_eq_of_lt (by omega)]
    refine ⟨rfl, ?_, .inr (by rw [hentropy]; decide)⟩
    rw [hleft, blockStepsLeft_entropy hentropy, commitMcu_frame, commitMcu_mcuDone, hnext]
    omega

section
variable (hinv : Inv s) (hphase : 5 ≤ (phaseCode s.phase).toNat)
include hinv hphase

/-- DEQUANT and IDCT finish one MCU, the last one with the next phase. -/
theorem workOrNextPhase_advances {ph : Phase} (hph : 5 ≤ (phaseCode ph).toNat)
    (hafter : phasesAfter s.phase = phasesAfter ph + 1) (coef : List CoefEntry) :
    Advances s { s with
      coef := coef
      work := if lastWork s then 0 else s.work + 1
      phase := if lastWork s then ph else s.phase } := by
  have hless := (hinv.working hphase).2
  split
  next =>
    refine ⟨rfl, ?_, .inr (by show 3 ≤ (phaseCode ph).toNat; omega)⟩
    rw [blockStepsLeft_working hphase, blockStepsLeft_working (by exact hph), hafter, Nat.succ_mul]
    show s.frame.mcuTotal.toNat - 0 + phasesAfter ph * s.frame.mcuTotal.toNat < _
    omega
  next hlast =>
    have hnext := (hinv.nextWork hphase (mt lastWork_iff.mpr hlast)).1
    refine ⟨rfl, ?_, .inr (by show 3 ≤ (phaseCode s.phase).toNat; omega)⟩
    rw [blockStepsLeft_working hphase, blockStepsLeft_working (by exact hphase)]
    show s.frame.mcuTotal.toNat - (s.work + 1).toNat + phasesAfter s.phase * s.frame.mcuTotal.toNat < _
    rw [hnext]
    omega

end

theorem colorStep_advances (hinv : Inv s) (hphase : s.phase = .color) : Advances s (colorStep s) := by
  have hlate : 5 ≤ (phaseCode s.phase).toNat := by rw [hphase]; decide
  have hless := (hinv.working hlate).2
  by_cases hlast : s.work.toNat + 1 = s.frame.mcuTotal.toNat
  · have hidle : (colorStep s).phase = .idle := if_pos hlast
    refine ⟨rfl, ?_, .inl ⟨hidle, .inl (if_pos hlast)⟩⟩
    rw [blockStepsLeft, hidle, blockStepsLeft_working hlate]
    show 0 < _
    omega
  · have hcolor : (colorStep s).phase = s.phase := if_neg hlast
    refine ⟨rfl, ?_, .inr (by rw [hcolor]; omega)⟩
    rw [blockStepsLeft_working hlate, blockStepsLeft_working (by rw [hcolor]; exact hlate), hcolor, colorStep_frame,
      colorStep_work, (hinv.nextWork hlate hlast).1]
    omega

/-- One block step from CHECK on. -/
theorem lateBlockStep (hinv : Inv s) (htxn : s.txn = .none) (hphase : 3 ≤ (phaseCode s.phase).toNat) :
    ∃ t, wholeBlockStep s = .next t ∧ Inv t ∧ t.txn = .none ∧ Advances s t := by
  have hsingle (t : State) (hnext : runFetched (fetchBlock s) = .next t) (htxn' : t.txn = .none) (hadvances : Advances s t) :
      ∃ t, wholeBlockStep s = .next t ∧ Inv t ∧ t.txn = .none ∧ Advances s t :=
    ⟨t, wholeBlockStep_closed hnext htxn', hinv.fetchBlock hnext, htxn', hadvances⟩
  cases hph : s.phase with
  | idle | parse | extract => rw [hph] at hphase; exact absurd hphase (by decide)
  | check =>
    have hleft : 0 < blockStepsLeft s := by rw [blockStepsLeft_check hph]; omega
    cases hcheck : checkStep s with
    | ok t =>
      obtain ⟨ht, -⟩ := checkStep_ok hcheck
      exact hsingle t (by rw [fetchBlock, hph]; simp only [moveOrRaise, hcheck, runFetched]) (by rw [ht]; exact htxn)
        (checkStep_advances hph hcheck)
    | error d =>
      exact hsingle (raiseError d s) (by rw [fetchBlock, hph]; simp only [moveOrRaise, hcheck, runFetched]) rfl
        (advances_raiseError hleft d)
  | entropy =>
    have hless := hinv.decoding hph
    have hleft : 0 < blockStepsLeft s := by rw [blockStepsLeft_entropy hph]; omega
    obtain ⟨t, hwhole, hinv', htxn', ⟨d, rfl⟩ | ⟨w, rfl⟩⟩ := entropyBlockStep hinv htxn hph
    · exact ⟨_, hwhole, hinv', htxn', advances_raiseError hleft d⟩
    · exact ⟨_, hwhole, hinv', htxn', commitMcu_advances hinv hph w⟩
  | dequant =>
    exact hsingle (dequantStep s) (by rw [fetchBlock, hph, runFetched]) htxn
      (workOrNextPhase_advances hinv (by rw [hph]; decide) (ph := .idct) (by decide) (by rw [hph]; rfl) _)
  | idct =>
    exact hsingle (idctStep s) (by rw [fetchBlock, hph, runFetched]) htxn
      (workOrNextPhase_advances hinv (by rw [hph]; decide) (ph := .color) (by decide) (by rw [hph]; rfl) _)
  | color =>
    exact hsingle (colorStep s) (by rw [fetchBlock, hph, runFetched]) htxn (colorStep_advances hinv hph)

/-! ### Whole decodes -/

theorem blockSteps_succ (h : wholeBlockStep s = .next t) (n : Nat) : blockSteps (n + 1) s = blockSteps n t := by
  rw [blockSteps, h]

/-- From CHECK on the decode ends within the block steps left. -/
theorem lateDecode_ends {s : State} (hinv : Inv s) (htxn : s.txn = .none) (hphase : 3 ≤ (phaseCode s.phase).toNat) :
    ∃ n t, blockSteps n s = .next t ∧ Ended t ∧ t.frame = s.frame ∧ n ≤ blockStepsLeft s := by
  obtain ⟨t, hwhole, hinv', htxn', hframe, hless, hended | hphase'⟩ := lateBlockStep hinv htxn hphase
  · exact ⟨1, t, blockSteps_succ hwhole 0, hended, hframe, by omega⟩
  · obtain ⟨n, r, hsteps, hended, hframe', hn⟩ := lateDecode_ends hinv' htxn' hphase'
    exact ⟨n + 1, r, (blockSteps_succ hwhole n).trans hsteps, hended, hframe'.trans hframe, by omega⟩
termination_by blockStepsLeft s

/-- While the parser reads, the decode ends within one block step for each byte left, one more, and four for each MCU. -/
theorem decode_ends {s : State} (hinv : Inv s) (hphase : Reading s) :
    ∃ n t, blockSteps n s = .next t ∧ Ended t ∧
      n ≤ s.inLen.toNat - s.ipos.toNat + 1 + 4 * t.frame.mcuTotal.toNat := by
  obtain ⟨t, hwhole, hinv', htxn', ⟨d, rfl⟩ | ⟨hlow, hinLen, hreading | hcheck⟩⟩ := parserBlockStep hinv hphase
  · exact ⟨1, _, blockSteps_succ hwhole 0, ⟨rfl, .inr rfl⟩, by omega⟩
  · have hconsumed := hinv'.consumed hreading.busy
    obtain ⟨n, r, hsteps, hended, hn⟩ := decode_ends hinv' hreading
    rw [hinLen] at hconsumed hn
    exact ⟨n + 1, r, (blockSteps_succ hwhole n).trans hsteps, hended, by omega⟩
  · have hconsumed := hinv'.consumed (busy_of_phase hcheck nofun)
    obtain ⟨n, r, hsteps, hended, hframe, hn⟩ := lateDecode_ends hinv' htxn' (by rw [hcheck]; decide)
    rw [blockStepsLeft_check hcheck, ← hframe] at hn
    rw [hinLen] at hconsumed
    exact ⟨n + 1, r, (blockSteps_succ hwhole n).trans hsteps, hended, by omega⟩
termination_by s.inLen.toNat - s.ipos.toNat
decreasing_by rw [hinLen] at hconsumed ⊢; omega

/-- Settles O58: at the start of a decode no byte has been read. -/
theorem decodeEndsWithinBound : Obligations.DecodeEndsWithinBound := by
  intro s hinv hphase _ hipos _ _
  obtain ⟨n, t, hsteps, ⟨hidle, hflag⟩, hn⟩ := decode_ends hinv (.inl hphase)
  rw [hipos] at hn
  exact ⟨n, t, hsteps, hidle, hflag, hn⟩

end Sys2Proof.Machine
